-- ==== Sys2Proof/Word.lean ====
section
/-!
DEFINITION. The word types of the part: a queue entry, a byte, a lane mask, and the field reader every layout uses.
-/
namespace Sys2Proof

/-- One queue entry, frame word or extension word (03 R52). -/
abbrev Word := BitVec 64

/-- One byte of a memory location (10 R268). -/
abbrev Byte := BitVec 8

/-- A mask of the 32 lanes of a warp, bit L for lane L (02 R28). -/
abbrev Mask := BitVec 32

/-- Field [lo + n - 1 : lo] of a number (00 R6). -/
def fieldOf (v lo n : Nat) : Nat := (v / 2 ^ lo) % 2 ^ n

end Sys2Proof
end

