-- ==== Sys2Proof/Syntax.lean ====
section
/-!
DEFINITION. The instructions and the part's own events, one constructor of `Instr` for each row of spec/opcode_table.json.
Rows 0 to 181 are instructions with an instruction word (05 R107); rows 182 to 281 are events and host operations, which have
no word (95_what_each_step_holds.md).
-/
namespace Sys2Proof

/-- The sixteen lane types, in the order of their TY code (04 R77). -/
inductive Ty where
  | b32 | b64 | s8 | s16 | s32 | s64 | n8 | n16 | n32 | n64 | f16 | bf16 | f32 | f64 | e4m3 | e5m2
  deriving DecidableEq, Repr

/-- Rounding modes, in the order of RM (04 R82). -/
inductive Rnd where
  | rn | rz | ru | rd
  deriving DecidableEq, Repr

/-- A source selector (05 R110): an age (`n` reads age n + 1), a near frame slot, constant zero, the extension word. -/
inductive Src where
  | age (n : BitVec 4) | slot (n : BitVec 3) | zero | imm
  deriving DecidableEq, Repr

/-- The three predicates of a lane that a field can name (05 R111). -/
inductive Pred where
  | p1 | p2 | p3
  deriving DecidableEq, Repr

/-- The guard PG (05 R111). -/
inductive Guard where
  | always | pos (p : Pred) | neg (p : Pred)
  deriving DecidableEq, Repr

/-- The fields every first word carries, with the extension word when X = 1 (05 R107, R108). A source field that the
instruction does not read holds selector 0 (05 R109). -/
structure Hdr where
  sa : Src
  sb : Src
  sc : Src
  la : BitVec 4
  guard : Guard
  ty : Ty
  ext : Option Word
  deriving DecidableEq, Repr

/-- The selectors of `sget` (06 R137). -/
inductive SysVal where
  | lane | warp | team | role | cx | cy | cz | gx | gy | gz | depth | nwarp | nteam | prio
  | core | part | quad | diepos | param | data | code | fpctl | fpx | fpxc | caps | clk | clks | ref
  deriving DecidableEq, Repr

/-- The formats `qnt` and `dqnt` name, codes 4 to 12 (04 R99). -/
inductive BlkFmt where
  | se7 | se4 | se2 | mxe4m3 | mxe5m2 | mxe3m2 | mxe2m3 | mxfp4 | mxint8
  deriving DecidableEq, Repr

/-- The modes of `shfl` (06 R156). -/
inductive ShflMode where
  | pick | back | ahead | mirror | turn
  deriving DecidableEq, Repr

/-- The operations of `redux` and `scan` (06 R158). -/
inductive RedOp where
  | add | min | max | and | or | xor
  deriving DecidableEq, Repr

/-- The modes of `lanemask` (06 R157). -/
inductive MaskMode where
  | split | on | self | under | upto | over | from
  deriving DecidableEq, Repr

/-- Comparison conditions 0 to 5 (06 R159, 07 R192). -/
inductive Cond where
  | eq | ne | lt | le | gt | ge
  deriving DecidableEq, Repr

/-- Comparison conditions of `fcmp` (06 R159). -/
inductive FCond where
  | eq | ne | lt | le | gt | ge | ord | uno
  deriving DecidableEq, Repr

/-- How a comparison is combined into its predicate (06 R159). -/
inductive Bop where
  | set | and | or | xor
  deriving DecidableEq, Repr

/-- The operations of `plog` (06 R159). -/
inductive PlogOp where
  | and | or | xor | andn | not | mov
  deriving DecidableEq, Repr

/-- The address spaces SP 0 to 4 (07 R172). -/
inductive Space where
  | generic | global | own | cluster | priv
  deriving DecidableEq, Repr

/-- The scopes (07 R171, 10 R271). -/
inductive Scope where
  | team | cluster | device | system
  deriving DecidableEq, Repr

/-- The ordering attribute ORD (07 R171). -/
inductive Order where
  | plain | acq | rel | ar
  deriving DecidableEq, Repr

/-- The cache hint CH (07 R171); it never changes a value (07 R176). -/
inductive Hint where
  | none | nc | lu
  deriving DecidableEq, Repr

/-- The fields of a memory instruction's [24:0] (07 R171). -/
structure MemF where
  sp : Space
  scope : Scope
  ord : Order
  ch : Hint
  off : BitVec 12
  deriving DecidableEq, Repr

/-- The integer atomic operations, FN 0 to 8 (07 R188); float `red` uses add, min and max (07 R189). -/
inductive AtomOp where
  | add | and | or | xor | min | max | exch | inc | dec
  deriving DecidableEq, Repr

/-- The operations of `fatom`, FN 0 to 2 (07 R187). -/
inductive FatomOp where
  | add | min | max
  deriving DecidableEq, Repr

/-- The control registers (08 R235). -/
inductive Crn where
  | hctx | hcause | hwsel | fpctl | fpx | brken | barto | grace | lockcap | asid | wftctl | wftovf
  | accown (i : BitVec 7) | trec (i : BitVec 6)
  deriving DecidableEq, Repr

/-- A thread of instructions: a user warp, a team's guide context, or the warp of a handler slot (00 R3, 15 R383). -/
inductive Who where
  | warp (ctxh w : Nat) | guide (ctxh : Nat) | handler (core part : Nat)
  deriving DecidableEq, Repr

/-- The cache levels that evict (09 R257). -/
inductive CacheLevel where
  | l1 | l2 | home
  deriving DecidableEq, Repr

/-- How a retraining of a link plane ends (20 R488). -/
inductive Retrain where
  | full | half | failed
  deriving DecidableEq, Repr

/-- An atomic of a Ronou peer: those of `atom`, `cas` and `fatom` (07 R187). -/
inductive PeerAtom where
  | int (op : AtomOp) | swap | float (op : FatomOp)
  deriving DecidableEq, Repr

/-- An access that arrives from a Ronou peer (12 R346): a read of bytes, a write of bytes, an atomic on a value of a type, with its operands, or a
query of the version of a sealed range (09 R263). -/
inductive PeerAccess where
  | read (pa n : Nat) | write (pa : Nat) (bytes : List Byte) (rel : Bool) | atomic (op : PeerAtom) (ty : Ty) (pa : Nat) (a b : Word) (ord : Order)
  | version (pa : Nat)
  deriving DecidableEq, Repr

/-- Which kind of request lost its reply (17 R426). -/
inductive LostReply where
  | load (again : Bool) | fill (lvl : CacheLevel) (owner line : Nat) | atomic | other
  deriving DecidableEq, Repr

/-- Where a soft error strikes (17 R432): the rows of R432's table; `cache` is a granule of a line that a cache holds, `lineTag` a
line's tag or dirty mask there, `clean` an instruction cache
(0) or a translation cache (1) of a die, and `bank` the active or the standby firmware bank (20 R485, R486). -/
inductive EccPlace where
  | queue (who : Who) (lane age : Nat)
  | frame (who : Who) (entry lane : Nat)
  | granule (key : Nat)
  | cache (lvl : CacheLevel) (owner key : Nat)
  | tile (core slot idx : Nat)
  | sideRegs (core slot row : Nat)
  | clean (what die : Nat)
  | warpState (ctxh w : Nat)
  | guideState (ctxh : Nat)
  | teamState (ctxh : Nat)
  | accown (core slot : Nat)
  | lineTag (lvl : CacheLevel) (owner line : Nat) (known : Bool)
  | directory (line : Nat)
  | monitor (id : Nat)
  | edge (die idx : Nat)
  | holder (mdie idx : Nat)
  | pageEntry (asid pa : Nat)
  | bank (active : Bool)
  | shared (die : Nat)
  deriving DecidableEq, Repr

/-- One instruction or event: one constructor for each row of spec/opcode_table.json, in the table's order. -/
inductive Instr where
  -- queue, frame and special (06 R134)
  | nop (h : Hdr)
  | dup (h : Hdr)
  | save (h : Hdr) (slot : BitVec 6)
  | fget (h : Hdr) (slot : BitVec 6)
  | fenter (h : Hdr) (n : BitVec 7)
  | fleave (h : Hdr)
  | spill (h : Hdr) (n : BitVec 7)
  | fill (h : Hdr) (n : BitVec 7)
  | sget (h : Hdr) (v : SysVal)
  -- integer and bit (06 R139)
  | add (h : Hdr) (sat : Bool)
  | sub (h : Hdr) (sat : Bool)
  | addc (h : Hdr) (pd : Option Pred)
  | subb (h : Hdr) (pd : Option Pred)
  | mul (h : Hdr)
  | mulhi (h : Hdr)
  | mulw (h : Hdr)
  | mad (h : Hdr)
  | div (h : Hdr)
  | rem (h : Hdr)
  | divrem (h : Hdr)
  | neg (h : Hdr) (sat : Bool)
  | abs (h : Hdr) (sat : Bool)
  | adiff (h : Hdr)
  | min (h : Hdr)
  | max (h : Hdr)
  | clamp (h : Hdr)
  | and (h : Hdr)
  | or (h : Hdr)
  | xor (h : Hdr)
  | not (h : Hdr)
  | andn (h : Hdr)
  | shl (h : Hdr) (n : Option (BitVec 6))
  | shr (h : Hdr) (n : Option (BitVec 6))
  | sra (h : Hdr) (n : Option (BitVec 6))
  | rotl (h : Hdr) (n : Option (BitVec 6))
  | rotr (h : Hdr) (n : Option (BitVec 6))
  | bfx (h : Hdr) (pl : Option (BitVec 6 × BitVec 7))
  | bfi (h : Hdr) (pl : Option (BitVec 6 × BitVec 7))
  | popc (h : Hdr)
  | clz (h : Hdr)
  | ctz (h : Hdr)
  | brev (h : Hdr)
  | sel (h : Hdr) (ps : Option Pred)
  | lea (h : Hdr) (tys : Ty) (sh : BitVec 3)
  | ext (h : Hdr) (n : Option (BitVec 7))
  -- floating point (06 R145, R148)
  | fadd (h : Hdr) (rm : Rnd)
  | fsub (h : Hdr) (rm : Rnd)
  | fmul (h : Hdr) (rm : Rnd)
  | ffma (h : Hdr) (rm : Rnd)
  | fmin (h : Hdr)
  | fmax (h : Hdr)
  | fneg (h : Hdr)
  | fabs (h : Hdr)
  | fdiv (h : Hdr) (rm : Rnd)
  | fsqrt (h : Hdr) (rm : Rnd)
  | frcp (h : Hdr)
  | frsq (h : Hdr)
  | fex2 (h : Hdr)
  | flg2 (h : Hdr)
  | fsin (h : Hdr)
  | fcos (h : Hdr)
  | ftanh (h : Hdr)
  | frnd (h : Hdr) (rm : Rnd)
  | fclass (h : Hdr)
  | fscale (h : Hdr) (rm : Rnd)
  -- conversion (06 R149 to R153)
  | cvt (h : Hdr) (rm : Rnd) (sat : Bool) (tys : Ty)
  | qnt (h : Hdr) (f : BlkFmt)
  | qntPerm (h : Hdr) (f : BlkFmt)
  | dqnt (h : Hdr) (f : BlkFmt)
  | dqntScaled (h : Hdr) (f : BlkFmt)
  | pack (h : Hdr) (rm : Rnd) (sat : Bool) (tys : Ty) (n : BitVec 6)
  | unpack (h : Hdr) (rm : Rnd) (sat : Bool) (tys : Ty) (n : BitVec 6)
  -- lane operations (06 R155)
  | shfl (h : Hdr) (mode : ShflMode) (wc : BitVec 3)
  | voteAny (h : Hdr) (ps : Option Pred) (ng : Bool) (pd : Pred)
  | voteAll (h : Hdr) (ps : Option Pred) (ng : Bool) (pd : Pred)
  | voteUni (h : Hdr) (ps : Option Pred) (ng : Bool) (pd : Pred)
  | voteBallot (h : Hdr) (ps : Option Pred) (ng : Bool)
  | elect (h : Hdr) (pd : Pred)
  | redux (h : Hdr) (op : RedOp)
  | scan (h : Hdr) (op : RedOp) (excl : Bool)
  | bcast (h : Hdr) (ln : BitVec 5)
  | bcastFirst (h : Hdr)
  | lanemask (h : Hdr) (mode : MaskMode)
  -- predicates (06 R159)
  | cmp (h : Hdr) (cc : Cond) (bop : Bop) (pd : Pred)
  | fcmp (h : Hdr) (cc : FCond) (bop : Bop) (pd : Pred)
  | plog (h : Hdr) (op : PlogOp) (pa pb : Option Pred) (pd : Pred)
  | pget (h : Hdr)
  | pput (h : Hdr)
  -- control flow (07 R161)
  | bra (h : Hdr) (off : BitVec 25)
  | brx (h : Hdr)
  | call (h : Hdr) (n k : BitVec 5) (off : BitVec 25)
  | calli (h : Hdr) (n k : BitVec 5) (m : BitVec 4)
  | ret (h : Hdr) (m : BitVec 4)
  | fork (h : Hdr) (k : BitVec 5) (perm : BitVec 10) (off : BitVec 25)
  | rjn (h : Hdr)
  | exit (h : Hdr)
  | trap (h : Hdr) (code : BitVec 8)
  | brk (h : Hdr) (code : BitVec 8)
  | yield (h : Hdr) (n : BitVec 8)
  | loop (h : Hdr) (off : BitVec 25)
  -- memory and scratchpad (07 R174 to R186)
  | ld (h : Hdr) (m : MemF)
  | ldPair (h : Hdr) (m : MemF)
  | st (h : Hdr) (m : MemF)
  | stPair (h : Hdr) (m : MemF)
  | prefL1 (h : Hdr) (m : MemF)
  | prefL2 (h : Hdr) (m : MemF)
  | sptag (h : Hdr)
  | spsetTag (h : Hdr)
  | spsetUntag (h : Hdr)
  | spmove (h : Hdr)
  | spshare (h : Hdr)
  | spdrop (h : Hdr)
  | seal (h : Hdr)
  | ifence (h : Hdr)
  | stblk (h : Hdr) (sp : Space) (f : BlkFmt)
  | ldblk (h : Hdr) (sp : Space) (f : BlkFmt)
  -- atomics (07 R187)
  | atom (h : Hdr) (op : AtomOp) (m : MemF)
  | cas (h : Hdr) (m : MemF)
  | red (h : Hdr) (op : AtomOp) (m : MemF)
  | fatom (h : Hdr) (op : FatomOp) (m : MemF)
  -- synchronisation (07 R192)
  | fence (h : Hdr) (sc : Scope)
  | fenceAcq (h : Hdr) (sc : Scope)
  | fenceRel (h : Hdr) (sc : Scope)
  | barMeet (h : Hdr) (bid : BitVec 4) (cnt : BitVec 8)
  | barPost (h : Hdr) (bid : BitVec 4) (cnt : BitVec 8)
  | barAwait (h : Hdr) (bid : BitVec 4)
  | cbarMeet (h : Hdr)
  | cbarPost (h : Hdr)
  | cbarAwait (h : Hdr)
  | mwait (h : Hdr) (sp : Space) (sc : Scope) (cc : Cond)
  | acq (h : Hdr) (sp : Space) (sc : Scope)
  | acqTry (h : Hdr) (sp : Space) (sc : Scope)
  | rel (h : Hdr) (sp : Space) (sc : Scope)
  | wregHold (h : Hdr) (sp : Space)
  | wregWait (h : Hdr) (sp : Space)
  | wdropHold (h : Hdr) (sp : Space)
  | wdropWait (h : Hdr) (sp : Space)
  -- matrix and accumulators (08 R211)
  | mma (h : Hdr) (tile : BitVec 7) (aseg : BitVec 10) (bfb : BitVec 6)
  | mmaFree (h : Hdr) (tile : BitVec 7) (aseg : BitVec 10) (bfb : BitVec 6)
  | mmas (h : Hdr) (tile : BitVec 7) (aseg : BitVec 10) (frea freb : Bool)
  | mmsm (h : Hdr) (stile otile : BitVec 7) (pseg : BitVec 10) (half : Bool)
  | opfence (h : Hdr)
  | mmwait (h : Hdr) (n : BitVec 4)
  | acczero (h : Hdr) (tile : BitVec 7)
  | accrd (h : Hdr) (tile : BitVec 7)
  | accrdMax (h : Hdr) (tile : BitVec 7)
  | accrdSum (h : Hdr) (tile : BitVec 7)
  | accwr (h : Hdr) (tile : BitVec 7)
  | accwrMax (h : Hdr) (tile : BitVec 7)
  | accwrSum (h : Hdr) (tile : BitVec 7)
  | accld (h : Hdr) (tile : BitVec 7) (sp : Space)
  | accst (h : Hdr) (tile : BitVec 7) (sp : Space)
  -- engines, tags, guards, child launch (08 R223)
  | tcopyG2s (h : Hdr) (tsr seg : BitVec 10)
  | tcopyS2g (h : Hdr) (tsr seg : BitVec 10) (free : Bool)
  | tcopyS2c (h : Hdr) (tsr seg : BitVec 10) (free : Bool)
  | tgather (h : Hdr) (tsr seg : BitVec 10)
  | twaitC (h : Hdr) (n : BitVec 6)
  | twaitM (h : Hdr) (n : BitVec 6)
  | tfree (h : Hdr)
  | tset (h : Hdr) (v c : Bool)
  | drainSp (h : Hdr)
  | drainAcc (h : Hdr)
  | drainG (h : Hdr)
  | drainRem (h : Hdr)
  | gset (h : Hdr) (g : BitVec 4)
  | gclr (h : Hdr) (g : BitVec 4)
  | glaunch (h : Hdr)
  -- system (08 R234)
  | sysrd (h : Hdr) (c : Crn)
  | syswr (h : Hdr) (c : Crn)
  | tret (h : Hdr)
  | tretAck (h : Hdr)
  | tretKill (h : Hdr)
  | accspill (h : Hdr)
  | accfill (h : Hdr)
  | accfillZero (h : Hdr)
  | wftrdEdge (h : Hdr)
  | wftrdObj (h : Hdr)
  | tlbinvPage (h : Hdr)
  | tlbinvAsid (h : Hdr)
  | tlbinvAll (h : Hdr)
  | halt (h : Hdr)
  | resume (h : Hdr)
  -- the part's own events
  | longLatencyValueArrival (who : Who) (id : Nat) (lanes : Mask)
  | handlerDispatch (ctxh : Nat)
  | handlerTimeout (core part : Nat)
  | barrierTimeout (ctxh w sp : Nat)
  | remoteLoadBlocking (ctxh w sp : Nat)
  | yieldExpiry (who : Who) (sp : Nat)
  | starvationPromotion (ctxh w sp : Nat)
  | overdue (ctxh w sp : Nat)
  | monitorWake (who : Who) (sp : Nat)
  | staleNotice (die line : Nat)
  | cacheEviction (lvl : CacheLevel) (owner line : Nat)
  | zeroRequest (asid va : Nat)
  | engineCommandStart (core id : Nat)
  | engineCommandComplete (core id : Nat) (err : Nat)
  | teamExitSignal (ctxh : Nat)
  | childGridComplete (grid : Nat)
  | queueWidxWake (asid qid : Nat)
  | widxPoll (asid qid : Nat)
  | packetNop (asid qid : Nat)
  | packetLaunch (asid qid : Nat)
  | packetReplay (asid qid : Nat)
  | replayNextLaunch (asid qid : Nat)
  | packetWaitValue (asid qid : Nat)
  | waitValuePoll (asid qid : Nat)
  | packetWriteValue (asid qid : Nat)
  | packetCopy (asid qid : Nat)
  | packetSeal (asid qid : Nat)
  | packetFence (asid qid : Nat)
  | packetCompletion (asid qid unit : Nat)
  | clusterClaim (die cluster : Nat)
  | clusterClaimAge (cluster : Nat)
  | quantumEnd
  | priorityEviction (cluster : Nat)
  | graceExpiry (ctxh : Nat)
  | lockcapExpiry (ctxh : Nat)
  | teamSave (ctxh : Nat)
  | teamWake (ctxh : Nat)
  | clusterResume (die cluster : Nat)
  | nocore (cluster : Nat)
  -- host operations
  | hostBar2Read (fn off n : Nat)
  | hostBar2Write (fn off : Nat) (bytes : List Byte) (relaxed poisoned : Bool)
  | registerWrite (fn off : Nat) (v : Word)
  | readClearCounter (fn off : Nat)
  | devctlReset
  | devctlGo
  | bootWindowWrite (off : Nat) (bytes : List Byte)
  | powerUp (ok : Bool)
  | flrPf
  | flrVf (vf : Nat)
  | queueCreate (fn seq : Nat)
  | queueDestroy (fn seq : Nat)
  | runlistSet (fn seq : Nat)
  | asidBind (fn seq : Nat)
  | asidFree (fn seq : Nat)
  | keymapSet (fn seq : Nat)
  | streamSet (fn seq : Nat)
  | ruleSet (fn seq : Nat)
  | txringSet (fn seq : Nat)
  | fwUpdate (fn seq : Nat)
  | evict (fn seq : Nat)
  | fabricSet (fn seq : Nat)
  | nocmd (fn seq opc : Nat)
  | firmwareBankSwitch (ok : Bool)
  | fwFallback
  | watchdog
  | spdmGetVersion
  | spdmGetCapabilities
  | spdmNegotiateAlgorithms
  | spdmGetDigests
  | spdmGetCertificate (slot : Nat)
  | spdmChallenge (slot : Nat) (nonce : List Byte)
  | spdmGetMeasurements (op : Nat) (nonce : List Byte)
  -- physical events
  | frequencyStep (die mhz : Nat)
  | relockEnd (die : Nat)
  | powerLimit (tenths : Nat)
  | dieHot (die : Nat)
  | supplyOutOfRange
  | thermalTrip (die : Nat)
  | supplyLoss
  | flitCrcError (link plane : Nat)
  | linkRetrainEnd (link plane : Nat) (how : Retrain)
  | ronouPortDown (port : Nat)
  | ronouPortDisable (port : Nat)
  | ronouPortRetrain (port : Nat) (how : Retrain) (nbr : Nat)
  | ronouPeerAccess (port peer : Nat) (a : PeerAccess)
  | remoteAccessTimeout (who : Who) (id : Nat) (lanes : Mask)
  | replyLost (who : Who) (id : Nat) (lanes : Mask) (what : LostReply)
  | hostLinkDown
  | hostLinkError
  | ethernetFrameReceive (port : Nat) (frame : List Byte) (bad full : Bool)
  | ethernetFrameTransmit (port ring : Nat)
  | ethernetLinkChange (port : Nat) (up lock : Bool)
  | phcsecRead (port : Nat)
  | phcstep (port : Nat) (v : Word)
  | eccError (place : EccPlace) (corrected : Bool)
  | memoryScrub (mdie line : Nat) (corrected : Bool) (bad : BitVec 8)
  | dieCooled (die : Nat)
  | supplyInRange
  | hostLinkUp
  | sriovVfEnable (n : Nat)
  deriving DecidableEq, Repr

end Sys2Proof
end

