-- ==== Sys2Proof/WellFormed.lean ====
section
/-!
DEFINITION. Which instructions the spec lets a program write: the operand limits of the entries of chapters 05 to 08, as checks
on `Instr`. A well-formed instruction has an encoding; an ill-formed one has none (05 R118, R126).
-/
namespace Sys2Proof

/-- Width in bits of a lane type (04 R77). -/
def Ty.width : Ty → Nat
  | .b32 => 32 | .b64 => 64 | .s8 => 8 | .s16 => 16 | .s32 => 32 | .s64 => 64
  | .n8 => 8 | .n16 => 16 | .n32 => 32 | .n64 => 64
  | .f16 => 16 | .bf16 => 16 | .f32 => 32 | .f64 => 64 | .e4m3 => 8 | .e5m2 => 8

/-- The signed integer types (04 R77). -/
def Ty.signed : Ty → Bool
  | .s8 | .s16 | .s32 | .s64 => true
  | _ => false

/-- The floating-point types, storage types included (04 R88 "float"). -/
def Ty.isFloat : Ty → Bool
  | .f16 | .bf16 | .f32 | .f64 | .e4m3 | .e5m2 => true
  | _ => false

namespace Wf

/-- TY lists of the entries (06 R139, R145, R148, R155, R158, 07 R174, R187). -/
def tAll : List Ty := [.b32, .b64, .s8, .s16, .s32, .s64, .n8, .n16, .n32, .n64]
def tInt : List Ty := [.s8, .s16, .s32, .s64, .n8, .n16, .n32, .n64]
def tSig : List Ty := [.s8, .s16, .s32, .s64]
def tBits : List Ty := [.b32, .b64]
def tWide : List Ty := [.b32, .b64, .s32, .s64, .n32, .n64]
def tMul : List Ty := [.s32, .s64, .n32, .n64]
def tCount : List Ty := [.n32, .n64]
def tFloat : List Ty := [.f16, .bf16, .f32, .f64]
def tTrans : List Ty := [.f16, .bf16, .f32]
def tHome : List Ty := [.bf16, .f32, .f64]
def tAny : List Ty := tAll ++ [.f16, .bf16, .f32, .f64, .e4m3, .e5m2]
/-- TY zero, where an entry uses no type (05 R107). -/
def tNone : List Ty := [.b32]

/-- How an entry uses the extension word (05 R108). -/
inductive XUse where
  | none | imm | ctl | ctlAlways
  deriving DecidableEq, Repr

/-- The unread form of a source field: selector 0 (05 R109). -/
def unread (x : Src) : Bool := x == .age 0

/-- A read source field: any selector, and selector 25 only where it is an immediate with an extension word (05 R110, R118). -/
def readable (u : XUse) (e : Option Word) (x : Src) : Bool :=
  match x with
  | .imm => u == .imm && e.isSome
  | _ => true

/-- The engine control word's reserved fields, and SEG2 outside `tgather` (08 R208). -/
def ctlOk (gather : Bool) (w : Word) : Bool :=
  fieldOf w.toNat 26 38 == 0 && fieldOf w.toNat 7 9 == 0 && (gather || fieldOf w.toNat 16 10 == 0)

/-- The extension word's presence. -/
def extOk (u : XUse) (e : Option Word) : Bool :=
  match u, e with
  | .none, none => true
  | .none, some _ => false
  | .imm, _ => true
  | .ctl, none => true
  | .ctl, some w => ctlOk false w
  | .ctlAlways, none => false
  | .ctlAlways, some w => ctlOk true w

/-- The checks every first word shares: `n` sources are read, in the order SA, SB, SC. -/
def hdr (h : Hdr) (n : Nat) (tys : List Ty) (ll pg0 : Bool) (u : XUse) : Bool :=
  (if 1 ≤ n then readable u h.ext h.sa else unread h.sa) &&
  (if 2 ≤ n then readable u h.ext h.sb else unread h.sb) &&
  (if 3 ≤ n then readable u h.ext h.sc else unread h.sc) &&
  tys.contains h.ty && (ll || h.la == 0) && (!pg0 || h.guard == .always) && extOk u h.ext

/-- Short-latency, any guard, immediate accepted. -/
def alu (h : Hdr) (n : Nat) (tys : List Ty) : Bool := hdr h n tys false false .imm
/-- Long-latency, any guard, immediate accepted (05 R119). -/
def long (h : Hdr) (n : Nat) (tys : List Ty) : Bool := hdr h n tys true false .imm
/-- No source read, no extension word. -/
def bare (h : Hdr) (tys : List Ty) : Bool := hdr h 0 tys false false .none
/-- No source read, PG 0 only (07 R161, R192). -/
def bare0 (h : Hdr) : Bool := hdr h 0 tNone false true .none

/-- Some read source field holds selector 25. -/
def usesImm (h : Hdr) : Bool := h.sa == .imm || h.sb == .imm || h.sc == .imm

/-- OFF is zero when the extension word is the offset (05 R108, 07 R173). -/
def offOk (h : Hdr) (m : MemF) : Bool := h.ext == none || usesImm h || m.off == 0

/-- `.sat` is named by the row of R88 from `src` to `dst` (04 R88). -/
def satRow (src dst : Ty) : Bool :=
  if src.isFloat then dst == .e4m3 || dst == .e5m2
  else !dst.isFloat && decide (dst.width < src.width)

/-- RM is used by the conversion (06 R149). -/
def rmRow (src dst : Ty) : Bool := dst.isFloat || src.isFloat

def cvtOk (src dst : Ty) (rm : Rnd) (sat : Bool) : Bool :=
  (!sat || satRow src dst) && (rm == .rn || rmRow src dst)

/-- The narrow type of `pack` and `unpack` and its element position (06 R150). -/
def narrowOk (t : Ty) (n : BitVec 6) : Bool := t.width != 64 && decide (n.toNat < 64 / t.width)

/-- The types an operation of `redux` and `scan` takes (06 R158). -/
def redTys : RedOp → List Ty
  | .add | .min | .max => [.s32, .s64, .n32, .n64, .f32]
  | .and | .or | .xor => tBits

/-- The types an integer atomic operation takes (07 R188). -/
def atomTys : AtomOp → List Ty
  | .add | .exch => tWide
  | .and | .or | .xor => tBits
  | .min | .max => tMul
  | .inc | .dec => tCount

/-- The types `red` adds for its float forms (07 R189). -/
def redFloat : AtomOp → List Ty
  | .add | .min | .max => tHome
  | _ => []

def scopeLock : Scope → Bool
  | .team => false
  | _ => true

def lockSp : Space → Bool
  | .generic | .global => true
  | _ => false

def mwaitSp : Space → Bool
  | .generic | .global | .own => true
  | _ => false

def engSp : Space → Bool
  | .global | .own => true
  | _ => false

/-- A plain access names no scope (07 R174). -/
def plainScope (m : MemF) : Bool := m.ord != .plain || m.scope == .team

def seBlock : BlkFmt → Bool
  | .se7 | .se4 | .se2 => true
  | _ => false

/-- `tcopy` and `tgather` name an age through SB (08 R223). -/
def ageSel : Src → Bool
  | .age _ => true
  | _ => false

/-- Engine command header with `n` sources (08 R208). -/
def eng (h : Hdr) (n : Nat) (tys : List Ty) : Bool := hdr h n tys false false .ctl

end Wf

open Wf in
/-- The instruction is one the spec defines: its operands lie within the limits of its entry. Events are well-formed when they
name a part that exists. -/
def Instr.wf : Instr → Bool
  | .nop h => bare h tNone
  | .dup h => alu h 1 tBits
  | .save h _ => alu h 1 tNone
  | .fget h _ => bare h tNone
  | .fenter h n => bare h tNone && decide (n.toNat ≤ 64)
  | .fleave h => bare h tNone
  | .spill h n | .fill h n => bare h tNone && decide (1 ≤ n.toNat) && decide (n.toNat ≤ 64)
  | .sget h v =>
      match v with
      | .caps => alu h 1 tNone
      | .clk | .clks | .ref => hdr h 0 tNone true false .imm
      | _ => alu h 0 tNone
  | .add h sat | .sub h sat => alu h 2 tAll && (!sat || tInt.contains h.ty)
  | .addc h _ | .subb h _ => alu h 3 tWide
  | .mul h => alu h 2 tAll
  | .mulhi h | .mulw h => alu h 2 tMul
  | .mad h => alu h 3 tAll
  | .div h | .rem h | .divrem h => long h 2 tInt
  | .neg h sat => alu h 1 tInt && (!sat || tSig.contains h.ty)
  | .abs h _ => alu h 1 tSig
  | .adiff h | .min h | .max h => alu h 2 tInt
  | .clamp h => alu h 3 tInt
  | .and h | .or h | .xor h | .andn h => alu h 2 tBits
  | .not h | .popc h | .clz h | .ctz h | .brev h => alu h 1 tBits
  | .shl h n | .shr h n | .sra h n | .rotl h n | .rotr h n => alu h (if n.isSome then 1 else 2) tWide
  | .bfx h pl => alu h (if pl.isSome then 1 else 3) tWide && (pl.all fun p => decide (p.2.toNat ≤ 64))
  | .bfi h pl => alu h (if pl.isSome then 2 else 3) tBits && (pl.all fun p => decide (p.2.toNat ≤ 64))
  | .sel h _ => alu h 2 tBits
  | .lea h tys _ => alu h 2 [.b64] && [Ty.b64, .s32, .n32].contains tys
  | .ext h n => alu h (if n.isSome then 2 else 3) tBits
  | .fadd h _ | .fsub h _ | .fmul h _ => alu h 2 tFloat
  | .ffma h _ => alu h 3 tFloat
  | .fmin h | .fmax h => alu h 2 tFloat
  | .fneg h | .fabs h | .fclass h => alu h 1 tFloat
  | .fdiv h _ => long h 2 tFloat
  | .fsqrt h _ => long h 1 tFloat
  | .frcp h | .frsq h | .fex2 h | .flg2 h | .fsin h | .fcos h | .ftanh h => long h 1 tTrans
  | .frnd h _ => alu h 1 tFloat
  | .fscale h _ => alu h 2 tFloat
  | .cvt h rm sat tys => alu h 1 tAny && cvtOk tys h.ty rm sat
  | .qnt h _ => alu h 2 [.b64]
  | .qntPerm h _ => alu h 3 [.b64]
  | .dqnt h _ => alu h 1 [.f32]
  | .dqntScaled h _ => alu h 2 [.f32]
  | .pack h rm sat tys n => alu h 2 tAny && narrowOk h.ty n && cvtOk tys h.ty rm sat
  | .unpack h rm sat tys n => alu h 1 tAny && narrowOk tys n && cvtOk tys h.ty rm sat
  | .shfl h _ wc => long h 2 tBits && decide (wc.toNat ≤ 5)
  | .voteAny h _ _ _ | .voteAll h _ _ _ | .voteUni h _ _ _ | .voteBallot h _ _ => bare h tNone
  | .elect h _ => bare h tNone
  | .redux h op | .scan h op _ => long h 1 (redTys op)
  | .bcast h _ | .bcastFirst h => alu h 1 tBits
  | .lanemask h _ => bare h tNone
  | .cmp h _ _ _ => alu h 2 tAll
  | .fcmp h _ _ _ => alu h 2 tFloat
  | .plog h op _ pb _ => bare h tNone && (pb == none || (op != .not && op != .mov))
  | .pget h => bare h tNone
  | .pput h => alu h 1 tNone
  | .bra h _ => bare h tNone
  | .brx h => hdr h 1 [.b64] false true .imm
  | .call h n k _ => bare0 h && decide (n.toNat ≤ 16) && decide (k.toNat ≤ 16)
  | .calli h n k m => hdr h 1 tNone false true .imm && decide (n.toNat ≤ 16) && decide (k.toNat ≤ 16) && decide (m.toNat ≤ 8)
  | .ret h m => bare0 h && decide (m.toNat ≤ 8)
  | .fork h k _ _ => bare0 h && decide (k.toNat ≤ 8)
  | .rjn h => bare0 h
  | .exit h => bare h tNone
  | .trap h _ | .brk h _ => bare h tNone
  | .yield h _ => bare0 h
  | .loop h _ => alu h 1 tCount
  | .ld h m => long h 1 tAny && (m.ord == .plain || m.ord == .acq) && plainScope m && offOk h m
  | .ldPair h m => long h 1 [.b64] && (m.ord == .plain || m.ord == .acq) && plainScope m && offOk h m
  | .st h m => alu h 2 tAny && (m.ord == .plain || m.ord == .rel) && plainScope m && offOk h m
  | .stPair h m => alu h 3 [.b64] && (m.ord == .plain || m.ord == .rel) && plainScope m && offOk h m
  | .prefL1 h m | .prefL2 h m => alu h 1 tNone && m.ord == .plain && m.ch == .none && plainScope m && offOk h m
  | .sptag h => long h 1 [.b64]
  | .spsetTag h => alu h 2 tNone
  | .spsetUntag h => alu h 1 tNone
  | .spmove h | .spshare h => eng h 3 tNone
  | .spdrop h => alu h 1 tNone
  | .seal h => alu h 3 tNone
  | .ifence h => bare0 h
  | .stblk h _ f => alu h (if seBlock f then 2 else 3) [.b64]
  | .ldblk h _ f => long h (if seBlock f then 1 else 2) [.b64]
  | .atom h op m => long h 2 (atomTys op) && m.ch == .none && offOk h m
  | .cas h m => long h 3 tWide && m.ch == .none && offOk h m
  | .red h op m => alu h 2 (atomTys op ++ redFloat op) && m.ch == .none && offOk h m
  | .fatom h _ m => long h 2 tHome && m.ch == .none && offOk h m
  | .fence h _ | .fenceAcq h _ | .fenceRel h _ => bare0 h
  | .barMeet h _ cnt | .barPost h _ cnt => bare0 h && decide (cnt.toNat ≤ 128)
  | .barAwait h _ => bare0 h
  | .cbarMeet h | .cbarPost h | .cbarAwait h => bare0 h
  | .mwait h sp _ _ => alu h 2 tWide && mwaitSp sp
  | .acq h sp sc | .acqTry h sp sc => long h 1 tNone && lockSp sp && scopeLock sc
  | .rel h sp sc => alu h 1 tNone && lockSp sp && scopeLock sc
  | .wregHold h sp | .wregWait h sp | .wdropHold h sp | .wdropWait h sp => alu h 1 tNone && lockSp sp
  | .mma h _ _ _ | .mmaFree h _ _ _ => hdr h 1 tNone false true .none
  | .mmas h _ _ _ _ => eng h 2 tNone
  | .mmsm h _ _ _ _ => eng h 1 [.f32]
  | .opfence h => bare0 h
  | .mmwait h _ => bare0 h
  | .acczero h _ => eng h 0 tNone
  | .accrd h _ | .accrdMax h _ | .accrdSum h _ => hdr h 1 [.f32] true false .none
  | .accwr h _ | .accwrMax h _ | .accwrSum h _ => hdr h 2 [.f32] false false .none
  | .accld h _ sp | .accst h _ sp => eng h 1 tNone && engSp sp
  | .tcopyG2s h _ _ | .tcopyS2g h _ _ _ | .tcopyS2c h _ _ _ => eng h 3 tNone && ageSel h.sb
  | .tgather h _ _ => hdr h 3 tNone false false .ctlAlways && ageSel h.sb
  | .twaitC h _ | .twaitM h _ => bare0 h
  | .tfree h | .tset h _ _ => hdr h 1 tNone false false .none
  | .drainSp h | .drainAcc h | .drainG h | .drainRem h => bare0 h
  | .gset h _ => hdr h 1 tNone false false .none
  | .gclr h _ => bare h tNone
  | .glaunch h => hdr h 1 tNone false false .none
  | .sysrd h _ => hdr h 0 [.b64] false true .none
  | .syswr h _ => hdr h 1 [.b64] false true .none
  | .tret h | .tretAck h | .tretKill h => bare0 h
  | .accspill h => hdr h 2 tNone false true .none
  | .accfill h => hdr h 3 tNone false true .none
  | .accfillZero h => hdr h 1 tNone false true .none
  | .wftrdEdge h | .wftrdObj h => hdr h 1 tNone false true .none
  | .tlbinvPage h => hdr h 2 tNone false true .none
  | .tlbinvAsid h => unread h.sa && unread h.sc && readable .none h.ext h.sb && h.ty == .b32 && h.la == 0 &&
      h.guard == .always && h.ext == none
  | .tlbinvAll h => bare0 h
  | .halt h | .resume h => hdr h 1 tNone false true .none
  | .clusterClaim die _ | .clusterResume die _ | .frequencyStep die _ | .dieHot die | .dieCooled die => decide (die < 4)
  | .relockEnd die => decide (die < 4)
  | .thermalTrip die => decide (die < 13)
  | .hostBar2Read fn _ _ | .hostBar2Write fn _ _ _ _ | .registerWrite fn _ _ | .readClearCounter fn _ => decide (fn < 64)
  | .flrVf vf => decide (1 ≤ vf ∧ vf < 64)
  | .ethernetFrameReceive p _ _ _ | .ethernetFrameTransmit p _ | .ethernetLinkChange p _ _ | .phcsecRead p | .phcstep p _ =>
      decide (p < 4)
  | .ronouPortDown p | .ronouPortDisable p | .ronouPortRetrain p _ _ | .ronouPeerAccess p _ _ => decide (p < 16)
  | .flitCrcError l p | .linkRetrainEnd l p _ => decide ((l < 17 ∨ (32 ≤ l ∧ l < 48)) ∧ p < 2)
  | .memoryScrub d _ _ _ => decide (d < 8)
  | .sriovVfEnable n => decide (n ≤ 63)
  | .longLatencyValueArrival .. | .handlerDispatch .. | .handlerTimeout .. | .barrierTimeout .. | .remoteLoadBlocking ..
  | .yieldExpiry .. | .starvationPromotion .. | .overdue .. | .monitorWake .. | .staleNotice .. | .cacheEviction ..
  | .zeroRequest .. | .engineCommandStart .. | .engineCommandComplete .. | .teamExitSignal .. | .childGridComplete ..
  | .queueWidxWake .. | .widxPoll .. | .packetNop .. | .packetLaunch .. | .packetReplay .. | .replayNextLaunch ..
  | .packetWaitValue .. | .waitValuePoll .. | .packetWriteValue .. | .packetCopy .. | .packetSeal .. | .packetFence ..
  | .packetCompletion .. | .clusterClaimAge .. | .quantumEnd | .priorityEviction .. | .graceExpiry .. | .lockcapExpiry ..
  | .teamSave .. | .teamWake .. | .nocore .. | .devctlReset | .devctlGo | .bootWindowWrite .. | .powerUp .. | .flrPf
  | .queueCreate .. | .queueDestroy .. | .runlistSet .. | .asidBind .. | .asidFree .. | .keymapSet .. | .streamSet ..
  | .ruleSet .. | .txringSet .. | .fwUpdate .. | .evict .. | .fabricSet .. | .nocmd .. | .firmwareBankSwitch ..
  | .fwFallback | .watchdog | .spdmGetVersion | .spdmGetCapabilities | .spdmNegotiateAlgorithms | .spdmGetDigests
  | .spdmGetCertificate .. | .spdmChallenge .. | .spdmGetMeasurements .. | .powerLimit .. | .supplyOutOfRange | .supplyLoss
  | .remoteAccessTimeout .. | .replyLost .. | .hostLinkDown | .hostLinkError | .eccError .. | .supplyInRange | .hostLinkUp => true

end Sys2Proof
end

