-- ==== Sys2Proof/Decode.lean ====
section
/-!
DEFINITION. From instruction words to `Instr` and back (chapter 05, the entries of chapters 06 to 08, 16 R391). Decoding is total:
every word is an instruction or is refused with the reason R391 gives. The encoder stands after it.
-/
namespace Sys2Proof

open Wf

/-- The reasons of an undefined encoding, in the order of R391. -/
inductive Undef where
  | opc | fn | ty | pg | selector | noImmediate | extension | lookahead | unusedBits | range | unlisted
  deriving DecidableEq, Repr

/-- The reason number that TDETAIL[7:0] holds (16 R391). -/
def Undef.code : Undef → Nat
  | .opc => 1 | .fn => 2 | .ty => 3 | .pg => 4 | .selector => 5 | .noImmediate => 6 | .extension => 7 | .lookahead => 8
  | .unusedBits => 9 | .range => 10 | .unlisted => 11

/-- What decoding answers: an instruction, or the reason there is none. -/
inductive Decoded where
  | ok (i : Instr)
  | bad (u : Undef)
  deriving DecidableEq, Repr

/-- The fields of a first word (05 R107) and the word that follows it. -/
structure Raw where
  opc : BitVec 8
  fn : BitVec 4
  sa : BitVec 5
  sb : BitVec 5
  sc : BitVec 5
  la : BitVec 4
  pg : BitVec 3
  x : BitVec 1
  ty : BitVec 4
  low : BitVec 25
  ext : Word
  deriving DecidableEq, Repr

/-- The first word of a record of fields (05 R107). -/
def Raw.word (r : Raw) : Word :=
  BitVec.ofNat 64 (r.opc.toNat * 2 ^ 56 + r.fn.toNat * 2 ^ 52 + r.sa.toNat * 2 ^ 47 + r.sb.toNat * 2 ^ 42 + r.sc.toNat * 2 ^ 37 +
    r.la.toNat * 2 ^ 33 + r.pg.toNat * 2 ^ 30 + r.x.toNat * 2 ^ 29 + r.ty.toNat * 2 ^ 25 + r.low.toNat)

/-- The fields of a first word `w` followed by `e` (05 R107). -/
def Raw.of (w e : Word) : Raw :=
  let n := w.toNat
  { opc := BitVec.ofNat 8 (n / 2 ^ 56), fn := BitVec.ofNat 4 (n / 2 ^ 52), sa := BitVec.ofNat 5 (n / 2 ^ 47),
    sb := BitVec.ofNat 5 (n / 2 ^ 42), sc := BitVec.ofNat 5 (n / 2 ^ 37), la := BitVec.ofNat 4 (n / 2 ^ 33),
    pg := BitVec.ofNat 3 (n / 2 ^ 30), x := BitVec.ofNat 1 (n / 2 ^ 29), ty := BitVec.ofNat 4 (n / 2 ^ 25),
    low := BitVec.ofNat 25 n, ext := e }

/-! ## Codes of the operand kinds, each with its reader -/

def Ty.code : Ty → Nat
  | .b32 => 0 | .b64 => 1 | .s8 => 2 | .s16 => 3 | .s32 => 4 | .s64 => 5 | .n8 => 6 | .n16 => 7 | .n32 => 8 | .n64 => 9
  | .f16 => 10 | .bf16 => 11 | .f32 => 12 | .f64 => 13 | .e4m3 => 14 | .e5m2 => 15

/-- The lane type of a TY code (04 R77). -/
def Ty.ofCode : Nat → Ty
  | 0 => .b32 | 1 => .b64 | 2 => .s8 | 3 => .s16 | 4 => .s32 | 5 => .s64 | 6 => .n8 | 7 => .n16 | 8 => .n32 | 9 => .n64
  | 10 => .f16 | 11 => .bf16 | 12 => .f32 | 13 => .f64 | 14 => .e4m3 | _ => .e5m2

def Src.sel : Src → Nat
  | .age n => n.toNat | .slot n => 16 + n.toNat | .zero => 24 | .imm => 25

/-- The source of a selector (05 R110); 26 to 31 are refused before this is used. -/
def Src.ofSel (n : Nat) : Src :=
  if n < 16 then .age (BitVec.ofNat 4 n) else if n < 24 then .slot (BitVec.ofNat 3 (n - 16)) else if n = 24 then .zero else .imm

def Pred.code : Pred → Nat
  | .p1 => 1 | .p2 => 2 | .p3 => 3

def Pred.ofCode : Nat → Pred
  | 1 => .p1 | 2 => .p2 | _ => .p3

/-- A field that names a predicate, with 0 for p0 or for none (06 R132, R140). -/
def predCode : Option Pred → Nat
  | none => 0 | some p => p.code

def predOf (n : Nat) : Option Pred := if n = 0 then none else some (Pred.ofCode n)

def Guard.code : Guard → Nat
  | .always => 0 | .pos p => p.code | .neg p => 4 + p.code

/-- The guard of a PG code (05 R111); 4 is refused before this is used. -/
def Guard.ofCode (n : Nat) : Guard :=
  if n = 0 then .always else if n < 4 then .pos (Pred.ofCode n) else .neg (Pred.ofCode (n - 4))

def Rnd.code : Rnd → Nat
  | .rn => 0 | .rz => 1 | .ru => 2 | .rd => 3

def Rnd.ofCode : Nat → Rnd
  | 0 => .rn | 1 => .rz | 2 => .ru | _ => .rd

def SysVal.selCode : SysVal → Nat
  | .lane => 0x00 | .warp => 0x01 | .team => 0x02 | .role => 0x03 | .cx => 0x04 | .cy => 0x05 | .cz => 0x06
  | .gx => 0x07 | .gy => 0x08 | .gz => 0x09 | .depth => 0x0A | .nwarp => 0x0B | .nteam => 0x0C | .prio => 0x0D
  | .core => 0x10 | .part => 0x11 | .quad => 0x12 | .diepos => 0x13 | .param => 0x18 | .data => 0x19 | .code => 0x1A
  | .fpctl => 0x20 | .fpx => 0x21 | .fpxc => 0x22 | .caps => 0x28 | .clk => 0x30 | .clks => 0x31 | .ref => 0x32

/-- The system value of a selector (06 R137). -/
def SysVal.ofCode? : Nat → Option SysVal
  | 0x00 => some .lane | 0x01 => some .warp | 0x02 => some .team | 0x03 => some .role | 0x04 => some .cx | 0x05 => some .cy
  | 0x06 => some .cz | 0x07 => some .gx | 0x08 => some .gy | 0x09 => some .gz | 0x0A => some .depth | 0x0B => some .nwarp
  | 0x0C => some .nteam | 0x0D => some .prio | 0x10 => some .core | 0x11 => some .part | 0x12 => some .quad
  | 0x13 => some .diepos | 0x18 => some .param | 0x19 => some .data | 0x1A => some .code | 0x20 => some .fpctl
  | 0x21 => some .fpx | 0x22 => some .fpxc | 0x28 => some .caps | 0x30 => some .clk | 0x31 => some .clks | 0x32 => some .ref
  | _ => none

/-- The counters of R137 are the long-latency selectors. -/
def SysVal.counter : SysVal → Bool
  | .clk | .clks | .ref => true
  | _ => false

def BlkFmt.code : BlkFmt → Nat
  | .se7 => 4 | .se4 => 5 | .se2 => 6 | .mxe4m3 => 7 | .mxe5m2 => 8 | .mxe3m2 => 9 | .mxe2m3 => 10 | .mxfp4 => 11 | .mxint8 => 12

/-- The block format of a code from 4 to 12 (04 R99). -/
def BlkFmt.ofCode? : Nat → Option BlkFmt
  | 4 => some .se7 | 5 => some .se4 | 6 => some .se2 | 7 => some .mxe4m3 | 8 => some .mxe5m2 | 9 => some .mxe3m2
  | 10 => some .mxe2m3 | 11 => some .mxfp4 | 12 => some .mxint8 | _ => none

def ShflMode.code : ShflMode → Nat
  | .pick => 0 | .back => 1 | .ahead => 2 | .mirror => 3 | .turn => 4

def ShflMode.ofCode? : Nat → Option ShflMode
  | 0 => some .pick | 1 => some .back | 2 => some .ahead | 3 => some .mirror | 4 => some .turn | _ => none

def RedOp.code : RedOp → Nat
  | .add => 0 | .min => 1 | .max => 2 | .and => 3 | .or => 4 | .xor => 5

def RedOp.ofCode? : Nat → Option RedOp
  | 0 => some .add | 1 => some .min | 2 => some .max | 3 => some .and | 4 => some .or | 5 => some .xor | _ => none

def MaskMode.code : MaskMode → Nat
  | .split => 0 | .on => 1 | .self => 2 | .under => 3 | .upto => 4 | .over => 5 | .from => 6

def MaskMode.ofCode? : Nat → Option MaskMode
  | 0 => some .split | 1 => some .on | 2 => some .self | 3 => some .under | 4 => some .upto | 5 => some .over
  | 6 => some .from | _ => none

def Cond.code : Cond → Nat
  | .eq => 0 | .ne => 1 | .lt => 2 | .le => 3 | .gt => 4 | .ge => 5

def Cond.ofCode? : Nat → Option Cond
  | 0 => some .eq | 1 => some .ne | 2 => some .lt | 3 => some .le | 4 => some .gt | 5 => some .ge | _ => none

def FCond.code : FCond → Nat
  | .eq => 0 | .ne => 1 | .lt => 2 | .le => 3 | .gt => 4 | .ge => 5 | .ord => 6 | .uno => 7

def FCond.ofCode? : Nat → Option FCond
  | 0 => some .eq | 1 => some .ne | 2 => some .lt | 3 => some .le | 4 => some .gt | 5 => some .ge | 6 => some .ord
  | 7 => some .uno | _ => none

def Bop.code : Bop → Nat
  | .set => 0 | .and => 1 | .or => 2 | .xor => 3

def Bop.ofCode : Nat → Bop
  | 0 => .set | 1 => .and | 2 => .or | _ => .xor

def PlogOp.code : PlogOp → Nat
  | .and => 0 | .or => 1 | .xor => 2 | .andn => 3 | .not => 4 | .mov => 5

def PlogOp.ofCode? : Nat → Option PlogOp
  | 0 => some .and | 1 => some .or | 2 => some .xor | 3 => some .andn | 4 => some .not | 5 => some .mov | _ => none

def Space.code : Space → Nat
  | .generic => 0 | .global => 1 | .own => 2 | .cluster => 3 | .priv => 4

def Space.ofCode? : Nat → Option Space
  | 0 => some .generic | 1 => some .global | 2 => some .own | 3 => some .cluster | 4 => some .priv | _ => none

def Scope.code : Scope → Nat
  | .team => 0 | .cluster => 1 | .device => 2 | .system => 3

def Scope.ofCode : Nat → Scope
  | 0 => .team | 1 => .cluster | 2 => .device | _ => .system

def Order.code : Order → Nat
  | .plain => 0 | .acq => 1 | .rel => 2 | .ar => 3

def Order.ofCode : Nat → Order
  | 0 => .plain | 1 => .acq | 2 => .rel | _ => .ar

def Hint.code : Hint → Nat
  | .none => 0 | .nc => 1 | .lu => 2

def Hint.ofCode : Nat → Hint
  | 1 => .nc | 2 => .lu | _ => .none

def AtomOp.code : AtomOp → Nat
  | .add => 0 | .and => 1 | .or => 2 | .xor => 3 | .min => 4 | .max => 5 | .exch => 6 | .inc => 7 | .dec => 8

def AtomOp.ofCode? : Nat → Option AtomOp
  | 0 => some .add | 1 => some .and | 2 => some .or | 3 => some .xor | 4 => some .min | 5 => some .max | 6 => some .exch
  | 7 => some .inc | 8 => some .dec | _ => none

def FatomOp.code : FatomOp → Nat
  | .add => 0 | .min => 1 | .max => 2

def FatomOp.ofCode? : Nat → Option FatomOp
  | 0 => some .add | 1 => some .min | 2 => some .max | _ => none

def Crn.code : Crn → Nat
  | .hctx => 0 | .hcause => 1 | .hwsel => 2 | .fpctl => 0x10 | .fpx => 0x11 | .brken => 0x12 | .barto => 0x13 | .grace => 0x14
  | .lockcap => 0x15 | .asid => 0x16 | .wftctl => 0x20 | .wftovf => 0x21 | .accown i => 0x100 + i.toNat | .trec i => 0x200 + i.toNat

/-- The control register of a CRN (08 R235). -/
def Crn.ofCode? (n : Nat) : Option Crn :=
  if 0x100 ≤ n ∧ n < 0x180 then some (.accown (BitVec.ofNat 7 (n - 0x100)))
  else if 0x200 ≤ n ∧ n < 0x240 then some (.trec (BitVec.ofNat 6 (n - 0x200)))
  else match n with
    | 0 => some .hctx | 1 => some .hcause | 2 => some .hwsel | 0x10 => some .fpctl | 0x11 => some .fpx | 0x12 => some .brken
    | 0x13 => some .barto | 0x14 => some .grace | 0x15 => some .lockcap | 0x16 => some .asid | 0x20 => some .wftctl
    | 0x21 => some .wftovf | _ => none

/-! ## The entries -/

/-- What an entry of chapters 06 to 08 demands of a word, and the instruction it then stands for. -/
structure Entry where
  /-- source fields read as selectors: 0 SA, 1 SB, 2 SC -/
  srcs : List Nat
  tys : List Ty
  /-- the bits of [24:0] the entry uses -/
  used : Nat
  instr : Instr
  /-- source fields that hold numbers (05 R109) -/
  imms : List Nat
  ll : Bool
  pg0 : Bool
  x : XUse
  /-- an engine command, which takes no selector 25 (08 R208) -/
  engine : Bool
  ok3 : Bool
  ok9 : Bool
  ok10 : Bool
  ok11 : Bool

def Raw.src (r : Raw) : Nat → Nat
  | 0 => r.sa.toNat | 1 => r.sb.toNat | _ => r.sc.toNat

/-- The type field. -/
def Raw.tyv (r : Raw) : Ty := Ty.ofCode r.ty.toNat

/-- Field [lo + n - 1 : lo] of [24:0]. -/
def Raw.f (r : Raw) (lo n : Nat) : Nat := fieldOf r.low.toNat lo n

def Raw.extw (r : Raw) : Option Word := if r.x = 1 then some r.ext else none

def Raw.srcIf (r : Raw) (l : List Nat) (i : Nat) : Src := if l.contains i then Src.ofSel (r.src i) else .age 0

def Raw.hdr (r : Raw) (srcs : List Nat) : Hdr :=
  { sa := r.srcIf srcs 0, sb := r.srcIf srcs 1, sc := r.srcIf srcs 2, la := r.la, guard := Guard.ofCode r.pg.toNat, ty := r.tyv,
    ext := r.extw }

/-- A short-latency entry that accepts any guard and an immediate. -/
def ent (r : Raw) (srcs : List Nat) (tys : List Ty) (used : Nat) (f : Hdr → Instr) : Entry :=
  { srcs := srcs, tys := tys, used := used, instr := f (r.hdr srcs), imms := [], ll := false, pg0 := false,
    x := if srcs.isEmpty then .none else .imm, engine := false, ok3 := true, ok9 := true, ok10 := true, ok11 := true }

def entLL (r : Raw) (srcs : List Nat) (tys : List Ty) (used : Nat) (f : Hdr → Instr) : Entry :=
  { ent r srcs tys used f with ll := true }

def ent0 (r : Raw) (srcs : List Nat) (tys : List Ty) (used : Nat) (f : Hdr → Instr) : Entry :=
  { ent r srcs tys used f with pg0 := true }

def entX (r : Raw) (srcs : List Nat) (tys : List Ty) (used : Nat) (f : Hdr → Instr) : Entry :=
  { ent r srcs tys used f with x := .ctl }

/-- Sources, and no extension word: the X column of R211 and R223 is 0. -/
def entN (r : Raw) (srcs : List Nat) (tys : List Ty) (used : Nat) (f : Hdr → Instr) : Entry :=
  { ent r srcs tys used f with x := .none }

def entS (r : Raw) (srcs : List Nat) (tys : List Ty) (used : Nat) (f : Hdr → Instr) : Entry :=
  { ent r srcs tys used f with pg0 := true, x := .none }

/-- Every bit of the mask [hi : lo]. -/
def bits (hi lo : Nat) : Nat := 2 ^ (hi + 1) - 2 ^ lo

/-- The fields of R171. -/
def Raw.memf (r : Raw) : MemF :=
  { sp := (Space.ofCode? (r.f 22 3)).getD .generic, scope := Scope.ofCode (r.f 20 2), ord := Order.ofCode (r.f 18 2),
    ch := Hint.ofCode (r.f 16 2), off := BitVec.ofNat 12 (r.f 0 12) }

/-- Some source field that the instruction reads holds 25 (05 R108). -/
def Raw.immUsed (r : Raw) (srcs : List Nat) : Bool := srcs.any fun i => r.src i == 25

/-- A memory entry (07 R171, R174): `ords` the ORD values listed, `ch` whether CH is used, `sc0` whether SCOPE needs an ordering. -/
def entM (r : Raw) (srcs : List Nat) (tys : List Ty) (ords : List Order) (ch sc0 ll : Bool) (f : Hdr → MemF → Instr) : Entry :=
  { ent r srcs tys (bits 24 18 + (if ch then bits 17 16 else 0) + bits 11 0) (fun h => f h r.memf) with
    ll := ll
    ok9 := r.x == 0 || r.immUsed srcs || r.f 0 12 == 0
    ok10 := decide (r.f 22 3 < 5) && (!ch || r.f 16 2 != 3) && ords.contains (Order.ofCode (r.f 18 2)) &&
      (!sc0 || r.f 18 2 != 0 || r.f 20 2 == 0) }

abbrev s1 : List Nat := [0]
abbrev s2 : List Nat := [0, 1]
abbrev s3 : List Nat := [0, 1, 2]

/-- A list of entries by FN (05 R107). -/
def byFn (r : Raw) (es : List Entry) : Except Undef Entry :=
  match es[r.fn.toNat]? with
  | some e => .ok e
  | none => .error .fn

/-- An entry that lists FN 0 only. -/
def one (r : Raw) (e : Entry) : Except Undef Entry := if r.fn = 0 then .ok e else .error .fn

/-- Majors 0x00 to 0x3F (06 R134 to R144). -/
def entryQueueInt (r : Raw) (opc : Nat) : Except Undef Entry :=
  let sat := r.f 22 1 == 1
  let pd := predOf (r.f 16 2)
  let satUsed := bits 22 22
  match opc with
  | 0x00 => one r (ent r [] tNone 0 .nop)
  | 0x01 => one r (ent r s1 tBits 0 .dup)
  | 0x02 => one r (ent r s1 tNone (bits 5 0) fun h => .save h (BitVec.ofNat 6 (r.f 0 6)))
  | 0x03 => one r (ent r [] tNone (bits 5 0) fun h => .fget h (BitVec.ofNat 6 (r.f 0 6)))
  | 0x04 => one r { ent r [] tNone (bits 6 0) (fun h => .fenter h (BitVec.ofNat 7 (r.f 0 7))) with ok10 := decide (r.f 0 7 ≤ 64) }
  | 0x05 => one r (ent r [] tNone 0 .fleave)
  | 0x06 => one r { ent r [] tNone (bits 6 0) (fun h => .spill h (BitVec.ofNat 7 (r.f 0 7))) with
      ok10 := decide (1 ≤ r.f 0 7) && decide (r.f 0 7 ≤ 64) }
  | 0x07 => one r { ent r [] tNone (bits 6 0) (fun h => .fill h (BitVec.ofNat 7 (r.f 0 7))) with
      ok10 := decide (1 ≤ r.f 0 7) && decide (r.f 0 7 ≤ 64) }
  | 0x08 =>
    let v := (SysVal.ofCode? (r.f 0 8)).getD .lane
    one r { ent r (if v == .caps then s1 else []) tNone (bits 7 0) (fun h => .sget h v) with
      x := .imm, ll := v.counter, ok11 := (SysVal.ofCode? (r.f 0 8)).isSome }
  | 0x10 => one r { ent r s2 tAll satUsed (fun h => .add h sat) with ok10 := !sat || tInt.contains r.tyv }
  | 0x11 => one r { ent r s2 tAll satUsed (fun h => .sub h sat) with ok10 := !sat || tInt.contains r.tyv }
  | 0x12 => one r (ent r s3 tWide (bits 17 16) fun h => .addc h pd)
  | 0x13 => one r (ent r s3 tWide (bits 17 16) fun h => .subb h pd)
  | 0x14 => one r (ent r s2 tAll 0 .mul)
  | 0x15 => one r (ent r s2 tMul 0 .mulhi)
  | 0x16 => one r (ent r s2 tMul 0 .mulw)
  | 0x17 => one r (ent r s3 tAll 0 .mad)
  | 0x18 => one r (entLL r s2 tInt 0 .div)
  | 0x19 => one r (entLL r s2 tInt 0 .rem)
  | 0x1A => one r (entLL r s2 tInt 0 .divrem)
  | 0x1B => one r { ent r s1 tInt satUsed (fun h => .neg h sat) with ok10 := !sat || tSig.contains r.tyv }
  | 0x1C => one r (ent r s1 tSig satUsed fun h => .abs h sat)
  | 0x1D => one r (ent r s2 tInt 0 .adiff)
  | 0x1E => one r (ent r s2 tInt 0 .min)
  | 0x1F => one r (ent r s2 tInt 0 .max)
  | 0x20 => one r (ent r s3 tInt 0 .clamp)
  | 0x21 => one r (ent r s2 tBits 0 .and)
  | 0x22 => one r (ent r s2 tBits 0 .or)
  | 0x23 => one r (ent r s2 tBits 0 .xor)
  | 0x24 => one r (ent r s1 tBits 0 .not)
  | 0x25 => one r (ent r s2 tBits 0 .andn)
  | 0x26 => byFn r [ent r s2 tWide 0 (.shl · none), ent r s1 tWide (bits 5 0) (.shl · (some (BitVec.ofNat 6 (r.f 0 6))))]
  | 0x27 => byFn r [ent r s2 tWide 0 (.shr · none), ent r s1 tWide (bits 5 0) (.shr · (some (BitVec.ofNat 6 (r.f 0 6))))]
  | 0x28 => byFn r [ent r s2 tWide 0 (.sra · none), ent r s1 tWide (bits 5 0) (.sra · (some (BitVec.ofNat 6 (r.f 0 6))))]
  | 0x29 => byFn r [ent r s2 tWide 0 (.rotl · none), ent r s1 tWide (bits 5 0) (.rotl · (some (BitVec.ofNat 6 (r.f 0 6))))]
  | 0x2A => byFn r [ent r s2 tWide 0 (.rotr · none), ent r s1 tWide (bits 5 0) (.rotr · (some (BitVec.ofNat 6 (r.f 0 6))))]
  | 0x2B => byFn r [ent r s3 tWide 0 (.bfx · none),
      { ent r s1 tWide (bits 12 0) (.bfx · (some (BitVec.ofNat 6 (r.f 0 6), BitVec.ofNat 7 (r.f 6 7)))) with
        ok10 := decide (r.f 6 7 ≤ 64) }]
  | 0x2C => byFn r [ent r s3 tBits 0 (.bfi · none),
      { ent r s2 tBits (bits 12 0) (.bfi · (some (BitVec.ofNat 6 (r.f 0 6), BitVec.ofNat 7 (r.f 6 7)))) with
        ok10 := decide (r.f 6 7 ≤ 64) }]
  | 0x2D => one r (ent r s1 tBits 0 .popc)
  | 0x2E => one r (ent r s1 tBits 0 .clz)
  | 0x2F => one r (ent r s1 tBits 0 .ctz)
  | 0x30 => one r (ent r s1 tBits 0 .brev)
  | 0x31 => one r (ent r s2 tBits (bits 1 0) fun h => .sel h (predOf (r.f 0 2)))
  | 0x32 =>
    let ts := Ty.ofCode (r.f 18 4)
    one r { ent r s2 [.b64] (bits 21 18 + bits 2 0) (fun h => .lea h ts (BitVec.ofNat 3 (r.f 0 3))) with
      ok3 := [Ty.b64, .s32, .n32].contains ts }
  | 0x33 => byFn r [ent r s3 tBits 0 (.ext · none), ent r s2 tBits (bits 6 0) (.ext · (some (BitVec.ofNat 7 (r.f 0 7))))]
  | _ => .error .opc

/-- Majors 0x40 to 0x5F (06 R145, R148). -/
def entryFloat (r : Raw) (opc : Nat) : Except Undef Entry :=
  let rm := Rnd.ofCode (r.f 23 2)
  let rmUsed := bits 24 23
  match opc with
  | 0x40 => one r (ent r s2 tFloat rmUsed (.fadd · rm))
  | 0x41 => one r (ent r s2 tFloat rmUsed (.fsub · rm))
  | 0x42 => one r (ent r s2 tFloat rmUsed (.fmul · rm))
  | 0x43 => one r (ent r s3 tFloat rmUsed (.ffma · rm))
  | 0x44 => one r (ent r s2 tFloat 0 .fmin)
  | 0x45 => one r (ent r s2 tFloat 0 .fmax)
  | 0x46 => one r (ent r s1 tFloat 0 .fneg)
  | 0x47 => one r (ent r s1 tFloat 0 .fabs)
  | 0x48 => one r (entLL r s2 tFloat rmUsed (.fdiv · rm))
  | 0x49 => one r (entLL r s1 tFloat rmUsed (.fsqrt · rm))
  | 0x4A => one r (entLL r s1 tTrans 0 .frcp)
  | 0x4B => one r (entLL r s1 tTrans 0 .frsq)
  | 0x4C => one r (entLL r s1 tTrans 0 .fex2)
  | 0x4D => one r (entLL r s1 tTrans 0 .flg2)
  | 0x4E => one r (entLL r s1 tTrans 0 .fsin)
  | 0x4F => one r (entLL r s1 tTrans 0 .fcos)
  | 0x50 => one r (entLL r s1 tTrans 0 .ftanh)
  | 0x51 => one r (ent r s1 tFloat rmUsed (.frnd · rm))
  | 0x52 => one r (ent r s1 tFloat 0 .fclass)
  | 0x53 => one r (ent r s2 tFloat rmUsed (.fscale · rm))
  | _ => .error .opc

/-- Majors 0x60 to 0x7F (06 R149 to R159). -/
def entryLane (r : Raw) (opc : Nat) : Except Undef Entry :=
  let rm := Rnd.ofCode (r.f 23 2)
  let sat := r.f 22 1 == 1
  let ts := Ty.ofCode (r.f 18 4)
  let t := r.tyv
  let pdn := r.f 16 2
  let fmt := (BlkFmt.ofCode? (r.f 0 5)).getD .se7
  let fmtOk := (BlkFmt.ofCode? (r.f 0 5)).isSome
  let cvtUsed := bits 24 18
  let ps := predOf (r.f 0 2)
  let ng := r.f 2 1 == 1
  let pd := Pred.ofCode pdn
  match opc with
  | 0x60 => one r { ent r s1 tAny cvtUsed (.cvt · rm sat ts) with ok9 := rm == .rn || rmRow ts t, ok10 := !sat || satRow ts t }
  | 0x61 => byFn r [{ ent r s2 [.b64] (bits 21 18 + bits 4 0) (.qnt · fmt) with ok3 := ts == .f32, ok10 := fmtOk },
      { ent r s3 [.b64] (bits 21 18 + bits 4 0) (.qntPerm · fmt) with ok3 := ts == .f32, ok10 := fmtOk }]
  | 0x62 => byFn r [{ ent r s1 [.f32] (bits 21 18 + bits 4 0) (.dqnt · fmt) with ok3 := ts == .b64, ok10 := fmtOk },
      { ent r s2 [.f32] (bits 21 18 + bits 4 0) (.dqntScaled · fmt) with ok3 := ts == .b64, ok10 := fmtOk }]
  | 0x63 => one r { ent r s2 tAny (cvtUsed + bits 5 0) (.pack · rm sat ts (BitVec.ofNat 6 (r.f 0 6))) with
      ok3 := t.width != 64, ok9 := rm == .rn || rmRow ts t, ok10 := (!sat || satRow ts t) && decide (r.f 0 6 < 64 / t.width) }
  | 0x64 => one r { ent r s1 tAny (cvtUsed + bits 5 0) (.unpack · rm sat ts (BitVec.ofNat 6 (r.f 0 6))) with
      ok3 := ts.width != 64, ok9 := rm == .rn || rmRow ts t, ok10 := (!sat || satRow ts t) && decide (r.f 0 6 < 64 / ts.width) }
  | 0x68 =>
    match ShflMode.ofCode? r.fn.toNat with
    | none => .error .fn
    | some m => .ok { entLL r s2 tBits (bits 2 0) (.shfl · m (BitVec.ofNat 3 (r.f 0 3))) with ok10 := decide (r.f 0 3 ≤ 5) }
  | 0x69 => byFn r [{ ent r [] tNone (bits 17 16 + bits 2 0) (.voteAny · ps ng pd) with ok10 := pdn != 0 },
      { ent r [] tNone (bits 17 16 + bits 2 0) (.voteAll · ps ng pd) with ok10 := pdn != 0 },
      { ent r [] tNone (bits 17 16 + bits 2 0) (.voteUni · ps ng pd) with ok10 := pdn != 0 },
      ent r [] tNone (bits 2 0) (.voteBallot · ps ng)]
  | 0x6A => one r { ent r [] tNone (bits 17 16) (.elect · pd) with ok10 := pdn != 0 }
  | 0x6B =>
    match RedOp.ofCode? r.fn.toNat with
    | none => .error .fn
    | some o => .ok (entLL r s1 (redTys o) 0 (.redux · o))
  | 0x6C =>
    match RedOp.ofCode? r.fn.toNat with
    | none => .error .fn
    | some o => .ok (entLL r s1 (redTys o) (bits 3 3) (.scan · o (r.f 3 1 == 1)))
  | 0x6D => byFn r [ent r s1 tBits (bits 4 0) (.bcast · (BitVec.ofNat 5 (r.f 0 5))), ent r s1 tBits 0 .bcastFirst]
  | 0x6E =>
    match MaskMode.ofCode? r.fn.toNat with
    | none => .error .fn
    | some m => .ok (ent r [] tNone 0 (.lanemask · m))
  | 0x70 => one r { ent r s2 tAll (bits 17 16 + bits 5 0)
        (.cmp · ((Cond.ofCode? (r.f 0 4)).getD .eq) (Bop.ofCode (r.f 4 2)) pd) with
      ok10 := (Cond.ofCode? (r.f 0 4)).isSome && pdn != 0 }
  | 0x71 => one r { ent r s2 tFloat (bits 17 16 + bits 5 0)
        (.fcmp · ((FCond.ofCode? (r.f 0 4)).getD .eq) (Bop.ofCode (r.f 4 2)) pd) with
      ok10 := (FCond.ofCode? (r.f 0 4)).isSome && pdn != 0 }
  | 0x72 =>
    let o := (PlogOp.ofCode? (r.f 4 3)).getD .and
    one r { ent r [] tNone (bits 17 16 + bits 6 0) (.plog · o (predOf (r.f 0 2)) (predOf (r.f 2 2)) pd) with
      ok9 := r.f 2 2 == 0 || (o != .not && o != .mov), ok10 := (PlogOp.ofCode? (r.f 4 3)).isSome && pdn != 0 }
  | 0x73 => one r (ent r [] tNone 0 .pget)
  | 0x74 => one r (ent r s1 tNone 0 .pput)
  | _ => .error .opc

/-- Majors 0x80 to 0x8F (07 R161). -/
def entryControl (r : Raw) (opc : Nat) : Except Undef Entry :=
  match opc with
  | 0x80 => one r (ent r [] tNone (bits 24 0) (.bra · r.low))
  | 0x81 => one r (ent0 r s1 [.b64] 0 .brx)
  | 0x82 => one r { ent0 r [] tNone (bits 24 0) (.call · r.sa r.sb r.low) with
      imms := [0, 1], ok10 := decide (r.sa.toNat ≤ 16) && decide (r.sb.toNat ≤ 16) }
  | 0x83 => one r { ent0 r s1 tNone (bits 3 0) (.calli · r.sb r.sc (BitVec.ofNat 4 (r.f 0 4))) with
      imms := [1, 2], ok10 := decide (r.sb.toNat ≤ 16) && decide (r.sc.toNat ≤ 16) && decide (r.f 0 4 ≤ 8) }
  | 0x84 => one r { ent0 r [] tNone (bits 3 0) (.ret · (BitVec.ofNat 4 (r.f 0 4))) with ok10 := decide (r.f 0 4 ≤ 8) }
  | 0x85 => one r { ent0 r [] tNone (bits 24 0) (.fork · r.sa (BitVec.ofNat 10 (r.sb.toNat * 32 + r.sc.toNat)) r.low) with
      imms := [0, 1, 2], ok10 := decide (r.sa.toNat ≤ 8) }
  | 0x86 => one r (ent0 r [] tNone 0 .rjn)
  | 0x87 => one r (ent r [] tNone 0 .exit)
  | 0x88 => one r (ent r [] tNone (bits 7 0) (.trap · (BitVec.ofNat 8 (r.f 0 8))))
  | 0x89 => one r (ent r [] tNone (bits 7 0) (.brk · (BitVec.ofNat 8 (r.f 0 8))))
  | 0x8A => one r (ent0 r [] tNone (bits 7 0) (.yield · (BitVec.ofNat 8 (r.f 0 8))))
  | 0x8B => one r (ent r s1 tCount (bits 24 0) (.loop · r.low))
  | _ => .error .opc

/-- Majors 0x90 to 0x9F (07 R174 to R186). -/
def entryMemory (r : Raw) (opc : Nat) : Except Undef Entry :=
  let sp := (Space.ofCode? (r.f 22 3)).getD .generic
  let fmt := (BlkFmt.ofCode? (r.f 0 5)).getD .se7
  let blkOk := decide (r.f 22 3 < 5) && (BlkFmt.ofCode? (r.f 0 5)).isSome
  match opc with
  | 0x90 => byFn r [entM r s1 tAny [.plain, .acq] true true true .ld, entM r s1 [.b64] [.plain, .acq] true true true .ldPair]
  | 0x91 => byFn r [entM r s2 tAny [.plain, .rel] true true false .st, entM r s3 [.b64] [.plain, .rel] true true false .stPair]
  | 0x92 => byFn r [entM r s1 tNone [.plain] false true false .prefL1, entM r s1 tNone [.plain] false true false .prefL2]
  | 0x93 => one r (entLL r s1 [.b64] 0 .sptag)
  | 0x94 => byFn r [ent r s2 tNone 0 .spsetTag, ent r s1 tNone 0 .spsetUntag]
  | 0x95 => one r (entX r s3 tNone 0 .spmove)
  | 0x96 => one r (entX r s3 tNone 0 .spshare)
  | 0x97 => one r (ent r s1 tNone 0 .spdrop)
  | 0x98 => one r (ent r s3 tNone 0 .seal)
  | 0x99 => one r (ent0 r [] tNone 0 .ifence)
  | 0x9A => one r { ent r (if seBlock fmt then s2 else s3) [.b64] (bits 24 22 + bits 4 0) (.stblk · sp fmt) with ok10 := blkOk }
  | 0x9B => one r { entLL r (if seBlock fmt then s1 else s2) [.b64] (bits 24 22 + bits 4 0) (.ldblk · sp fmt) with ok10 := blkOk }
  | _ => .error .opc

/-- Majors 0xA0 to 0xAF (07 R187, R192). -/
def entrySync (r : Raw) (opc : Nat) : Except Undef Entry :=
  let sp := (Space.ofCode? (r.f 22 3)).getD .generic
  let sc := Scope.ofCode (r.f 20 2)
  let scBits := bits 21 20
  let spBits := bits 24 22
  let allOrd := [Order.plain, .acq, .rel, .ar]
  let bid := BitVec.ofNat 4 (r.f 0 4)
  let cnt := BitVec.ofNat 8 (r.f 4 8)
  let lockOk := decide (r.f 22 3 ≤ 1) && r.f 20 2 != 0
  match opc with
  | 0xA0 =>
    match AtomOp.ofCode? r.fn.toNat with
    | none => .error .fn
    | some o => .ok (entM r s2 (atomTys o) allOrd false false true (.atom · o ·))
  | 0xA1 => one r (entM r s3 tWide allOrd false false true .cas)
  | 0xA2 =>
    match AtomOp.ofCode? r.fn.toNat with
    | none => .error .fn
    | some o => .ok (entM r s2 (atomTys o ++ redFloat o) allOrd false false false (.red · o ·))
  | 0xA3 =>
    match FatomOp.ofCode? r.fn.toNat with
    | none => .error .fn
    | some o => .ok (entM r s2 tHome allOrd false false true (.fatom · o ·))
  | 0xA8 => byFn r [ent0 r [] tNone scBits (.fence · sc), ent0 r [] tNone scBits (.fenceAcq · sc),
      ent0 r [] tNone scBits (.fenceRel · sc)]
  | 0xA9 => byFn r [{ ent0 r [] tNone (bits 11 0) (.barMeet · bid cnt) with ok10 := decide (r.f 4 8 ≤ 128) },
      { ent0 r [] tNone (bits 11 0) (.barPost · bid cnt) with ok10 := decide (r.f 4 8 ≤ 128) },
      ent0 r [] tNone (bits 3 0) (.barAwait · bid)]
  | 0xAA => byFn r [ent0 r [] tNone 0 .cbarMeet, ent0 r [] tNone 0 .cbarPost, ent0 r [] tNone 0 .cbarAwait]
  | 0xAB => one r { ent r s2 tWide (spBits + scBits + bits 3 0) (.mwait · sp sc ((Cond.ofCode? (r.f 0 4)).getD .eq)) with
      ok10 := decide (r.f 22 3 ≤ 2) && (Cond.ofCode? (r.f 0 4)).isSome }
  | 0xAC => byFn r [{ entLL r s1 tNone (spBits + scBits) (.acq · sp sc) with ok10 := lockOk },
      { entLL r s1 tNone (spBits + scBits) (.acqTry · sp sc) with ok10 := lockOk }]
  | 0xAD => one r { ent r s1 tNone (spBits + scBits) (.rel · sp sc) with ok10 := lockOk }
  | 0xAE => byFn r [{ ent r s1 tNone spBits (.wregHold · sp) with ok10 := decide (r.f 22 3 ≤ 1) },
      { ent r s1 tNone spBits (.wregWait · sp) with ok10 := decide (r.f 22 3 ≤ 1) }]
  | 0xAF => byFn r [{ ent r s1 tNone spBits (.wdropHold · sp) with ok10 := decide (r.f 22 3 ≤ 1) },
      { ent r s1 tNone spBits (.wdropWait · sp) with ok10 := decide (r.f 22 3 ≤ 1) }]
  | _ => .error .opc

/-- Majors 0xC0 to 0xCF (08 R211). -/
def entryMatrix (r : Raw) (opc : Nat) : Except Undef Entry :=
  let tile := BitVec.ofNat 7 (r.f 18 7)
  let aseg := BitVec.ofNat 10 (r.f 8 10)
  let bfb := BitVec.ofNat 6 (r.f 2 6)
  let tileBits := bits 24 18
  let sp := (Space.ofCode? (r.f 15 3)).getD .generic
  match opc with
  | 0xC0 => byFn r [{ entS r s1 tNone (bits 24 2) (.mma · tile aseg bfb) with engine := true },
      { entS r s1 tNone (bits 24 2) (.mmaFree · tile aseg bfb) with engine := true }]
  | 0xC1 => one r (entX r s2 tNone (bits 24 8 + bits 1 0) (.mmas · tile aseg (r.f 1 1 == 1) (r.f 0 1 == 1)))
  | 0xC2 => one r (entX r s1 [.f32] (bits 24 0)
      (.mmsm · tile (BitVec.ofNat 7 (r.f 11 7)) (BitVec.ofNat 10 (r.f 1 10)) (r.f 0 1 == 1)))
  | 0xC3 => one r (ent0 r [] tNone 0 .opfence)
  | 0xC4 => one r (ent0 r [] tNone (bits 3 0) (.mmwait · (BitVec.ofNat 4 (r.f 0 4))))
  | 0xC5 => one r (entX r [] tNone tileBits (.acczero · tile))
  | 0xC6 => byFn r [{ entN r s1 [.f32] tileBits (.accrd · tile) with ll := true }, { entN r s1 [.f32] tileBits (.accrdMax · tile) with ll := true },
      { entN r s1 [.f32] tileBits (.accrdSum · tile) with ll := true }]
  | 0xC7 => byFn r [entN r s2 [.f32] tileBits (.accwr · tile), entN r s2 [.f32] tileBits (.accwrMax · tile),
      entN r s2 [.f32] tileBits (.accwrSum · tile)]
  | 0xC8 => one r { entX r s1 tNone (bits 24 15) (.accld · tile sp) with ok10 := r.f 15 3 == 1 || r.f 15 3 == 2 }
  | 0xC9 => one r { entX r s1 tNone (bits 24 15) (.accst · tile sp) with ok10 := r.f 15 3 == 1 || r.f 15 3 == 2 }
  | _ => .error .opc

/-- Majors 0xD0 to 0xDF (08 R223). -/
def entryEngine (r : Raw) (opc : Nat) : Except Undef Entry :=
  let tsr := BitVec.ofNat 10 (r.f 13 10)
  let seg := BitVec.ofNat 10 (r.f 3 10)
  let free := r.f 2 1 == 1
  let age := decide (r.sb.toNat < 16)
  match opc with
  | 0xD0 =>
    let f : Hdr → Instr := fun h =>
      match r.f 23 2 with
      | 0 => .tcopyG2s h tsr seg
      | 1 => .tcopyS2g h tsr seg free
      | _ => .tcopyS2c h tsr seg free
    one r { entX r s3 tNone (bits 24 2) f with ok10 := age && r.f 23 2 != 3 && !(r.f 23 2 == 0 && free) }
  | 0xD1 => one r { ent r s3 tNone (bits 22 3) (.tgather · tsr seg) with x := .ctlAlways, ok10 := age }
  | 0xD2 => one r (ent0 r [] tNone (bits 8 8 + bits 5 0) fun h =>
      if r.f 8 1 == 0 then .twaitC h (BitVec.ofNat 6 (r.f 0 6)) else .twaitM h (BitVec.ofNat 6 (r.f 0 6)))
  | 0xD3 => one r (entN r s1 tNone 0 .tfree)
  | 0xD4 => one r (entN r s1 tNone (bits 1 0) (.tset · (r.f 1 1 == 1) (r.f 0 1 == 1)))
  | 0xD5 => one r (ent0 r [] tNone (bits 1 0) fun h =>
      match r.f 0 2 with
      | 0 => .drainSp h
      | 1 => .drainAcc h
      | 2 => .drainG h
      | _ => .drainRem h)
  | 0xD6 => one r (entN r s1 tNone (bits 3 0) (.gset · (BitVec.ofNat 4 (r.f 0 4))))
  | 0xD7 => one r (ent r [] tNone (bits 3 0) (.gclr · (BitVec.ofNat 4 (r.f 0 4))))
  | 0xD8 => one r (entN r s1 tNone 0 .glaunch)
  | _ => .error .opc

/-- Majors 0xE0 to 0xEF (08 R234). -/
def entrySystem (r : Raw) (opc : Nat) : Except Undef Entry :=
  let crn := (Crn.ofCode? (r.f 0 16)).getD .hctx
  let crnOk := (Crn.ofCode? (r.f 0 16)).isSome
  match opc with
  | 0xE0 => one r { entS r [] [.b64] (bits 15 0) (.sysrd · crn) with ok11 := crnOk }
  | 0xE1 => one r { entS r s1 [.b64] (bits 15 0) (.syswr · crn) with ok11 := crnOk }
  | 0xE2 => byFn r [entS r [] tNone 0 .tret, entS r [] tNone 0 .tretAck, entS r [] tNone 0 .tretKill]
  | 0xE3 => one r (entS r s2 tNone 0 .accspill)
  | 0xE4 => byFn r [entS r s3 tNone 0 .accfill, entS r s1 tNone 0 .accfillZero]
  | 0xE5 => byFn r [entS r s1 tNone 0 .wftrdEdge, entS r s1 tNone 0 .wftrdObj]
  | 0xE6 => byFn r [entS r s2 tNone 0 .tlbinvPage, entS r [1] tNone 0 .tlbinvAsid, entS r [] tNone 0 .tlbinvAll]
  | 0xE7 => one r (entS r s1 tNone 0 .halt)
  | 0xE8 => one r (entS r s1 tNone 0 .resume)
  | _ => .error .opc

/-- The opcode map of R117, by OPC[7:4]. -/
def entryOf (r : Raw) : Except Undef Entry :=
  let o := r.opc.toNat
  match o / 16 with
  | 0 | 1 | 2 | 3 => entryQueueInt r o
  | 4 | 5 => entryFloat r o
  | 6 | 7 => entryLane r o
  | 8 => entryControl r o
  | 9 => entryMemory r o
  | 10 => entrySync r o
  | 12 => entryMatrix r o
  | 13 => entryEngine r o
  | 14 => entrySystem r o
  | _ => .error .opc

-- DEDUCED (log 30, unsafe): X = 1 without a selector 25 is accepted by every entry that reads a source and uses no extension word for a field or an offset, and the extension word is then read by nothing.
/-- X = 1 where no extension word is used, or X = 0 where one always stands (05 R118). -/
def extBad (e : Entry) (r : Raw) : Bool :=
  match e.x with
  | .none => r.x == 1
  | .imm => false
  | .ctl => false
  | .ctlAlways => r.x == 0

-- DEDUCED (log 30, unsafe): see notes/assumptions/30.md.
/-- The checks of R391, in the order of its reasons: the lowest that applies is the one reported. -/
def checkEntry (e : Entry) (r : Raw) : Option Undef :=
  if !e.tys.contains r.tyv || !e.ok3 then some .ty
  else if r.pg == 4 || (e.pg0 && r.pg != 0) then some .pg
  else if e.srcs.any fun i => decide (26 ≤ r.src i) then some .selector
  else if r.immUsed e.srcs && (r.x == 0 || e.x == .ctl || e.x == .ctlAlways || e.engine) then some .noImmediate
  else if extBad e r then some .extension
  else if r.la != 0 && !e.ll then some .lookahead
  else if r.low.toNat &&& (2 ^ 25 - 1 - e.used) != 0 || !e.ok9 ||
      ([0, 1, 2].any fun i => !e.srcs.contains i && !e.imms.contains i && r.src i != 0) ||
      (r.x == 1 && ((e.x == .ctl && !ctlOk false r.ext) || (e.x == .ctlAlways && !ctlOk true r.ext))) then some .unusedBits
  else if !e.ok10 then some .range
  else if !e.ok11 then some .unlisted
  else none

/-- The instruction of a record of fields, or the reason there is none. -/
def decodeRaw (r : Raw) : Decoded :=
  match entryOf r with
  | .error u => .bad u
  | .ok e =>
    match checkEntry e r with
    | some u => .bad u
    | none => .ok e.instr

/-- Decoding a first word and the word at A + 8, which matters only when X = 1 (05 R106). -/
def decodeWords (w e : Word) : Decoded := decodeRaw (Raw.of w e)

/-- The X bit of a first word (05 R106). -/
def xBit (w : Word) : Bool := fieldOf w.toNat 29 1 == 1

/-- A little-endian number of a list of bytes (00 R7). -/
def leNat : List Byte → Nat
  | [] => 0
  | b :: l => b.toNat + 256 * leNat l

/-- The `n` little-endian bytes of a number (00 R7). -/
def leBytes : Nat → Nat → List Byte
  | 0, _ => []
  | n + 1, v => BitVec.ofNat 8 v :: leBytes n (v / 256)

/-- A little-endian word of a list of bytes. -/
def leWord (l : List Byte) : Word := BitVec.ofNat 64 (leNat l)

/-- What a list of instruction bytes gives: an instruction and the bytes after it, an undefined encoding, or too few bytes. -/
inductive DecodedBytes where
  | ok (i : Instr) (rest : List Byte)
  | bad (u : Undef)
  | short
  deriving DecidableEq, Repr

/-- Decoding from bytes in memory order (05 R106); total on any list. -/
def decodeBytes (l : List Byte) : DecodedBytes :=
  if l.length < 8 then .short
  else
    let w := leWord (l.take 8)
    if xBit w then
      if l.length < 16 then .short
      else match decodeWords w (leWord ((l.drop 8).take 8)) with
        | .ok i => .ok i (l.drop 16)
        | .bad u => .bad u
    else match decodeWords w 0 with
      | .ok i => .ok i (l.drop 8)
      | .bad u => .bad u

/-- The instruction the decoder reads from the bits `w`, numbered as the opcode table numbers them, with zero bits above `nbits`. -/
def decodeTableWord (nbits w : Nat) : Option Instr :=
  let v := w % 2 ^ nbits
  match decodeBytes (leBytes 16 v) with
  | .ok i _ => some i
  | _ => none

/-! ## The encoder -/

/-- The fields of a header under an opcode, with [24:0] given. -/
def Hdr.raw (h : Hdr) (opc fn : Nat) (low : Nat) : Raw :=
  { opc := BitVec.ofNat 8 opc, fn := BitVec.ofNat 4 fn, sa := BitVec.ofNat 5 h.sa.sel, sb := BitVec.ofNat 5 h.sb.sel,
    sc := BitVec.ofNat 5 h.sc.sel, la := h.la, pg := BitVec.ofNat 3 h.guard.code, x := if h.ext.isSome then 1 else 0,
    ty := BitVec.ofNat 4 h.ty.code, low := BitVec.ofNat 25 low, ext := h.ext.getD 0 }

/-- [24:0] of R171. -/
def MemF.low (m : MemF) : Nat :=
  m.sp.code * 2 ^ 22 + m.scope.code * 2 ^ 20 + m.ord.code * 2 ^ 18 + m.ch.code * 2 ^ 16 + m.off.toNat

def boolCode (b : Bool) : Nat := if b then 1 else 0

/-- An optional six-bit amount: the variant and [5:0] (06 R142). -/
def amtFn (n : Option (BitVec 6)) : Nat := if n.isSome then 1 else 0
def amtLow (n : Option (BitVec 6)) : Nat := (n.getD 0).toNat
def fieldFn (pl : Option (BitVec 6 × BitVec 7)) : Nat := if pl.isSome then 1 else 0
def fieldLow (pl : Option (BitVec 6 × BitVec 7)) : Nat := (pl.getD (0, 0)).1.toNat + (pl.getD (0, 0)).2.toNat * 2 ^ 6

/-- RM, SAT and TYS of R113. -/
def cvtLow (rm : Rnd) (sat : Bool) (tys : Ty) : Nat := rm.code * 2 ^ 23 + boolCode sat * 2 ^ 22 + tys.code * 2 ^ 18

/-- The fields of an instruction; none for an event. -/
def rawOf : Instr → Option Raw
  | .nop h => some (h.raw 0x00 0 0)
  | .dup h => some (h.raw 0x01 0 0)
  | .save h s => some (h.raw 0x02 0 s.toNat)
  | .fget h s => some (h.raw 0x03 0 s.toNat)
  | .fenter h n => some (h.raw 0x04 0 n.toNat)
  | .fleave h => some (h.raw 0x05 0 0)
  | .spill h n => some (h.raw 0x06 0 n.toNat)
  | .fill h n => some (h.raw 0x07 0 n.toNat)
  | .sget h v => some (h.raw 0x08 0 v.selCode)
  | .add h sat => some (h.raw 0x10 0 (boolCode sat * 2 ^ 22))
  | .sub h sat => some (h.raw 0x11 0 (boolCode sat * 2 ^ 22))
  | .addc h pd => some (h.raw 0x12 0 (predCode pd * 2 ^ 16))
  | .subb h pd => some (h.raw 0x13 0 (predCode pd * 2 ^ 16))
  | .mul h => some (h.raw 0x14 0 0)
  | .mulhi h => some (h.raw 0x15 0 0)
  | .mulw h => some (h.raw 0x16 0 0)
  | .mad h => some (h.raw 0x17 0 0)
  | .div h => some (h.raw 0x18 0 0)
  | .rem h => some (h.raw 0x19 0 0)
  | .divrem h => some (h.raw 0x1A 0 0)
  | .neg h sat => some (h.raw 0x1B 0 (boolCode sat * 2 ^ 22))
  | .abs h sat => some (h.raw 0x1C 0 (boolCode sat * 2 ^ 22))
  | .adiff h => some (h.raw 0x1D 0 0)
  | .min h => some (h.raw 0x1E 0 0)
  | .max h => some (h.raw 0x1F 0 0)
  | .clamp h => some (h.raw 0x20 0 0)
  | .and h => some (h.raw 0x21 0 0)
  | .or h => some (h.raw 0x22 0 0)
  | .xor h => some (h.raw 0x23 0 0)
  | .not h => some (h.raw 0x24 0 0)
  | .andn h => some (h.raw 0x25 0 0)
  | .shl h n => some (h.raw 0x26 (amtFn n) (amtLow n))
  | .shr h n => some (h.raw 0x27 (amtFn n) (amtLow n))
  | .sra h n => some (h.raw 0x28 (amtFn n) (amtLow n))
  | .rotl h n => some (h.raw 0x29 (amtFn n) (amtLow n))
  | .rotr h n => some (h.raw 0x2A (amtFn n) (amtLow n))
  | .bfx h pl => some (h.raw 0x2B (fieldFn pl) (fieldLow pl))
  | .bfi h pl => some (h.raw 0x2C (fieldFn pl) (fieldLow pl))
  | .popc h => some (h.raw 0x2D 0 0)
  | .clz h => some (h.raw 0x2E 0 0)
  | .ctz h => some (h.raw 0x2F 0 0)
  | .brev h => some (h.raw 0x30 0 0)
  | .sel h ps => some (h.raw 0x31 0 (predCode ps))
  | .lea h tys sh => some (h.raw 0x32 0 (tys.code * 2 ^ 18 + sh.toNat))
  | .ext h n => some (h.raw 0x33 (if n.isSome then 1 else 0) (n.getD 0).toNat)
  | .fadd h rm => some (h.raw 0x40 0 (rm.code * 2 ^ 23))
  | .fsub h rm => some (h.raw 0x41 0 (rm.code * 2 ^ 23))
  | .fmul h rm => some (h.raw 0x42 0 (rm.code * 2 ^ 23))
  | .ffma h rm => some (h.raw 0x43 0 (rm.code * 2 ^ 23))
  | .fmin h => some (h.raw 0x44 0 0)
  | .fmax h => some (h.raw 0x45 0 0)
  | .fneg h => some (h.raw 0x46 0 0)
  | .fabs h => some (h.raw 0x47 0 0)
  | .fdiv h rm => some (h.raw 0x48 0 (rm.code * 2 ^ 23))
  | .fsqrt h rm => some (h.raw 0x49 0 (rm.code * 2 ^ 23))
  | .frcp h => some (h.raw 0x4A 0 0)
  | .frsq h => some (h.raw 0x4B 0 0)
  | .fex2 h => some (h.raw 0x4C 0 0)
  | .flg2 h => some (h.raw 0x4D 0 0)
  | .fsin h => some (h.raw 0x4E 0 0)
  | .fcos h => some (h.raw 0x4F 0 0)
  | .ftanh h => some (h.raw 0x50 0 0)
  | .frnd h rm => some (h.raw 0x51 0 (rm.code * 2 ^ 23))
  | .fclass h => some (h.raw 0x52 0 0)
  | .fscale h rm => some (h.raw 0x53 0 (rm.code * 2 ^ 23))
  | .cvt h rm sat tys => some (h.raw 0x60 0 (cvtLow rm sat tys))
  | .qnt h f => some (h.raw 0x61 0 (12 * 2 ^ 18 + f.code))
  | .qntPerm h f => some (h.raw 0x61 1 (12 * 2 ^ 18 + f.code))
  | .dqnt h f => some (h.raw 0x62 0 (1 * 2 ^ 18 + f.code))
  | .dqntScaled h f => some (h.raw 0x62 1 (1 * 2 ^ 18 + f.code))
  | .pack h rm sat tys n => some (h.raw 0x63 0 (cvtLow rm sat tys + n.toNat))
  | .unpack h rm sat tys n => some (h.raw 0x64 0 (cvtLow rm sat tys + n.toNat))
  | .shfl h m wc => some (h.raw 0x68 m.code wc.toNat)
  | .voteAny h ps ng pd => some (h.raw 0x69 0 (pd.code * 2 ^ 16 + boolCode ng * 2 ^ 2 + predCode ps))
  | .voteAll h ps ng pd => some (h.raw 0x69 1 (pd.code * 2 ^ 16 + boolCode ng * 2 ^ 2 + predCode ps))
  | .voteUni h ps ng pd => some (h.raw 0x69 2 (pd.code * 2 ^ 16 + boolCode ng * 2 ^ 2 + predCode ps))
  | .voteBallot h ps ng => some (h.raw 0x69 3 (boolCode ng * 2 ^ 2 + predCode ps))
  | .elect h pd => some (h.raw 0x6A 0 (pd.code * 2 ^ 16))
  | .redux h op => some (h.raw 0x6B op.code 0)
  | .scan h op excl => some (h.raw 0x6C op.code (boolCode excl * 2 ^ 3))
  | .bcast h ln => some (h.raw 0x6D 0 ln.toNat)
  | .bcastFirst h => some (h.raw 0x6D 1 0)
  | .lanemask h m => some (h.raw 0x6E m.code 0)
  | .cmp h cc bop pd => some (h.raw 0x70 0 (pd.code * 2 ^ 16 + bop.code * 2 ^ 4 + cc.code))
  | .fcmp h cc bop pd => some (h.raw 0x71 0 (pd.code * 2 ^ 16 + bop.code * 2 ^ 4 + cc.code))
  | .plog h op pa pb pd => some (h.raw 0x72 0 (pd.code * 2 ^ 16 + op.code * 2 ^ 4 + predCode pb * 2 ^ 2 + predCode pa))
  | .pget h => some (h.raw 0x73 0 0)
  | .pput h => some (h.raw 0x74 0 0)
  | .bra h off => some (h.raw 0x80 0 off.toNat)
  | .brx h => some (h.raw 0x81 0 0)
  | .call h n k off => some { h.raw 0x82 0 off.toNat with sa := n, sb := k }
  | .calli h n k m => some { h.raw 0x83 0 m.toNat with sb := n, sc := k }
  | .ret h m => some (h.raw 0x84 0 m.toNat)
  | .fork h k perm off =>
    some { h.raw 0x85 0 off.toNat with sa := k, sb := BitVec.ofNat 5 (perm.toNat / 32), sc := BitVec.ofNat 5 perm.toNat }
  | .rjn h => some (h.raw 0x86 0 0)
  | .exit h => some (h.raw 0x87 0 0)
  | .trap h c => some (h.raw 0x88 0 c.toNat)
  | .brk h c => some (h.raw 0x89 0 c.toNat)
  | .yield h n => some (h.raw 0x8A 0 n.toNat)
  | .loop h off => some (h.raw 0x8B 0 off.toNat)
  | .ld h m => some (h.raw 0x90 0 m.low)
  | .ldPair h m => some (h.raw 0x90 1 m.low)
  | .st h m => some (h.raw 0x91 0 m.low)
  | .stPair h m => some (h.raw 0x91 1 m.low)
  | .prefL1 h m => some (h.raw 0x92 0 m.low)
  | .prefL2 h m => some (h.raw 0x92 1 m.low)
  | .sptag h => some (h.raw 0x93 0 0)
  | .spsetTag h => some (h.raw 0x94 0 0)
  | .spsetUntag h => some (h.raw 0x94 1 0)
  | .spmove h => some (h.raw 0x95 0 0)
  | .spshare h => some (h.raw 0x96 0 0)
  | .spdrop h => some (h.raw 0x97 0 0)
  | .seal h => some (h.raw 0x98 0 0)
  | .ifence h => some (h.raw 0x99 0 0)
  | .stblk h sp f => some (h.raw 0x9A 0 (sp.code * 2 ^ 22 + f.code))
  | .ldblk h sp f => some (h.raw 0x9B 0 (sp.code * 2 ^ 22 + f.code))
  | .atom h op m => some (h.raw 0xA0 op.code m.low)
  | .cas h m => some (h.raw 0xA1 0 m.low)
  | .red h op m => some (h.raw 0xA2 op.code m.low)
  | .fatom h op m => some (h.raw 0xA3 op.code m.low)
  | .fence h sc => some (h.raw 0xA8 0 (sc.code * 2 ^ 20))
  | .fenceAcq h sc => some (h.raw 0xA8 1 (sc.code * 2 ^ 20))
  | .fenceRel h sc => some (h.raw 0xA8 2 (sc.code * 2 ^ 20))
  | .barMeet h bid cnt => some (h.raw 0xA9 0 (cnt.toNat * 2 ^ 4 + bid.toNat))
  | .barPost h bid cnt => some (h.raw 0xA9 1 (cnt.toNat * 2 ^ 4 + bid.toNat))
  | .barAwait h bid => some (h.raw 0xA9 2 bid.toNat)
  | .cbarMeet h => some (h.raw 0xAA 0 0)
  | .cbarPost h => some (h.raw 0xAA 1 0)
  | .cbarAwait h => some (h.raw 0xAA 2 0)
  | .mwait h sp sc cc => some (h.raw 0xAB 0 (sp.code * 2 ^ 22 + sc.code * 2 ^ 20 + cc.code))
  | .acq h sp sc => some (h.raw 0xAC 0 (sp.code * 2 ^ 22 + sc.code * 2 ^ 20))
  | .acqTry h sp sc => some (h.raw 0xAC 1 (sp.code * 2 ^ 22 + sc.code * 2 ^ 20))
  | .rel h sp sc => some (h.raw 0xAD 0 (sp.code * 2 ^ 22 + sc.code * 2 ^ 20))
  | .wregHold h sp => some (h.raw 0xAE 0 (sp.code * 2 ^ 22))
  | .wregWait h sp => some (h.raw 0xAE 1 (sp.code * 2 ^ 22))
  | .wdropHold h sp => some (h.raw 0xAF 0 (sp.code * 2 ^ 22))
  | .wdropWait h sp => some (h.raw 0xAF 1 (sp.code * 2 ^ 22))
  | .mma h tile aseg bfb => some (h.raw 0xC0 0 (tile.toNat * 2 ^ 18 + aseg.toNat * 2 ^ 8 + bfb.toNat * 2 ^ 2))
  | .mmaFree h tile aseg bfb => some (h.raw 0xC0 1 (tile.toNat * 2 ^ 18 + aseg.toNat * 2 ^ 8 + bfb.toNat * 2 ^ 2))
  | .mmas h tile aseg fa fb =>
    some (h.raw 0xC1 0 (tile.toNat * 2 ^ 18 + aseg.toNat * 2 ^ 8 + boolCode fa * 2 + boolCode fb))
  | .mmsm h stile otile pseg half =>
    some (h.raw 0xC2 0 (stile.toNat * 2 ^ 18 + otile.toNat * 2 ^ 11 + pseg.toNat * 2 + boolCode half))
  | .opfence h => some (h.raw 0xC3 0 0)
  | .mmwait h n => some (h.raw 0xC4 0 n.toNat)
  | .acczero h tile => some (h.raw 0xC5 0 (tile.toNat * 2 ^ 18))
  | .accrd h tile => some (h.raw 0xC6 0 (tile.toNat * 2 ^ 18))
  | .accrdMax h tile => some (h.raw 0xC6 1 (tile.toNat * 2 ^ 18))
  | .accrdSum h tile => some (h.raw 0xC6 2 (tile.toNat * 2 ^ 18))
  | .accwr h tile => some (h.raw 0xC7 0 (tile.toNat * 2 ^ 18))
  | .accwrMax h tile => some (h.raw 0xC7 1 (tile.toNat * 2 ^ 18))
  | .accwrSum h tile => some (h.raw 0xC7 2 (tile.toNat * 2 ^ 18))
  | .accld h tile sp => some (h.raw 0xC8 0 (tile.toNat * 2 ^ 18 + sp.code * 2 ^ 15))
  | .accst h tile sp => some (h.raw 0xC9 0 (tile.toNat * 2 ^ 18 + sp.code * 2 ^ 15))
  | .tcopyG2s h tsr seg => some (h.raw 0xD0 0 (tsr.toNat * 2 ^ 13 + seg.toNat * 2 ^ 3))
  | .tcopyS2g h tsr seg free => some (h.raw 0xD0 0 (1 * 2 ^ 23 + tsr.toNat * 2 ^ 13 + seg.toNat * 2 ^ 3 + boolCode free * 2 ^ 2))
  | .tcopyS2c h tsr seg free => some (h.raw 0xD0 0 (2 * 2 ^ 23 + tsr.toNat * 2 ^ 13 + seg.toNat * 2 ^ 3 + boolCode free * 2 ^ 2))
  | .tgather h tsr seg => some (h.raw 0xD1 0 (tsr.toNat * 2 ^ 13 + seg.toNat * 2 ^ 3))
  | .twaitC h n => some (h.raw 0xD2 0 n.toNat)
  | .twaitM h n => some (h.raw 0xD2 0 (1 * 2 ^ 8 + n.toNat))
  | .tfree h => some (h.raw 0xD3 0 0)
  | .tset h v c => some (h.raw 0xD4 0 (boolCode v * 2 + boolCode c))
  | .drainSp h => some (h.raw 0xD5 0 0)
  | .drainAcc h => some (h.raw 0xD5 0 1)
  | .drainG h => some (h.raw 0xD5 0 2)
  | .drainRem h => some (h.raw 0xD5 0 3)
  | .gset h g => some (h.raw 0xD6 0 g.toNat)
  | .gclr h g => some (h.raw 0xD7 0 g.toNat)
  | .glaunch h => some (h.raw 0xD8 0 0)
  | .sysrd h c => some (h.raw 0xE0 0 c.code)
  | .syswr h c => some (h.raw 0xE1 0 c.code)
  | .tret h => some (h.raw 0xE2 0 0)
  | .tretAck h => some (h.raw 0xE2 1 0)
  | .tretKill h => some (h.raw 0xE2 2 0)
  | .accspill h => some (h.raw 0xE3 0 0)
  | .accfill h => some (h.raw 0xE4 0 0)
  | .accfillZero h => some (h.raw 0xE4 1 0)
  | .wftrdEdge h => some (h.raw 0xE5 0 0)
  | .wftrdObj h => some (h.raw 0xE5 1 0)
  | .tlbinvPage h => some (h.raw 0xE6 0 0)
  | .tlbinvAsid h => some (h.raw 0xE6 1 0)
  | .tlbinvAll h => some (h.raw 0xE6 2 0)
  | .halt h => some (h.raw 0xE7 0 0)
  | .resume h => some (h.raw 0xE8 0 0)
  | _ => none

/-- The words of an instruction: one, or two with an extension word; none for an event, which has no word (05 R106). -/
def encode (i : Instr) : List Word :=
  match rawOf i with
  | none => []
  | some r => if r.x = 1 then [r.word, r.ext] else [r.word]

/-- Decoding a list of words. -/
def decodeList : List Word → Decoded
  | [] => .bad .opc
  | [w] => decodeWords w 0
  | w :: e :: _ => decodeWords w (if xBit w then e else 0)

end Sys2Proof
end

