-- ==== Sys2Proof/Config.lean ====
section
/-!
DEFINITION. What one part fixes and what the spec leaves open. The opaque constants have no body: a statement about a free value
holds for every value of it (00 R4, R5).
-/
namespace Sys2Proof.Config

-- DESIGN CHOICE (log 3, safe): Every undefined value is Config.freeWord applied to the counter State.freeCtr, and every unspecified outcome is Config.freeNat of it modulo the number of outcomes; the counter then advances.
/-- A free value of 64 bits, one for each index of `State.freeCtr` (00 R4). -/
opaque freeWord : Nat → Word

-- DESIGN CHOICE (log 3, safe): see notes/assumptions/3.md.
/-- A free choice, one for each index of `State.freeCtr`; reduced modulo the number of allowed outcomes (00 R5). -/
opaque freeNat : Nat → Nat

-- PRESUMED (log 9, safe and in part unsafe): The result is a free function of the source, Config.trans, where that lies within the bound of R148 of the true value; otherwise it is a value computed from a rational approximation that lies within the bound.
/-- The result bits a transcendental operation gives for a source, before the bound of R148 is applied (06 R148). The arguments are
the operation (0 frcp, 1 frsq, 2 fex2, 3 flg2, 4 fsin, 5 fcos, 6 ftanh) and the f32 source bits. -/
opaque trans : Nat → Nat → Nat

-- PRESUMED (log 10, safe and in part unsafe): SHAKE256, SHA3-384, ML-DSA signing and verifying, the certificate chains, the boot ROM's digest, the fuses and the serial number are free constants of Config.
/-- SHAKE256 of a list of bytes, to a number of bytes (12 R327, R329). -/
opaque shake256 : List Byte → Nat → List Byte

-- PRESUMED (log 10, safe and in part unsafe): see notes/assumptions/10.md.
/-- SHA3-384 of a list of bytes (12 R330). -/
opaque sha3 : List Byte → List Byte

/-- Whether firmware of a version writes a handover-record format (12 R333, 20 R486): the HOVER of the running firmware, then the image's. -/
opaque writesHover : Nat → Nat → Bool

/-- The digest of the Texis boot ROM, which slot 0 holds (12 R329). -/
opaque romDigest : List Byte

/-- The digest of the I/O die configuration in the boot ROM, which boot step 1 records in slot 1 (12 R326). -/
opaque ioDigest : List Byte

/-- ML-DSA signing of a message with the device key (12 R330). -/
opaque mldsaSign : List Byte → List Byte

/-- Whether an ML-DSA-65 signature verifies: public key, message, signature (12 R328). -/
opaque mldsaVerify : List Byte → List Byte → List Byte → Bool

/-- The certificate chain of an SPDM slot (12 R330). -/
opaque certChain : Nat → List Byte

/-- What a byte of the staged image holds that no write has staged since the device reset, by its offset: the banks keep nothing across it
(12 R326; log 3). -/
opaque bankByte : Nat → Byte

/-- The serial number and the stepping of this part (12 R319). -/
opaque serial : Nat
opaque stepping : Nat

/-- The fuse words of this part: vendor key hashes by slot, revoked slots, minimum security version (12 R328). -/
opaque keyHash : Nat → Nat
opaque revoked : Nat → Bool
opaque minSvn : Nat

/-- The hash of a line's address that chooses a port of a peer's route mask (12 R346). -/
opaque portHash : Nat → Nat

/-- Fixed receive and transmit latencies of an Ethernet port in units of 2^-16 ns (12 R345). -/
opaque rxLat : Nat → Nat
opaque txLat : Nat → Nat

end Sys2Proof.Config
end

