-- ==== Sys2Proof/Machine/Float.lean ====
section
/-!
DEFINITION. Number formats and exact arithmetic (chapter 04): floating-point values, the one rounding of R82, the flags of R83, and
the integer helpers of R78. Flags are the five bits of FPX (R85): NV 16, DZ 8, OF 4, UF 2, NX 1.
-/
namespace Sys2Proof.Machine

/-! ## Integers (04 R77, R78, 03 R54) -/

/-- The low `n` bits of a word as a number. -/
def lowBits (n : Nat) (v : Word) : Nat := v.toNat % 2 ^ n

/-- A `w`-bit number read as two's complement. -/
def signedOf (w n : Nat) : Int := if n % 2 ^ w < 2 ^ (w - 1) then (n % 2 ^ w : Nat) else ((n % 2 ^ w : Nat) : Int) - (2 ^ w : Nat)

/-- The numeric meaning of a source under its type (04 R78). -/
def intOf (t : Ty) (v : Word) : Int := if t.signed then signedOf t.width v.toNat else ((lowBits t.width v : Nat) : Int)

/-- The source as an unsigned number of its type's width. -/
def unsOf (t : Ty) (v : Word) : Nat := lowBits t.width v

/-- An integer reduced to 64 bits. -/
def wordOfInt (i : Int) : Word := BitVec.ofInt 64 i

/-- A result of a type, reduced modulo 2^w and widened to 64 bits (03 R54). -/
def widen (t : Ty) (i : Int) : Word :=
  if t.signed then wordOfInt (signedOf t.width (i % (2 ^ t.width : Nat)).toNat)
  else BitVec.ofNat 64 (i % (2 ^ t.width : Nat)).toNat

/-- Smallest and largest value of an integer type. -/
def tyMin (t : Ty) : Int := if t.signed then -((2 ^ (t.width - 1) : Nat) : Int) else 0
def tyMax (t : Ty) : Int := if t.signed then ((2 ^ (t.width - 1) : Nat) : Int) - 1 else ((2 ^ t.width : Nat) : Int) - 1

/-- An exact value clamped to a type (06 R140). -/
def clampTo (t : Ty) (i : Int) : Int := max (tyMin t) (min (tyMax t) i)

/-! ## Floating-point formats (04 R77, R80, R91) -/

abbrev Flags := BitVec 5
def fNV : Flags := 16
def fDZ : Flags := 8
def fOF : Flags := 4
def fUF : Flags := 2
def fNX : Flags := 1

/-- A binary format: exponent bits, fraction bits, bias, largest finite value as significand and exponent of its unit, and whether it has
infinities. -/
structure FFmt where
  eb : Nat
  fb : Nat
  bias : Nat
  maxM : Nat
  maxE : Int
  hasInf : Bool
  deriving DecidableEq, Repr

def ieee (eb fb : Nat) : FFmt :=
  { eb := eb, fb := fb, bias := 2 ^ (eb - 1) - 1, maxM := 2 ^ (fb + 1) - 1,
    maxE := (2 ^ eb - 2 : Nat) - ((2 ^ (eb - 1) - 1 : Nat) : Int) - fb, hasInf := true }

/-- The format of a float type; the other types give binary32, which no caller uses. -/
def ffmt : Ty → FFmt
  | .f16 => ieee 5 10
  | .bf16 => ieee 8 7
  | .f64 => ieee 11 52
  | .e4m3 => { eb := 4, fb := 3, bias := 7, maxM := 14, maxE := 5, hasInf := false }
  | .e5m2 => ieee 5 2
  | _ => ieee 8 23

/-- A decoded floating-point value: a NaN, an infinity, or (-1)^neg * m * 2^e. -/
inductive FV where
  | nan (sig : Bool) | inf (neg : Bool) | fin (neg : Bool) (m : Nat) (e : Int)
  deriving DecidableEq, Repr

/-- The canonical NaN of each type (04 R81). -/
def canonNaN : Ty → Nat
  | .f64 => 0x7FF8000000000000 | .f16 => 0x7E00 | .bf16 => 0x7FC0 | .e4m3 => 0x7F | .e5m2 => 0x7E | _ => 0x7FC00000

/-- Exponent of the unit of the last place of subnormals. -/
def FFmt.qmin (f : FFmt) : Int := 1 - (f.bias : Int) - f.fb

/-- The value of an encoding (04 R77, R80). The 8-bit types have no signalling NaNs (R81). -/
def decodeF (t : Ty) (n : Nat) : FV :=
  let f := ffmt t
  let neg := (n / 2 ^ (f.eb + f.fb)) % 2 == 1
  let e := (n / 2 ^ f.fb) % 2 ^ f.eb
  let m := n % 2 ^ f.fb
  if t = .e4m3 then
    if e = 15 ∧ m = 7 then .nan false
    else if e = 0 then .fin neg m f.qmin else .fin neg (m + 2 ^ f.fb) ((e : Int) - f.bias - f.fb)
  else if e = 2 ^ f.eb - 1 then
    if m = 0 then .inf neg else .nan (t != .e5m2 && m < 2 ^ (f.fb - 1))
  else if e = 0 then .fin neg m f.qmin
  else .fin neg (m + 2 ^ f.fb) ((e : Int) - f.bias - f.fb)

def signBits (t : Ty) (neg : Bool) : Nat := if neg then 2 ^ (t.width - 1) else 0

-- DEDUCED (log 61, unsafe): an integer that overflows e4m3 where RM directs an infinity gives 0x7F with OF and NX, as a float source does.
/-- The encoding of an infinity; e4m3 has none and gives its NaN (04 R88). -/
def infBits (t : Ty) (neg : Bool) : Nat :=
  let f := ffmt t
  if f.hasInf then signBits t neg + (2 ^ f.eb - 1) * 2 ^ f.fb else canonNaN t

/-- The encoding of m * 2^e with m < 2^(fb+1) and e at the unit the value is stored with. -/
def packFin (t : Ty) (neg : Bool) (m : Nat) (e : Int) : Nat :=
  let f := ffmt t
  if m < 2 ^ f.fb then signBits t neg + m
  else signBits t neg + (e + f.bias + f.fb).toNat * 2 ^ f.fb + (m - 2 ^ f.fb)

def maxBits (t : Ty) (neg : Bool) : Nat := packFin t neg (ffmt t).maxM (ffmt t).maxE

/-- x * 2^k for a signed k, as a pair of numerator and denominator. -/
def scale2 (n d : Nat) (k : Int) : Nat × Nat := if 0 ≤ k then (n * 2 ^ k.toNat, d) else (n, d * 2 ^ (-k).toNat)

/-- floor(log2(n/d)) for positive n and d. -/
def floorLog2 (n d : Nat) : Int :=
  let k : Int := (Nat.log2 n : Int) - Nat.log2 d
  let (a, b) := scale2 n d (-k)
  if a < b then k - 1 else k

/-- Rounding the non-negative rational n/d to an integer under a mode, with the sign of the whole value (04 R82); the second part says
whether it was exact. -/
def roundInt (rm : Rnd) (neg : Bool) (n d : Nat) : Nat × Bool :=
  let q := n / d
  let r := n % d
  if r = 0 then (q, true)
  else
    let up := match rm with
      | .rn => decide (2 * r > d) || (decide (2 * r = d) && q % 2 == 1)
      | .rz => false
      | .ru => !neg
      | .rd => neg
    (if up then q + 1 else q, false)

/-- Whether an overflow goes to infinity under the mode (04 R83). -/
def overflowUp (rm : Rnd) (neg : Bool) : Bool :=
  match rm with
  | .rn => true
  | .rz => false
  | .ru => !neg
  | .rd => neg

/-- The one rounding of R82: the positive rational n/d * 2^e, with sign, into a type. Flags OF, UF and NX under R83, tininess
detected after rounding; FTZ under R86. -/
def roundF (t : Ty) (rm : Rnd) (ftz sat : Bool) (neg : Bool) (n d : Nat) (e : Int) : Nat × Flags :=
  if n = 0 then (signBits t neg, 0)
  else
    let f := ffmt t
    let lg := floorLog2 n d + e
    -- with an unbounded exponent
    let q0 := lg - f.fb
    let (a0, b0) := scale2 n d (e - q0)
    let (m0, _) := roundInt rm neg a0 b0
    let tiny := decide (m0 = 0) || decide ((Nat.log2 m0 : Int) + q0 < 1 - (f.bias : Int))
    let q := max q0 f.qmin
    let (a, b) := scale2 n d (e - q)
    let (m, exact) := roundInt rm neg a b
    -- a carry out of the significand
    let (m, q) := if m = 2 ^ (f.fb + 1) then (2 ^ f.fb, q + 1) else (m, q)
    let above := decide (q > f.maxE) || (decide (q = f.maxE) && decide (m > f.maxM))
    if above then
      (if sat then maxBits t neg else if overflowUp rm neg then infBits t neg else maxBits t neg, fOF ||| fNX)
    else if ftz && decide (m ≠ 0) && decide (m < 2 ^ f.fb) then (signBits t neg, fUF ||| fNX)
    else (packFin t neg m q, if exact then 0 else if tiny then fUF ||| fNX else fNX)

/-- A source with FTZ applied (04 R86): a subnormal reads as zero of its sign. -/
def readF (t : Ty) (ftz : Bool) (v : Word) : FV :=
  match decodeF t (lowBits t.width v) with
  | .fin neg m e => if ftz && decide (m < 2 ^ (ffmt t).fb) then .fin neg 0 e else .fin neg m e
  | x => x

def FV.isSig : FV → Bool
  | .nan true => true
  | _ => false

def FV.isNaN : FV → Bool
  | .nan _ => true
  | _ => false

/-- The result when some source is a NaN: the canonical NaN, with NV for a signalling source (04 R81). -/
def nanResult (t : Ty) (l : List FV) : Nat × Flags := (canonNaN t, if l.any FV.isSig then fNV else 0)

/-- An invalid operation. -/
def invalid (t : Ty) : Nat × Flags := (canonNaN t, fNV)

/-- The signed significand of m * 2^e at the unit 2^k, for k at most e. -/
def align (neg : Bool) (m : Nat) (e k : Int) : Int :=
  let v : Int := ((m * 2 ^ (e - k).toNat : Nat) : Int)
  if neg then -v else v

/-- The sign of an exact zero sum (IEEE 754-2019): the common sign, else minus only toward minus infinity. -/
def zeroSign (rm : Rnd) (na nb : Bool) : Bool := if na == nb then na else rm == .rd

-- PRESUMED (log 16, unsafe): An exact sum of zero from operands of unlike signs is +0 in every rounding mode but toward minus infinity, where it is -0, as in IEEE 754.
/-- A sum of finite values, rounded once. -/
def addFin (t : Ty) (rm : Rnd) (ftz : Bool) (na : Bool) (ma : Nat) (ea : Int) (nb : Bool) (mb : Nat) (eb : Int) : Nat × Flags :=
  let k := min ea eb
  let v := align na ma ea k + align nb mb eb k
  if v = 0 then (signBits t (if ma = 0 ∧ mb = 0 then zeroSign rm na nb else rm == .rd), 0)
  else roundF t rm ftz false (decide (v < 0)) v.natAbs 1 k

-- PRESUMED (log 16, unsafe): see notes/assumptions/16.md.
/-- a + b (06 R145). -/
def fAdd (t : Ty) (rm : Rnd) (ftz : Bool) (a b : FV) : Nat × Flags :=
  match a, b with
  | .nan _, _ | _, .nan _ => nanResult t [a, b]
  | .inf x, .inf y => if x == y then (infBits t x, 0) else invalid t
  | .inf x, _ => (infBits t x, 0)
  | _, .inf y => (infBits t y, 0)
  | .fin na ma ea, .fin nb mb eb => addFin t rm ftz na ma ea nb mb eb

def FV.negate : FV → FV
  | .nan s => .nan s
  | .inf n => .inf (!n)
  | .fin n m e => .fin (!n) m e

/-- a * b (06 R145). -/
def fMul (t : Ty) (rm : Rnd) (ftz : Bool) (a b : FV) : Nat × Flags :=
  match a, b with
  | .nan _, _ | _, .nan _ => nanResult t [a, b]
  | .inf x, .inf y => (infBits t (x != y), 0)
  | .inf x, .fin y m _ => if m = 0 then invalid t else (infBits t (x != y), 0)
  | .fin x m _, .inf y => if m = 0 then invalid t else (infBits t (x != y), 0)
  | .fin x ma ea, .fin y mb eb => roundF t rm ftz false (x != y) (ma * mb) 1 (ea + eb)

/-- a * b + c, rounded once (06 R145). -/
def fFma (t : Ty) (rm : Rnd) (ftz : Bool) (a b c : FV) : Nat × Flags :=
  let zeroInf := match a, b with
    | .inf _, .fin _ m _ => decide (m = 0)
    | .fin _ m _, .inf _ => decide (m = 0)
    | _, _ => false
  if zeroInf then invalid t
  else match a, b with
    | .nan _, _ | _, .nan _ => nanResult t [a, b, c]
    | .fin x ma ea, .fin y mb eb =>
      match c with
      | .nan _ => nanResult t [a, b, c]
      | .inf z => (infBits t z, 0)
      | .fin z mc ec => addFin t rm ftz (x != y) (ma * mb) (ea + eb) z mc ec
    | _, _ =>
      let s := match a, b with
        | .inf x, .inf y | .inf x, .fin y _ _ | .fin x _ _, .inf y => x != y
        | _, _ => false
      match c with
      | .nan _ => nanResult t [a, b, c]
      | .inf z => if s == z then (infBits t s, 0) else invalid t
      | .fin _ _ _ => (infBits t s, 0)

/-- a / b (06 R145). -/
def fDiv (t : Ty) (rm : Rnd) (ftz : Bool) (a b : FV) : Nat × Flags :=
  match a, b with
  | .nan _, _ | _, .nan _ => nanResult t [a, b]
  | .inf _, .inf _ => invalid t
  | .inf x, .fin y _ _ => (infBits t (x != y), 0)
  | .fin x _ _, .inf y => (signBits t (x != y), 0)
  | .fin x ma ea, .fin y mb eb =>
    if mb = 0 then (if ma = 0 then invalid t else (infBits t (x != y), fDZ))
    else if ma = 0 then (signBits t (x != y), 0)
    else roundF t rm ftz false (x != y) ma mb (ea - eb)

/-- floor of the square root, from bit `i` downward. -/
def isqrtFrom (n : Nat) : Nat → Nat → Nat
  | 0, r => r
  | i + 1, r => isqrtFrom n i (if (r + 2 ^ i) * (r + 2 ^ i) ≤ n then r + 2 ^ i else r)

/-- floor of the square root. -/
def isqrt (n : Nat) : Nat := isqrtFrom n (Nat.log2 n / 2 + 1) 0

/-- The square root of m * 2^e, correctly rounded (06 R145): the root with 64 bits to spare, and a sticky bit below it. -/
def fSqrt (t : Ty) (rm : Rnd) (ftz : Bool) (a : FV) : Nat × Flags :=
  match a with
  | .nan _ => nanResult t [a]
  | .inf true => invalid t
  | .inf false => (infBits t false, 0)
  | .fin neg m e =>
    if m = 0 then (signBits t neg, 0)
    else if neg then invalid t
    else
      let odd := decide (e % 2 = 1)
      let e1 := if odd then e - 1 else e
      let n := (if odd then 2 * m else m) * 2 ^ 128
      let r := isqrt n
      roundF t rm ftz false false (2 * r + (if r * r = n then 0 else 1)) 1 (e1 / 2 - 65)

/-- Comparison of two values that are no NaN: less, equal or greater; -0 equals +0. -/
def fCompare (a b : FV) : Ordering :=
  match a, b with
  | .inf x, .inf y => if x == y then .eq else if x then .lt else .gt
  | .inf x, _ => if x then .lt else .gt
  | _, .inf y => if y then .gt else .lt
  | .fin na ma ea, .fin nb mb eb => let k := min ea eb; compare (align na ma ea k) (align nb mb eb k)
  | _, _ => .eq

/-- minimumNumber and maximumNumber (06 R146), on the source bits: -0 is less than +0, and a NaN gives the other source. -/
def fMinMax (t : Ty) (ftz : Bool) (isMax : Bool) (va vb : Word) : Nat × Flags :=
  let a := readF t ftz va
  let b := readF t ftz vb
  let fl : Flags := if a.isSig || b.isSig then fNV else 0
  let bitsOf (x : FV) (v : Word) : Nat :=
    match x with
    | .nan _ => canonNaN t
    | .inf n => infBits t n
    | .fin n m _ => if m = 0 then signBits t n else lowBits t.width v
  match a.isNaN, b.isNaN with
  | true, true => (canonNaN t, fl)
  | true, false => (bitsOf b vb, fl)
  | false, true => (bitsOf a va, fl)
  | false, false =>
    let neg (x : FV) : Bool := match x with
      | .inf n => n
      | .fin n _ _ => n
      | .nan _ => false
    let aLess := match fCompare a b with
      | .lt => true
      | .gt => false
      | .eq => neg a
    (if aLess == isMax then bitsOf b vb else bitsOf a va, fl)

/-- fneg and fabs (06 R146): the sign bit alone, except that a NaN gives the canonical NaN; a subnormal source is flushed under FTZ. -/
def fSign (t : Ty) (ftz : Bool) (f : Bool → Bool) (v : Word) : Nat × Flags :=
  match readF t ftz v with
  | .nan _ => (canonNaN t, 0)
  | .inf n => (infBits t (f n), 0)
  | .fin n m _ => if m = 0 then (signBits t (f n), 0) else (signBits t (f n) + lowBits (t.width - 1) v, 0)

/-- frnd (06 R145, R146): to an integral value in the direction of RM, without NX. -/
def fRound (t : Ty) (rm : Rnd) (ftz : Bool) (v : Word) : Nat × Flags :=
  match readF t ftz v with
  | .nan s => nanResult t [.nan s]
  | .inf n => (infBits t n, 0)
  | .fin neg m e =>
    if 0 ≤ e then ((roundF t rm ftz false neg m 1 e).1, 0)
    else
      let (q, _) := roundInt rm neg m (2 ^ (-e).toNat)
      ((roundF t rm ftz false neg q 1 0).1, 0)

/-- fscale (06 R145): a * 2^b, rounded once. An exponent beyond 20,000 either way gives the same result as any larger one. -/
def fScale (t : Ty) (rm : Rnd) (ftz : Bool) (a : FV) (b : Int) : Nat × Flags :=
  match a with
  | .nan _ => nanResult t [a]
  | .inf n => (infBits t n, 0)
  | .fin neg m e => roundF t rm ftz false neg m 1 (e + max (-20000) (min 20000 b))

/-- fclass (06 R147), on the raw bits. -/
def fClass (t : Ty) (n : Nat) : Nat :=
  match decodeF t n with
  | .nan s => if s then 2 ^ 8 else 2 ^ 9
  | .inf neg => if neg then 1 else 2 ^ 7
  | .fin neg m _ =>
    if m = 0 then (if neg then 2 ^ 3 else 2 ^ 4)
    else if m < 2 ^ (ffmt t).fb then (if neg then 2 ^ 2 else 2 ^ 5)
    else (if neg then 2 ^ 1 else 2 ^ 6)

/-- The quiet comparison of fcmp (06 R159). -/
def fCond (cc : FCond) (a b : FV) : Bool :=
  if a.isNaN || b.isNaN then cc == .ne || cc == .uno
  else
    let o := fCompare a b
    match cc with
    | .eq => o == .eq | .ne => o != .eq | .lt => o == .lt | .le => o != .gt | .gt => o == .gt | .ge => o != .lt
    | .ord => true | .uno => false

/-! ## Conversions (04 R88) -/

/-- A float to an integer type under RM: out of range and infinities saturate with NV, a NaN gives 0 with NV. -/
def floatToInt (t : Ty) (rm : Rnd) (a : FV) : Int × Flags :=
  match a with
  | .nan _ => (0, fNV)
  | .inf n => (if n then tyMin t else tyMax t, fNV)
  | .fin neg m e =>
    -- a magnitude of 2^200 and above is out of every range
    if decide (m ≠ 0) && decide ((Nat.log2 m : Int) + e > 200) then (if neg then tyMin t else tyMax t, fNV)
    else
      let (n, d) := scale2 m 1 e
      let (q, exact) := roundInt rm neg n d
      let v : Int := if neg then -(q : Int) else q
      if v < tyMin t then (tyMin t, fNV) else if v > tyMax t then (tyMax t, fNV) else (v, if exact then 0 else fNX)

/-- `cvt` between any two lane types (04 R88, 06 R149): the pushed word before widening is the result's bits, widened per R54. -/
def convert (dst src : Ty) (rm : Rnd) (sat ftz : Bool) (v : Word) : Word × Flags :=
  if src.isFloat then
    let a := readF src ftz v
    if dst.isFloat then
      match a with
      | .nan s => (BitVec.ofNat 64 (canonNaN dst), if s then fNV else 0)
      | .inf n => (BitVec.ofNat 64 (if sat then maxBits dst n else infBits dst n), 0)
      | .fin neg m e => let (b, fl) := roundF dst rm ftz sat neg m 1 e; (BitVec.ofNat 64 b, fl)
    else let (i, fl) := floatToInt dst rm a; (widen dst i, fl)
  else
    let i := intOf src v
    if dst.isFloat then
      let (b, fl) := roundF dst rm ftz sat (decide (i < 0)) i.natAbs 1 0
      (BitVec.ofNat 64 b, fl)
    else (widen dst (if sat then clampTo dst i else i), 0)

/-! ## Exact sums (04 R103, R104, 06 R158) -/

/-- A sum of exact values: what R104 needs to know of it, whether some term is no -0, and the finite part as v * 2^e. -/
structure Sum where
  nan : Bool
  pinf : Bool
  ninf : Bool
  pos : Bool
  v : Int
  e : Int
  deriving DecidableEq, Repr

def Sum.zero : Sum := { nan := false, pinf := false, ninf := false, pos := false, v := 0, e := 0 }

/-- Adding x * 2^k exactly. -/
def Sum.addDyadic (s : Sum) (x k : Int) : Sum :=
  let q := min s.e k
  { s with v := s.v * 2 ^ (s.e - q).toNat + x * 2 ^ (k - q).toNat, e := q }

def Sum.add (s : Sum) (a : FV) : Sum :=
  match a with
  | .nan _ => { s with nan := true }
  | .inf n => if n then { s with ninf := true } else { s with pinf := true }
  | .fin neg m e => if m = 0 then { s with pos := s.pos || !neg } else { s with pos := true }.addDyadic (if neg then -(m : Int) else m) e

/-- An exact product as a value (04 R104). -/
def mulExact (a b : FV) : FV :=
  match a, b with
  | .nan _, _ | _, .nan _ => .nan false
  | .inf x, .inf y => .inf (x != y)
  | .inf x, .fin y m _ => if m = 0 then .nan false else .inf (x != y)
  | .fin x m _, .inf y => if m = 0 then .nan false else .inf (x != y)
  | .fin x ma ea, .fin y mb eb => .fin (x != y) (ma * mb) (ea + eb)

/-- The sum of one or more terms as one value; a zero sum is +0, but -0 where every term is -0 (IEEE 754-2019; log 16). -/
def Sum.value (s : Sum) : FV :=
  if s.nan || (s.pinf && s.ninf) then .nan false
  else if s.pinf then .inf false else if s.ninf then .inf true
  else .fin (decide (s.v < 0) || !s.pos) s.v.natAbs s.e

/-- round_rne into f32 of acc + S, subnormals kept (04 R103). -/
def accStep (acc : BitVec 32) (s : Sum) : BitVec 32 :=
  BitVec.ofNat 32 (fAdd .f32 .rn false (decodeF .f32 acc.toNat) s.value).1

/-- round_rne of a value into f32, subnormals kept. -/
def rneF32 (a : FV) : Nat :=
  match a with
  | .nan _ => canonNaN .f32
  | .inf n => infBits .f32 n
  | .fin neg m e => (roundF .f32 .rn false false neg m 1 e).1

/-! ## Block formats (04 R89 to R97) -/

/-- Bits of an element field: b + 1 for SE, w for MX (04 R89, R91). -/
def elemBits : BlkFmt → Nat
  | .se7 => 8 | .se4 => 5 | .se2 => 3 | .mxe4m3 | .mxe5m2 | .mxint8 => 8 | .mxe3m2 | .mxe2m3 => 6 | .mxfp4 => 4

/-- Lanes and elements of a block (06 R152). -/
def blkLanes (f : BlkFmt) : Nat := if Wf.seBlock f then 16 else 32

/-- Exponent bits, fraction bits and bias of an MX float element (04 R91). -/
def mxParams : BlkFmt → Nat × Nat × Nat
  | .mxe4m3 => (4, 3, 7) | .mxe5m2 => (5, 2, 15) | .mxe3m2 => (3, 2, 3) | .mxe2m3 => (2, 3, 1) | _ => (2, 1, 1)

def mxEmax : BlkFmt → Int
  | .mxe4m3 => 8 | .mxe5m2 => 15 | .mxe3m2 => 4 | .mxe2m3 => 2 | .mxfp4 => 2 | _ => 0

/-- The value of an SE element (04 R90). -/
def seValue (f : BlkFmt) (e : Nat) (mu : Bool) (field : Nat) : FV :=
  let b := elemBits f - 1
  if e = 255 then .nan false
  else if e = 0 then .fin false 0 0
  else .fin (field / 2 ^ b % 2 == 1) (field % 2 ^ b) ((e : Int) - 127 - (if mu then 1 else 0) - ((b : Int) - 1))

/-- The value of an MX element field before its scale (04 R91). -/
def mxElem (f : BlkFmt) (field : Nat) : FV :=
  match f with
  | .mxe4m3 => decodeF .e4m3 field
  | .mxe5m2 => decodeF .e5m2 field
  | .mxint8 => let i := signedOf 8 field; .fin (decide (i < 0)) i.natAbs (-6)
  | _ =>
    let (eb, fb, bias) := mxParams f
    let neg := field / 2 ^ (eb + fb) % 2 == 1
    let e := field / 2 ^ fb % 2 ^ eb
    let m := field % 2 ^ fb
    if e = 0 then .fin neg m (1 - (bias : Int) - fb) else .fin neg (m + 2 ^ fb) ((e : Int) - bias - fb)

/-- An MX element with its scale X (04 R91). -/
def mxValue (f : BlkFmt) (x : Nat) (field : Nat) : FV :=
  if x = 255 then .nan false
  else match mxElem f field with
    | .nan s => .nan s
    | .inf n => .inf n
    | .fin neg m e => .fin neg m (e + (x : Int) - 127)

/-- One quotient of `qnt` (04 R93): undefined or infinite quotients and NaN sources make the block a NaN block. -/
inductive QV where
  | bad | q (neg : Bool) (n d : Nat)
  deriving DecidableEq, Repr

/-- x / s, exactly. -/
def quotient (x s : FV) : QV :=
  match x, s with
  | .nan _, _ | _, .nan _ => .bad
  | .inf _, _ => .bad
  | .fin n _ _, .inf n' => .q (n != n') 0 1
  | .fin nx mx ex, .fin ns ms es =>
    if ms = 0 then .bad
    else let (a, b) := scale2 mx ms (ex - es); .q (nx != ns) a b

def QV.isBad : QV → Bool
  | .bad => true
  | _ => false

def QV.num : QV → Nat
  | .q _ n _ => n
  | .bad => 0
def QV.den : QV → Nat
  | .q _ _ d => d
  | .bad => 1
def QV.sign : QV → Bool
  | .q n _ _ => n
  | .bad => false

/-- The larger of two quotients in magnitude. -/
def QV.maxAbs (a b : QV) : QV := if a.num * b.den < b.num * a.den then b else a

/-- round_rne(|v| * 2^k), and whether it was exact. -/
def QV.rne (v : QV) (k : Int) : Nat × Bool :=
  let (a, b) := scale2 v.num v.den k
  roundInt .rn false a b

/-- A block: its exponent byte (E or X), MU, the element fields, and the flags of R95, element by element. -/
structure Block where
  ex : Nat
  mu : Nat
  elems : List Nat
  flags : List Flags
  deriving DecidableEq, Repr

/-- The flags of a rounded element: OF where it saturates, NX where it is inexact (04 R95). -/
def elemFlags (above exact : Bool) : Flags := (if above then fOF else 0) ||| (if exact then 0 else fNX)

/-- A block of zero fields: `bad` elements raise NV. -/
def flatBlock (ex : Nat) (vs : List QV) : Block :=
  { ex := ex, mu := 0, elems := vs.map fun _ => 0, flags := vs.map fun v => if v.isBad then fNV else 0 }

def bitSum (l : List Bool) : Nat := (l.zipIdx.map fun (b, i) => if b then 2 ^ i else 0).sum

/-- The SE block of 16 quotients (04 R93). -/
def quantSE (f : BlkFmt) (vs : List QV) : Block :=
  let b := elemBits f - 1
  if vs.any QV.isBad then flatBlock 255 vs
  else
    let a := vs.foldl QV.maxAbs (.q false 0 1)
    if a.num = 0 then flatBlock 0 vs
    else
      let e := floorLog2 a.num a.den
      let e1 : Int := e + 127
      let e2 := if (a.rne ((b : Int) - 1 - e)).1 = 2 ^ b then e1 + 1 else e1
      let ee := (min (max e2 1) 254).toNat
      let fits (v : QV) : Bool := decide ((v.rne (127 - (ee : Int) + 1 + b - 1)).1 ≤ 2 ^ b - 1)
      let mus := (List.range (vs.length / 2)).map fun i => fits (vs.getD (2 * i) .bad) && fits (vs.getD (2 * i + 1) .bad)
      let parts := vs.zipIdx.map fun (v, i) =>
        let m := v.rne (127 - (ee : Int) + (if mus.getD (i / 2) false then 1 else 0) + b - 1)
        let above := decide (m.1 > 2 ^ b - 1)
        let mag := if above then 2 ^ b - 1 else m.1
        (mag + (if mag ≠ 0 ∧ v.sign then 2 ^ b else 0), mag, above, m.2 && !above)
      let fl := parts.map fun p => elemFlags p.2.2.1 p.2.2.2
      if parts.all fun p => p.2.1 == 0 then { ex := 0, mu := 0, elems := vs.map fun _ => 0, flags := fl }
      else { ex := ee, mu := bitSum mus, elems := parts.map fun p => p.1, flags := fl }

-- DEDUCED (log 61, unsafe): an MX float element that is zero keeps the sign of its quotient.
/-- round_rne of a quotient times 2^k into an MX float element, saturating (04 R94): field, saturated, exact. -/
def mxRound (f : BlkFmt) (v : QV) (k : Int) : Nat × Bool × Bool :=
  match f with
  | .mxint8 =>
    let (m, exact) := v.rne (k + 6)
    let above := decide (m > 127)
    let mag := if above then 127 else m
    (if v.sign ∧ mag ≠ 0 then 256 - mag else mag, above, exact && !above)
  | _ =>
    let (eb, fb, bias) := mxParams f
    let maxField := match f with
      | .mxe4m3 => 0x7E
      | .mxe5m2 => 0x7B
      | _ => 2 ^ (eb + fb) - 1
    let sgn := if v.sign then 2 ^ (eb + fb) else 0
    if v.num = 0 then (sgn, false, true)
    else
      let lg := floorLog2 v.num v.den + k
      let q := max (lg - fb) (1 - (bias : Int) - fb)
      let (m, exact) := v.rne (k - q)
      let (m, q) := if m = 2 ^ (fb + 1) then (2 ^ fb, q + 1) else (m, q)
      let field := if m < 2 ^ fb then m else (q + bias + fb).toNat * 2 ^ fb + (m - 2 ^ fb)
      if field > maxField then (sgn + maxField, true, false) else (sgn + field, false, exact)

/-- The MX block of 32 quotients (04 R94). -/
def quantMX (f : BlkFmt) (vs : List QV) : Block :=
  if vs.any QV.isBad then flatBlock 255 vs
  else
    let a := vs.foldl QV.maxAbs (.q false 0 1)
    if a.num = 0 then flatBlock 0 vs
    else
      let x := (max (-127) (min 127 (floorLog2 a.num a.den - mxEmax f)) + 127).toNat
      let parts := vs.map fun v => mxRound f v (127 - (x : Int))
      { ex := x, mu := 0, elems := parts.map fun p => p.1,
        flags := parts.map fun p => elemFlags p.2.1 p.2.2 }

def quantBlock (f : BlkFmt) (vs : List QV) : Block := if Wf.seBlock f then quantSE f vs else quantMX f vs

/-- The element a block lane word holds (06 R151, R153): SE uses J[3:0] for its pair bit. -/
def laneElem (f : BlkFmt) (w : Nat) : FV :=
  let ex := fieldOf w 8 8
  if Wf.seBlock f then seValue f ex (fieldOf (fieldOf w 16 8) (fieldOf w 24 4 / 2) 1 == 1) (fieldOf w 0 (elemBits f))
  else mxValue f ex (fieldOf w 0 (elemBits f))

-- DEDUCED (log 61, unsafe): an infinity times zero gives the canonical NaN and raises NV, as in fmul.
/-- dqnt (04 R97): the f32 result and flags, with an optional f32 scale. -/
def dequant (f : BlkFmt) (w : Nat) (scale : Option Nat) : Nat × Flags :=
  let a := laneElem f w
  let seZero := Wf.seBlock f && decide (fieldOf w 8 8 = 0)
  let s := scale.map (decodeF .f32)
  let fl : Flags := if (s.map FV.isSig).getD false then fNV else 0
  if a.isNaN then (canonNaN .f32, fl)
  else if seZero then (0, fl)
  else match s with
    | none =>
      match a with
      | .fin neg m e => roundF .f32 .rn false false neg m 1 e
      | .inf n => (infBits .f32 n, 0)
      | .nan _ => (canonNaN .f32, 0)
    | some sv => fMul .f32 .rn false a sv

end Sys2Proof.Machine
end

