-- ==== Sys2Proof/Machine/State.lean ====
section
/-!
DEFINITION. The state of the whole package as plain data, and the state right after device reset. Each structure's docstring names
the rules that give it its fields.
-/
namespace Sys2Proof.Machine

/-- An address of an instruction (06 R114). -/
abbrev Pc := BitVec 48

/-- How many accesses of each party happen before a point: party number and count (10 R275). An unlisted party counts 0. -/
abbrev Clock := List (Nat × Nat)

/-! ## Reasons to stop -/

/-- A stop of the model. Every trap of the part is a NEXT state; a fault is raised only where the model is asked for a step the
part cannot take. -/
inductive Fault where
  /-- raised by the meaning of a code instruction (rows 0 to 181) that is run while no thread has fetched one: `exec` was called
  outside `step`. Safe: the part never does it. -/
  | noIssue
  deriving DecidableEq, Repr

/-- A refusal of the model. -/
inductive Refusal where
  /-- an instruction of the table with no meaning yet, by its mnemonic. Safe. -/
  | notModelled (mnemonic : String)
  deriving DecidableEq, Repr

/-! ## Memory (chapters 09, 10, 17) -/

/-- A release of the memory model: the party, its scope, and what happens before it (10 R273). -/
structure Rel where
  party : Nat
  scope : Scope
  clk : Clock
  deriving DecidableEq, Repr

/-- One write of one byte (10 R270): the write it belongs to, its place in happens-before, the releases a reader of it reads from
(R273), the point of an atomic (R277), the writes below it under the order of R276, how many atomics have read one another up to it (13 R357), and
whether it carries a poison mark (17 R433). -/
structure ByteW where
  id : Nat
  val : Byte
  party : Nat
  stamp : Nat
  clk : Clock
  rels : List Rel
  point : Option Nat
  below : List Nat
  depth : Nat := 0
  bad : Bool := false
  deriving DecidableEq, Repr

/-- The write set of one location since its initial write (10 R270), oldest first; `init` is the initial byte, none where the
spec gives no value. `at_` names for a point the writes performed there, the last one first (10 R277), 0 being the initial write; a point it
leaves out holds what the next point outward holds. -/
structure Hist where
  key : Nat
  init : Option Byte
  ws : List ByteW
  at_ : List (Nat × Nat) := []
  deriving DecidableEq, Repr

/-- Who a party of the memory model is (10 R269): a split, guide or engine command of a team of a cluster, the handler serving a
context, a port acting for a stream, the front end, the host's function, a Ronou peer. -/
inductive PartyKind where
  | user (ctxh cluster : Nat) | port (p stream : Nat) | frontEnd | host (fn : Nat) | peer (n : Nat)
  deriving DecidableEq, Repr

/-- A party: its clock, the writes its reads returned (location, write, stamp of the read; R278, condition 3), its release fences
and the releases its reads read from (R281). -/
structure Party where
  id : Nat
  kind : PartyKind
  clk : Clock
  seen : List (Nat × Nat × Nat)
  relF : List Rel
  acqP : List Rel
  deriving DecidableEq, Repr

/-- A line in an L1 (owner 16 * die + core), an L2 (owner compute die) or a home cache (owner memory die): dirty mask, stale mark, last storing
context, the writes it holds dirty, the sealed version its fill returned with the bytes of that version, and the granules whose copy here is
poisoned (09 R257, R258, R260, R263, 10 R289, 17 R426, R431, R432). `more` are the other contexts whose stores it holds dirty. -/
structure Line where
  lvl : CacheLevel
  owner : Nat
  line : Nat
  dirty : Word
  stale : Bool
  ctxh : Nat
  writes : List Nat
  ver : Nat := 0
  bytes : List Byte := []
  bad : List Nat := []
  more : List Nat := []
  deriving DecidableEq, Repr

/-- A table entry, leaf or not, that the translation caches of one core, engine or unit hold for a range of addresses: its level and its address
(09 R249). -/
structure TlbEnt where
  asid : Nat
  page : Nat
  leaf : Word
  lvl : Nat
  entry : Nat := 0
  who : Nat := 0
  deriving DecidableEq, Repr

/-- What a `tlbinv` covered (09 R242, 10 R286): the ASID or every one, the first byte and the length of the addresses, and what its issuer
had released. -/
structure TlbInv where
  asid : Option Nat
  base : Nat
  len : Nat
  clk : Clock
  deriving DecidableEq, Repr

/-- A piece of a sealed range at a memory die of this device or at a peer's home, of the table entry with a number (09 R262); in a die's list of
peers' ranges, `mdie` is that compute die (R263). -/
structure SealEnt where
  peer : Option Nat
  mdie : Nat
  base : Nat
  len : Nat
  ver : Nat
  num : Nat := 0
  deriving DecidableEq, Repr

/-! ## Threads (chapters 02, 03) -/

/-- An operand queue entry: its value, the reservation it still waits for (id, result number), its poison mark (03 R52, R73,
17 R433). -/
structure QEnt where
  val : Word
  pend : Option (Nat × Nat)
  poison : Bool
  deriving DecidableEq, Repr

-- DEDUCED (log 14, safe): A spilled entry is written to its private place as R61 encodes it, and its 32 words stay in the thread as well.
/-- A frame entry of a thread: 32 lane words, none where the word is undefined, poison marks (03 R56, R58), and the part's last write of
its private place with the bytes it wrote there (R61, R62; log 14). -/
structure FEnt where
  idx : Nat
  words : List (Option Word)
  poison : Mask
  spilled : Option (Nat × Nat)
  deriving DecidableEq, Repr

/-- What a split or guide waits for at a blocking point, or while it is held (02 R48, R50). In the wait part of `bar.meet` and `cbar.meet`, `meet`
records that the arrival has been made (18 R437). `entries` is a hold for reserved entries (03 R75). `granted` and `aborted` are lock waits that have
ended and whose `acq` has not completed. -/
inductive Wait where
  | bar (bid : Nat) (meet : Bool) | cbar (meet : Bool) | monitor | lock (addr : Nat) | granted | aborted | engine (queue n : Nat)
  | remote (id : Nat) | held | entries | yield (from_ till : Nat)
  deriving DecidableEq, Repr

/-- A split (03 R65), with its party (10 R269), open lookahead windows (reservation, instructions left; 03 R74), its wait with its start and the
cycles counted before the last stop (18 R452), the cycle since which it is ready, if `up` says that it is (02 R50), the cycles since then in which its
partition's handler slot has issued with the last of them (`skips`, `skipAt`; 11 R305), its starvation promotion, 1 boosted and 2 overdue (11 R305),
its software edge (07 R200), what its last `opfence` covers (08 R206), the lanes of the segment instruction at its PC that have acted while a later
lane waits (07 R179), or that the `halt` there has acted (08 R243), and how many instructions it has issued (15 R380). -/
structure Split where
  pc : Pc
  mask : Mask
  fb : Nat
  fs : Nat
  p : Nat
  party : Nat
  windows : List (Nat × Nat)
  wait : Option Wait
  waitFrom : Nat
  waited : Nat
  readyFrom : Nat
  promoted : Nat
  soft : Option Nat
  opf : Clock
  acted : Mask := 0
  up : Bool := false
  skips : Nat := 0
  skipAt : Nat := 0
  issues : Nat := 0
  deriving DecidableEq, Repr

/-- An open waypoint (03 R68, 11 R312); the innermost stands first. `parkedFb` and `parkedFs` are the frame of the parked group (R67, R72).
`arrivedBy` are the parties of the splits that have arrived, and `parkedBy` is the party of the parked group (10 R272); the opfence clocks and the
open windows go with them. -/
structure Waypoint where
  target : Pc
  parkedPc : Pc
  member : Mask
  arrived : Mask
  parked : Mask
  table : Nat
  k : Nat
  savedP : Nat
  parkedP : Nat
  parkedFb : Nat := 0
  parkedFs : Nat := 0
  fb : Nat
  fs : Nat
  implicit : Bool
  arrivedBy : List Nat
  opf : Clock
  parkedBy : Nat
  parkedOpf : Clock
  parkedWin : List (Nat × Nat)
  deriving DecidableEq, Repr

/-- What a lane of a memory request names: the lane, its effective address, its operands, the memory keys of its bytes once it has
been translated, the point where an atomic of it executes (07 R173, R175, R191), and the party that a release of several lanes makes it under, 0
for its split's (10 R272). -/
structure LaneAcc where
  lane : Nat
  ea : Nat
  ops : List Word
  keys : List Nat
  pt : Nat
  poisoned : Bool
  own : Nat := 0
  deriving DecidableEq, Repr

/-- The operations of a memory request. -/
inductive MemOp where
  | load (ty : Ty) | loadPair | store (ty : Ty) | storePair | atom (op : AtomOp) (ty : Ty) | cas (ty : Ty)
  | red (op : AtomOp) (ty : Ty) | fatom (op : FatomOp) (ty : Ty) | ldblk (f : BlkFmt) | stblk (f : BlkFmt) | seal
  deriving DecidableEq, Repr

/-- A memory request of a thread: operation, space, scope, order, the lanes' accesses and the place of the read in
happens-before (clock and stamp at issue; 10 R272). `nc` is the hint of no allocation in the L1 (07 R171). `late` says that some of its lanes have
been held, so that its ordering effect waits for the last of them, `held` that some still are; `rels` are what its reads have read from till then,
and `owns` the parties that its lanes' writes are counted under (17 R419). -/
structure MemReq where
  op : MemOp
  sp : Space
  scope : Scope
  ord : Order
  acc : List LaneAcc
  party : Nat
  clk : Clock
  stamp : Nat
  nc : Bool := false
  late : Bool := false
  held : Bool := false
  rels : List Rel := []
  owns : List Nat := []
  deriving DecidableEq, Repr

/-- What a reservation will deliver (03 R73): computed values (lane results, flags, poisoned lanes), a memory request still to be read, a sample of a
counter, not below what an earlier read of the split has returned nor above what a later one has (06 R138), or the status 0 of an `acq` whose acquire
is performed before it arrives (07 R198). -/
inductive PendKind where
  | value (vals : List (Nat × List Word)) (flags : List (Nat × BitVec 5)) (poison : List Nat)
  | mem (r : MemReq)
  | counter (v : SysVal) (lo : Nat) (hi : Option Nat)
  | acquired (scope : Scope) (clk : Clock)
  deriving DecidableEq, Repr

/-- A reservation of a thread: its id, the split that issued it, the instruction, the lanes still without their value, how many
instructions the split has issued since, and the die time of issue. -/
structure Pend where
  id : Nat
  spl : Nat
  pc : Pc
  word : Word
  lanes : Mask
  kind : PendKind
  later : Nat
  from_ : Nat
  ref : Nat
  raised : List (Nat × BitVec 5)
  deriving DecidableEq, Repr

/-- What a lane word of a stack entry held before a write that no `opfence` of its thread covers (08 R206). -/
structure OldWord where
  idx : Nat
  lane : Nat
  val : Option Word
  poison : Bool
  deriving DecidableEq, Repr

/-- What a matrix command writes besides its tile: nothing, the tile's side registers, or the O tile with its side registers and half of a P segment
(08 R218, R220). -/
inductive MatResult where
  | tile | side | softmax (otile pseg : Nat) (half : Bool)
  deriving DecidableEq, Repr

/-- A matrix command of an issuer that no `mmwait` has shown complete (08 R219, R221, 16 R409): its tile, the stack entries of its B operand
(none for a queue command), the quartet operation's number or the command's id, whether it has completed, whether the issuer has made its
result undefined, what else it writes, and the words that those entries held before writes that no `opfence` covered at its issue (08 R206). -/
structure Unseen where
  tile : Nat
  base : Nat
  span : Nat
  seq : Nat
  quartet : Bool
  done : Bool
  spoiled : Bool
  old : List OldWord := []
  res : MatResult := .tile
  deriving DecidableEq, Repr

/-- What a thread has fetched of one instruction word since its last `ifence`: the fetches, by party and stamp, and the writes that no fetch may
return any more, 0 being the initial write (10 R285). -/
structure Fetched where
  word : Nat
  by_ : List (Nat × Nat)
  gone : List Nat
  deriving DecidableEq, Repr

-- DEDUCED (log 11, safe): see notes/assumptions/11.md.
/-- A thread of instructions: a user warp, a guide (one lane, lane 0), or a handler warp (chapters 02, 03, 08 R204, R210). `done` lists its completed
engine commands by what they write (0 scratchpad, 1 accumulator, 2 global, 3 remote, 4 matrix) and their number, with what they have performed (08
R207); `recent` are the earlier contents of frame words written since the last `opfence`; `softHolds` the objects of software holds that found no
entry (18 R449); `fetched` are the instruction words fetched since its last `ifence` (10 R285); `barArr` the last arrival of each lane at each barrier
(lane, BID, generation), `cbarArr` that at the cluster barrier; `gone` is what its splits that have ended had done (18 R460), `slot` its warp slot in
its partition (02 R31); `chC` and `chM` are the chain releases pending for its copy and matrix queue, oldest first, with what happens before each (08
R210). -/
structure Warp where
  who : Who
  part : Nat
  role : Nat
  splits : List (Option Split)
  exited : Mask
  queue : List (List QEnt)
  p1 : Mask
  p2 : Mask
  p3 : Mask
  frame : List FEnt
  cap : Nat
  win : Nat
  clean : List Nat
  wps : List Waypoint
  fpctl : BitVec 32
  fpx : BitVec 32
  coc : Nat
  moc : Nat
  chC : List Clock
  chM : List Clock
  locks : Nat
  heldLocks : List (Nat × Nat × Scope)
  pend : List Pend
  mmaSeq : Nat
  unseen : List Unseen
  done : List (Nat × Nat × Clock)
  recent : List OldWord := []
  softHolds : List Nat := []
  barArr : List (Nat × Nat × Nat)
  cbarArr : List (Nat × Nat)
  fetched : List Fetched
  lost : Bool
  skid : Nat
  gone : Clock := []
  slot : Nat := 0
  deriving DecidableEq, Repr

/-! ## Teams, clusters, grids (chapters 02, 11, 15) -/

/-- A role record as placed (02 R32). -/
structure Role where
  entry : Pc
  warps : Nat
  frame : Nat
  tiles : Nat
  qtet : Bool
  deriving DecidableEq, Repr

-- DEDUCED (log 55, unsafe): see notes/assumptions/55.md.
/-- A tag table entry (09 R253). The clock orders what set V or C (10 R283). -/
structure SegEnt where
  tag : BitVec 36
  st : BitVec 2
  v : Bool
  c : Bool
  ut : Bool
  clk : Clock
  deriving DecidableEq, Repr

/-- A guard slot (08 R209). -/
inductive GuardSlot where
  | unresolved | yes | no
  deriving DecidableEq, Repr

/-- A team or cluster barrier (07 R194, R196): generation, expected warps, whether an arrival has fixed it, arrived lanes (warp,
mask), the clock of the arrivals so far, the clocks at which generations completed, and the arrivals of this generation in order with the count
and the clock of each (18 R443). -/
structure Bar where
  gen : Nat
  expect : Nat
  fixed : Bool
  arrived : List (Nat × Mask)
  clk : Clock
  done : List (Nat × Clock)
  log : List (Nat × Mask × Nat × Clock) := []
  deriving DecidableEq, Repr

/-- A fault of one warp within a stop (15 R373, R381). -/
structure WarpFault where
  warp : Nat
  cause : Nat
  pc : Pc
  addr : Nat
  lanes : Mask
  deriving DecidableEq, Repr

/-- A failed item (15 R377). -/
structure Item where
  kind : Nat
  cause : Nat
  addr : Nat
  lanes : Mask
  warp : Nat
  guide : Bool
  spl : Nat
  deriving DecidableEq, Repr

/-- The record of a stop (15 R380 to R382). `snap` holds words 48 to 63 of each warp, fixed at dispatch; number 128 is GSTAT and GPC.
`again` says that the team stopped again as it resumed, before any warp issued (R378, R385); `cycle` is the die's cycle of the primary
fault (R373), and `prev` the last stop if nothing had completed since. -/
structure StopRec where
  cause : Nat
  res : Nat
  level : Nat
  guide : Bool
  prec : Bool
  rep : Nat
  warp : Nat
  spl : Nat
  tpc : Pc
  tlanes : Mask
  taddr : Word
  tdetail : Word
  tword : Word
  tref : Word
  words : List Word
  faults : List WarpFault
  snap : List (Nat × List Word)
  again : Bool
  cycle : Nat := 0
  prev : Option (Nat × Pc × Nat) := none
  deriving DecidableEq, Repr

/-- A request held for replay (15 R379, 17 R416, R417, R419). -/
inductive HeldReq where
  | access (pendId : Option Nat) (r : MemReq)
  | fetch
  | window
  | slot
  | spill (lo n : Nat)
  deriving DecidableEq, Repr

structure Held where
  who : Who
  spl : Nat
  pc : Pc
  word : Word
  lanes : Mask
  req : HeldReq
  deriving DecidableEq, Repr

/-- What a team is doing (15 R371, R383, R385, 11 R307, 02 R44). -/
inductive TStatus where
  | running | stopping | stopped | served | halted | saved (why : Nat) | killed | retiring
  deriving DecidableEq, Repr

/-- A team context (02 R39, 11 R297, R299, R311, 08 R235). `tileClk` names for an issuer and a tile what the last matrix command there had done
(08 R216, 10 R282). `evict` is the cycle of an eviction request; `cmdHold` that its further engine
commands are held, 2 by grace and 3 by the lock cap; `saving` the STATE of the save it has stopped issuing for; `haltSaved` that `halt` holds
it saved; `wake` that its wake event has occurred while it is saved (R307, R309, 02 R49); `kept` that its segments still stand on the core that it
was saved from (R310). -/
structure Team where
  ctxh : Nat
  asid : Nat
  rank : Nat
  cluster : Nat
  grid : Nat
  serial : Nat
  die : Nat
  core : Nat
  tileBase : Nat
  tiles : Nat
  segs : Nat
  roles : List Role
  hasGuide : Bool
  status : TStatus
  stop : Option StopRec
  lastStop : Option (Nat × Pc × Nat)
  progress : Bool
  items : List Item
  late : List (Option Item × StopRec)
  held : List Held
  tags : List SegEnt
  guards : List GuardSlot
  bars : List Bar
  brken : Word
  barto : Word
  grace : Word
  lockcap : Word
  child : Nat
  slab : Nat
  priv : Nat
  psz : Nat
  param : Word
  data : Word
  code : Word
  obj : Nat
  prio : Nat
  bg : Bool
  tickets : Nat
  tickC : Nat
  tickM : Nat
  evict : Option Nat
  cmdHold : Nat
  saving : Option Nat
  haltSaved : Bool
  wake : Bool
  exitClk : Clock
  failed : Option Nat
  tileClk : List (Nat × Nat × Clock) := []
  kept : Bool := false
  deriving DecidableEq, Repr

/-- A launch (11 R296) as a grid of clusters, with the packet-layout revision of its process queue. -/
structure Launch where
  rev : Nat
  asid : Nat
  gx : Nat
  gy : Nat
  gz : Nat
  teams : Nat
  prio : Nat
  bg : Bool
  segs : Nat
  gentry : Pc
  hasGuide : Bool
  tickets : Nat
  fpctl : BitVec 32
  caps : Word
  afn : Word
  psz : Nat
  ppool : Nat
  pslabs : Nat
  obj : Nat
  param : Word
  code : Word
  data : Word
  roles : List Role
  cmp : Bool
  caddr : Word
  cval : Word
  deriving DecidableEq, Repr

/-- Which packet, replay or team a grid belongs to. -/
inductive Owner where
  | packet (asid qid unit : Nat) | replay (asid qid unit : Nat) | child (ctxh : Nat)
  deriving DecidableEq, Repr

/-- A grid (02 R41, R30): its launch, the clusters not yet finished, its first failure (cause, CTXH; 15 R386) with its time (REF, compute die,
that die's cycle), what happens before the start of its teams, and what its teams have made visible at their ends. -/
structure Grid where
  id : Nat
  launch : Launch
  depth : Nat
  owner : Owner
  left : Nat
  fail : Option (Nat × Nat)
  clk : Clock
  relClk : Clock
  done : Bool
  failAt : Nat × Nat × Nat := (0, 0, 0)
  deriving DecidableEq, Repr

/-- Where a cluster is (11 R303, R309). -/
inductive CStatus where
  | ready | running | saved | done
  deriving DecidableEq, Repr

/-- A cluster (02 R39): coordinates, cluster barrier, each compute die's cycles when it entered the ready queues and the dies on which it has
waited 4,096 cycles (11 R303), its order of entry or of placement, the ranks that have exited, and whether NOCORE has been
reported and for how many turns it has not been placed since (R475); `endClk` is what the ends of its teams have released (18 R455). -/
structure Cluster where
  id : Nat
  grid : Nat
  cx : Nat
  cy : Nat
  cz : Nat
  status : CStatus
  bar : Bar
  since : List Nat
  aged : List Nat
  order : Nat
  resumed : Bool
  exited : List Nat
  logged : Bool
  noTurns : Nat
  endClk : Clock := []
  deriving DecidableEq, Repr

/-! ## Engines and matrix (chapters 08, 19) -/

/-- What an engine command does, its operands as read at issue (08 R203). -/
inductive EngOp where
  | tcopy (dir base tsr seg : Nat) (coords : List Int) (shape : List Word) (counter : Option Nat) (free : Bool)
  | tgather (base tsr seg iseg : Nat) (start : Int) (shape : List Word) (counter : Option Nat)
  | accld (tile : Nat) (own : Bool) (addr : Nat)
  | accst (tile : Nat) (own : Bool) (addr : Nat)
  | spmove (seg rank dseg : Nat)
  | spshare (seg rank dseg : Nat)
  | mmas (fw : Nat) (bseg tile aseg : Nat) (frea freb : Bool)
  | mmsm (c : Nat) (stile otile pseg : Nat) (half : Bool)
  | acczero (tile : Nat)
  | mma (fw : Nat) (tile aseg bfb : Nat) (free : Bool) (members : List (Nat × Nat))
  deriving DecidableEq, Repr

-- DEDUCED (log 56, unsafe): see notes/assumptions/56.md.
/-- A command of a core's queue or a quartet operation that every member has issued, whose members are named with the numbers of their issue.
`ctl` and `ops` are what a save record keeps of it (19 R469); `held` that it has found its guard unresolved at its queue's head (08 R209);
`clk` is what happens before it (10 R282); `accepted` its place among the commands that its core has accepted (08 R229), `party` and `nth` the
issuing split and the place of the command's instruction among those that the split has issued (15 R380), and `bImage` the words of B that a quartet
operation has read from its members' frames (08 R215). -/
structure Cmd where
  id : Nat
  core : Nat
  matrix : Bool
  issuer : Who
  ctxh : Nat
  spl : Nat
  pc : Pc
  word : Word
  op : EngOp
  ctl : Word
  ops : List Word
  guard : Option Nat
  held : Bool
  chn : Bool
  aft : Bool
  started : Bool
  clk : Clock
  idx : List Int
  poison : Bool
  accepted : Nat := 0
  party : Nat := 0
  nth : Nat := 0
  bImage : List Nat := []
  deriving DecidableEq, Repr

/-- A quartet member's issued `mma` that waits for its partners (08 R214). -/
structure MmaIssue where
  ctxh : Nat
  warp : Nat
  seq : Nat
  order : Nat
  pc : Pc
  word : Word
  tile : Nat
  fws : List Nat
  poison : Bool
  clk : Clock
  aseg : Nat := 0
  deriving DecidableEq, Repr

/-- A physical tile slot that differs from its reset contents (08 R218, R499): 1,024 f32 elements, m, l, and the poisoned
values: elements, then 1024 + row for m and 1056 + row for l. Cores are numbered 16 * die + core. -/
structure TileSlot where
  core : Nat
  slot : Nat
  elems : List (BitVec 32)
  m : List (BitVec 32)
  l : List (BitVec 32)
  poison : List Nat
  deriving DecidableEq, Repr

/-- An ACCOWN entry that differs from its reset value (08 R237). -/
structure AccOwn where
  core : Nat
  slot : Nat
  sdv : Bool
  val : Bool
  ctxh : Nat
  deriving DecidableEq, Repr

/-! ## Synchronisation tables (chapters 07, 18) -/

/-- A waiter edge of a compute die's wait-for table (07 R201, 08 R241); `key` is the location of its object, for kind 5 the count it waits for. -/
structure Edge where
  idx : Nat
  die : Nat
  kind : Nat
  obj : Nat
  key : Nat
  ctxh : Nat
  warp : Nat
  spl : Nat
  deriving DecidableEq, Repr

/-- An object-table entry: a lock holder or a software hold (07 R198, R200). -/
structure Obj where
  idx : Nat
  mdie : Nat
  addr : Nat
  key : Nat
  lock : Bool
  ctxh : Nat
  warp : Nat
  deriving DecidableEq, Repr

/-- A waiting `acq` in its home's grant order (07 R198). -/
structure LockWait where
  addr : Nat
  key : Nat
  who : Who
  spl : Nat
  scope : Scope
  order : Nat
  deriving DecidableEq, Repr

/-- A monitored location: its point (0 a scratchpad, 1 an L2 of a compute die, 2 a home), which one, and its bytes (09 R266). -/
structure MonLoc where
  point : Nat
  place : Nat
  keys : List Nat
  deriving DecidableEq, Repr

/-- The monitors that an `mwait` has armed (07 R197, 09 R266): its condition, its first address, its distinct locations, the operand of each
lane with its location's index, the instruction's word and length, what the other lanes push when it completes with their marks, the lanes
whose address is poisoned, and whether a write has been performed at a monitored location since it was armed. -/
structure Monitor where
  who : Who
  spl : Nat
  cc : Cond
  ty : Ty
  scope : Scope
  addr : Nat
  locs : List MonLoc
  operands : List (Nat × Nat × Word)
  word : Word
  len : Nat
  off : List (Nat × Word × Bool)
  bad : Mask
  hit : Bool := false
  deriving DecidableEq, Repr

/-! ## Handlers -/

/-- A partition's handler slot in service (15 R383, R384). -/
structure Service where
  core : Nat
  part : Nat
  ctxh : Nat
  hwsel : BitVec 7
  start : Nat
  deriving DecidableEq, Repr

/-- The instruction that a thread has fetched and that `exec` runs. -/
structure Issue where
  who : Who
  spl : Nat
  pc : Pc
  word : Word
  ext : Word
  deriving DecidableEq, Repr

-- DESIGN CHOICE (log 1, safe): A step performs one act: the one that stands first on the list State.agenda, or, when that list is empty, one of the acts of the part that would change the state, or the passing of one REF tick, chosen by a free value.
/-- What the package does next (log 1): a partition issues one instruction by R305, a guide issues one, an event of the table takes
place, a port serves one of its transmit rings, a boot or a firmware update goes on, an update falls back, the firmware controller runs one
instruction, or REF ticks pass. -/
inductive Act where
  | issue (core part : Nat) | issueGuide (ctxh : Nat) | event (i : Instr) | transmit (port ring : Nat)
  | boot | update (falls : Bool) | controller | elapse (n : Nat)
  deriving DecidableEq, Repr

/-! ## Dies, time (chapter 12) -/

/-- An entry of FHIST (12 R338). -/
structure FHist where
  ref : Nat
  mhz : Nat
  inc : Nat
  deriving DecidableEq, Repr

/-- One die of the package but Texis, by die number (12 R318, R336 to R338, 08 R236, 20 R495). `relock` holds the frequency of a step in progress;
`hot` that the die claims no new cluster; `frac` counts thousandths of a cycle, and `clks` is the accumulator of R336 with its 16 fraction bits;
`clksAt` is what it held, and INC, from each relock on, the last one first. `noteQ` are the lines of the stale notices that wait for the die, oldest
first, and `coreQ` those that wait for its cores, by core and line; `ovf` and `coreOvf` are the overflow flags of these queues, by memory die and by core
(17 R429). -/
structure Die where
  num : Nat
  released : Bool
  clk : Nat
  clks : Nat
  frac : Nat
  ref : Nat
  mhz : Nat
  inc : Nat
  relock : Option Nat
  relockAt : Nat
  refoff : Int
  fhidx : Nat
  fhist : List FHist
  hot : Bool
  strict : Bool
  inh : Bool
  wftovf : Nat
  ovf : List Nat
  coreOvf : List Nat
  coreDown : List Nat
  noteQ : List Nat := []
  coreQ : List (Nat × Nat) := []
  clksAt : List (Nat × Nat) := [(0, 0x10000)]
  deriving DecidableEq, Repr

/-! ## Front end (chapter 11) -/

/-- A started packet of a queue: its first unit, type, completion fields, whether it has completed, and the words it works on. -/
structure PktRun where
  unit : Nat
  units : Nat
  type : Nat
  cmp : Bool
  caddr : Word
  cval : Word
  complete : Bool
  fail : Option (Nat × Nat)
  args : List Word
  deriving DecidableEq, Repr

/-- A process queue (11 R291, R292): its descriptor, the front end's read position, the packets started and not yet completed,
whether it has halted on a packet fault (cause 0x62), and whether QUEUE_DESTROY has stopped it. -/
structure Queue where
  asid : Nat
  qid : Nat
  base : Nat
  size : Nat
  rev : Nat
  widx : Nat
  ridx : Nat
  rpos : Nat
  wseen : Nat
  runs : List PktRun
  halted : Bool
  stopping : Bool
  owner : Nat
  clk : Clock
  pollAt : Nat
  deriving DecidableEq, Repr

/-- A running replay (11 R301): its queue and packet, the list's address, launches left and the index of the next one. -/
structure Replay where
  asid : Nat
  qid : Nat
  unit : Nat
  list : Nat
  excl : Bool
  count : Nat
  next : Nat
  param : Word
  cur : Option Nat
  running : Bool
  deriving DecidableEq, Repr

/-- An entry of the run list (11 R298). -/
structure RunEnt where
  asid : Nat
  nq : Nat
  quant : Nat
  savepool : Nat
  saveslots : Nat
  deriving DecidableEq, Repr

/-- One ASID (12 R323, R325, 15 R387): bound, its VF, encryption, the root in force, refused after a context loss. -/
structure Asid where
  num : Nat
  vf : Option Nat
  enc : Bool
  root : Word
  refused : Bool
  deriving DecidableEq, Repr

/-! ## Host interface (chapters 12, 20) -/

/-- A function's mailbox (12 R322): the request and response areas, MBSTS, the command being served, and what happens before its DONE. -/
structure Mailbox where
  fn : Nat
  req : List (Nat × Byte)
  resp : List (Nat × Byte)
  seq : Nat
  code : Nat
  busy : Bool
  done : Bool
  opc : Nat
  clk : Clock := []
  deriving DecidableEq, Repr

/-- An event entry of the log (20 R480). -/
structure Event where
  n : Nat
  cause : Nat
  level : Nat
  source : Nat
  ctxh : Nat
  detail : Word
  ref : Word
  deriving DecidableEq, Repr

/-- The event log of a function (20 R479, R481); `clk` is what the writes of EVWR have released. -/
structure EvLog where
  fn : Nat
  wr : Nat
  rd : Nat
  lost : Nat
  ring : List Event
  msix : Nat
  clk : Clock := []
  deriving DecidableEq, Repr

/-- The digest in a measurement slot: of the boot ROM, of the I/O die configuration in that ROM, or of bytes read (12 R329). -/
inductive Digest where
  | rom | ioCfg | of (l : List Byte)
  deriving DecidableEq, Repr

/-- A measurement slot (12 R329). -/
structure Meas where
  digest : Digest
  count : Nat
  deriving DecidableEq, Repr

/-- What Texis has last answered through the PF's DOE mailbox (12 R330): the facts of a response; its bytes are those of SPDM 1.3. Blocks of
measurements are slots with digest and count, with the running firmware's version (R327). -/
inductive SpdmResp where
  | none | error | version (major minor : Nat) | capabilities | algorithms | digests (l : List (List Byte))
  | certificate (slot : Nat) (chain : List Byte) | challenge (slot : Nat) (signature : List Byte)
  | measurements (fwver count : Nat) (blocks : List (Nat × Meas)) (signature : List Byte)
  deriving DecidableEq, Repr

/-- A hitless update in progress (12 R333): the function and request that asked for it, its operands, the step reached (1 copied, 2 verified, 3 the
new image runs) with the REF of the jump, and the bytes that slots 2 and 3 will measure. -/
structure FwUpd where
  fn : Nat
  seq : Nat
  image : Nat
  len : Nat
  hand : Nat
  hover : Nat
  stage : Nat
  started : Nat
  meas2 : List Byte
  meas3 : List Byte
  deriving DecidableEq, Repr

/-- A match rule of an Ethernet port (12 R342). -/
structure EthRule where
  idx : Nat
  val : List Byte
  mask : List Byte
  stream : Nat
  valid : Bool
  deriving DecidableEq, Repr

/-- A receive stream of a port (12 R343, 09 R264, 20 R490 to R492): its rings, the next sequence number and jumbo position, a gap
pending, the slots that have held frames with the jumbo slot each used, and its counters. -/
structure Stream where
  num : Nat
  ring : Nat
  slots : Nat
  jring : Nat
  jslots : Nat
  enable : Bool
  next : Nat
  jnext : Nat
  gap : Bool
  held : List (Nat × Option Nat)
  dropo : Nat
  dropj : Nat
  drops : Nat
  rxoff : Nat
  deriving DecidableEq, Repr

/-- A transmit ring of a port (12 R344). -/
structure TxRing where
  num : Nat
  slots : Nat
  base : Nat
  txp : Nat
  txc : Nat
  sent : Nat
  deriving DecidableEq, Repr

/-- A frame that a port has sent, as the wire sees it. -/
structure SentFrame where
  port : Nat
  bytes : List Byte
  deriving DecidableEq, Repr

/-- An Ethernet port (12 R341 to R345, 20 R491). The PHC is kept in units of 2^-16 ns; `adjFrac` is the part of its adjustment not
yet applied. -/
structure EthPort where
  num : Nat
  dflt : Bool
  link : Bool
  lock : Bool
  phc : Nat
  phcRef : Nat
  adjFrac : Int
  phcns : Word
  adj : Int
  rules : List EthRule
  streams : List Stream
  rings : List TxRing
  rxbad : Nat
  rxnomatch : Nat
  txbad : Nat
  txdown : Nat
  linkdown : Nat
  lastRing : Nat
  deriving DecidableEq, Repr

-- DESIGN CHOICE (log 22, safe): see notes/assumptions/22.md.
/-- A Ronou port (12 R347, 20 R494); `tx` and `rx` are the flits it has sent and received, as they were last read, `txDue` and `rxDue` that it has
carried traffic since; `downAt` is the REF at which it last went down or was held down, `halfAt` that since which it runs at half width. -/
structure RonouPort where
  num : Nat
  up : Bool
  half : Bool
  down : Bool
  nbr : Nat
  enable : Bool
  retry : Nat
  retrain : Nat
  refused : Nat
  txDue : Bool := false
  rxDue : Bool := false
  tx : Nat := 0
  rx : Nat := 0
  downAt : Nat := 0
  halfAt : Nat := 0
  deriving DecidableEq, Repr

/-- One plane of a die-to-die boundary (12 R334, 20 R487, R488): half width since a REF, sends of the present flit, retraining. -/
structure Plane where
  link : Nat
  plane : Nat
  half : Option Nat
  tries : Nat
  training : Bool
  lost : Bool
  deriving DecidableEq, Repr

-- PRESUMED (log 77, safe and in part unsafe): see notes/assumptions/77.md.
/-- The firmware controller, one RV32IMC core (12 R332): its pc as an address of its active bank, x1 to x31, and ENTRY of the image that runs and of
the one before it (R327, 20 R486). -/
structure Controller where
  pc : BitVec 32
  regs : List (BitVec 32)
  entry : Nat
  oldEntry : Nat
  deriving DecidableEq, Repr

/-- The controller as a reset leaves it at an entry. -/
def Controller.start (entry old : Nat) : Controller :=
  { pc := BitVec.ofNat 32 entry, regs := List.replicate 31 0, entry := entry, oldEntry := old }

/-- DEVSTAT.PHASE (12 R320). -/
inductive Phase where
  | await | verify | release | fwStart | ready | failed
  deriving DecidableEq, Repr

/-- The platform: boot, trust, firmware, host, links and ports. `ctxLog` is firmware's log against contexts, CTXH, number and reason of a command left
unstarted (19 R471); `corrections` the corrected errors reported to it, structure, die and location (17 R432); `zeroA` and `zeroB` say that a bank
has been zeroed (20 R484). -/
structure Plat where
  phase : Phase
  fwsw : Bool
  bank : Bool
  encAvail : Bool
  tries : Nat
  bootDie : Nat
  reason : Nat
  pwrcap : Nat
  pwrnow : Nat
  tempmax : Nat
  overFrom : Option Nat
  supplyHeld : Bool
  powered : Bool
  clockStop : Bool
  numVfs : Nat
  mboxes : List Mailbox
  logs : List EvLog
  bankA : List (Nat × Byte)
  bankB : List (Nat × Byte)
  ctl : Controller := .start 0 0
  meas : List Meas
  runHover : Nat
  fwver : Nat := 0
  upd : Option FwUpd
  roots : List (Nat × Word)
  asids : List Asid
  runList : List RunEnt
  nextList : Option (List RunEnt)
  turn : Nat
  quantEnd : Nat
  switching : Bool
  keyMap : List (Nat × Nat × Nat)
  eth : List EthPort
  ronou : List RonouPort
  planes : List Plane
  ownPeer : Nat
  routes : List (Nat × BitVec 16)
  hostUp : Bool
  aer : List Nat
  loggedAt : List (Nat × Nat)
  spdm : SpdmResp
  spdmSlot1 : List Byte
  hostRd : List Byte
  hostRdOk : Bool
  hostRdEp : Bool
  sent : List SentFrame
  peerRd : List Byte
  peerVer : Nat := 0
  diag : List (Nat × Nat)
  ctxLost : List Nat
  ctxLog : List (Nat × Nat × Nat) := []
  corrections : List (Nat × Nat × Nat) := []
  zeroA : Bool := false
  zeroB : Bool := false
  deriving DecidableEq, Repr

/-! ## The whole package -/

-- DESIGN CHOICE (log 1, safe): see notes/assumptions/1.md.
/-- The state of the package. `zeroBy` names for a translation entry the party that stands for its zero request (09 R250, 10 R287); `svcClk` is what
the handlers' `tret`s have released (08 R240, 15 R377); `rr` names for a core and a partition the place of the user split that issued there last, its
warp slot and split index (11 R305); `hidden` and `hiddenZ` are the bytes, and the ranges that read as zero, that regions keep stored under the keys
of former owners (12 R331), by owner; `refusals` are the refused writes not yet reported: CTXH, address,
and whether its team is told (17 R431); `closed` says that what is being done would cross a boundary or use a port that carries no traffic now, so that
it waits (log 23); the other fields are named where their types are. -/
structure State where
  agenda : List Act
  cur : Option Issue
  freeCtr : Nat
  -- memory
  mem : List Host.Cell
  hist : List Hist
  nextWrite : Nat
  parties : List Party
  nextParty : Nat
  scF : List (Scope × PartyKind × Clock)
  poison : List Nat
  lines : List Line
  dir : List (Nat × List Nat)
  refusals : List (Nat × Nat × Bool)
  seals : List SealEnt
  sealUsed : List SealEnt
  sealCache : List SealEnt
  tlb : List TlbEnt
  tlbInv : List TlbInv
  zeroed : List (Nat × Nat)
  zeroBy : List (Nat × Nat) := []
  hidden : List (Nat × Host.Cell) := []
  hiddenZ : List (Nat × Nat × Nat) := []
  closed : Bool := false
  -- threads, teams, work
  threads : List Warp
  teams : List Team
  clusters : List Cluster
  grids : List Grid
  nextId : Nat
  nextSerial : Nat
  nextPend : Nat
  -- engines
  cmds : List Cmd
  savedCmds : List Cmd
  mmaWait : List MmaIssue
  tiles : List TileSlot
  accown : List AccOwn
  -- synchronisation
  edges : List Edge
  objs : List Obj
  lockQ : List LockWait
  monitors : List Monitor
  -- handlers
  services : List Service
  handlerQ : List Nat
  svEntry : Pc
  svcClk : Clock := []
  rr : List (Nat × Nat × Nat) := []
  -- front end
  queues : List Queue
  replays : List Replay
  dies : List Die
  plat : Plat
  deriving DecidableEq, Repr

-- PRESUMED (log 8, unsafe): The clock of the memory dies and of the I/O die, which R337 fixes without a figure, is taken as the nominal 1,700 MHz with INC 1.0, as is the frequency of a compute die before firmware steps it (R18 gives 1.7 GHz as nominal).
/-- The nominal operating point, 1,700 MHz with INC 1.0 (12 R337; log 8). -/
def Die.reset (n : Nat) : Die :=
  { num := n, released := false, clk := 0, clks := 0, frac := 0, ref := 0, mhz := 1700, inc := 0x10000, relock := none,
    relockAt := 0, refoff := 0, fhidx := 0, fhist := [], hot := false, strict := false, inh := true, wftovf := 0,
    ovf := [], coreOvf := [], coreDown := [] }

def EthPort.reset (n : Nat) : EthPort :=
  { num := n, dflt := false, link := false, lock := false, phc := 0, phcRef := 0, adjFrac := 0, phcns := 0, adj := 0, rules := [],
    streams := [], rings := [], rxbad := 0, rxnomatch := 0, txbad := 0, txdown := 0, linkdown := 0, lastRing := 15 }

def RonouPort.reset (n : Nat) : RonouPort :=
  { num := n, up := false, half := false, down := false, nbr := 0, enable := true, retry := 0, retrain := 0, refused := 0 }

-- PRESUMED (log 8, unsafe): see notes/assumptions/8.md.
/-- The platform after device reset (12 R320 to R349, 20 R479, R483, R498). Boot step 1 is behind it: the I/O die is released and
slot 1 holds its digest. -/
def Plat.reset : Plat :=
  { phase := .await, fwsw := false, bank := false, encAvail := false, tries := 0, bootDie := 15, reason := 0, pwrcap := 2400,
    pwrnow := 0, tempmax := 0, overFrom := none, supplyHeld := false, powered := true, clockStop := false, numVfs := 0,
    mboxes := [], logs := [], bankA := [], bankB := [],
    meas := { digest := .rom, count := 0 } :: { digest := .ioCfg, count := 0 } :: List.replicate 14
      { digest := .of (List.replicate 64 0), count := 0 },
    runHover := 0, upd := none, roots := [], asids := [], runList := [], nextList := none, turn := 0, quantEnd := 0,
    switching := false, keyMap := [], eth := [.reset 0, .reset 1, .reset 2, .reset 3], ronou := (List.range 16).map .reset,
    planes := [], ownPeer := 0, routes := [], hostUp := true, aer := [], loggedAt := [], spdm := .none, spdmSlot1 := [], hostRd := [],
    hostRdOk := false, hostRdEp := false, sent := [], peerRd := [], diag := [], ctxLost := [] }

/-- The package right after device reset: PHASE 0x1, no work, nothing listed in memory. -/
def State.reset : State :=
  { agenda := [], cur := none, freeCtr := 0, mem := [], hist := [], nextWrite := 1, parties := [], nextParty := 1,
    scF := [], poison := [], lines := [], dir := [], refusals := [], seals := [], sealUsed := [], sealCache := [], tlb := [], tlbInv := [], zeroed := [],
    threads := [], teams := [], clusters := [], grids := [], nextId := 1, nextSerial := 1, nextPend := 1, cmds := [], savedCmds := [],
    mmaWait := [], tiles := [], accown := [], edges := [], objs := [], lockQ := [], monitors := [], services := [],
    handlerQ := [], svEntry := 0, queues := [], replays := [],
    dies := (List.range 12).map Die.reset ++ [{ Die.reset 12 with released := true }], plat := Plat.reset }

end Sys2Proof.Machine
end

