-- ==== Sys2Proof/Machine/Basic.lean ====
section
/-!
DEFINITION. Reading and replacing the parts of the state: threads, splits, teams, clusters, grids, parties, dies, and the free values.
-/
namespace Sys2Proof

def Who.isUser : Who → Bool
  | .warp _ _ => true
  | _ => false
def Who.isGuide : Who → Bool
  | .guide _ => true
  | _ => false
def Who.isHandler : Who → Bool
  | .handler _ _ => true
  | _ => false

/-- The warp number a record names; the guide's is zero (15 R377). -/
def Who.warpNo : Who → Nat
  | .warp _ w => w
  | _ => 0

namespace Machine

/-! ## Free values (00 R4, R5; log 3) -/

/-- The next free word, and the state with the counter advanced. -/
def takeFree (s : State) : Word × State := (Config.freeWord s.freeCtr, { s with freeCtr := s.freeCtr + 1 })

/-- Free words, each its own. -/
def takeFrees (s : State) (n : Nat) : List Word × State :=
  ((List.range n).map fun i => Config.freeWord (s.freeCtr + i), { s with freeCtr := s.freeCtr + n })

/-- Free bytes. -/
def State.takeBytes (s : State) (n : Nat) : List Byte × State :=
  let (ws, s) := takeFrees s n
  (ws.map fun w => BitVec.ofNat 8 w.toNat, s)

/-- A free choice among `n` outcomes; with one outcome there is nothing to choose and the counter stays. -/
def takeChoice (s : State) (n : Nat) : Nat × State :=
  if n ≤ 1 then (0, s) else (Config.freeNat s.freeCtr % n, { s with freeCtr := s.freeCtr + 1 })

/-! ## Lists as tables -/

/-- An element put before the first that it does not come after. -/
def insertBy {α : Type} (le : α → α → Bool) (a : α) : List α → List α
  | [] => [a]
  | b :: l => if le a b then a :: b :: l else b :: insertBy le a l

/-- A list in order; elements of equal rank keep their order. -/
def sortBy {α : Type} (le : α → α → Bool) : List α → List α
  | [] => []
  | a :: l => insertBy le a (sortBy le l)

/-- The first entry that meets `p` replaced by `f` of it. -/
def updFirst {α : Type} (p : α → Bool) (f : α → α) : List α → List α
  | [] => []
  | x :: l => if p x then f x :: l else x :: updFirst p f l

/-- Entry `n` of a list replaced. -/
def setAt {α : Type} : List α → Nat → α → List α
  | [], _, _ => []
  | _ :: l, 0, a => a :: l
  | x :: l, n + 1, a => x :: setAt l n a

/-- The value of a key in an association list. -/
def assoc? {β : Type} (l : List (Nat × β)) (k : Nat) : Option β := (l.find? fun p => p.1 == k).map Prod.snd

def assocSet {β : Type} (l : List (Nat × β)) (k : Nat) (v : β) : List (Nat × β) := (k, v) :: l.filter fun p => p.1 != k

/-! ## Masks -/

def allLanes : Mask := BitVec.allOnes 32

/-- The lanes of a mask, ascending. -/
def lanesOf (m : Mask) : List Nat := (List.range 32).filter fun l => m.getLsbD l

def maskOf (l : List Nat) : Mask := l.foldl (fun m i => m ||| BitVec.ofNat 32 (2 ^ i)) 0

def bitMask (l : Nat) : Mask := BitVec.ofNat 32 (2 ^ l)

/-! ## Clocks (10 R272, R275) -/

def clkGet (c : Clock) (p : Nat) : Nat := (assoc? c p).getD 0

def clkSet (c : Clock) (p n : Nat) : Clock := assocSet c p n

/-- What happens before either of two points happens before their join. -/
def clkJoin (a b : Clock) : Clock := b.foldl (fun c e => if clkGet c e.1 < e.2 then clkSet c e.1 e.2 else c) a

/-! ## Parties (10 R269) -/

def State.party? (s : State) (id : Nat) : Option Party := s.parties.find? fun p => p.id == id

def State.updParty (s : State) (id : Nat) (f : Party → Party) : State :=
  { s with parties := updFirst (fun p => p.id == id) f s.parties }

def State.clkOf (s : State) (id : Nat) : Clock := ((s.party? id).map Party.clk).getD []

def State.kindOf (s : State) (id : Nat) : PartyKind := ((s.party? id).map Party.kind).getD .frontEnd

-- DEDUCED (log 60, safe and in part unsafe): see notes/assumptions/60.md.
/-- A new party that starts with a clock. -/
def State.newParty (s : State) (k : PartyKind) (c : Clock) (seen : List (Nat × Nat × Nat)) : Nat × State :=
  (s.nextParty, { s with
    parties := { id := s.nextParty, kind := k, clk := c, seen := seen, relF := [], acqP := [] } :: s.parties
    nextParty := s.nextParty + 1 })

/-- One more access of a party: its stamp, and the state. -/
def State.tick (s : State) (id : Nat) : Nat × State :=
  let n := clkGet (s.clkOf id) id + 1
  (n, s.updParty id fun p => { p with clk := clkSet p.clk id n })

/-- A party learns of what happens before a point. -/
def State.joinClk (s : State) (id : Nat) (c : Clock) : State := s.updParty id fun p => { p with clk := clkJoin p.clk c }

/-- The party of a split that another split's divergence creates: everything its creator did is program-order before it (10 R272); what its
creator's reads returned binds only the creator (R278). -/
def State.forkParty (s : State) (id : Nat) : Nat × State :=
  match s.party? id with
  | none => s.newParty .frontEnd [] []
  | some p => (s.nextParty, { s with parties := { p with id := s.nextParty, seen := [] } :: s.parties, nextParty := s.nextParty + 1 })

/-- The party of a split that a rejoin forms from splits that have arrived (10 R272). -/
def State.mergeParties (s : State) (kind : PartyKind) (ids : List Nat) : Nat × State :=
  let ps := ids.filterMap s.party?
  (s.nextParty, { s with
    parties := { id := s.nextParty, kind := kind, clk := (ps.map Party.clk).foldl clkJoin [], seen := [],
                 relF := (ps.flatMap Party.relF).eraseDups, acqP := (ps.flatMap Party.acqP).eraseDups } :: s.parties
    nextParty := s.nextParty + 1 })

/-- The party of a kind that has no split of its own (a port, the front end, a host function, a peer), made when first needed. -/
def State.partyFor (s : State) (k : PartyKind) : Nat × State :=
  match s.parties.find? fun p => p.kind == k with
  | some p => (p.id, s)
  | none => s.newParty k [] []

/-- Whether Q is in inst(P, S) (10 R271), for parties of kinds `p` and `q`, `same` when they are one party. A CTXH names one team of its cluster
only: another team may take it once that team has ended. -/
def inInst (p : PartyKind) (sc : Scope) (q : PartyKind) (same : Bool) : Bool :=
  let outside (k : PartyKind) : Bool := match k with
    | .host _ => true
    | .peer _ => true
    | _ => false
  match sc with
  | .system => true
  | .device => if outside p then same || p == q else !outside q
  | .cluster => match p, q with
    | .user _ c, .user _ c' => c == c'
    | _, _ => same || p == q
  | .team => match p, q with
    | .user h c, .user h' c' => h == h' && c == c'
    | _, _ => same || p == q

/-! ## Threads -/

def State.thread? (s : State) (w : Who) : Option Warp := s.threads.find? fun t => t.who == w

def State.updThread (s : State) (w : Who) (f : Warp → Warp) : State :=
  { s with threads := updFirst (fun t => t.who == w) f s.threads }

def State.setThread (s : State) (t : Warp) : State := s.updThread t.who fun _ => t

def Warp.split? (t : Warp) (k : Nat) : Option Split := (t.splits[k]?).join

def Warp.setSplit (t : Warp) (k : Nat) (sp : Option Split) : Warp := { t with splits := setAt t.splits k sp }

/-- The earlier contents of the lane words of some lanes can no longer be read by an engine command (08 R206). -/
def Warp.forget (t : Warp) (mask : Mask) : Warp := { t with recent := t.recent.filter fun w => !mask.getLsbD w.lane }

def Warp.updSplit (t : Warp) (k : Nat) (f : Split → Split) : Warp :=
  match t.split? k with
  | some sp => t.setSplit k (some (f sp))
  | none => t

def State.updSplit (s : State) (w : Who) (k : Nat) (f : Split → Split) : State := s.updThread w fun t => t.updSplit k f

/-- The valid splits with their table indices. -/
def Warp.live (t : Warp) : List (Nat × Split) := t.splits.zipIdx.filterMap fun (o, k) => o.map fun sp => (k, sp)

/-- The team context a thread works for: a warp's or guide's own, a handler's served one. -/
def State.ctxhOf (s : State) : Who → Nat
  | .warp h _ => h
  | .guide h => h
  | .handler c p => ((s.services.find? fun v => v.core == c && v.part == p).map Service.ctxh).getD 0

/-! ## Teams, clusters, grids, dies -/

def State.team? (s : State) (h : Nat) : Option Team := s.teams.find? fun t => t.ctxh == h

def State.updTeam (s : State) (h : Nat) (f : Team → Team) : State :=
  { s with teams := updFirst (fun t => t.ctxh == h) f s.teams }

def State.cluster? (s : State) (id : Nat) : Option Cluster := s.clusters.find? fun c => c.id == id

def State.updCluster (s : State) (id : Nat) (f : Cluster → Cluster) : State :=
  { s with clusters := updFirst (fun c => c.id == id) f s.clusters }

def State.grid? (s : State) (id : Nat) : Option Grid := s.grids.find? fun g => g.id == id

def State.updGrid (s : State) (id : Nat) (f : Grid → Grid) : State :=
  { s with grids := updFirst (fun g => g.id == id) f s.grids }

def State.die? (s : State) (n : Nat) : Option Die := s.dies.find? fun d => d.num == n

def State.updDie (s : State) (n : Nat) (f : Die → Die) : State := { s with dies := updFirst (fun d => d.num == n) f s.dies }

/-- The compute die's cycle count, which every limit stated in cycles reads (12 R336). -/
def State.cycles (s : State) (die : Nat) : Nat := ((s.die? die).map Die.clk).getD 0

/-- The I/O die's REF (12 R338). -/
def State.ref (s : State) : Nat := ((s.die? 12).map Die.ref).getD 0

/-- The live warps of a team, in WARP order. -/
def State.warpsOf (s : State) (h : Nat) : List Warp :=
  s.threads.filter fun t => match t.who with
    | .warp h' _ => h' == h
    | _ => false

/-- Every thread of a team: its warps and its guide. -/
def State.threadsOf (s : State) (h : Nat) : List Warp :=
  s.threads.filter fun t => match t.who with
    | .warp h' _ => h' == h
    | .guide h' => h' == h
    | _ => false

/-- Whether a party is a split of a thread, or was one that has ended with accesses still to be performed. -/
def Warp.accesses (party : Nat) (w : Warp) : Bool :=
  (w.live.any fun x => x.2.party == party) || w.pend.any fun p => match p.kind with
    | .mem r => r.party == party
    | _ => false

/-- The core, engine or unit that makes the accesses of a party (09 R249): 2 * core for the threads of a core, 2 * core + 1 for its engines and the
part's work for its teams, further numbers for ports, the front end, host functions and peers. -/
def State.unitOf (s : State) (party : Nat) : Nat :=
  match s.kindOf party with
  | .user h _ => match s.team? h with
    | some t => 2 * (16 * t.die + t.core) + (if s.threads.any (Warp.accesses party) then 0 else 1)
    | none => 200
  | .port p _ => 201 + p
  | .frontEnd => 300
  | .host f => 301 + f
  | .peer n => 1000 + n

/-- The running team of a rank of a cluster. -/
def State.teamOfRank (s : State) (cluster rank : Nat) : Option Team :=
  s.teams.find? fun t => t.cluster == cluster && t.rank == rank

/-- Teams in the cluster (06 R137 NTEAM). -/
def State.nteam (s : State) (t : Team) : Nat := ((s.grid? t.grid).map fun g => g.launch.teams).getD 1

def Team.nwarp (t : Team) : Nat := (t.roles.map Role.warps).sum

/-- Role of a warp (02 R33). -/
def roleOf : List Role → Nat → Nat → Nat
  | [], _, k => k
  | r :: l, w, k => if w < r.warps then k else roleOf l (w - r.warps) (k + 1)

/-- First WARP of a role (02 R38). -/
def roleFirst (rs : List Role) (k : Nat) : Nat := ((rs.take k).map Role.warps).sum

/-- Physical tile slot of a team-relative index (02 R35). -/
def Team.slot (t : Team) (i : Nat) : Nat := (t.tileBase + i) % 128

/-- Key of the queue storage default: a queue entry that nothing has pushed is zero (02 R33). -/
def zeroEnt : QEnt := { val := 0, pend := none, poison := false }

/-- Age `a` (1 to 16) of a lane's queue (03 R52). -/
def Warp.age (t : Warp) (lane a : Nat) : QEnt := ((t.queue.getD lane []).getD (a - 1) zeroEnt)

/-- One push on a lane (03 R52): the old age 16 is discarded. -/
def pushLane (q : List QEnt) (e : QEnt) : List QEnt := (e :: q).take 16

def Warp.setLane (t : Warp) (lane : Nat) (q : List QEnt) : Warp := { t with queue := setAt t.queue lane q }

def emptyQueue : List (List QEnt) := List.replicate 32 []

/-- A predicate of a thread as a mask; p0 is always true (05 R111, 06 R132). -/
def Warp.pred (t : Warp) : Option Pred → Mask
  | none => allLanes
  | some .p1 => t.p1
  | some .p2 => t.p2
  | some .p3 => t.p3

def Warp.setPred (t : Warp) (p : Pred) (m : Mask) : Warp :=
  match p with
  | .p1 => { t with p1 := m }
  | .p2 => { t with p2 := m }
  | .p3 => { t with p3 := m }

/-- The lanes a guard switches on (05 R111). -/
def Warp.guardMask (t : Warp) : Guard → Mask
  | .always => allLanes
  | .pos p => t.pred (some p)
  | .neg p => ~~~(t.pred (some p))

/-! ## Frames (03 R56 to R58) -/

def Warp.fent? (t : Warp) (i : Nat) : Option FEnt := t.frame.find? fun e => e.idx == i

/-- The word of a lane in a stack entry: none where it is undefined. -/
def Warp.fword (t : Warp) (i lane : Nat) : Option Word := (t.fent? i).bind fun e => (e.words[lane]?).join

def Warp.fpoison (t : Warp) (i lane : Nat) : Bool := ((t.fent? i).map fun e => e.poison.getLsbD lane).getD false

/-- A lane word of a stack entry written; the entry is then not clean (06 R136), and an engine command may still read what stood there
(08 R206). -/
def Warp.fwrite (t : Warp) (i lane : Nat) (v : Word) (poison : Bool) : Warp :=
  let was : OldWord := { idx := i, lane := lane, val := t.fword i lane, poison := t.fpoison i lane }
  let e := (t.fent? i).getD { idx := i, words := List.replicate 32 none, poison := 0, spilled := none }
  let e' := { e with words := setAt e.words lane (some v),
                     poison := if poison then e.poison ||| bitMask lane else e.poison &&& ~~~(bitMask lane) }
  { t with frame := e' :: t.frame.filter (fun x => x.idx != i), clean := t.clean.filter (· != i), recent := (was :: t.recent).eraseDups }

/-- H, the highest frame top over the splits (03 R58). -/
def Warp.top (t : Warp) : Nat := (t.live.map fun (_, sp) => sp.fb + sp.fs).foldl max 0

/-- Entries at or above H are dead and keep no value (03 R58). -/
def Warp.dropDead (t : Warp) : Warp := { t with frame := t.frame.filter fun e => decide (e.idx < t.top) }

end Machine

end Sys2Proof
end

