-- ==== Sys2Proof/Machine/Memory.lean ====
section
/-!
DEFINITION. Memory and the memory model (chapters 09, 10). `State.mem` holds the byte last performed at every location; `State.hist`
holds the write set of each location that has been written, from which a read takes any candidate of R278 (log 4).
-/
namespace Sys2Proof.Machine

/-! ## Location keys -/

/-- Keys below 2^43 are physical addresses of this device (09 R251). -/
def hostKey (a : Nat) : Nat := 2 ^ 60 + a % 2 ^ 52
def peerKey (peer pa : Nat) : Nat := 2 ^ 61 + peer * 2 ^ 43 + pa % 2 ^ 43
/-- A scratchpad byte belongs to a team's segments, whatever physical segments hold them (09 R252, R256). -/
def spKey (serial off : Nat) : Nat := 2 ^ 62 + serial * 2 ^ 22 + off % 2 ^ 22

def isDeviceKey (k : Nat) : Bool := decide (k < 2 ^ 43)
def isSpKey (k : Nat) : Bool := decide (2 ^ 62 ≤ k)
def isHostKey (k : Nat) : Bool := decide (2 ^ 60 ≤ k ∧ k < 2 ^ 61)
def isPeerKey (k : Nat) : Bool := decide (2 ^ 61 ≤ k ∧ k < 2 ^ 62)

/-- Memory die of a device key (09 R251). -/
def mdieOf (k : Nat) : Nat := k / 2 ^ 40 % 8

/-- A device address is backed (09 R251). -/
def backed (pa : Nat) : Bool := decide (pa % 2 ^ 40 < 0x1800000000)

/-! ## Points (07 R191, 09 R257, R266) -/

/-- A core of the package: 16 * compute die + core. -/
def coreId (die core : Nat) : Nat := 16 * die + core

/-- A home, or the host's or a peer's memory that a location lies in. -/
def pointHome : Nat := 3
/-- A team's scratchpad. -/
def pointSp : Nat := 0
def pointL2 (die : Nat) : Nat := 16 + die
def pointL1 (die core : Nat) : Nat := 100 + coreId die core

/-- A point and those outward of it. -/
def outward (p : Nat) : List Nat := if 100 ≤ p then [p, pointL2 ((p - 100) / 16), pointHome] else if 16 ≤ p then [p, pointHome] else [p]

/-- The write last performed at a point; 0 for the initial write. -/
def Hist.lastAt (h : Hist) (p : Nat) : Nat := ((outward p).filterMap (assoc? h.at_)).head?.getD 0

/-- The writes performed at a point and outward of it, the last one first, then the initial write. -/
def Hist.performed (h : Hist) (p : Nat) : List Nat := ((outward p).flatMap fun q => (h.at_.filter fun e => e.1 == q).map Prod.snd) ++ [0]

/-- A write performed at a point. -/
def Hist.land (h : Hist) (p wid : Nat) : Hist := if assoc? h.at_ p == some wid then h else { h with at_ := (p, wid) :: h.at_ }

/-- The point of record of a location: its scratchpad or its home. -/
def recordPoint (k : Nat) : Nat := if isSpKey k then pointSp else pointHome

/-! ## Boundaries (01 R14, R15, 12 R334, 20 R488) -/

/-- Whether a plane of a boundary of the package carries traffic (20 R488). Boundaries 0 to 3 join the compute dies of the ring, 4 to 11 a memory
die to its compute die, 12 to 15 a compute die to the I/O die. -/
def State.planeOpen (s : State) (link plane : Nat) : Bool :=
  !(s.plat.planes.any fun p => p.link == link && p.plane == plane && (p.training || p.lost))

/-- The number by which the I/O die stands among the dies. -/
def ioDie : Nat := 12

/-- Whether accesses to a peer that were made before a port went down are still in flight (20 R494). -/
def State.portDrains (s : State) (peer : Nat) (p : RonouPort) : Bool :=
  s.threads.any fun t => t.pend.any fun q => decide (q.ref ≤ p.downAt) && match q.kind with
    | .mem r => r.acc.any fun a => q.lanes.getLsbD a.lane && a.keys.any fun k => isPeerKey k && (k - 2 ^ 61) / 2 ^ 43 == peer
    | _ => false

-- DESIGN CHOICE (log 22, safe): While accesses to a peer made before a port went down are in flight, that port stands in the peer's mask, so that the lines that chose it wait.
/-- The ports that lead to the peer of a location: those of its route mask that are not down (12 R346, R347, 20 R494). -/
def State.routePorts (s : State) (k : Nat) : List RonouPort :=
  let peer := (k - 2 ^ 61) / 2 ^ 43
  let r := (assoc? s.plat.routes peer).getD 0
  s.plat.ronou.filter fun p => r.getLsbD p.num && ((p.enable && !p.down) || s.portDrains peer p)

/-- The port by which an access to a peer's location leaves, chosen by a hash of its line (12 R346). -/
def State.portOf (s : State) (k : Nat) : Option RonouPort :=
  let l := s.routePorts k
  l[Config.portHash (k / 64) % l.length]?

/-- Whether an access to a peer's location can leave now: its port carries traffic, or there is none and the access fails. -/
def State.portUp (s : State) (k : Nat) : Bool := !isPeerKey k || (s.portOf k).all fun p => p.up && p.enable && !p.down

-- DESIGN CHOICE (log 23, safe and in part unsafe): Either way round the ring leads to the opposite die.
/-- Whether the traffic of a compute die reaches another around the ring (01 R15). -/
def State.dieReaches (s : State) (die other plane : Nat) : Bool :=
  let up (l : Nat) : Bool := s.planeOpen (l % 4) plane
  match (other + 4 - die) % 4 with
  | 0 => true
  | 1 => up die
  | 2 => (up die && up (die + 1)) || (up (die + 3) && up (die + 2))
  | _ => up (die + 3)

/-- Whether the traffic of a compute die, or of the I/O die, reaches the home of a location: it crosses the boundaries of the ring up to the die
beside the home, and that die's to the memory die (01 R15); the I/O die's reaches the die beside the home, and host and peer memory lie beyond the
I/O die. Messages of the narrow plane are those of 12 R334. After a thermal trip the homes' clocks stand (20 R496). -/
def State.reaches (s : State) (die : Nat) (narrow : Bool) (k : Nat) : Bool :=
  let plane := if narrow then 1 else 0
  if isSpKey k then true
  else if !isDeviceKey k then (die == ioDie || s.planeOpen (12 + die) plane) && s.portUp k
  else
    !s.plat.clockStop && s.planeOpen (4 + mdieOf k) plane &&
      if die == ioDie then s.planeOpen (12 + mdieOf k / 2) plane else s.dieReaches die (mdieOf k / 2) plane

-- DESIGN CHOICE (log 23, safe and in part unsafe): An act whose traffic would cross a closed boundary waits as a whole: it marks the state, and the step puts the act off.
/-- Traffic between a die and the homes of some locations. -/
def State.cross (s : State) (die : Nat) (narrow : Bool) (keys : List Nat) : State :=
  if keys.all (s.reaches die narrow) then s else { s with closed := true }

/-- The die on which a unit of the package stands. -/
def dieOfUnit (u : Nat) : Nat := if u < 128 then u / 32 else ioDie

/-! ## The cells -/

-- DESIGN CHOICE (log 2, safe): A byte of device, host or peer memory that nothing has written has no value in memory: a read of it takes a free value and writes nothing down.
/-- What an unlisted location reads as: zero in scratchpads (09 R252) and in zeroed pages (09 R250), no value elsewhere
(20 R498; log 2). -/
def unlisted (z : List (Nat × Nat)) (k : Nat) : Option Byte :=
  if isSpKey k || z.any (fun r => decide (r.1 ≤ k ∧ k < r.1 + r.2)) then some 0 else none

def cellGet : List Host.Cell → Nat → Option Byte
  | [], _ => none
  | (a, v) :: l, k => if a = k then some v else if k < a then none else cellGet l k

def cellErase : List Host.Cell → Nat → List Host.Cell
  | [], _ => []
  | (a, v) :: l, k => if a = k then l else if k < a then (a, v) :: l else (a, v) :: cellErase l k

def cellInsert : List Host.Cell → Nat → Byte → List Host.Cell
  | [], k, b => [(k, b)]
  | (a, v) :: l, k, b => if a = k then (k, b) :: l else if k < a then (k, b) :: (a, v) :: l else (a, v) :: cellInsert l k b

/-- One byte written, keeping the canonical form. -/
def cellSet (z : List (Nat × Nat)) (m : List Host.Cell) (k : Nat) (b : Byte) : List Host.Cell :=
  if unlisted z k = some b then cellErase m k else cellInsert m k b

/-- Addresses strictly rising. -/
def cellsRising : List Host.Cell → Bool
  | [] => true
  | [_] => true
  | a :: b :: l => decide (a.1 < b.1) && cellsRising (b :: l)

/-- The canonical form of memory: addresses strictly rising, no entry equal to what an unlisted address reads as. -/
def Memory.wf (z : List (Nat × Nat)) (m : List Host.Cell) : Bool :=
  cellsRising m && m.all fun c => unlisted z c.1 != some c.2

/-- The byte last performed at a location; none where nothing gives it a value. -/
def State.byteAt (s : State) (k : Nat) : Option Byte :=
  match cellGet s.mem k with
  | some b => some b
  | none => unlisted s.zeroed k

/-! ## Writes (10 R270, R276) -/

def State.histOf (s : State) (k : Nat) : Option Hist := s.hist.find? fun h => h.key == k

/-- The writes a new write stands above under the order of R276: those that happen before it, for an atomic the write it read and the earlier
atomics of its point (R277), and what those stand above. -/
def belowOf (ws : List ByteW) (clk : Clock) (prev : Option ByteW) (point : Option Nat) : List Nat :=
  let direct := ws.filter fun w => decide (w.stamp ≤ clkGet clk w.party) || (point.isSome && w.point == point)
  let chain := match prev with
    | some w => w.id :: w.below
    | none => []
  (chain ++ direct.flatMap fun w => w.id :: w.below).eraseDups

/-- A write put into a write set: before those that it happens before, which then stand above it and all it stands above. Of the writes that the
lanes of one instruction make to a byte each stands above the earlier ones (07 R175). -/
def insertWrite (ws : List ByteW) (w : ByteW) : List ByteW :=
  let one (x : ByteW) : Bool := x.party == w.party && x.stamp == w.stamp
  let after := (ws.filter fun x => decide (w.stamp ≤ clkGet x.clk w.party) && !one x).map ByteW.id
  let above (x : ByteW) : Bool := after.contains x.id || x.below.any after.contains
  ws.filter (fun x => !above x) ++ w :: (ws.filter above).map fun x => { x with below := (w.id :: w.below ++ x.below).eraseDups }

/-- One byte of a write: the cell, and the write set of the location. -/
def State.putByte (s : State) (k : Nat) (b : Byte) (w : ByteW) (prev : Option ByteW) : State :=
  let h := (s.histOf k).getD { key := k, init := s.byteAt k, ws := [] }
  let w' := { w with val := b, below := belowOf h.ws w.clk prev w.point }
  { s with mem := cellSet s.zeroed s.mem k b
           hist := { h with ws := insertWrite h.ws w' } :: s.hist.filter (fun x => x.key != k) }

/-- The point of a monitored location (09 R266). -/
def MonLoc.pt (l : MonLoc) : Nat := if l.point = 0 then pointSp else if l.point = 1 then pointL2 l.place else pointHome

/-- The monitors that stand at a point over some locations have seen a write there (07 R197, 14 R361). -/
def State.touch (s : State) (p : Nat) (hit : Nat → Bool) : State :=
  { s with monitors := s.monitors.map fun m => if m.locs.any (fun l => l.pt == p && l.keys.any hit) then { m with hit := true } else m }

/-- A write performed at a point of its locations (10 R277), unless a write that stands above it has been performed there. -/
def State.landAt (s : State) (p : Nat) (keys : List Nat) (wid : Nat) : State :=
  let s := s.touch p keys.contains
  { s with hist := s.hist.map fun h =>
      let past := h.ws.any fun x => x.id == h.lastAt p && x.below.contains wid
      if keys.contains h.key && (h.ws.any fun x => x.id == wid) && !past then h.land p wid else h }

/-- The releases a write of a party carries: its own when it is one, and its release fences (10 R273, R281). -/
def relsOf (s : State) (party : Nat) (rel : Option Scope) (clk : Clock) : List Rel :=
  ((s.party? party).map Party.relF).getD [] ++
    match rel with
    | some sc => [{ party := party, scope := sc, clk := clk }]
    | none => []

/-- The 8-byte granules of some keys (17 R432). -/
def granulesOf (keys : List Nat) : List Nat := (keys.map (· / 8)).eraseDups

/-- The bytes of a granule. -/
def granuleKeys (g : Nat) : List Nat := (List.range 8).map (8 * g + ·)

/-- What stands at some locations takes a poison mark: of each the write that `sel` names, or the initial byte (17 R433). -/
def State.markAt (s : State) (sel : Hist → Nat) (ks : List Nat) : State :=
  { s with
    hist := s.hist.map fun h => if ks.contains h.key then { h with ws := h.ws.map fun w => if w.id == sel h then { w with bad := true } else w } else h
    poison := (ks.eraseDups.filter fun k => !s.poison.contains k && (s.histOf k).all fun h => !(h.ws.any fun w => w.id == sel h)) ++ s.poison }

/-- The newest write of a location; 0 for the initial write. -/
def Hist.newest (h : Hist) : Nat := (h.ws.getLast?.map ByteW.id).getD 0

/-- Whether the newest contents of a location carry a mark. -/
def State.newestBad (s : State) (k : Nat) : Bool :=
  match (s.histOf k).bind fun h => h.ws.getLast? with
  | some w => w.bad
  | none => s.poison.contains k

-- DEDUCED (log 50, safe and in part unsafe): The mark that a write of part of a granule leaves on its other bytes is found by every reader of those bytes.
/-- The marks that an access leaves beside its own writes: a granule that it covers only in part carries one mark (17 R433). A granule that it
covers whole takes the mark of its data alone. -/
def State.markPoison (s : State) (keys : List Nat) (poisoned : Bool) : State :=
  s.markAt Hist.newest ((granulesOf keys).flatMap fun g =>
    let rest := (granuleKeys g).filter fun k => !keys.contains k
    if poisoned then rest else if rest.any s.newestBad then (granuleKeys g).filter keys.contains else [])

/-- One write of a party at a place of its program order, which carries the mark of its data: `data` lists keys and bytes; `prevs` gives for a key
the write an atomic read there. `own` is the party that the write's place is counted under. -/
def State.writeFrom (s : State) (party own n : Nat) (clk : Clock) (data : List (Nat × Byte)) (rel : Option Scope) (point : Option Nat)
    (prevs : List (Nat × ByteW)) (poisoned : Bool) : State :=
  let rels := relsOf s party rel clk
  let s1 := data.foldl (fun s (kb : Nat × Byte) =>
    let prev := (prevs.find? fun p => p.1 == kb.1).map Prod.snd
    -- an atomic passes on the releases of the write it read and of the earlier atomics of its point (R273)
    let atoms := if point.isSome then (((s.histOf kb.1).map Hist.ws).getD []).filter fun x => x.point == point else []
    let w : ByteW := { id := s.nextWrite, val := kb.2, party := own, stamp := n, clk := clk,
                       rels := (rels ++ (prev.toList ++ atoms).flatMap ByteW.rels).eraseDups, point := point, below := [], bad := poisoned
                       depth := if point.isSome then (prev.map ByteW.depth).getD 0 + 1 else 0 }
    s.putByte kb.1 kb.2 w prev) s
  { s1 with nextWrite := s1.nextWrite + 1 }

/-- One write of a party at a place of its program order. -/
def State.writeAs (s : State) (party n : Nat) (clk : Clock) (data : List (Nat × Byte)) (rel : Option Scope) (point : Option Nat)
    (prevs : List (Nat × ByteW)) (poisoned : Bool) : State :=
  (s.writeFrom party party n clk data rel point prevs poisoned).markPoison (data.map Prod.fst) poisoned

/-- One write made now by a party. -/
def State.write (s : State) (party : Nat) (data : List (Nat × Byte)) (rel : Option Scope) (point : Option Nat)
    (prevs : List (Nat × ByteW)) (poisoned : Bool) : State :=
  let (n, s) := s.tick party
  s.writeAs party n (s.clkOf party) data rel point prevs poisoned

/-! ## Reads (10 R278 to R280) -/

-- DESIGN CHOICE (log 4, unsafe): see notes/assumptions/4.md.
/-- The writes a read may return (10 R278), for a reader with the clock and stamp of its read and the writes its party has returned, 0
standing for the initial write; here the initial write is `none`. Oldest first. Condition 3 is read both ways, since a later read of the
split may have returned its value first. -/
def candidates (h : Hist) (seen : List (Nat × Nat × Nat)) (party : Nat) (clk : Clock) (stamp : Nat) : List (Option ByteW) :=
  let hbR (w : ByteW) : Bool := decide (w.stamp ≤ clkGet clk w.party)
  let mine := seen.filter fun e => e.1 == h.key
  let before := (mine.filter fun e => decide (e.2.2 < stamp)).map fun e => e.2.1
  let after := (mine.filter fun e => decide (stamp < e.2.2)).map fun e => e.2.1
  let pruners := h.ws.filter fun w => hbR w || before.contains w.id
  let later (w : ByteW) : Bool := decide (stamp ≤ clkGet w.clk party)
  let ok (w : ByteW) : Bool := !later w && !(pruners.any fun p => p.below.contains w.id) && !after.any fun i => w.below.contains i || i == 0
  (if pruners.isEmpty then [none] else []) ++ (h.ws.filter ok).map some

-- DEDUCED (log 78, unsafe): What R277 says of an atomic's read stands before R278, where only writes that have not reached the point are in the way.
/-- The write an atomic or a monitor at a point reads: the last one performed there before it (10 R277). Where that write is no candidate of R278,
because a write that happens before the read stands above it and has been performed further outward, it reads the last such candidate. -/
def atomicCands (h : Hist) (point : Nat) (cs : List (Option ByteW)) : List (Option ByteW) :=
  let last := h.lastAt point
  let find (i : Nat) : Option (Option ByteW) := cs.find? fun c => (c.map ByteW.id).getD 0 == i
  let passes (i : Nat) : Bool := i != last && (last == 0 || h.ws.any fun w => w.id == i && w.below.contains last)
  match find last with
  | some c => [c]
  | none => match ((h.performed point).filter passes).findSome? find with
    | some c => [c]
    | none => [h.ws.find? fun w => w.id == last]

/-- What a read of one byte returned: its key, the write (none for the initial write), the byte if it has one. -/
structure Pick where
  key : Nat
  w : Option ByteW
  val : Option Byte
  deriving DecidableEq, Repr

def pickOf (h : Hist) (c : Option ByteW) : Pick :=
  { key := h.key, w := c, val := match c with
      | none => h.init
      | some w => some w.val }

/-- Whether what a read returned carries a poison mark (17 R433). -/
def State.pickBad (s : State) (p : Pick) : Bool :=
  match p.w with
  | some w => w.bad
  | none => s.poison.contains p.key

/-- The byte of a peer's location in a line that a core's L1 or its die's L2 keeps under a sealed version (09 R263, 10 R289). -/
def State.keptByte (s : State) (party k : Nat) : Option Byte :=
  let u := s.unitOf party
  if !isPeerKey k || u ≥ 128 || u % 2 == 1 then none
  else
    let mine (lvl : CacheLevel) (o : Nat) : Option Line := s.lines.find? fun l => l.lvl == lvl && l.owner == o && l.line == k / 64
    match (mine .l1 (u / 2)).or (mine .l2 (u / 32)) with
    | some l => if l.ver == 0 || l.dirty.getLsbD (k % 64) then none else l.bytes[k % 64]?
    | none => none

-- DESIGN CHOICE (log 4, unsafe): A read takes, byte by byte, a free choice among the writes that R278 allows.
/-- The candidates of each byte of a read. A byte of host or peer memory may have been written from outside at any time: a free byte is
always among its candidates (log 2), but in a line that the reader keeps under a sealed version it is that version's byte (10 R289). -/
def State.candsOf (s : State) (party : Nat) (clk : Clock) (stamp : Nat) (point : Option Nat) (k : Nat) : List Pick :=
  let kept := s.keptByte party k
  let out : List Pick := if isHostKey k || isPeerKey k then [{ key := k, w := none, val := kept }] else []
  match (if kept.isSome then none else s.histOf k) with
  | none => if out.isEmpty then [{ key := k, w := none, val := s.byteAt k }] else out
  | some h =>
    let seen := ((s.party? party).map Party.seen).getD []
    let cs := candidates h seen party clk stamp
    let cs := match point with
      | some p => atomicCands h p cs
      | none => cs
    let cs := if cs.isEmpty then [h.ws.getLast?] else cs
    out ++ cs.map (pickOf h)

/-- A single-copy-atomic read must not tear a write (10 R280): for each byte of a write, every other byte the write wrote in the range
is that write or one it does not follow. -/
def untorn (s : State) (ps : List Pick) : Bool :=
  ps.all fun p => match p.w with
    | none => true
    | some w => ps.all fun q =>
      let wroteQ := ((s.histOf q.key).map fun h => h.ws.any fun x => x.id == w.id).getD false
      !wroteQ || (match q.w with
        | none => false
        | some w' => w'.id == w.id || !((((s.histOf q.key).map Hist.ws).getD []).any fun x => x.id == w.id && x.below.contains w'.id))

/-- One free pick per byte, with the counter advanced where there is a choice. -/
def pickEach (s : State) : List (List Pick) → List Pick × State
  | [] => ([], s)
  | cs :: l =>
    let (i, s) := takeChoice s cs.length
    let (ps, s) := pickEach s l
    match cs[i]? with
    | some p => (p :: ps, s)
    | none => (ps, s)

/-- Any untorn choice among the candidates of each byte, else the last candidate of each byte, which is never torn (log 4). -/
def State.choosePicks (s : State) (cs : List (List Pick)) : List Pick × State :=
  let (ps, s') := pickEach s cs
  if untorn s ps then (ps, s') else (cs.filterMap List.getLast?, s')

/-- A single-copy-atomic read of the keys by a party. -/
def State.readPicks (s : State) (party : Nat) (clk : Clock) (stamp : Nat) (point : Option Nat) (keys : List Nat) : List Pick × State :=
  s.choosePicks (keys.map (s.candsOf party clk stamp point))

/-- The bytes of picks, a free byte where a location has no value (log 2). -/
def fillBytes (s : State) : List Pick → List Byte × State
  | [] => ([], s)
  | p :: l =>
    match p.val with
    | some b => let (bs, s) := fillBytes s l; (b :: bs, s)
    | none =>
      let (w, s) := takeFree s
      let (bs, s) := fillBytes s l
      (BitVec.ofNat 8 w.toNat :: bs, s)

/-- The releases that picks read from (10 R273). -/
def relsRead (ps : List Pick) : List Rel := ps.flatMap fun p => match p.w with
  | some w => w.rels
  | none => []

/-- Whether a release of `r` synchronises with an acquire at `sc` by the party (10 R273). -/
def State.syncs (s : State) (r : Rel) (party : Nat) (sc : Scope) : Bool :=
  let same := r.party == party
  inInst (s.kindOf r.party) r.scope (s.kindOf party) same && inInst (s.kindOf party) sc (s.kindOf r.party) same

/-- An acquire of a party at a scope that read from releases (10 R273). -/
def State.acquire (s : State) (party : Nat) (sc : Scope) (rs : List Rel) : State :=
  rs.foldl (fun s r => if s.syncs r party sc then s.joinClk party r.clk else s) s

/-- A read recorded by its party: the writes it returned, and the releases a later acquire fence acts on (10 R278, R281). -/
def State.noteRead (s : State) (party stamp : Nat) (ps : List Pick) : State :=
  s.updParty party fun p => { p with
    seen := (ps.filterMap fun x => if x.w.isNone && (isHostKey x.key || isPeerKey x.key) then none
      else some (x.key, (x.w.map ByteW.id).getD 0, stamp)) ++ p.seen
    acqP := relsRead ps ++ p.acqP }

/-- A whole read: bytes, picks, and the state with the read recorded and an acquire performed. -/
def State.read (s : State) (party : Nat) (clk : Clock) (stamp : Nat) (acq : Option Scope) (keys : List Nat) :
    List Byte × List Pick × State :=
  let (ps, s) := s.readPicks party clk stamp none keys
  let (bs, s) := fillBytes s ps
  let s := s.noteRead party stamp ps
  let s := match acq with
    | some sc => s.acquire party sc (relsRead ps)
    | none => s
  (bs, ps, s)

/-- A read made now by a party. -/
def State.readNow (s : State) (party : Nat) (acq : Option Scope) (keys : List Nat) : List Byte × List Pick × State :=
  let (n, s) := s.tick party
  s.read party (s.clkOf party) n acq keys

/-- A read made now by a party of what a point holds (10 R277, 09 R266). -/
def State.readAt (s : State) (party point : Nat) (keys : List Nat) : List Byte × List Pick × State :=
  let (n, s) := s.tick party
  let (ps, s) := s.readPicks party (s.clkOf party) n (some point) keys
  let (bs, s) := fillBytes s ps
  (bs, ps, s.noteRead party n ps)

/-- A read of bytes that are not single-copy atomic together: each byte is its own read (10 R280). -/
def State.readEach (s : State) (party : Nat) (clk : Clock) (stamp : Nat) : List Nat → List Byte × List Pick × State
  | [] => ([], [], s)
  | k :: l =>
    let (b, p, s) := s.read party clk stamp none [k]
    let (bs, ps, s) := s.readEach party clk stamp l
    (b ++ bs, p ++ ps, s)

/-! ## Fences (10 R281) -/

/-- The release part of a fence. -/
def State.relFence (s : State) (party : Nat) (sc : Scope) : State :=
  let r : Rel := { party := party, scope := sc, clk := s.clkOf party }
  s.updParty party fun p => { p with relF := r :: p.relF.filter fun x => x.scope != sc }

/-- The acquire part of a fence: every earlier read acts as an acquire. -/
def State.acqFence (s : State) (party : Nat) (sc : Scope) : State :=
  s.acquire party sc (((s.party? party).map Party.acqP).getD [])

/-- The place of a full fence in the total order of its instance: what stands before it in program order happens before what follows a later
one. -/
def State.fullFence (s : State) (party : Nat) (sc : Scope) : State :=
  let k := s.kindOf party
  let mine := s.clkOf party
  let s := s.relFence party sc
  let before := s.scF.filter fun f => f.1 == sc && inInst k sc f.2.1 (k == f.2.1) && inInst f.2.1 sc k (k == f.2.1)
  let s := before.foldl (fun s f => s.joinClk party f.2.2) s
  let s := s.acqFence party sc
  { s with scF := (sc, k, mine) :: s.scF }

/-! ## Convenience -/

def keysFrom (k n : Nat) : List Nat := (List.range n).map (k + ·)

/-- A little-endian value written at consecutive keys. -/
def cellsOf (k n v : Nat) : List (Nat × Byte) := (keysFrom k n).zip ((List.range n).map fun i => BitVec.ofNat 8 (v / 256 ^ i))

/-- The number in little-endian bytes (00 R7). -/
def leNum : List Byte → Nat
  | [] => 0
  | b :: l => b.toNat + 256 * leNum l

/-- What a point holds of a location: the write last performed there, with its byte. -/
def State.pickAt (s : State) (p k : Nat) : Pick :=
  match s.histOf k with
  | none => { key := k, w := none, val := s.byteAt k }
  | some h => pickOf h (h.ws.find? fun w => w.id == h.lastAt p)

/-- Whether the home, or the scratchpad, holds a location poisoned. -/
def State.poisonedKey (s : State) (k : Nat) : Bool := s.pickBad (s.pickAt (recordPoint k) k)

/-- What the home, or the scratchpad, holds of some locations poisoned. -/
def State.spoil (s : State) (ks : List Nat) : State := s.markAt (fun h => h.lastAt (recordPoint h.key)) ks

/-- The byte that a home holds; none where nothing gives it a value. -/
def State.homeByte (s : State) (k : Nat) : Option Byte := (s.pickAt (recordPoint k) k).val

/-- A value as the part's own units read it at the home, a free byte where there is none. -/
def State.homeRead (s : State) (keys : List Nat) : Nat × State :=
  let (bs, s) := fillBytes s (keys.map fun k => s.pickAt (recordPoint k) k)
  (leNum bs, s)

/-! ## Ranges -/

/-- A range, first key and length, outside another; and the part of it inside. -/
def cutRange (r c : Nat × Nat) : List (Nat × Nat) :=
  if c.1 + c.2 ≤ r.1 ∨ r.1 + r.2 ≤ c.1 then [r]
  else [(r.1, c.1 - r.1), (c.1 + c.2, r.1 + r.2 - (c.1 + c.2))].filter fun x => x.2 != 0

def meetRange (r c : Nat × Nat) : List (Nat × Nat) :=
  let lo := max r.1 c.1
  let hi := min (r.1 + r.2) (c.1 + c.2)
  if lo < hi then [(lo, hi - lo)] else []

/-- Ranges outside all of some others. -/
def cutAll (rs cs : List (Nat × Nat)) : List (Nat × Nat) := cs.foldl (fun rs c => rs.flatMap fun r => cutRange r c) rs

def inRange (r : Nat × Nat) (k : Nat) : Bool := decide (r.1 ≤ k ∧ k < r.1 + r.2)

/-! ## Seals (09 R262, 17 R431) -/

/-- The ranges of this device that hold a non-zero version. -/
def State.sealedRanges (s : State) : List (Nat × Nat) := (s.seals.filter fun e => e.peer == none && e.ver != 0).map fun e => (e.base, e.len)

/-- Whether a home refuses writes to a key: its range holds a non-zero version. -/
def State.sealed (s : State) (k : Nat) : Bool := isDeviceKey k && s.sealedRanges.any fun r => inRange r k

/-! ## Zeroing (09 R250) -/

/-- Every byte of a range zeroed by a party of its own, whose one write happens before every access made through the zeroed entry (10 R287):
unlisted bytes of it read as zero from here on, and a location that has been written gets a zero write, performed at the home, that stands
above the writes that happen before the walk; a concurrent write through another mapping stays a candidate. The home refuses the writes to a sealed
range (17 R431). -/
def State.zeroRange (s : State) (party : Nat) (clk : Clock) (base size : Nat) : State :=
  let parts := cutAll [(base, size)] s.sealedRanges
  let inR (k : Nat) : Bool := parts.any fun r => inRange r k
  { s with
    zeroed := parts ++ s.zeroed
    mem := s.mem.filter fun c => !(inR c.1)
    hist := s.hist.map fun h =>
      if inR h.key then { h with
        ws := h.ws ++ [{ id := s.nextWrite, val := 0, party := party, stamp := 1, clk := clkSet clk party 1, rels := [],
                         point := none, below := belowOf h.ws clk none none }]
        at_ := (pointHome, s.nextWrite) :: h.at_ }
      else h
    nextWrite := s.nextWrite + 1
    poison := s.poison.filter fun k => !(inR k) }

end Sys2Proof.Machine
end

