-- ==== Sys2Proof/Machine/Translate.lean ====
section
/-!
DEFINITION. Windows, page tables, translation caches and zero requests (09 R244 to R252, 17 R414, R415, R421, R423).
-/
namespace Sys2Proof.Machine

/-! ## Windows -/

/-- Where an element lies once its window is known. -/
inductive Place where
  | virt (va : Nat) | sp (serial off : Nat) (ctxh seg : Nat)
  deriving DecidableEq, Repr

/-- A memory fault of stage 5 or 7 as TDETAIL reports it (17 R412). -/
structure MFault where
  cause : Nat
  reason : Nat
  tgt : Nat
  lvl : Nat
  rank : Nat
  seg : Nat
  /-- offset of the first faulting byte within the element; 0 where the element fails as a whole -/
  off : Nat
  deriving DecidableEq, Repr

def MFault.window (r : Nat) : MFault := { cause := 0x22, reason := r, tgt := 0, lvl := 0, rank := 0, seg := 0, off := 0 }
def MFault.range (r rank seg : Nat) : MFault := { cause := 0x25, reason := r, tgt := 0, lvl := 0, rank := rank, seg := seg, off := 0 }

def globalTop : Nat := 0x7FFF00000000
def privBase : Nat := 0x7FFF00000000
def clusterBase : Nat := 0x7FFF80000000
def ownBase : Nat := 0x7FFFF0000000
def segBytes : Nat := 4096

/-- An element in a team's own scratchpad (17 R423). -/
def placeSp (t : Team) (rank off size : Nat) : Except MFault Place :=
  if off + size > t.segs * segBytes then .error (.range 1 rank (off / segBytes % 1024))
  else .ok (.sp t.serial off t.ctxh (off / segBytes))

/-- An element in the cluster scratchpad of a rank. -/
def placeCluster (s : State) (t : Team) (off size : Nat) : Except MFault Place :=
  let r := off / 2 ^ 22
  let seg := off % 2 ^ 22 / segBytes
  if (off + size - 1) / 2 ^ 22 ≠ r then .error { MFault.window 3 with rank := r % 8, seg := seg }
  else if r ≥ s.nteam t then .error (.range 2 (r % 8) seg)
  else match s.teamOfRank t.cluster r with
    | some t' => placeSp t' r (off % 2 ^ 22) size
    | none => .error (.range 2 (r % 8) seg)

/-- An element at a private offset of a warp (09 R246, 17 R421 reasons 4 to 6). -/
def placePriv (t : Team) (who : Who) (off size : Nat) : Except MFault Place :=
  match who with
  | .warp _ w =>
    if off + size > t.psz then .error (.window 4)
    else if off < 0x410000 then .error (.window 5)
    else .ok (.virt (t.priv + w * t.psz + off))
  | _ => .error (.window 6)

-- DEDUCED (log 24, unsafe): TADDR is the first byte of the element, and the lowest reason that applies is reported.
/-- Where an element of `size` bytes at an effective address lies, or the fault of stage 5 (07 R172, 09 R244, R245, 17 R421, R423). Of several
reasons of one cause the lowest is reported. -/
def placeOf (s : State) (t : Team) (who : Who) (sp : Space) (ea size : Nat) : Except MFault Place :=
  let last := ea + size - 1
  match sp with
  | .generic =>
    if ea < globalTop then (if last < globalTop then .ok (.virt ea) else .error (.window 2))
    else if privBase ≤ ea ∧ ea < clusterBase then
      (if last < clusterBase then placePriv t who (ea - privBase) size else .error (.window 2))
    else if clusterBase ≤ ea ∧ ea < clusterBase + 2 ^ 25 then
      (if last < clusterBase + 2 ^ 25 then placeCluster s t (ea - clusterBase) size else .error { MFault.window 2 with rank := 7, seg := 1023 })
    else if ownBase ≤ ea ∧ ea < ownBase + 2 ^ 22 then
      (if last < ownBase + 2 ^ 22 then placeSp t 0 (ea - ownBase) size else .error { MFault.window 2 with seg := 1023 })
    else .error (.window 1)
  | .global =>
    if ea < globalTop then (if last < globalTop then .ok (.virt ea) else .error (.window 2)) else .error (.window 1)
  | .own =>
    match placeSp t 0 (ea % 2 ^ 22) size with
    | .ok p => if ea ≥ 2 ^ 22 then .error (.range 4 0 (ea % 2 ^ 22 / segBytes)) else .ok p
    | e => e
  | .cluster =>
    match placeCluster s t (ea % 2 ^ 25) size with
    | .ok p => if ea ≥ 2 ^ 25 then .error (.range 4 (ea % 2 ^ 25 / 2 ^ 22) (ea % 2 ^ 22 / segBytes)) else .ok p
    | e => e
  | .priv => placePriv t who ea size

/-! ## Page tables -/

/-- A usable leaf: the first byte of its page in virtual and in target space, its size, and its rights. -/
structure Leaf where
  word : Nat
  lvl : Nat
  entry : Nat
  deriving DecidableEq, Repr

def Leaf.tgt (l : Leaf) : Nat := fieldOf l.word 62 2
def Leaf.peer (l : Leaf) : Nat := fieldOf l.word 52 10
def Leaf.base (l : Leaf) : Nat := fieldOf l.word 12 40 * 4096
def Leaf.zp (l : Leaf) : Bool := fieldOf l.word 11 1 == 1
def Leaf.canX (l : Leaf) : Bool := fieldOf l.word 5 1 == 1
def Leaf.canW (l : Leaf) : Bool := fieldOf l.word 4 1 == 1
def Leaf.user (l : Leaf) : Bool := fieldOf l.word 3 1 == 1
def Leaf.size (l : Leaf) : Nat :=
  match l.lvl with
  | 2 => 2 ^ 30
  | 3 => 2 ^ 21
  | _ => if fieldOf l.word 7 2 = 1 then 2 ^ 16 else 2 ^ 12

/-- A failed walk: the reason and level of R414, or a poisoned entry, which loses the context (17 R432). -/
inductive WalkFail where
  | xlate (reason lvl tgt : Nat) | poisoned
  deriving DecidableEq, Repr

/-- Whether a non-leaf entry is malformed (17 R414 reason 2). -/
def badTable (e : Nat) : Bool :=
  fieldOf e 62 2 != 0 || fieldOf e 52 10 != 0 || fieldOf e 43 9 != 0 || fieldOf e 11 1 != 0 || fieldOf e 9 2 != 0 ||
    fieldOf e 7 2 != 0 || fieldOf e 3 3 != 0 || fieldOf e 1 2 != 0

/-- Whether a leaf entry is malformed at its level. -/
def badLeaf (l : Leaf) : Bool :=
  let e := l.word
  l.tgt == 3 || (l.tgt != 2 && l.peer != 0) || (l.tgt != 1 && fieldOf e 43 9 != 0) || (l.zp && l.tgt != 0) || fieldOf e 9 2 != 0 ||
    fieldOf e 1 2 != 0 || (l.lvl != 4 && fieldOf e 7 2 != 0) || decide (fieldOf e 7 2 ≥ 2) || l.base % l.size != 0

/-- A write that stands dirty in an L1 or an L2 has not been performed at its home. -/
def State.unpushed (s : State) (wid : Nat) : Bool := s.lines.any fun l => l.writes.contains wid

/-- An eight-byte table entry read at its home by a party, any candidate of R278 (10 R286), and whether what it read is poisoned; the read crosses to
the home's die. -/
def State.readEntry (s : State) (party : Nat) (clk : Clock) (pa : Nat) : Nat × Bool × State :=
  let s := s.cross (dieOfUnit (s.unitOf party)) false [pa]
  let (ps, s) := s.readPicks party clk (clkGet clk party + 1) none (keysFrom pa 8)
  let bad := ps.any s.pickBad
  let (bs, s) := fillBytes s ps
  (leNum bs, bad, s)

/-- The sixteen entries of a 64 KiB group are equal (09 R248); none where one of them is poisoned (17 R432). -/
def State.groupEqual (s : State) (party : Nat) (clk : Clock) (group e : Nat) : Nat → Option Bool × State
  | 0 => (some true, s)
  | n + 1 =>
    match s.readEntry party clk (group + 8 * n) with
    | (_, true, s) => (none, s)
    | (x, false, s) =>
      match s.groupEqual party clk group e n with
      | (some r, s) => (some (x == e && r), s)
      | x => x

/-- What an entry of a level says. -/
inductive Node where
  | leaf (l : Leaf) | table (pa : Nat) | bad (f : WalkFail)
  deriving DecidableEq, Repr

/-- An entry's word at its level (09 R247, R248, 17 R414). -/
def nodeOf (e lvl pa : Nat) : Node :=
  if fieldOf e 0 1 = 0 then .bad (.xlate 1 lvl 0)
  else
    let leaf := fieldOf e 6 1 == 1
    if (lvl == 1 && leaf) || (lvl == 4 && !leaf) then .bad (.xlate 2 lvl 0)
    else if leaf then
      let l : Leaf := { word := e, lvl := lvl, entry := pa }
      if badLeaf l then .bad (.xlate 2 lvl l.tgt) else if l.tgt == 0 && !backed l.base then .bad (.xlate 3 lvl 0) else .leaf l
    else if badTable e then .bad (.xlate 2 lvl 0)
    else if !backed (fieldOf e 12 31 * 4096) then .bad (.xlate 3 lvl 0)
    else .table (fieldOf e 12 31 * 4096)

/-- An entry as the caches keep it: a leaf's ZP reads 0 once its walk has completed (09 R250). -/
def keptWord (e lvl : Nat) : Nat :=
  match nodeOf e lvl 0 with
  | .leaf l => if l.zp then e - 2 ^ 11 else e
  | _ => e

/-- The addresses that an entry of a level stands for: a leaf's page, else what its table maps. -/
def nodeSpan (e lvl : Nat) : Nat :=
  match nodeOf e lvl 0 with
  | .leaf l => l.size
  | _ => 2 ^ (12 + 9 * (4 - lvl))

/-- The leaf of a cached translation. -/
def TlbEnt.toLeaf (e : TlbEnt) : Leaf := { word := e.leaf.toNat, lvl := e.lvl, entry := e.entry }

def TlbEnt.span (e : TlbEnt) : Nat := nodeSpan e.leaf.toNat e.lvl

/-- Whether a cached entry stands for an address of a process. -/
def TlbEnt.covers (e : TlbEnt) (asid va : Nat) : Bool := e.asid == asid && decide (e.page ≤ va ∧ va < e.page + e.span)

/-- The entries for an address that the caches of the package hold (09 R249). -/
def State.cached (s : State) (asid va : Nat) : List TlbEnt := s.tlb.filter fun e => e.covers asid va

def State.asid? (s : State) (a : Nat) : Option Asid := s.plat.asids.find? fun x => x.num == a

/-- What the issuers of the `tlbinv`s that cover an address had released (09 R249, 10 R286). -/
def State.invClk (s : State) (asid va : Nat) : Clock :=
  (s.tlbInv.filter fun i => (i.asid.getD asid == asid) && decide (i.base ≤ va ∧ va < i.base + i.len)).foldl (fun c i => clkJoin c i.clk) []

/-- Whether a cached entry is the one at an address, or of one 64 KiB group with it, whose sixteen entries are equal (09 R248). -/
def TlbEnt.isAt (e : TlbEnt) (pa : Nat) : Bool := e.entry == pa || (e.lvl == 4 && e.span == 2 ^ 16 && e.entry / 128 == pa / 128)

/-- An entry put into the caches of a unit, which keep what they hold until a `tlbinv` removes it (09 R249). -/
def State.keepEntry (s : State) (unit asid va lvl pa word : Nat) : State :=
  let span := nodeSpan word lvl
  let e : TlbEnt := { asid := asid, page := va / span * span, leaf := BitVec.ofNat 64 word, lvl := lvl, entry := pa, who := unit }
  if s.tlb.contains e then s else { s with tlb := e :: s.tlb }

/-- A fresh read of an entry: its word, and whether it, or one of its 64 KiB group, is poisoned or the group unequal. -/
def State.freshEntry (s : State) (party : Nat) (clk : Clock) (lvl pa : Nat) : Nat × Option WalkFail × State :=
  match s.readEntry party clk pa with
  | (_, true, s) => (0, some .poisoned, s)
  | (e, false, s) =>
    match nodeOf e lvl pa with
    | .leaf l =>
      if l.lvl == 4 && fieldOf e 7 2 == 1 then
        match s.groupEqual party clk (pa / 128 * 128) e 16 with
        | (none, s) => (e, some .poisoned, s)
        | (some true, s) => (e, none, s)
        | (some false, s) => (e, some (.xlate 2 lvl l.tgt), s)
      else (e, none, s)
    | _ => (e, none, s)

-- DEDUCED (log 58, safe and in part unsafe): A core or engine that holds an entry uses it until a tlbinv removes it; one that holds none reads it, or takes what another holds.
/-- The entry that a unit uses at a level: the one that its caches hold or, if they hold none, one that another unit's hold or a fresh read, any of
these where they differ; what it has taken it keeps (09 R249). -/
def State.useEntry (s : State) (party : Nat) (clk : Clock) (asid va lvl pa : Nat) : Nat × Option WalkFail × State :=
  let unit := s.unitOf party
  let held := (s.cached asid va).filter fun e => e.lvl == lvl && e.isAt pa
  match (held.filter fun e => e.who == unit).getLast? with
  | some e => (e.leaf.toNat, none, s)
  | none =>
    let (e, f, s) := s.freshEntry party clk lvl pa
    let others := ((held.filter fun x => f.isSome || x.leaf.toNat != e).map fun x => x.leaf.toNat).eraseDups
    let (i, s) := takeChoice s (others.length + 1)
    match others[i]? with
    | some w => (w, none, s.keepEntry unit asid va lvl pa w)
    | none => match f with
      | some _ => (e, f, s)
      | none => (e, none, s.keepEntry unit asid va lvl pa (keptWord e lvl))

/-- The leaf that the caches of a party's unit hold for an address, the one held longest (09 R249). -/
def State.heldLeaf (s : State) (party asid va : Nat) : Option Leaf :=
  let unit := s.unitOf party
  let leaf (e : TlbEnt) : Bool := match nodeOf e.leaf.toNat e.lvl e.entry with
    | .leaf _ => true
    | _ => false
  ((s.cached asid va).filter fun e => e.who == unit && leaf e).getLast?.map TlbEnt.toLeaf

/-- The walk from a table at level `5 - fuel` (09 R247). -/
def walkFrom (party : Nat) (clk : Clock) (asid va : Nat) : Nat → State → Nat → Except WalkFail Leaf × State
  | 0, s, _ => (.error (.xlate 2 4 0), s)
  | fuel + 1, s, table =>
    let lvl := 4 - fuel
    let pa := table + 8 * (va / 2 ^ (12 + 9 * fuel) % 512)
    match s.useEntry party clk asid va lvl pa with
    | (_, some f, s) => (.error f, s)
    | (e, none, s) =>
      match nodeOf e lvl pa with
      | .bad f => (.error f, s)
      | .leaf l => (.ok l, s)
      | .table t => walkFrom party clk asid va fuel s t

-- DEDUCED (log 58, safe and in part unsafe): A failing root has level 0 in TDETAIL.
/-- A translation: the leaf that the accessor's unit holds, or a whole walk (09 R247, R249, 17 R414 reason 4). What happens before a walk is what its
accessor knows, and what the issuers of the `tlbinv`s that cover the address had released (10 R286). -/
def State.walk (s : State) (party : Nat) (clk : Clock) (asid va : Nat) : Except WalkFail Leaf × State :=
  let clk := clkJoin clk (s.invClk asid va)
  match s.asid? asid with
  | none => (.error (.xlate 4 0 0), s)
  | some a =>
    match s.heldLeaf party asid va with
    | some l => (.ok l, s)
    | none =>
      let table := fieldOf a.root.toNat 12 31 * 4096
      if !backed table then (.error (.xlate 3 0 0), s) else walkFrom party clk asid va 4 s table

/-- The entries that one zero request covers: a leaf's own, or the sixteen of its 64 KiB group (09 R248, R250). -/
def Leaf.entries (l : Leaf) : List Nat :=
  if l.lvl == 4 && l.size == 2 ^ 16 then (List.range 16).map fun i => l.entry / 128 * 128 + 8 * i else [l.entry]

/-- ZP of an entry cleared at its home by the home's atomic unit: one byte is read and written there, and no other bit changes; a byte without a
value stays so (00 R4). -/
def State.clearZp (s : State) (party : Nat) (clk : Clock) (pa : Nat) : State :=
  let k := pa + 1
  let p := s.pickAt pointHome k
  match p.val with
  | none => s
  | some b =>
    let wid := s.nextWrite
    if s.sealed k then s
    else
      let s := s.writeAs party 2 (clkSet clk party 2) [(k, b &&& 0xF7)] none (some pointHome) (p.w.toList.map fun w => (k, w)) (s.pickBad p)
      s.landAt pointHome [k] wid

-- DEDUCED (log 58, safe and in part unsafe): ZP is tested in the entry as its home holds it, and the page of that entry is zeroed, whatever the walk read.
/-- The zero request of R250, sent from a die over the narrow plane (12 R334) and served at the entry's home, which tests ZP there: every byte of the
page that the entry names zero, then ZP := 0 in the entry, and in every entry of a 64 KiB group. The party of the zero writes stays with the entry,
since every access through it comes after them. -/
def State.zeroRequest (s : State) (die : Nat) (clk : Clock) (l : Leaf) : State :=
  if !l.zp then s
  else
    let s := s.cross die true [l.entry]
    let (w, s) := s.homeRead (keysFrom l.entry 8)
    match nodeOf w l.lvl l.entry with
    | .leaf h =>
      if !h.zp then s
      else
        let s := s.cross (mdieOf l.entry / 2) true [h.base]
        let (z, s) := s.newParty .frontEnd (clkSet clk s.nextParty 2) []
        let s := s.zeroRange z clk h.base h.size
        let s := h.entries.foldl (fun s pa => s.clearZp z clk pa) s
        { s with zeroBy := assocSet s.zeroBy (h.entries.headD 0) z }
    | _ => s

/-- The zero writes that happen before whatever a party does next (10 R287). -/
def State.zeroKnown (s : State) (party : Nat) : Clock :=
  (s.clkOf party).filter fun e => s.zeroBy.any fun z => z.2 == e.1

/-- What happens before every access through a leaf: the zero writes of its entry (10 R287). -/
def State.zeroClk (s : State) (l : Leaf) : Clock :=
  match assoc? s.zeroBy (l.entries.headD 0) with
  | some z => [(z, 2)]
  | none => []

/-- The leaf an access uses: a walk over entries held and read, with its zero request (09 R249, R250). -/
def State.leafFor (s : State) (party : Nat) (clk : Clock) (asid va : Nat) : Except WalkFail Leaf × State :=
  match s.walk party clk asid va with
  | (.error f, s) => (.error f, s)
  | (.ok l, s) => (.ok l, s.zeroRequest (dieOfUnit (s.unitOf party)) clk l)

/-- The size of the page that a unit has last used for an address. -/
def State.pageSpan (s : State) (party asid va : Nat) : Nat :=
  (((s.cached asid va).filter fun e => e.who == s.unitOf party).foldl (fun (b : Nat × Nat) e => if e.lvl > b.1 then (e.lvl, e.span) else b) (0, 4096)).2

/-- What an access asks of a leaf. -/
structure Rights where
  write : Bool
  fetch : Bool
  super : Bool
  deriving DecidableEq, Repr

/-- PERM of R415: the reason for which a leaf refuses. -/
def refuses (l : Leaf) (r : Rights) : Option Nat :=
  if !r.super && !l.user then some 2 else if r.write && !l.canW then some 1 else if r.fetch && !l.canX then some 3 else none

/-- The key of a byte of a leaf's page. -/
def Leaf.key (l : Leaf) (va : Nat) : Nat :=
  let a := l.base + va % l.size
  match l.tgt with
  | 0 => a
  | 1 => hostKey a
  | _ => peerKey l.peer a

/-- How a translation fails: a fault to record, or a lost context. -/
inductive TransFail where
  | fault (f : MFault) | lost
  deriving DecidableEq, Repr

/-- The key of one virtual byte. The zero writes of its page happen before the party's accesses from here on. -/
def State.transByte (s : State) (party : Nat) (clk : Clock) (asid : Nat) (r : Rights) (va : Nat) : Except TransFail Nat × State :=
  match s.leafFor party clk asid va with
  | (.error .poisoned, s) => (.error .lost, s)
  | (.error (.xlate reason lvl tgt), s) =>
    (.error (.fault { cause := 0x20, reason := reason, tgt := tgt, lvl := lvl, rank := 0, seg := 0, off := 0 }), s)
  | (.ok l, s) =>
    match refuses l r with
    | some reason => (.error (.fault { cause := 0x21, reason := reason, tgt := l.tgt, lvl := 0, rank := 0, seg := 0, off := 0 }), s)
    | none => (.ok (l.key va), s.joinClk party (s.zeroClk l))

-- DEDUCED (log 33, safe): see notes/assumptions/33.md.
/-- The keys of `n` virtual bytes, page by page; a fault names the first byte that failed. -/
def State.transBytes (s : State) (party : Nat) (clk : Clock) (asid : Nat) (r : Rights) (va : Nat) : Nat → Nat → Except TransFail (List Nat) × State
  | _, 0 => (.ok [], s)
  | i, n + 1 =>
    -- the bytes up to the end of this 4 KiB unit share one leaf
    match s.transByte party clk asid r (va + i) with
    | (.error (.fault f), s) => (.error (.fault { f with off := i }), s)
    | (.error .lost, s) => (.error .lost, s)
    | (.ok k, s) =>
      let here := min (n + 1) (4096 - (va + i) % 4096)
      if here = n + 1 then (.ok (keysFrom k (n + 1)), s)
      else match s.transBytes party clk asid r va (i + 1) n with
        | (.ok ks, s) => (.ok (k :: ks), s)
        | (.error e, s) => (.error e, s)

/-- The keys of an element at a place. -/
def State.keysAt (s : State) (party : Nat) (clk : Clock) (asid : Nat) (r : Rights) (p : Place) (n : Nat) :
    Except TransFail (List Nat) × State :=
  match p with
  | .sp serial off _ _ => (.ok (keysFrom (spKey serial off) n), s)
  | .virt va => s.transBytes party clk asid r va 0 n

end Sys2Proof.Machine
end

