-- ==== Sys2Proof/Machine/Cache.lean ====
section
/-!
DEFINITION. The lines that L1s, L2s and home caches hold, their room, dirty masks, stale marks, the homes' directories and seals (09 R257 to
R263, 17 R428 to R431). Caches never decide which value a load returns: chapter 10 does. What they decide is which write has last been
performed at each point, so what an atomic or a monitor there reads, and which writes a sealed range refuses.
-/
namespace Sys2Proof.Machine

def lineOf (k : Nat) : Nat := k / 64

def linesOf (keys : List Nat) : List Nat := ((keys.filter fun k => !isSpKey k).map lineOf).eraseDups

def isLine (lvl : CacheLevel) (owner line : Nat) (x : Line) : Bool := x.lvl == lvl && x.owner == owner && x.line == line

def State.line? (s : State) (lvl : CacheLevel) (owner line : Nat) : Option Line := s.lines.find? (isLine lvl owner line)

def State.putLine (s : State) (l : Line) : State :=
  { s with lines := l :: s.lines.filter fun x => !isLine l.lvl l.owner l.line x }

/-- The point whose contents a cache holds (09 R257). -/
def cachePoint (lvl : CacheLevel) (owner : Nat) : Nat :=
  match lvl with
  | .l1 => 100 + owner
  | .l2 => pointL2 owner
  | .home => pointHome

/-- A line gone from a cache, which then shows what the next level holds. -/
def State.dropLine (s : State) (lvl : CacheLevel) (owner line : Nat) : State :=
  { s with
    lines := s.lines.filter fun x => !isLine lvl owner line x
    hist := if lvl == .home then s.hist else s.hist.map fun h =>
      if lineOf h.key == line then { h with at_ := h.at_.filter fun e => e.1 != cachePoint lvl owner } else h }

def State.dropAll (s : State) (l : List Line) : State := l.foldl (fun s x => s.dropLine x.lvl x.owner x.line) s

-- DEDUCED (log 65, safe and in part unsafe): Of two concurrent chains of atomics the point outward keeps the result of the longer one.
/-- Whether a write that is sent outward does not take the place of the one performed there: that one stands above it or, of two that atomics of
different points have made, has more atomics behind it (13 R357: no chain falls back). -/
def ByteW.past (x w : ByteW) : Bool := x.below.contains w.id || (w.point.isSome && x.point.isSome && decide (w.depth < x.depth) && !w.below.contains x.id)

/-- The bytes of a line that a level sends outward are performed there (09 R258). -/
def State.moveAt (s : State) (line : Nat) (dirty : Word) (p q : Nat) : State :=
  let s := s.touch q fun k => lineOf k == line && dirty.getLsbD (k % 64)
  { s with hist := s.hist.map fun h =>
      if lineOf h.key == line && dirty.getLsbD (h.key % 64) then
        match h.ws.find? fun w => w.id == h.lastAt p with
        | some w => if h.ws.any fun x => x.id == h.lastAt q && x.past w then h else h.land q w.id
        | none => h
      else h }

/-- A cache takes a line's contents as the next level outward holds them. -/
def State.snap (s : State) (line p : Nat) : State :=
  { s with hist := s.hist.map fun h => if lineOf h.key == line && (assoc? h.at_ p).isNone then h.land p (h.lastAt p) else h }

/-- The home's directory bit of a die (09 R260). -/
def State.dirAdd (s : State) (line die : Nat) : State :=
  if isDeviceKey (line * 64) then
    let ds := (assoc? s.dir line).getD []
    if ds.contains die then s else { s with dir := assocSet s.dir line (die :: ds) }
  else s

/-- The dirty bits of some keys in their line. -/
def dirtyBits (line : Nat) (keys : List Nat) : Word :=
  (keys.filter fun k => lineOf k == line).foldl (fun m k => m ||| BitVec.ofNat 64 (2 ^ (k % 64))) 0

/-! ## Write-backs (09 R258, 17 R431) -/

/-- Writes of a line withdrawn, as a refused write merges no byte. -/
def State.withdraw (s : State) (line : Nat) (ids : List Nat) : State :=
  (keysFrom (line * 64) 64).foldl (fun s k =>
    match s.histOf k with
    | none => s
    | some h =>
      let ws := h.ws.filter fun w => !(ids.contains w.id)
      let last : Option Byte := match ws.getLast? with
        | some w => some w.val
        | none => h.init
      { s with hist := { h with ws := ws, at_ := h.at_.filter fun e => !(ids.contains e.2) } :: s.hist.filter (fun x => x.key != k)
               mem := match last with
                 | some b => cellSet s.zeroed s.mem k b
                 | none => cellErase s.mem k }) s

/-- The granules of a line that are dirty and poisoned here, and are written back poisoned (17 R432). -/
def Line.badDirty (l : Line) : List Nat := l.bad.filter fun g => (List.range 8).any fun i => l.dirty.getLsbD (g % 8 * 8 + i)

/-- A line whose dirty bytes have gone to the next level. -/
def Line.cleaned (l : Line) : Line := { l with dirty := 0, writes := [], more := [], bad := l.bad.filter fun g => !l.badDirty.contains g }

/-- The writers of the dirty bytes of a line but the last one, with some others, once another context has written last (17 R431). -/
def Line.writersBut (x : Line) (last : Nat) (more : List Nat) : List Nat :=
  ((if x.dirty == 0 then [] else x.ctxh :: x.more) ++ more).eraseDups.filter (· != last)

/-- A line as the next level holds it once it has taken the dirty bytes of another. -/
def Line.merged (x l : Line) : Line :=
  { x with dirty := x.dirty ||| l.dirty, ctxh := l.ctxh, more := x.writersBut l.ctxh l.more, writes := (l.writes ++ x.writes).eraseDups
           bad := (l.badDirty ++ x.bad).eraseDups }

/-- Whether a monitor stands at the L2 of a die for a line (09 R266, R267). -/
def State.monitored (s : State) (die line : Nat) : Bool :=
  s.monitors.any fun m => m.locs.any fun l => l.point == 1 && l.place == die && l.keys.any fun k => lineOf k == line

/-- A stale notice into a core's queue, whose core has then no presence bit for the line; one that finds 1,024 there is acknowledged and sets the
core's overflow flag (09 R260, 17 R429). -/
def Die.noteCore (line : Nat) (d : Die) (core : Nat) : Die :=
  if d.coreQ.contains (core, line) then d
  else if (d.coreQ.filter fun x => x.1 == core).length < 1024 then { d with coreQ := d.coreQ ++ [(core, line)] }
  else { d with coreOvf := (core :: d.coreOvf).eraseDups }

/-- The notices of an L2 slice to the cores of its die that hold a line, but for one L1 (09 R260). -/
def State.noteCores (s : State) (die line : Nat) (but : Option Nat) : State :=
  s.updDie die fun d =>
    (s.lines.filter fun y => y.lvl == .l1 && y.line == line && y.owner / 16 == die && !y.stale && some y.owner != but).foldl
      (fun d y => d.noteCore line (y.owner % 16)) d

-- DEDUCED (log 41, safe): A core takes the notices of its queue as time passes on its die, and at the latest before an acquire of its own.
/-- The notices of the queues of some cores taken: the L1s mark these lines stale. -/
def State.takeCores (s : State) (die : Nat) (sel : Nat → Bool) : State :=
  match s.die? die with
  | none => s
  | some d =>
    let now := d.coreQ.filter fun x => sel x.1
    if now.isEmpty then s
    else { s.updDie die fun d => { d with coreQ := d.coreQ.filter fun x => !sel x.1 } with
      lines := s.lines.map fun (y : Line) =>
        if y.lvl == .l1 && y.owner / 16 == die && now.contains (y.owner % 16, y.line) then { y with stale := true } else y }

/-- A line that an L2 slice holds, or did hold, fetched again from its home, which sets the die's presence bit: the bytes that the slice holds
dirty stay, and the cores that hold the line get notices (09 R260, R267). -/
def State.refetch (s : State) (die line : Nat) : State :=
  let dirty := ((s.line? .l2 die line).map Line.dirty).getD 0
  let held := (s.line? .l2 die line).isSome
  let s := { s with
    hist := s.hist.map fun (h : Hist) =>
      if held && lineOf h.key == line && !dirty.getLsbD (h.key % 64) then h.land (pointL2 die) (h.lastAt pointHome) else h
    lines := s.lines.map fun (y : Line) => if y.line == line && y.lvl == CacheLevel.l2 && y.owner == die then { y with stale := false } else y }
  (s.noteCores die line none).dirAdd line die

/-- A stale notice delivered to a cache, which marks the line (09 R260). An L2 slice with a monitor on the line fetches it again and reads the
monitored locations again (R267). -/
def State.markStale (s : State) (lvl : CacheLevel) (owner line : Nat) : State :=
  if lvl == .l2 && s.monitored owner line then (s.refetch owner line).touch (pointL2 owner) fun k => lineOf k == line
  else match s.line? lvl owner line with
    | some l => s.putLine { l with stale := true }
    | none => s

/-- A compute die to which messages wait: it relocks, so that its clock-crossing FIFOs stall, or its core clock stands (12 R337, 20 R496). -/
def State.stalled (s : State) (die : Nat) : Bool := s.plat.clockStop || ((s.die? die).map fun d => d.relock.isSome).getD false

/-- Whether the home of a line can send a message to a compute die now. -/
def State.delivers (s : State) (die line : Nat) : Bool := !s.stalled die && s.reaches die true (line * 64)

-- DEDUCED (log 41, safe): A notice is delivered at once where the die takes messages; one that finds 4,096 waiting for its memory die sets the overflow flag.
/-- One stale notice to a die, which queues while the die takes none (09 R260, 17 R429). -/
def State.sendNotice (s : State) (line die : Nat) : State :=
  if s.delivers die line then s.markStale .l2 die line
  else s.updDie die fun d =>
    let m := mdieOf (line * 64)
    if (d.noteQ.filter fun x => mdieOf (x * 64) == m).length < 4096 then { d with noteQ := d.noteQ ++ [line] }
    else { d with ovf := (m :: d.ovf).eraseDups }

/-- The queued notices that a die can take are delivered, first to its cores. -/
def State.takeNotices (s : State) (die : Nat) : State :=
  let s := if s.stalled die then s else s.takeCores die fun _ => true
  match s.die? die with
  | none => s
  | some d =>
    let now := d.noteQ.filter (s.delivers die)
    if now.isEmpty then s
    else now.foldl (fun s l => s.markStale .l2 die l) (s.updDie die fun d => { d with noteQ := d.noteQ.filter fun l => !now.contains l })

/-- The home sends notices to every die whose bit is set but the writer's, and clears those bits (09 R260); to every other die where it has no
entry for the line (17 R428). Host and peer lines have no home here. -/
def State.notices (s : State) (line : Nat) (writer : Option Nat) : State :=
  if !isDeviceKey (line * 64) then s
  else
    let ds := (assoc? s.dir line).getD [0, 1, 2, 3]
    let s := if (assoc? s.dir line).isNone then s else { s with dir := assocSet s.dir line (ds.filter fun d => some d == writer) }
    ds.foldl (fun s d => if some d == writer then s else s.sendNotice line d) s

/-- An L2 line written back to its home, or to its host or peer target: a sealed range refuses it (17 R431). -/
def State.writeBackHome (s : State) (l : Line) : State :=
  if l.dirty == 0 then s
  else
    let s := s.cross l.owner false [l.line * 64]
    let clean := l.cleaned
    if s.sealed (l.line * 64) then
      let s := (s.withdraw l.line l.writes).putLine clean
      { s with refusals := s.refusals ++ (l.ctxh, l.line * 64, true) :: l.more.map fun c => (c, l.line * 64, false) }
    else
      let s := (s.moveAt l.line l.dirty (pointL2 l.owner) pointHome).putLine clean
      (s.spoil (l.badDirty.flatMap granuleKeys)).notices l.line (some l.owner)

/-! ## Room (01 R13, R17, 09 R251, R257) -/

/-- The slice of a line (09 R251). -/
def lineSlice (line : Nat) : Nat := line * 64 % 2 ^ 40 / 256 % 16

/-- Lines that one L1, one slice of an L2, one slice of a home cache holds: 512 KiB, 4 MiB, a sixteenth of 32 MiB. -/
def cacheLines : CacheLevel → Nat
  | .l1 => 8192
  | .l2 => 65536
  | .home => 32768

/-- The lines that share their room with a line. -/
def sharesRoom (lvl : CacheLevel) (owner line : Nat) (x : Line) : Bool :=
  x.lvl == lvl && x.owner == owner && (lvl == .l1 || lineSlice x.line == lineSlice line)

-- DESIGN CHOICE (log 62, safe and in part unsafe): see notes/assumptions/62.md.
/-- Room for one more line: where the cache is full, a line of it goes, any one, written back as `wb` says if it is dirty (09 R258). -/
def State.makeRoom (s : State) (wb : State → Line → State) (lvl : CacheLevel) (owner line : Nat) : State :=
  let ls := s.lines.filter (sharesRoom lvl owner line)
  if (s.line? lvl owner line).isSome || decide (ls.length < cacheLines lvl) then s
  else
    let (i, s) := takeChoice s ls.length
    match ls[i]? with
    | some x => (wb s x).dropLine lvl owner x.line
    | none => s

def Line.clean (lvl : CacheLevel) (owner line ver : Nat) : Line :=
  { lvl := lvl, owner := owner, line := line, dirty := 0, stale := false, ctxh := 0, writes := [], ver := ver }

/-- The home cache of a device line holds it (09 R257). -/
def State.holdHome (s : State) (line : Nat) : State :=
  let m := mdieOf (line * 64)
  if !isDeviceKey (line * 64) || (s.line? .home m line).isSome then s
  else (s.makeRoom (fun s _ => s) .home m line).putLine (.clean .home m line 0)

/-! ## Sealed lines of peers (09 R263) -/

/-- The entries of a die's sealed ranges, the most recently used first. -/
def State.peerSeals (s : State) (die : Nat) : List SealEnt := s.sealCache.filter fun e => e.mdie == die

/-- Whether a peer's line lies in the range of an entry. -/
def SealEnt.covers (e : SealEnt) (line : Nat) : Bool :=
  match e.peer with
  | some p => decide (peerKey p e.base ≤ line * 64 ∧ line * 64 < peerKey p e.base + e.len)
  | none => false

/-- The lines that a die holds under an entry, in its L2 and its L1s. -/
def State.linesUnder (s : State) (e : SealEnt) : List Line :=
  s.lines.filter fun l => l.ver == e.ver && e.covers l.line && ((l.lvl == .l2 && l.owner == e.mdie) || (l.lvl == .l1 && l.owner / 16 == e.mdie))

/-- A line written back to its home or target: from an L1 through its die's L2. -/
def State.writeOut (s : State) (l : Line) : State :=
  match l.lvl with
  | .l2 => s.writeBackHome l
  | .l1 =>
    if l.dirty == 0 then s
    else
      let die := l.owner / 16
      let s := (s.moveAt l.line l.dirty (100 + l.owner) (pointL2 die)).putLine l.cleaned
      let x := (s.line? .l2 die l.line).getD { l with lvl := .l2, owner := die, dirty := 0, writes := [], bad := [] }
      s.writeBackHome (x.merged l)
  | .home => s

/-- An entry freed, and the lines it stood for dropped, dirty ones written back first (09 R261). -/
def State.freeSeal (s : State) (e : SealEnt) : State :=
  let ls := sortBy (fun a _ => a.lvl == .l1) (s.linesUnder e)
  { (ls.foldl State.writeOut s).dropAll ls with sealCache := s.sealCache.filter fun x => x != e }

-- DESIGN CHOICE (log 62, safe and in part unsafe): A fill of a range, and an access of a line held under it, count as its use.
/-- A use of a line that a die holds under an entry: the entry is the most recently used one (09 R263). -/
def State.useSeal (s : State) (die ver line : Nat) : State :=
  if ver == 0 then s
  else match s.sealCache.find? fun e => e.mdie == die && e.ver == ver && e.covers line with
    | some e => { s with sealCache := e :: s.sealCache.filter fun x => x != e }
    | none => s

-- DESIGN CHOICE (log 62, safe and in part unsafe): see notes/assumptions/62.md.
/-- The version that a fill of a peer's line returns, 0 where its range is not sealed, with the range; the peer may reseal at any time, so the
version is free. A die that needs a 257th entry drops the least recently used one. -/
def State.peerFill (s : State) (die line : Nat) : Nat × State :=
  if !isPeerKey (line * 64) then (0, s)
  else
    let p := (line * 64 - 2 ^ 61) / 2 ^ 43
    let a := line * 64 % 2 ^ 43
    let (base, len) := ((s.seals.find? fun e => e.peer == some p && decide (e.base ≤ a ∧ a < e.base + e.len)).map fun e => (e.base, e.len)).getD
      (a / 4096 * 4096, 4096)
    let (i, s) := takeChoice s 2
    let (v, s) := takeFree s
    if i == 0 || v == 0 then (0, s)
    else
      let e : SealEnt := { peer := some p, mdie := die, base := base, len := len, ver := v.toNat }
      let s := { s with sealCache := s.sealCache.filter fun x => x != e }
      let s := match (s.peerSeals die)[255]? with
        | some old => s.freeSeal old
        | none => s
      (v.toNat, { s with sealCache := e :: s.sealCache })

/-- The version queries of an acquire at system scope: an entry whose range the peer has resealed goes with its lines. -/
def State.queryPeers (s : State) (die : Nat) : State :=
  let s := s.cross die true ((s.peerSeals die).filterMap fun e => e.peer.map fun p => peerKey p e.base)
  (s.peerSeals die).foldl (fun s e =>
    let (i, s) := takeChoice s 2
    if i == 0 then s.freeSeal e else s) s

/-- Lines of host and peer pages that a system acquire keeps: sealed lines whose version still matches (09 R261, R263). -/
def State.keepsPeer (s : State) (die : Nat) (l : Line) : Bool := l.ver != 0 && (s.peerSeals die).any fun e => e.ver == l.ver && e.covers l.line

/-! ## Fills, stores, write-backs, releases and acquires -/

/-- The bytes of a peer's line under a sealed version, which are the same for as long as the line is kept (10 R289). -/
def State.sealedBytes (s : State) (v : Nat) : List Byte × State :=
  if v == 0 then ([], s) else let (ws, s) := takeFrees s 64; (ws.map fun w => BitVec.ofNat 8 w.toNat, s)

/-- A line held by the L2 of a die, filled from its home if it was not there (09 R257, R260). -/
def State.holdL2 (s : State) (die line : Nat) : State :=
  match s.line? .l2 die line with
  | some l => s.useSeal die l.ver line
  | none =>
    let s := (s.cross die false [line * 64]).holdHome line
    let s := s.makeRoom State.writeBackHome .l2 die line
    let (v, s) := s.peerFill die line
    let (bs, s) := s.sealedBytes v
    ((s.putLine { Line.clean .l2 die line v with bytes := bs }).snap line (pointL2 die)).dirAdd line die

/-- An L1 line written back to its die's L2, which sends notices to the other cores of the die that hold it; an L2 with a monitor on the line reads it again
from there (09 R260, R267). -/
def State.writeBackL2 (s : State) (l : Line) : State :=
  if l.dirty == 0 then s
  else
    let die := l.owner / 16
    let s := s.holdL2 die l.line
    let x := (s.line? .l2 die l.line).getD (.clean .l2 die l.line 0)
    let s := s.putLine (x.merged l)
    ((s.moveAt l.line l.dirty (100 + l.owner) (pointL2 die)).putLine l.cleaned).noteCores die l.line (some l.owner)

/-- A line that a cache still holds, written back to the next level. -/
def State.flush (s : State) (l : Line) : State :=
  match s.line? l.lvl l.owner l.line with
  | none => s
  | some x => match l.lvl with
    | .l1 => s.writeBackL2 x
    | .l2 => s.writeBackHome x
    | .home => s

/-- A line held by the L1 of a core, filled from its die's L2. -/
def State.holdL1 (s : State) (die core line : Nat) : State :=
  let o := coreId die core
  match s.line? .l1 o line with
  | some l => s.useSeal die l.ver line
  | none =>
    let s := s.holdL2 die line
    let s := s.makeRoom State.flush .l1 o line
    let x := (s.line? .l2 die line).getD (.clean .l2 die line 0)
    (s.putLine { Line.clean .l1 o line x.ver with bytes := x.bytes, bad := x.bad }).snap line (100 + o)

/-- A read by a core leaves its lines in the L2, and in the L1 unless it says `.nc` (07 R171, R176, 09 R257). -/
def State.fillLines (s : State) (die core : Nat) (keys : List Nat) (l1 : Bool) : State :=
  (linesOf keys).foldl (fun s l => if l1 then s.holdL1 die core l else s.holdL2 die l) s

/-- Whether what a core finds of some locations in its L1, or else in its die's L2, is poisoned there (17 R426, R432). -/
def State.heldBad (s : State) (die core : Nat) (keys : List Nat) : Bool :=
  keys.any fun k => match (s.line? .l1 (coreId die core) (lineOf k)).or (s.line? .l2 die (lineOf k)) with
    | some l => l.bad.contains (k / 8)
    | none => false

/-- Of some locations those that neither the L1 of a core nor its die's L2 holds. -/
def State.missed (s : State) (die core : Nat) (keys : List Nat) : List Nat :=
  keys.filter fun k => !isSpKey k && ((s.line? .l1 (coreId die core) (lineOf k)).or (s.line? .l2 die (lineOf k))).isNone

/-- Bytes written into a line that a cache holds; a granule written whole is poisoned no more. -/
def State.dirtyLine (s : State) (lvl : CacheLevel) (owner line : Nat) (keys : List Nat) (wid ctxh : Nat) : State :=
  let x := (s.line? lvl owner line).getD (.clean lvl owner line 0)
  let bad := x.bad.filter fun g => (keys.filter fun k => k / 8 == g).length != 8
  (s.putLine { x with dirty := x.dirty ||| dirtyBits line keys, ctxh := ctxh, more := x.writersBut ctxh [], writes := (wid :: x.writes).eraseDups, bad := bad }).landAt (cachePoint lvl owner)
    (keys.filter fun k => lineOf k == line) wid

/-- A write at the L2 of a die, as by an atomic there (07 R191): the cores of the die other than the writer's get notices. -/
def State.writeL2 (s : State) (die core : Nat) (keys : List Nat) (wid ctxh : Nat) : State :=
  (linesOf keys).foldl (fun s l =>
    ((s.holdL2 die l).dirtyLine .l2 die l keys wid ctxh).noteCores die l (some (coreId die core))) s

/-- A store of a core: dirty bytes in its L1 (09 R258), or in the L2 where its L1 is to hold nothing (07 R171). A line under a monitor of the die
is written through to the slice at once (09 R267). -/
def State.writeL1 (s : State) (die core : Nat) (keys : List Nat) (wid ctxh : Nat) (l1 : Bool) : State :=
  (linesOf keys).foldl (fun s l =>
    let ks := keys.filter fun k => lineOf k == l
    if !l1 && (s.line? .l1 (coreId die core) l).isNone then s.writeL2 die core ks wid ctxh
    else
      let s := (s.holdL1 die core l).dirtyLine .l1 (coreId die core) l ks wid ctxh
      if s.monitored die l then
        match s.line? .l1 (coreId die core) l with
        | some x => s.writeBackL2 x
        | none => s
      else s) s

/-- A write performed at the home of its locations, or in its scratchpad: the home sends the stale notices of R260. A write of a compute die is
performed at a monitor point of that die too (09 R267). -/
def State.landHome (s : State) (writer : Option Nat) (keys : List Nat) (wid : Nat) : State :=
  let s := (s.landAt pointSp (keys.filter isSpKey) wid).landAt pointHome (keys.filter fun k => !isSpKey k) wid
  let s := (linesOf keys).foldl (fun s l => (s.holdHome l).notices l writer) s
  match writer with
  | some d => s.landAt (pointL2 d) (keys.filter fun k => !isSpKey k && s.monitored d (lineOf k)) wid
  | none => s

/-- A write of the part itself, or of one outside the dies, performed at its home at once. -/
def State.writeHome (s : State) (party : Nat) (data : List (Nat × Byte)) (poison : Bool) (writer : Option Nat) : State :=
  (s.write party data none none [] poison).landHome writer (data.map Prod.fst) s.nextWrite

/-- The push of a release at a scope by a split of a core: every dirty line of the core, and of the die from device scope on (09 R259). -/
def State.pushLines (s : State) (die core : Nat) (sc : Scope) : State :=
  if sc == .team then s
  else
    let s := (s.lines.filter fun l => l.lvl == .l1 && l.owner == coreId die core).foldl State.flush s
    if sc == .cluster then s
    else (s.lines.filter fun l => l.lvl == .l2 && l.owner == die && (sc == .system || isDeviceKey (l.line * 64))).foldl State.flush s

/-- An overflow flag of stale notices makes every line it concerns stale at an acquire, which clears it (17 R429). -/
def State.takeOverflow (s : State) (die core : Nat) (sc : Scope) : State :=
  match s.die? die with
  | none => s
  | some d =>
    let wide := sc == .device || sc == .system
    let hit (l : Line) : Bool :=
      (l.lvl == .l1 && l.owner == coreId die core && sc != .team && d.coreOvf.contains core) ||
        (l.lvl == .l2 && l.owner == die && wide && isDeviceKey (l.line * 64) && d.ovf.contains (mdieOf (l.line * 64)))
    let s := { s with lines := s.lines.map fun (l : Line) => if hit l then { l with stale := true } else l }
    s.updDie die fun d => { d with
      coreOvf := if sc == .team then d.coreOvf else d.coreOvf.filter fun c => c != core, ovf := if wide then [] else d.ovf }

/-- What an acquire at a scope drops (09 R261). Dirty lines are written back first. -/
def State.dropLines (s : State) (die core : Nat) (sc : Scope) : State :=
  let s := (if sc == .team then s else s.takeCores die fun c => c == core).takeOverflow die core sc
  let s := if sc == .system then s.queryPeers die else s
  let far (l : Line) : Bool := sc == .system && !isDeviceKey (l.line * 64) && !s.keepsPeer die l
  let dropL1 (l : Line) : Bool := l.lvl == .l1 && l.owner == coreId die core && (l.stale || far l)
  let dropL2 (l : Line) : Bool := l.lvl == .l2 && l.owner == die && (l.stale || far l)
  match sc with
  | .team => s
  | .cluster =>
    let ls := s.lines.filter dropL1
    (ls.foldl State.flush s).dropAll ls
  | _ =>
    let l2 := s.lines.filter dropL2
    let l1 := s.lines.filter fun l => l.lvl == .l1 && l.owner / 16 == die && (l2.any (fun x => x.line == l.line) || dropL1 l)
    ((l1 ++ l2).foldl State.flush s).dropAll (l1 ++ l2)

/-- A line written back and dropped (09 R258, R260). -/
def State.evictLine (s : State) (lvl : CacheLevel) (owner line : Nat) : State :=
  match s.line? lvl owner line with
  | none => s
  | some l => (s.flush l).dropLine lvl owner line

end Sys2Proof.Machine
end

