-- ==== Sys2Proof/Machine/Access.lean ====
section
/-!
DEFINITION. How a memory request is performed: loads, atomics and block loads once their value is due, stores and reductions at issue
(07 R174 to R178, R187 to R191, 10 R277, 17 R427, R431, R433), with the event log (20 R480, R481).
-/
namespace Sys2Proof.Machine

def wordOf (n : Nat) : Word := BitVec.ofNat 64 n

/-! ## The event log -/

def EvLog.empty (fn : Nat) : EvLog := { fn := fn, wr := 0, rd := 0, lost := 0, ring := [], msix := 0 }

def State.evLog (s : State) (fn : Nat) : EvLog := (s.plat.logs.find? fun l => l.fn == fn).getD (.empty fn)

def State.putEvLog (s : State) (l : EvLog) : State :=
  { s with plat := { s.plat with logs := l :: s.plat.logs.filter fun x => x.fn != l.fn } }

/-- What the part's own units have done and seen so far, firmware among them. -/
def State.feClk (s : State) : Clock := ((s.parties.find? fun p => p.kind == .frontEnd).map Party.clk).getD []

/-- One event in one function's log; the write of EVWR is a release of what a clock names, and only the PF signals MSI-X (20 R481). -/
def EvLog.add (l : EvLog) (cause level source ctxh : Nat) (detail ref : Word) (clk : Clock) : EvLog :=
  if l.wr - l.rd = 512 then { l with lost := l.lost + 1 }
  else { l with
    wr := l.wr + 1
    clk := clkJoin l.clk clk
    ring := (l.ring.filter fun e => decide (e.n + 512 ≠ l.wr)) ++
      [{ n := l.wr, cause := cause, level := level, source := source, ctxh := ctxh, detail := detail, ref := ref }]
    msix := if l.fn = 0 then l.msix + 1 else l.msix }

/-- The VF whose bound ASID a handle names. -/
def State.vfOf (s : State) (ctxh : Nat) : Option Nat := (s.plat.asids.find? fun a => a.num == ctxh / 2 ^ 22).bind Asid.vf

-- DEDUCED (log 55, unsafe): The queue field of R470 is 0 for the copy and 1 for the matrix queue.
/-- An event written to the PF's log, and to the log of the VF whose bound ASID its CTXH names. -/
def State.logEvent (s : State) (cause level source ctxh : Nat) (detail : Word) : State :=
  let ref := wordOf s.ref
  let s := s.putEvLog ((s.evLog 0).add cause level source ctxh detail ref s.feClk)
  match s.vfOf ctxh with
  | some v => s.putEvLog ((s.evLog v).add cause level source ctxh detail ref s.feClk)
  | none => s

/-- A firmware diagnostic counter (17 R428, 19 R471). -/
def State.bump (s : State) (k : Nat) : State :=
  { s with plat := { s.plat with diag := assocSet s.plat.diag k ((assoc? s.plat.diag k).getD 0 + 1) } }

/-- A host-link event: cause 0x83 at level none, and its AER class: 1 correctable, 2 unsupported request, 3 fatal, 4 poisoned, 5 link down, 6 a
completion of the part's own request that timed out, 7 one that was refused (20 R489). -/
def State.hostEvent (s : State) (aer : Nat) (detail : Word) : State :=
  let s := s.logEvent 0x83 0 64 0 detail
  { s with plat := { s.plat with aer := aer :: s.plat.aer } }

/-! ## Points of atomics (07 R191) -/

/-- The point where an atomic of a lane executes; `priv` that its address lies in the private window. -/
def atomPoint (die core : Nat) (sc : Scope) (keys : List Nat) (priv : Bool) : Nat :=
  if keys.any isSpKey then pointSp
  else if priv then pointL1 die core
  else match sc with
    | .team => pointL1 die core
    | .cluster => pointL2 die
    | _ => pointHome

/-! ## Results -/

/-- What performing a request gives: results and lanes whose results are poisoned, lanes that a sealed range refused (17 R431),
lanes whose target could not be reached (17 R427, with its reason). -/
structure ReqOut where
  vals : List (Nat × List Word)
  poison : List Nat
  refused : List Nat
  unreach : List (Nat × Nat)
  deriving DecidableEq, Repr

def ReqOut.nothing : ReqOut := { vals := [], poison := [], refused := [], unreach := [] }

def ReqOut.append (a b : ReqOut) : ReqOut :=
  { vals := a.vals ++ b.vals, poison := a.poison ++ b.poison, refused := a.refused ++ b.refused, unreach := a.unreach ++ b.unreach }

/-- Why a target cannot be reached: 2 no route for the peer, 3 link down (17 R427, 12 R346). A route is a bitmap of ports. -/
def State.unreachable (s : State) (k : Nat) : Option Nat :=
  if isHostKey k then (if s.plat.hostUp then none else some 3)
  else if isPeerKey k then
    match assoc? s.plat.routes ((k - 2 ^ 61) / 2 ^ 43) with
    | none => some 2
    | some r =>
      if r == 0 then some 2 else if (s.routePorts k).isEmpty then some 3 else none
  else none

def State.unreachableAny (s : State) (keys : List Nat) : Option Nat := (keys.filterMap s.unreachable).head?

-- DEDUCED (log 66, safe and in part unsafe): Whether a host or a peer refuses an access is a free choice.
/-- Why an access of some locations is not performed: the target cannot be reached, or, a host or a peer, it refuses, reason 1 (17 R427); a refusal of
the host is a host-link event (20 R489). -/
def State.remoteFail (s : State) (keys : List Nat) : Option Nat × State :=
  match s.unreachableAny keys with
  | some r => (some r, s)
  | none =>
    if keys.any fun k => isHostKey k || isPeerKey k then
      let (i, s) := takeChoice s 2
      if i = 1 then (some 1, if keys.any isHostKey then s.hostEvent 7 (wordOf (keys.headD 0 % 2 ^ 60)) else s) else (none, s)
    else (none, s)

/-- A value of a type as it is pushed (03 R54). -/
def widenBits (t : Ty) (n : Nat) : Word := widen t (if t.signed then signedOf t.width n else ((n % 2 ^ t.width : Nat) : Int))

/-! ## Atomic arithmetic (07 R188, R189) -/

def atomNew (op : AtomOp) (t : Ty) (old b : Nat) : Nat :=
  let m := 2 ^ t.width
  let less (x y : Nat) : Bool := if t.signed then decide (signedOf t.width x < signedOf t.width y) else decide (x < y)
  match op with
  | .add => (old + b) % m
  | .and => old &&& b
  | .or => old ||| b
  | .xor => old ^^^ b
  | .min => if less b old then b else old
  | .max => if less old b then b else old
  | .exch => b
  | .inc => if old ≥ b then 0 else old + 1
  | .dec => if old = 0 ∨ old > b then b else old - 1

-- PRESUMED (log 16, unsafe): see notes/assumptions/16.md.
/-- round_rne of an exact sum into a type, subnormals kept, NaN canonical (07 R189). The sign of an exact zero is that of log 16. -/
def sumTo (t : Ty) (x : Sum) : Nat :=
  match x.value with
  | .nan _ => canonNaN t
  | .inf n => infBits t n
  | .fin neg m e => (roundF t .rn false false neg m 1 e).1

def fatomNew (op : FatomOp) (t : Ty) (old b : Nat) : Nat :=
  match op with
  | .add => sumTo t ((Sum.zero.add (decodeF t old)).add (decodeF t b))
  | .min => (fMinMax t false false (wordOf old) (wordOf b)).1
  | .max => (fMinMax t false true (wordOf old) (wordOf b)).1

/-- The float operation that a float `red` names (07 R189). -/
def redFloatOp : AtomOp → FatomOp
  | .min => .min
  | .max => .max
  | _ => .add

/-- The gathered lanes of one float add: the final value and each lane's old value (07 R190). -/
def gatherAdd (t : Ty) (old : Nat) : Option Sum → List Nat → List Nat × Nat
  | acc, [] => ([], sumTo t ((acc.getD Sum.zero).add (decodeF t old)))
  | acc, b :: l =>
    let o := match acc with
      | none => old
      | some a => sumTo t (a.add (decodeF t old))
    let (os, v) := gatherAdd t old (some ((acc.getD Sum.zero).add (decodeF t b))) l
    (o :: os, v)

/-- One atomic's lanes on one location in ascending order: each lane's old value, the value written, if any (07 R190). -/
def gather (op : MemOp) (old : Nat) : Option Nat → List (List Nat) → List Nat × Option Nat
  | w, [] => ([], w)
  | w, ops :: l =>
    let cur := w.getD old
    let b := ops.getD 0 0
    let next : Option Nat := match op with
      | .atom o t | .red o t => some (if t.isFloat then fatomNew (redFloatOp o) t cur b else atomNew o t cur b)
      | .fatom o t => some (fatomNew o t cur b)
      | .cas _ => if cur = b then some (ops.getD 1 0) else w
      | _ => w
    let (os, r) := gather op old next l
    (cur :: os, r)

def MemOp.isFloatAdd : MemOp → Bool
  | .fatom .add _ => true
  | .red .add t => t.isFloat
  | _ => false

def MemOp.ty : MemOp → Ty
  | .load t | .store t | .atom _ t | .cas t | .red _ t | .fatom _ t => t
  | _ => .b64

def MemOp.isAtomic : MemOp → Bool
  | .atom _ _ | .cas _ | .red _ _ | .fatom _ _ => true
  | _ => false

def MemOp.isStore : MemOp → Bool
  | .store _ | .storePair | .stblk _ => true
  | _ => false

def isAcq : Order → Bool
  | .acq | .ar => true
  | _ => false

def isRel : Order → Bool
  | .rel | .ar => true
  | _ => false

/-- KIND of an item (15 R377). -/
def MemOp.itemKind : MemOp → Nat
  | .load _ | .loadPair => 1
  | .store _ | .storePair | .seal => 2
  | .ldblk _ | .stblk _ => 4
  | _ => 3

/-- The items of the lanes in which a request has not been performed (15 R376, R377). -/
def ReqOut.items (o : ReqOut) (who : Who) (spl : Nat) (r : MemReq) : List Item :=
  let item (cause : Nat) (ls : List Nat) : List Item :=
    if ls.isEmpty then []
    else [{ kind := r.op.itemKind, cause := cause, addr := ((r.acc.find? fun a => ls.contains a.lane).map LaneAcc.ea).getD 0, lanes := maskOf ls,
            warp := who.warpNo, guide := who.isGuide, spl := spl }]
  item 0x27 o.refused ++ item 0x28 (o.unreach.map Prod.fst)

/-! ## Performing -/

/-- The lanes of a request grouped by location, in ascending lane order. -/
def groupAcc (acc : List LaneAcc) : List (List LaneAcc) :=
  (acc.map LaneAcc.keys).eraseDups.map fun ks => acc.filter fun a => a.keys == ks

/-- Where a core's write is performed: in its scratchpad or at the home, or in a cache whose line is then dirty (09 R258). -/
def State.placeWrite (s : State) (die core pt : Nat) (keys : List Nat) (wid ctxh : Nat) (l1 : Bool) : State :=
  if pt == pointHome || keys.any isSpKey then s.landHome (some die) keys wid
  else if pt == pointL2 die then s.writeL2 die core keys wid ctxh
  else s.writeL1 die core keys wid ctxh l1

/-- The place of a lane's access in happens-before: the party it is counted under, its stamp and what happens before it. The lanes of a release
stand beside each other, but for those that write a byte in common (07 R175, 10 R272). -/
def MemReq.placeOf (r : MemReq) (a : LaneAcc) : Nat × Nat × Clock :=
  if a.own = 0 then (r.party, r.stamp, r.clk)
  else
    let before := r.acc.filter fun x => decide (x.lane < a.lane) && x.own != a.own && x.keys.any a.keys.contains
    (a.own, 1, before.foldl (fun c x => clkSet c x.own 1) (clkSet (clkSet r.clk r.party (r.stamp - 1)) a.own 1))

/-- The marks of a gathered atomic's results: the location's own, or that of an operand that went into what a lane finds or is the lane's own
(17 R433, R434); and the mark of what is written. -/
def gatherMarks (op : MemOp) (old : Bool) : List Bool → List Bool × Bool
  | [] => ([], old)
  | b :: l =>
    let next : Bool := match op with
      | .atom .exch _ => b
      | _ => old || b
    let (ms, r) := gatherMarks op next l
    ((old || b) :: ms, r)

/-- Lanes of an atomic that is not performed: poisoned results of free value. -/
def freeLanes (s : State) (lanes : List Nat) : ReqOut × State :=
  let (ws, s) := takeFrees s 32
  ({ ReqOut.nothing with vals := lanes.map fun l => (l, [ws.getD l 0]), poison := lanes }, s)

/-- A write into a segment in the shared state makes that entry invalid (17 R425). -/
def State.spWrite (s : State) (keys : List Nat) : State :=
  (keys.filter isSpKey).foldl (fun s k =>
    let serial := (k - 2 ^ 62) / 2 ^ 22
    let seg := k % 2 ^ 22 / 4096
    { s with teams := s.teams.map fun t =>
        if t.serial == serial then
          match t.tags[seg]? with
          | some e => if e.st == 1 then { t with tags := setAt t.tags seg { e with st := 0, tag := 0 } } else t
          | none => t
        else t }) s

/-- One gathered atomic at its point: one read of the write last performed there and one write (10 R277). -/
def State.performAtomic (s : State) (die core ctxh : Nat) (r : MemReq) (g : List LaneAcc) : ReqOut × State :=
  match g with
  | [] => (.nothing, s)
  | a :: _ =>
    let lanes := g.map LaneAcc.lane
    match s.remoteFail a.keys with
    | (some reason, s) =>
      let (o, s) := freeLanes s lanes
      ({ o with unreach := lanes.map fun l => (l, reason) }, s)
    | (none, s) =>
      if a.pt == pointHome && a.keys.any s.sealed then
        let (o, s) := freeLanes s lanes
        ({ o with refused := lanes }, s)
      else
        let (own, n, clk) := r.placeOf a
        let (ps, s) := s.readPicks r.party r.clk r.stamp (some a.pt) a.keys
        let (bs, s) := fillBytes s ps
        let s := s.noteRead r.party r.stamp ps
        let s := if isAcq r.ord then s.acquire r.party r.scope (relsRead ps) else s
        let old := leNum bs
        let t := r.op.ty
        let ops := g.map fun x => x.ops.map fun w => lowBits t.width w
        let (olds, new) :=
          if r.op.isFloatAdd then
            let (os, v) := gatherAdd t old none (ops.map fun o => o.getD 0 0)
            (os, some v)
          else gather r.op old none ops
        let (marks, bad) := gatherMarks r.op (ps.any s.pickBad || (a.pt != pointHome && s.heldBad die core a.keys)) (g.map LaneAcc.poisoned)
        let s := match new with
          | none => s
          | some v =>
            let data := a.keys.zip ((List.range a.keys.length).map fun i => BitVec.ofNat 8 (v / 256 ^ i))
            let prevs := ps.filterMap fun p => p.w.map fun w => (p.key, w)
            let s1 := s.writeFrom r.party own n clk data (if isRel r.ord then some r.scope else none) (some a.pt) prevs bad
            let s1 := s1.markPoison a.keys bad
            (s1.placeWrite die core a.pt a.keys s.nextWrite ctxh true).spWrite a.keys
        ({ ReqOut.nothing with vals := lanes.zip (olds.map fun o => [widenBits t o]),
                               poison := ((lanes.zip marks).filter Prod.snd).map Prod.fst }, s)

/-- The block lane word of element j (06 R151). -/
def blockWord (f : BlkFmt) (j ex mu elem : Nat) : Word :=
  wordOf ((if Wf.seBlock f then j % 16 else j) * 2 ^ 24 + mu * 2 ^ 16 + ex * 2 ^ 8 + elem)

/-- Bytes of an element area (04 R89, R92). -/
def areaBytes (f : BlkFmt) : Nat := blkLanes f * elemBits f / 8

/-- Bytes at a block's first address: E, MU and the element area for SE, the element area for MX. -/
def blockBytes (f : BlkFmt) : Nat := if Wf.seBlock f then 2 + areaBytes f else areaBytes f

/-- The lane word a lane reads from a block's bytes: for MX the scale byte follows the element area. -/
def blockLane (f : BlkFmt) (lane : Nat) (bs : List Byte) : Word :=
  let j := lane % blkLanes f
  if Wf.seBlock f then blockWord f j (leNum (bs.take 1)) (leNum ((bs.drop 1).take 1)) (fieldOf (leNum (bs.drop 2)) (j * elemBits f) (elemBits f))
  else blockWord f j (leNum (bs.drop (areaBytes f))) 0 (fieldOf (leNum (bs.take (areaBytes f))) (j * elemBits f) (elemBits f))

/-- One lane's load. -/
def State.performLoad (s : State) (die core : Nat) (r : MemReq) (a : LaneAcc) : ReqOut × State :=
  match s.remoteFail a.keys with
  | (some reason, s) =>
    let (ws, s) := takeFrees s 2
    let free := match r.op with
      | .loadPair => ws
      | _ => ws.take 1
    ({ ReqOut.nothing with vals := [(a.lane, free)], poison := [a.lane], unreach := [(a.lane, reason)] }, s)
  | (none, s) =>
    let s := s.fillLines die core a.keys (!r.nc)
    let acq := if isAcq r.ord then some r.scope else none
    let whole := match r.op with
      | .ldblk .se2 => a.ea % 8 == 0
      | .ldblk _ => false
      | _ => true
    let (bs, ps, s) := if whole then s.read r.party r.clk r.stamp acq a.keys else s.readEach r.party r.clk r.stamp a.keys
    let vals := match r.op with
      | .load t => [widenBits t (leNum bs)]
      | .loadPair => [wordOf (leNum (bs.take 8)), wordOf (leNum (bs.drop 8))]
      | .ldblk f => [blockLane f a.lane bs]
      | _ => []
    ({ ReqOut.nothing with vals := [(a.lane, vals)], poison := if ps.any s.pickBad || s.heldBad die core a.keys || a.poisoned then [a.lane] else [] }, s)

def State.performLoads (s : State) (die core : Nat) (r : MemReq) : List LaneAcc → ReqOut × State
  | [] => (.nothing, s)
  | a :: l =>
    let (o, s) := s.performLoad die core r a
    let (o', s) := s.performLoads die core r l
    (o.append o', s)

def State.performAtomics (s : State) (die core ctxh : Nat) (r : MemReq) : List (List LaneAcc) → ReqOut × State
  | [] => (.nothing, s)
  | g :: l =>
    let (o, s) := s.performAtomic die core ctxh r g
    let (o', s) := s.performAtomics die core ctxh r l
    (o.append o', s)

/-- The bytes a lane's store writes; its operands are the words of the value, lowest first. -/
def storeData (a : LaneAcc) : List (Nat × Byte) :=
  let n := a.ops.foldr (fun w n => w.toNat + 2 ^ 64 * n) 0
  a.keys.zip ((List.range a.keys.length).map fun i => BitVec.ofNat 8 (n / 256 ^ i))

/-- Stores of a request in ascending lane order (07 R175). A target that cannot be reached, or refuses, takes no byte. The bytes of a block are
each a location of their own, but for an aligned SE2 block (07 R178). -/
def State.performStores (s : State) (die core ctxh : Nat) (r : MemReq) : List LaneAcc → ReqOut × State
  | [] => (.nothing, s)
  | a :: l =>
    match s.remoteFail a.keys with
    | (some reason, s) =>
      let (o, s) := s.performStores die core ctxh r l
      ({ o with unreach := (a.lane, reason) :: o.unreach }, s)
    | (none, s) =>
      let wid := s.nextWrite
      let rel := if isRel r.ord then some r.scope else none
      let data := storeData a
      let (own, n, clk) := r.placeOf a
      let put (s : State) (d : List (Nat × Byte)) : State := s.writeFrom r.party own n clk d rel none [] a.poisoned
      let parts : List (List (Nat × Byte)) := match r.op with
        | .stblk .se2 => if a.ea % 8 == 0 then [data] else data.map fun d => [d]
        | .stblk _ => data.map fun d => [d]
        | _ => [data]
      let s := (parts.foldl put s).markPoison a.keys a.poisoned
      let ids := (List.range (s.nextWrite - wid)).map (wid + ·)
      let s := ids.foldl (fun s i => s.placeWrite die core (pointL1 die core) a.keys i ctxh (!r.nc)) s
      (s.spWrite a.keys).performStores die core ctxh r l

/-- The writes of an instruction that have been performed act as releases from here on (17 R419). -/
def State.makeReleases (s : State) (r : MemReq) : State :=
  let rel (w : ByteW) : Rel := { party := r.party, scope := r.scope, clk := w.clk }
  { s with hist := s.hist.map fun (h : Hist) =>
      { h with ws := h.ws.map fun (w : ByteW) =>
          if (w.party == r.party && w.stamp == r.stamp) || r.owns.contains w.party then
            { w with rels := (rel w :: w.rels).eraseDups } else w } }

/-- A request as it acts now, for the lanes named: one of whose lanes some have been held has its ordering effect when the last of them is
performed (17 R419). -/
def MemReq.now (r : MemReq) (lanes : Mask) : MemReq :=
  if r.late && (r.held || r.acc.any fun a => !lanes.getLsbD a.lane) then { r with ord := .plain } else r

/-- A whole request, for the lanes named: a release pushes dirty lines out before its own write, which a store's own line joins, and an
acquire drops stale lines (07 R176, R191, 09 R259, R261). -/
def State.performReq (s : State) (die core ctxh : Nat) (r0 : MemReq) (lanes : Mask) : ReqOut × State :=
  let r := r0.now lanes
  let s := if r.late && isRel r.ord then s.makeReleases r else s
  let s := if r.late && isAcq r.ord then s.acquire r.party r.scope r.rels else s
  let acc := r.acc.filter fun a => lanes.getLsbD a.lane
  let push (s : State) : State := if isRel r.ord then s.pushLines die core r.scope else s
  let drop (s : State) : State := if isAcq r.ord then s.dropLines die core r.scope else s
  if r.op.isAtomic then let (o, s) := (push s).performAtomics die core ctxh r (groupAcc acc); (o, drop s)
  else if r.op.isStore then let (o, s) := s.performStores die core ctxh r acc; (o, push s)
  else let (o, s) := s.performLoads die core r acc; (o, drop s)

end Sys2Proof.Machine
end

