-- ==== Sys2Proof/Machine/Teams.lean ====
section
/-!
DEFINITION. Edges and effective priorities (07 R201, 11 R306), barriers' completion (07 R194 to R196, 18 R455), locks given up and granted (07 R198, R199, 18 R460), and the ends of warps, teams, clusters and grids (02 R30, R44, 15 R386,
R387).
-/
namespace Sys2Proof.Machine

/-! ## Holders and priorities -/

/-- Whether a thread is the warp an entry names. -/
def names (w : Who) (ctxh warp : Nat) : Bool :=
  match w with
  | .warp h k => h == ctxh && k == warp
  | _ => false

/-- Lanes of a warp that have not exited; a lost warp counts as exited (18 R455, 17 R436). -/
def Warp.alive (t : Warp) : Mask := if t.lost then 0 else ~~~t.exited

/-- A barrier at the start of its team or cluster (07 R194). -/
def Bar.zero : Bar := { gen := 0, expect := 0, fixed := false, arrived := [], clk := [], done := [] }

/-- Arrivals of lanes of a warp, whose first in a generation fixes its expected count (07 R194); the clock is that of their release. -/
def Bar.arrive (b : Bar) (key cnt : Nat) (mask : Mask) (clk : Clock) : Bar :=
  let old : Mask := ((b.arrived.find? fun a => a.1 == key).map Prod.snd).getD 0
  { b with
    expect := if b.fixed then b.expect else cnt
    fixed := true
    arrived := (key, old ||| mask) :: b.arrived.filter fun a => a.1 != key
    clk := if b.fixed then clkJoin b.clk clk else clk
    log := b.log ++ [(key, mask, cnt, clk)] }

/-- The arrival of a warp's lanes taken back as if it had never been made: the first of those left fixes the count (18 R443). -/
def Bar.unarrive (b : Bar) (key : Nat) (mask : Mask) : Bar :=
  let left := (b.log.map fun a => if a.1 == key then (a.1, a.2.1 &&& ~~~mask, a.2.2) else a).filter fun a => a.2.1 != 0
  left.foldl (fun b a => b.arrive a.1 a.2.2.1 a.2.1 a.2.2.2) { b with fixed := false, arrived := [], clk := [], log := [] }

/-- Whether a warp has arrived in the generation a barrier counts (07 R194). -/
def Bar.has (b : Bar) (key : Nat) (alive : Mask) : Bool := b.arrived.any fun a => a.1 == key && (alive &&& ~~~a.2) == 0

/-- The warps of a team that have not exited. -/
def State.aliveWarps (s : State) (h : Nat) : List Warp := (s.warpsOf h).filter fun t => t.alive != 0

/-- The tiles that a command reads or writes (08 R216, R222, R239). -/
def EngOp.tiles (op : EngOp) : List Nat :=
  match op with
  | .mmas _ _ t _ _ _ | .acczero t | .mma _ t _ _ _ _ | .accld t _ _ | .accst t _ _ => [t]
  | .mmsm _ st ot _ _ => [st, ot]
  | _ => []

/-- The threads whose counters a command stands in: its issuer, or the members of its quartet. -/
def Cmd.owners (c : Cmd) : List Who :=
  match c.op with
  | .mma _ _ _ _ _ ms => ms.map fun m => .warp c.ctxh m.1
  | _ => [c.issuer]

/-- When a warp issued a command. -/
def Cmd.orderFor (c : Cmd) (who : Who) : Nat :=
  match c.op with
  | .mma _ _ _ _ _ ms => (((ms.zip c.idx).find? fun m => who == .warp c.ctxh m.1.1).map fun m => m.2.toNat).getD c.id
  | _ => c.id

/-- The quartet operations, by number, that a warp's wait for a count of `n` matrix commands awaits and some partner has not issued: without one of
them, without the later ones, which cannot form before it, and without what is ordered behind these on their tiles, too few commands can complete
(08 R214, R216, R233). -/
def State.awaited (s : State) (h w n : Nat) : List Nat :=
  let who := Who.warp h w
  let moc := ((s.thread? who).map Warp.moc).getD 0
  let ops := (sortBy (fun a b => decide (a.seq ≤ b.seq)) (s.mmaWait.filter fun m => m.ctxh == h && m.warp == w)).zipIdx
  let cmds := (s.cmds ++ s.savedCmds).filter fun c => c.matrix && c.ctxh == h && c.owners.contains who
  -- in the order of issue: when, on which tiles, and the place of an operation that a partner has not issued
  let all : List (Nat × List Nat × Option Nat) := sortBy (fun a b => decide (a.1 ≤ b.1))
    (ops.map (fun (o, i) => (o.order, [o.tile], some i)) ++ cmds.map fun c => (c.orderFor who, c.op.tiles, none))
  let behind (i : Nat) : Nat := (all.foldl (fun (x : List Nat × Nat) (e : Nat × List Nat × Option Nat) => match e.2.2 with
    | some j => if i ≤ j then (e.2.1 ++ x.1, x.2) else x
    | none => if e.2.1.any x.1.contains then (e.2.1 ++ x.1, x.2 + 1) else x) ([], 0)).2
  (ops.filter fun (_, i) => decide (i + (cmds.length - behind i) < moc - n)).map fun x => x.1.seq

/-- The holders of an edge's object as (CTXH, warp) pairs, ascending (07 R201, 08 R233). -/
def State.holders (s : State) (e : Edge) : List (Nat × Nat) :=
  let raw : List (Nat × Nat) := match e.kind with
    | 0 => (s.objs.filter fun o => o.lock && o.key == e.key).map fun o => (o.ctxh, o.warp)
    | 2 => match s.team? e.ctxh with
      | some t => ((s.aliveWarps e.ctxh).filter fun w => !((t.bars.getD e.obj Bar.zero).has w.who.warpNo w.alive)).map
          fun w => (e.ctxh, w.who.warpNo)
      | none => []
    | 3 => match (s.team? e.ctxh).bind fun t => s.cluster? t.cluster with
      | some c => (s.teams.filter fun t => t.cluster == c.id).flatMap fun t =>
          ((s.aliveWarps t.ctxh).filter fun w => !(c.bar.has (t.rank * 128 + w.who.warpNo) w.alive)).map
            fun w => (t.ctxh, w.who.warpNo)
      | none => []
    | 5 => if e.obj ≠ 2 then []
      else match s.team? e.ctxh with
        | none => []
        | some t =>
          let first := roleFirst t.roles (roleOf t.roles e.warp 0)
          let base := first + (e.warp - first) / 4 * 4
          let seqs := s.awaited e.ctxh e.warp e.key
          ((s.warpsOf e.ctxh).filter fun w => decide (base ≤ w.who.warpNo ∧ w.who.warpNo < base + 4) && seqs.any fun n => decide (w.mmaSeq ≤ n)).map
            fun w => (e.ctxh, w.who.warpNo)
    | _ => (s.objs.filter fun o => !o.lock && o.key == e.key).map fun o => (o.ctxh, o.warp)
  let less (a b : Nat × Nat) : Bool := decide (a.1 < b.1) || (a.1 == b.1 && decide (a.2 ≤ b.2))
  sortBy less raw.eraseDups

def State.teamPrio (s : State) (h : Nat) : Nat := ((s.team? h).map Team.prio).getD 0

/-- Effective priority of a warp along edges up to a number of hops (11 R306). -/
def State.effPrioFrom (s : State) : Nat → Nat → Nat → Nat
  | 0, h, _ => s.teamPrio h
  | hops + 1, h, w =>
    let inh := match s.team? h with
      | some t => ((s.die? t.die).map Die.inh).getD true
      | none => true
    if !inh then s.teamPrio h
    else (s.edges.filter fun e => (s.holders e).contains (h, w)).foldl
      (fun p e => max p (s.effPrioFrom hops e.ctxh e.warp)) (s.teamPrio h)

def State.effPrio (s : State) (h w : Nat) : Nat := s.effPrioFrom 16 h w

/-! ## Barriers -/

-- DESIGN CHOICE (log 63, unsafe): The lane arrivals of a warp that has arrived only in part do not carry over into the next generation.
/-- A generation completed: counted, its clock kept, the arrivals consumed (07 R194). -/
def Bar.complete (b : Bar) : Bar :=
  { b with gen := b.gen + 1, fixed := false, arrived := [], log := [], done := (b.gen, b.clk) :: b.done }

/-- The team barrier's completion condition; a fully exited warp counts as arrived (07 R194, R195). -/
def State.barDone (s : State) (h : Nat) (b : Bar) : Bool :=
  let ws := s.warpsOf h
  b.fixed && (if b.expect = 0 then ws.all fun w => w.alive == 0 || b.has w.who.warpNo w.alive
    else decide ((ws.filter fun w => w.alive == 0 || (b.arrived.any (fun a => a.1 == w.who.warpNo) && b.has w.who.warpNo w.alive)).length ≥ b.expect))

/-- Whether some lane of a mask waits on a generation of a team barrier that has not completed (07 R195). -/
def barBlocked (t : Warp) (bars : List Bar) (mask : Mask) (bid : Nat) : Bool :=
  t.barArr.any fun a => mask.getLsbD a.1 && a.2.1 == bid && decide ((bars.getD bid Bar.zero).gen ≤ a.2.2)

def cbarBlocked (t : Warp) (b : Bar) (mask : Mask) : Bool := t.cbarArr.any fun a => mask.getLsbD a.1 && decide (b.gen ≤ a.2)

/-- The edges of barrier waits that a completed generation has ended (07 R202). -/
def State.dropBarEdges (s : State) : State :=
  let ended (e : Edge) : Bool :=
    match s.team? e.ctxh, (s.thread? (.warp e.ctxh e.warp)).bind fun t => (t.split? e.spl).map fun sp => (t, sp) with
    | some tm, some (t, sp) =>
      if e.kind == 2 then !barBlocked t tm.bars sp.mask e.obj
      else e.kind == 3 && !cbarBlocked t (((s.cluster? tm.cluster).map Cluster.bar).getD Bar.zero) sp.mask
    | _, _ => false
  { s with edges := s.edges.filter fun e => !ended e }

/-- Completes every team barrier whose generation is complete. -/
def State.checkBars (s : State) (h : Nat) : State :=
  match s.team? h with
  | none => s
  | some t =>
    if t.bars.any (s.barDone h) then
      (s.updTeam h fun t' => { t' with bars := t.bars.map fun b => if s.barDone h b then b.complete else b }).dropBarEdges
    else s

/-- Every thing a team has done so far, as the release of its end (07 R168). -/
def State.teamClk (s : State) (h : Nat) : Clock :=
  ((s.parties.filter fun p => match p.kind with
    | .user h' c => h' == h && some c == (s.team? h).map Team.cluster
    | _ => false).map Party.clk).foldl clkJoin []

/-- Whether a team has arrived at its cluster barrier, or counts as arrived because it has ended (18 R455). -/
def State.teamArrived (s : State) (c : Cluster) (t : Team) : Bool :=
  c.exited.contains t.rank || (s.warpsOf t.ctxh).all fun w => w.alive == 0 || c.bar.has (t.rank * 128 + w.who.warpNo) w.alive

/-- The cluster barrier's generation completed; what the ended teams' ends have released goes into it (18 R455). -/
def Cluster.completeBar (c : Cluster) : Cluster := { c with bar := { c.bar with clk := clkJoin c.bar.clk c.endClk }.complete }

-- DEDUCED (log 80, unsafe): A team whose warps have all exited or been lost, and whose end is not signalled yet, releases at device scope when it counts as arrived.
/-- What a team that counts as arrived because no warp of it is left has done, released into the cluster's barrier (18 R455, 07 R168). -/
def State.releaseEnded (s : State) (t : Team) : State :=
  if (s.warpsOf t.ctxh).any fun w => w.alive != 0 then s
  else
    let s := s.pushLines t.die t.core .device
    s.updCluster t.cluster fun c => { c with endClk := clkJoin c.endClk (s.teamClk t.ctxh) }

/-- Completes the cluster barrier's generation once every team has arrived or ended and one team has not ended. -/
def State.checkCbar (s : State) (cl : Nat) : State :=
  match s.cluster? cl with
  | none => s
  | some c =>
    let ts := s.teams.filter fun t => t.cluster == cl
    let left := ts.any fun t => !c.exited.contains t.rank
    if c.bar.fixed && left && ts.all (s.teamArrived c) then ((ts.foldl State.releaseEnded s).updCluster cl Cluster.completeBar).dropBarEdges else s

/-! ## Edges, holds, locks -/

/-- The edges of a split removed. -/
def State.dropEdges (s : State) (who : Who) (spl : Nat) (soft : Bool) : State :=
  { s with edges := s.edges.filter fun e => !(names who e.ctxh e.warp && e.spl == spl && (e.kind == 1) == soft) }

-- DEDUCED (log 67, safe and in part unsafe): A lock word in a sealed range keeps its value, and the team is told as of a refused write-back.
/-- A lock given up by a party: a release at its scope, a write of 0 at the home, the holder entry removed (07 R199). The home grants the next
waiter at the next step. -/
def State.unlock (s : State) (party : Nat) (key : Nat) (sc : Scope) : State :=
  let wid := s.nextWrite
  let ctxh := match s.kindOf party with
    | .user h _ => h
    | _ => 0
  let s := if s.sealed key then { s with refusals := s.refusals ++ [(ctxh, key, true)] }
    else (s.write party (cellsOf key 8 0) (some sc) (some pointHome) [] false).landHome none (keysFrom key 8) wid
  { s with objs := s.objs.filter fun o => !(o.lock && o.key == key) }

/-- Held locks in ascending address (18 R460). -/
def sortedLocks (l : List (Nat × Nat × Scope)) : List (Nat × Nat × Scope) := sortBy (fun a b => decide (a.1 ≤ b.1)) l

/-- What every split that a warp has had has done: its live splits, those that have arrived or are parked at its waypoints, and those that have
ended (02 R43, 18 R460). -/
def State.warpClk (s : State) (t : Warp) : Clock :=
  (((t.live.map fun x => x.2.party) ++ t.wps.flatMap fun w => w.parkedBy :: w.arrivedBy).map s.clkOf).foldl clkJoin t.gone

/-- A party that stands for a warp as a whole (18 R460). -/
def State.warpParty (s : State) (t : Warp) : Nat × State :=
  let h := s.ctxhOf t.who
  s.newParty (.user h (((s.team? h).map Team.cluster).getD 0)) (s.warpClk t) []

/-- What the part does when a warp has fully exited, is lost, or its team is killed: locks released, edges, software holds, monitors
and lock waits dropped (07 R202, 18 R460). -/
def State.warpGone (s : State) (who : Who) : State :=
  match s.thread? who with
  | none => s
  | some t =>
    let s := if t.heldLocks.isEmpty then s
      else
        let (party, s) := s.warpParty t
        (sortedLocks t.heldLocks).foldl (fun s l =>
          let s := match s.team? (s.ctxhOf who) with
            | some tm => (s.cross tm.die true [l.2.1]).pushLines tm.die tm.core l.2.2
            | none => s
          s.unlock party l.2.1 l.2.2) s
    let s := s.updThread who fun t => { t with locks := 0, heldLocks := [], softHolds := [] }
    { s with
      edges := s.edges.filter fun e => !names who e.ctxh e.warp
      objs := s.objs.filter fun o => !(!o.lock && names who o.ctxh o.warp)
      lockQ := s.lockQ.filter fun w => w.who != who
      monitors := s.monitors.filter fun m => m.who != who }

/-- The next grant of a free lock: the waiter of highest effective priority, and among equals the one that has waited longest (07 R198).
Its acquire is performed, the word set and the holder recorded; where the table is full the die counts it (18 R449). While the home's messages do
not reach the waiter's die the grant waits; a word in a sealed range takes no write, so the waiter asks again and is refused (17 R431). -/
def State.grant (s : State) (key : Nat) : State :=
  let ws := s.lockQ.filter fun w => w.key == key
  let pr (w : LockWait) : Nat := s.effPrio (s.ctxhOf w.who) w.who.warpNo
  match ws with
  | [] => s
  | w0 :: rest =>
    let w := rest.foldl (fun b w => if pr w > pr b || (pr w == pr b && decide (w.order < b.order)) then w else b) w0
    match (s.thread? w.who).bind fun t => t.split? w.spl with
    | none => { s with lockQ := s.lockQ.filter fun x => x != w }
    | some sp =>
      let s0 := s
      let (n, s) := s.tick sp.party
      let (ps, s) := s.readPicks sp.party (s.clkOf sp.party) n (some pointHome) (keysFrom key 8)
      let (bs, s) := fillBytes s ps
      let die := ((s.team? (s.ctxhOf w.who)).map Team.die).getD 0
      if leNum bs ≠ 0 || !s.delivers die (lineOf key) then s0
      else if s.sealed key then
        ({ s0 with lockQ := s0.lockQ.filter fun x => x != w }.dropEdges w.who w.spl false).updSplit w.who w.spl fun sp => { sp with wait := none }
      else
        let s := (s.noteRead sp.party n ps).acquire sp.party w.scope (relsRead ps)
        let prevs := ps.filterMap fun p => p.w.map fun x => (p.key, x)
        let wid := s.nextWrite
        let s := (s.write sp.party (cellsOf key 8 1) none (some pointHome) prevs false).landHome none (keysFrom key 8) wid
        let md := mdieOf key
        let h := s.ctxhOf w.who
        let used := (s.objs.filter fun o => o.mdie == md).map Obj.idx
        let s := match (List.range (used.length + 1)).find? fun i => !used.contains i with
          | some i =>
            if i < 4096 then { s with objs := { idx := i, mdie := md, addr := w.addr, key := key, lock := true, ctxh := h, warp := w.who.warpNo } :: s.objs }
            else match s.team? h with
              | some t => s.updDie t.die fun d => { d with wftovf := min (d.wftovf + 1) (2 ^ 64 - 1) }
              | none => s
          | none => s
        let s := { s with lockQ := s.lockQ.filter fun x => x != w }
        let s := s.dropEdges w.who w.spl false
        s.updThread w.who fun t => { t.updSplit w.spl (fun sp => { sp with wait := some .granted }) with
          locks := t.locks + 1, heldLocks := (w.addr, key, w.scope) :: t.heldLocks }

/-- Every lock word that reads 0 at its home and has waiters is granted (07 R198, 18 R459). -/
def State.grantAll (s : State) : State :=
  (s.lockQ.map LockWait.key).eraseDups.foldl (fun s k =>
    if (keysFrom k 8).all fun x => s.homeByte x == some 0 then s.grant k else s) s

/-! ## Ends -/

-- DEDUCED (log 64, safe and in part unsafe): Cycles of different compute dies are compared by the REF tick in which they fall.
/-- A grid's failure; its first in time stands, and of those in one cycle that of the lowest CTXH (15 R386). -/
def State.failGrid (s : State) (g cause ctxh : Nat) : State :=
  let die := ((s.team? ctxh).map Team.die).getD 0
  let now := (s.ref, die, s.cycles die)
  s.updGrid g fun x =>
    let same := x.failAt.1 == now.1 && (x.failAt.2.1 != die || x.failAt.2.2 == now.2.2)
    match x.fail with
    | none => { x with fail := some (cause, ctxh), failAt := now }
    | some f => if same && decide (ctxh < f.2) then { x with fail := some (cause, ctxh), failAt := now } else x

/-- Commands of a team that have read and written nothing, discarded: counters fall and tickets return (08 R209, 19 R471). -/
def State.discardUnstarted (s : State) (h : Nat) : State :=
  let gone := s.cmds.filter fun c => c.ctxh == h && !c.started
  let s := gone.foldl (fun s c =>
    let s := s.updThread c.issuer fun t => if c.matrix then { t with moc := t.moc - 1 } else { t with coc := t.coc - 1 }
    if c.issuer.isGuide then s.updTeam h fun t => if c.matrix then { t with tickM := t.tickM + 1 } else { t with tickC := t.tickC + 1 }
    else s) s
  { s with cmds := s.cmds.filter fun c => !(c.ctxh == h && !c.started), mmaWait := s.mmaWait.filter fun m => m.ctxh != h }

/-- The scratchpad bytes of a team that has ended hold nothing any more (09 R252). -/
def State.dropScratch (s : State) (serial : Nat) : State :=
  let mine (k : Nat) : Bool := isSpKey k && (k - 2 ^ 62) / 2 ^ 22 == serial
  { s with mem := s.mem.filter fun c => !mine c.1, hist := s.hist.filter fun h => !mine h.key,
           poison := s.poison.filter fun k => !mine k }

/-- A cluster whose teams have all ended and retired none: counted off its grid (02 R30). -/
def State.checkCluster (s : State) (cl : Nat) : State :=
  match s.cluster? cl with
  | none => s
  | some c =>
    let live := s.teams.any fun t => t.cluster == cl
    let n := ((s.grid? c.grid).map fun g => g.launch.teams).getD 1
    if !live && decide (c.exited.length = n) && c.status != .done then
      let s := s.updCluster cl fun c => { c with status := .done }
      let s := s.updGrid c.grid fun g => { g with left := g.left - 1 }
      s.updGrid c.grid fun g => if g.left = 0 then { g with done := true } else g
    else s

/-- The end of a team, once every access and command of it has been performed: resources freed, its exit signalled as a release at device scope
that pushes its core's dirty lines (09 R259), its record kept only while children are outstanding (02 R44, 07 R168, 11 R299, R313). -/
def State.teamEnds (s : State) (h : Nat) : State :=
  match s.team? h with
  | none => s
  | some t =>
    let s := s.pushLines t.die t.core .device
    let clk := clkJoin t.exitClk (s.teamClk h)
    let s := { s with
      threads := s.threads.filter fun w => match w.who with
        | .warp h' _ => h' != h
        | .guide h' => h' != h
        | _ => true
      savedCmds := s.savedCmds.filter fun c => c.ctxh != h
      accown := s.accown.map fun (a : AccOwn) => if a.ctxh == h then { a with val := false } else a }
    let s := s.dropScratch t.serial
    let s := s.updGrid t.grid fun g => { g with relClk := clkJoin g.relClk clk }
    let s := s.updCluster t.cluster fun c => { c with exited := (t.rank :: c.exited).eraseDups, endClk := clkJoin c.endClk clk }
    let s := s.checkCbar t.cluster
    if t.child = 0 then ({ s with teams := s.teams.filter fun x => x.ctxh != h }).checkCluster t.cluster
    else
      -- the handle is free from here on; the record, and the children that it waits for, go by a number of their own
      let id := 2 ^ 32 + t.serial
      let s := { s with grids := s.grids.map fun (g : Grid) => if g.owner == Owner.child h then { g with owner := Owner.child id } else g }
      s.updTeam h fun t => { t with ctxh := id, status := .retiring, exitClk := clk, kept := false }

/-- The record of a stop that an item without one stands under. -/
def StopRec.blank : StopRec :=
  { cause := 0, res := 0, level := 0, guide := false, prec := false, rep := 0, warp := 0, spl := 0, tpc := 0, tlanes := 0, taddr := 0, tdetail := 0,
    tword := 0, tref := 0, words := [], faults := [], snap := [], again := false }

/-- The requests of a thread whose values have not arrived, performed in the order of their issue in the lanes that are not held; what is not performed
is a failed item (15 R376). -/
def State.finishReqs (s : State) (die core : Nat) (t : Warp) : List Item × State :=
  t.pend.reverse.foldl (fun (x : List Item × State) q => match q.kind with
    | .mem r =>
      let s := if r.op.isAtomic then x.2.cross die true ((r.acc.filter fun a => a.pt == pointHome).flatMap LaneAcc.keys) else x.2
      let (o, s) := s.performReq die core (s.ctxhOf t.who) r q.lanes
      (x.1 ++ o.items t.who q.spl r, s)
    | _ => x) ([], s)

/-- Items that stand under no stop of their own. -/
def lateItems (l : List Item) : List (Option Item × StopRec) := l.map fun i => (some i, StopRec.blank)

/-- A team killed: its locks and holds go, its unstarted commands are discarded, its threads end; its started commands and its accesses
finish, and then it ends as an exit does (15 R386, 18 R460). The items of a stop that is not complete are still to be listed. Its cluster's other teams
count it as exited at once. -/
def State.killTeam (s : State) (h cause : Nat) : State :=
  match s.team? h with
  | none => s
  | some t =>
    if t.status == .retiring || t.status == .killed then s
    else
      let s := s.failGrid t.grid cause h
      let (items, s) := (s.threadsOf h).foldl (fun (x : List Item × State) w =>
        let (l, s) := x.2.finishReqs t.die t.core w
        (x.1 ++ l, s.warpGone w.who)) ([], s)
      let s := s.discardUnstarted h
      let s := s.pushLines t.die t.core .device
      let clk := s.teamClk h
      let unlisted := if t.status == .running || t.status == .stopping then t.items else []
      let s := { s with
        threads := s.threads.filter fun w => match w.who with
          | .warp h' _ => h' != h
          | .guide h' => h' != h
          | .handler c p => !s.services.any fun v => v.ctxh == h && v.core == c && v.part == p
        services := s.services.filter fun v => v.ctxh != h
        handlerQ := s.handlerQ.filter fun x => x != h }
      let s := s.updTeam h fun t => { t with
        status := .killed, exitClk := clk, failed := some cause, held := [], stop := none
        items := if unlisted.isEmpty then t.items else [], late := lateItems unlisted ++ t.late ++ lateItems items }
      (s.updCluster t.cluster fun c => { c with exited := (t.rank :: c.exited).eraseDups, endClk := clkJoin c.endClk clk }).checkCbar t.cluster

/-- A handler warp gone from its slot (15 R383). -/
def State.endService (s : State) (core part : Nat) : State :=
  { s with services := s.services.filter fun v => !(v.core == core && v.part == part),
           threads := s.threads.filter fun w => w.who != .handler core part }

/-- The recovery of a context by firmware: its teams are killed, its clusters dropped, its launches completed with a failure, its queues
stopped and new work refused (15 R387). Firmware that has failed does not act (20 R485). -/
def State.loseContext (s : State) (asid cause ctxh : Nat) (detail : Word) : State :=
  let s := s.logEvent cause 4 0xFFFF ctxh detail
  if s.plat.phase == .failed then s
  else
    let hs := (s.services.filter fun v => v.ctxh / 2 ^ 22 == asid)
    let s := hs.foldl (fun s v => s.endService v.core v.part) s
    let s := (sortBy (fun a b => decide (a.ctxh ≤ b.ctxh)) (s.teams.filter fun t => t.asid == asid)).foldl (fun s t => s.killTeam t.ctxh cause) s
    let gs := s.grids.filter fun g => g.launch.asid == asid
    let ids := gs.map Grid.id
    -- clusters that never ran are dropped, and every started launch completes with the failure
    let idle := s.clusters.filter fun (c : Cluster) => ids.contains c.grid && c.status == .ready && !c.resumed
    let s := { s with
      clusters := s.clusters.map fun (c : Cluster) => if idle.any fun x => x.id == c.id then { c with status := .done } else c
      grids := s.grids.map fun (g : Grid) =>
        if ids.contains g.id then
          let n := (idle.filter fun (c : Cluster) => c.grid == g.id).length
          { g with left := g.left - n, fail := g.fail.or (some (cause, ctxh)), done := g.done || g.left == n }
        else g
      queues := s.queues.map fun (q : Queue) => if q.asid == asid then { q with halted := true } else q }
    { s with plat := { s.plat with
      asids := s.plat.asids.map fun (a : Asid) => if a.num == asid then { a with refused := true } else a
      ctxLost := (asid :: s.plat.ctxLost).eraseDups } }

end Sys2Proof.Machine
end

