-- ==== Sys2Proof/Machine/Ops.lean ====
section
/-!
DEFINITION. The operations every instruction shares: taking a trap (15 R371 to R382, R390), what an instruction is before its effect
(16 R389 to R395, 03 R75), and how it completes (03 R52, R65, R74).
-/
namespace Sys2Proof.Machine

/-! ## Taking a trap -/

/-- A trap as it is raised: cause, precise or not, the faulting instruction and its first word, lanes, TADDR, TDETAIL, words 16 to 47. -/
structure Trap where
  cause : Nat
  prec : Bool
  tpc : Pc
  word : Word
  lanes : Mask
  addr : Nat
  detail : Nat
  words : List Word
  deriving DecidableEq, Repr

/-- Resume kind of a cause: 0 N, 1 S, 2 A, 3 X (15 R369, R370). 0x61 has none, and its field reads zero. -/
def resumeKind (c : Nat) : Nat :=
  if [0x13, 0x14, 0x15, 0x26, 0x27, 0x28, 0x44, 0x51, 0x61, 0x71, 0x72].contains c then 0
  else if [0x16, 0x30, 0x31, 0x32, 0x33, 0x60].contains c then 1
  else if [0x20, 0x21].contains c then 2
  else 3

/-- Recovery level that a cause implies (15 R369, R387). -/
def causeLevel (c : Nat) : Nat :=
  if [0x26, 0x28, 0x44, 0x71].contains c then 1
  else if c = 0x72 then 2
  else if c = 0x73 then 3
  else if [0x64, 0x65, 0x74].contains c then 4
  else if [0x75, 0x82].contains c then 5
  else 0

def State.dieOf (s : State) (who : Who) : Nat :=
  match who with
  | .handler c _ => c / 16
  | w => ((s.team? (s.ctxhOf w)).map Team.die).getD 0

/-- The compute die and the core a thread runs on. -/
def State.placeOfWho (s : State) (who : Who) : Nat × Nat :=
  match who with
  | .handler c _ => (c / 16, c % 16)
  | w => ((s.team? (s.ctxhOf w)).map fun t => (t.die, t.core)).getD (0, 0)

/-- The cycle count that a thread's limits read. -/
def State.clkFor (s : State) (who : Who) : Nat := s.cycles (s.dieOf who)

/-- The last stop of a team, if nothing has completed since. -/
def Team.prevStop (t : Team) : Option (Nat × Pc × Nat) := if t.progress then none else t.lastStop

/-- REP of a new stop: it rises when the last stop had this cause and TPC and nothing has completed since (15 R385). -/
def repOf (prev : Option (Nat × Pc × Nat)) (cause : Nat) (tpc : Pc) : Nat :=
  match prev with
  | some (c, p, r) => if c = cause ∧ p = tpc then min 255 (r + 1) else 0
  | none => 0

/-- The record that a trap opens (15 R380), after a last stop. -/
def stopRec (s : State) (t : Team) (prev : Option (Nat × Pc × Nat)) (who : Who) (spl : Nat) (tr : Trap) : StopRec :=
  { cause := tr.cause, res := resumeKind tr.cause, level := causeLevel tr.cause, guide := who.isGuide, prec := tr.prec,
    rep := repOf prev tr.cause tr.tpc, warp := who.warpNo, spl := spl, tpc := tr.tpc, tlanes := tr.lanes, taddr := wordOf tr.addr,
    tdetail := wordOf tr.detail, tword := tr.word, tref := wordOf (((s.die? t.die).map Die.ref).getD 0), words := tr.words,
    faults := [{ warp := if who.isGuide then 128 else who.warpNo, cause := tr.cause, pc := tr.tpc, addr := tr.addr, lanes := tr.lanes }],
    snap := [], again := false, cycle := s.cycles t.die, prev := prev }

/-- The number of a thread in a stop's list of faults: its warp, 128 for the guide. -/
def faultNo (who : Who) : Nat := if who.isGuide then 128 else who.warpNo

/-- Cycles counted toward a barrier's limit up to a stop (18 R452). -/
def Split.pauseWait (sp : Split) (now : Nat) : Split :=
  match sp.wait with
  | some (.bar _ _) | some (.cbar _) => { sp with waited := sp.waited + (now - sp.waitFrom), waitFrom := now }
  | _ => sp

/-- Every wait of a running team's splits paused; those of a team that has stopped stand paused. -/
def State.pauseWaits (s : State) (h : Nat) : State :=
  let now := ((s.team? h).map fun t => s.cycles t.die).getD 0
  if !((s.team? h).map fun t => t.status == .running).getD false then s
  else (s.threadsOf h).foldl (fun s t => s.setThread { t with splits := t.splits.map fun o => o.map fun sp => sp.pauseWait now }) s

/-- The faults of several stops, each thread's first. -/
def mergeFaults (l : List WarpFault) : List WarpFault :=
  l.foldl (fun a f => if a.any fun x => x.warp == f.warp then a else a ++ [f]) []

/-- Whether a split comes before the primary of a stop among those of one cycle: by warp, a warp before the guide, then by split index
(15 R373). -/
def StopRec.after (r : StopRec) (who : Who) (spl : Nat) : Bool :=
  let p := if r.guide then 128 else r.warp
  decide (faultNo who < p) || (faultNo who == p && decide (spl < r.spl))

/-- A further trap of a stopping team: secondary in its warp's record, or the primary one where it falls in the cycle of the primary and its
split comes first (15 R373); what the record says of the warps is taken afresh. -/
def StopRec.also (r new : StopRec) (who : Who) (spl : Nat) : StopRec :=
  if new.cycle == r.cycle && r.cause != 0x61 && new.cause != 0x61 && r.after who spl then { new with faults := mergeFaults (new.faults ++ r.faults) }
  else { r with faults := mergeFaults (r.faults ++ new.faults), snap := [] }

/-- TAKING A TRAP. In the handler it ends the service as 0x64 (16 R390). In a running team it stops the team, its split being the primary
one, and a save that waits for the team's reserved entries waits for the service instead (15 R375); in a stopping team it is secondary, or the
primary one of its cycle; in a team already stopped, served, halted or saved it is kept for the next `tret` or resume, in a killed one for
the team's item list (15 R371, R373, R378, R386, 19 R476). `item` is the entry of the item list that the fault brings. -/
def State.raise (s : State) (who : Who) (spl : Nat) (tr : Trap) (item : Option Item) : State :=
  match who with
  | .handler c p =>
    let h := s.ctxhOf who
    (s.endService c p).loseContext (h / 2 ^ 22) 0x64 h (tr.word &&& 0xFFFFFFFFFFFFFF00#64 ||| wordOf tr.cause)
  | _ =>
    let h := s.ctxhOf who
    match s.team? h with
    | none => s
    | some t =>
      let items := item.toList
      match t.status with
      | .running =>
        let r := stopRec s t t.prevStop who spl tr
        (s.pauseWaits h).updTeam h fun t => { t with
          status := .stopping, stop := some r, items := t.items ++ items, lastStop := some (r.cause, r.tpc, r.rep), progress := false,
          saving := none }
      | .stopping =>
        match t.stop with
        | none => s
        | some r =>
          let r := r.also (stopRec s t r.prev who spl tr) who spl
          s.updTeam h fun t => { t with items := t.items ++ items, stop := some r, lastStop := some (r.cause, r.tpc, r.rep) }
      | .retiring => s
      | .killed => if items.isEmpty then s else s.updTeam h fun t => { t with late := t.late ++ [(item, stopRec s t none who spl tr)] }
      | _ => s.updTeam h fun t => { t with late := t.late ++ [(item, stopRec s t t.prevStop who spl tr)] }

/-! ## Records of memory faults -/

/-- TDETAIL of causes 0x20 to 0x28 (17 R412). -/
def memDetail (f : MFault) (kind sp elem : Nat) : Nat :=
  f.reason * 2 ^ 60 + kind * 2 ^ 56 + sp * 2 ^ 53 + f.tgt * 2 ^ 51 + f.lvl * 2 ^ 48 + f.rank * 2 ^ 45 + f.seg * 2 ^ 35 + elem * 2 ^ 29

/-- A word of 16 to 47 for a lane that met a cause at a byte (17 R413). -/
def laneWord (cause addr : Nat) : Word := wordOf (cause * 2 ^ 48 + addr % 2 ^ 48)

/-- A request of a thread held for replay (15 R379). -/
def State.holdReq (s : State) (x : Held) : State := s.updTeam (s.ctxhOf x.who) fun t => { t with held := t.held ++ [x] }

/-! ## The private places of a frame (03 R58 to R62) -/

/-- The 32 lane words of an entry in the first code that fits, as code and bytes (03 R61). -/
def encodeEntry (vs : List Word) : Nat × List Byte :=
  let v0 := vs.getD 0 0
  let str := vs.getD 1 0 - v0
  let d (v : Word) : Int := (v - v0).toInt
  let fits (n : Nat) : Bool := vs.all fun v => decide (-((2 ^ (n - 1) : Nat) : Int) ≤ d v ∧ d v < ((2 ^ (n - 1) : Nat) : Int))
  let bytes (n : Nat) (v : Nat) : List Byte := (List.range n).map fun i => BitVec.ofNat 8 (v / 256 ^ i)
  let deltas (n : Nat) : List Byte := bytes 8 v0.toNat ++ vs.flatMap fun v => bytes n (v - v0).toNat
  if vs.all fun v => v == v0 then (1, bytes 8 v0.toNat)
  else if vs.zipIdx.all fun (v, l) => v == v0 + BitVec.ofNat 64 l * str then (5, bytes 8 v0.toNat ++ bytes 8 str.toNat)
  else if fits 8 then (2, deltas 1)
  else if fits 16 then (3, deltas 2)
  else if fits 32 then (4, deltas 4)
  else (0, vs.flatMap fun v => bytes 8 v.toNat)

/-- The bytes of an encoded entry that hold a lane's own word, by the number of bytes written (03 R61). -/
def laneBytes (n l : Nat) : List Nat :=
  if n ≤ 16 then List.range n
  else if n = 256 then (List.range 8).map (8 * l + ·)
  else (List.range ((n - 8) / 32)).map (8 + (n - 8) / 32 * l + ·)

/-- The bytes that a lane's word is read from: the base as well, where the others are differences from it. -/
def laneReads (n l : Nat) : List Nat := if n = 256 then laneBytes n l else List.range (min n 8) ++ laneBytes n l

/-- The words of an entry as they are written out: an undefined word is written as a free value (03 R58, 00 R4). -/
def entryWords (s : State) : List (Option Word) → List Word × State
  | [] => ([], s)
  | some v :: l => let (vs, s) := entryWords s l; (v :: vs, s)
  | none :: l =>
    let (v, s) := takeFree s
    let (vs, s) := entryWords s l
    (v :: vs, s)

/-- First byte of a private offset of a warp in its team's slab (09 R246). -/
def privVa (tm : Team) (who : Who) (off : Nat) : Nat := tm.priv + who.warpNo * tm.psz + off

/-- The rights of the part's own accesses to a slab, which are translated like program accesses (17 R417). -/
def frameRights (write : Bool) : Rights := { write := write, fetch := false, super := false }

-- DEDUCED (log 14, safe): see notes/assumptions/14.md.
/-- Entry `i` written to its private place with its format byte (03 R59, R61). -/
def State.spillEntry (s : State) (tm : Team) (who : Who) (party i : Nat) : Except (TransFail × Nat) Unit × State :=
  match s.thread? who with
  | none => (.ok (), s)
  | some t =>
    let e := (t.fent? i).getD { idx := i, words := List.replicate 32 none, poison := 0, spilled := none }
    let (vs, s) := entryWords s e.words
    let (code, bytes) := encodeEntry vs
    let va := privVa tm who (i * 256)
    let fva := privVa tm who (0x400000 + i)
    let clk := s.clkOf party
    match s.transBytes party clk tm.asid (frameRights true) va 0 bytes.length with
    | (.error f, s) => (.error (f, va), s)
    | (.ok ks, s) =>
      match s.transBytes party clk tm.asid (frameRights true) fva 0 1 with
      | (.error f, s) => (.error (f, fva), s)
      | (.ok fk, s) =>
        let wid := s.nextWrite
        let s := s.write party ((ks ++ fk).zip (bytes ++ [BitVec.ofNat 8 code])) none none [] false
        -- the bytes of a poisoned word are written poisoned (17 R433)
        let s := (lanesOf e.poison).foldl (fun s l =>
          s.markAt Hist.newest ((granulesOf ((if l = 0 then laneReads bytes.length 0 else laneBytes bytes.length l).map fun o => ks.getD o 0)).flatMap
            granuleKeys)) s
        let s := s.placeWrite tm.die tm.core (pointL1 tm.die tm.core) (ks ++ fk) wid tm.ctxh true
        (.ok (), s.updThread who fun t => { t with
          frame := { e with spilled := some (wid, bytes.length) } :: t.frame.filter fun x => x.idx != i })

/-- The byte last performed at a key is the one a write wrote. -/
def State.lastIs (s : State) (wid k : Nat) : Bool := (((s.histOf k).bind fun h => h.ws.getLast?).map fun w => w.id == wid).getD false

/-- Nothing has been performed at a key since a write. -/
def State.quietSince (s : State) (wid k : Nat) : Bool := ((s.histOf k).map fun h => h.ws.all fun w => decide (w.id ≤ wid)).getD true

/-- Entry `i` read back: its words stand where only the part has written its 256-byte place and its format byte, and are undefined otherwise
(03 R62, log 14). A word read from poisoned bytes is poisoned (17 R433). -/
def State.fillEntry (s : State) (tm : Team) (who : Who) (party i : Nat) : Except (TransFail × Nat) Unit × State :=
  match (s.thread? who).bind fun t => t.fent? i with
  | none => (.ok (), s)
  | some e =>
    let (wid, n) := e.spilled.getD (0, 8)
    let va := privVa tm who (i * 256)
    let fva := privVa tm who (0x400000 + i)
    let clk := s.clkOf party
    match s.transBytes party clk tm.asid (frameRights false) fva 0 1 with
    | (.error f, s) => (.error (f, fva), s)
    | (.ok fk, s) =>
      match s.transBytes party clk tm.asid (frameRights false) va 0 256 with
      | (.error f, s) => (.error (f, va), s)
      | (.ok ks, s) =>
        let s := s.cross tm.die false (s.missed tm.die tm.core (fk ++ ks))
        let hurt (l : Nat) : Bool := (fk ++ (laneReads n l).map fun o => ks.getD o 0).any s.newestBad
        let marks := e.poison ||| maskOf ((List.range 32).filter hurt)
        let own := (ks.take n ++ fk).all (s.lastIs wid) && ks.all (s.quietSince wid)
        if own && marks == e.poison then (.ok (), s)
        else (.ok (), s.updThread who fun t => { t with
          frame := { e with poison := marks, words := if own then e.words else List.replicate 32 none } :: t.frame.filter fun x => x.idx != i })

/-- The first entry of a list whose access fails stops the list; the entries before it have been performed. -/
def State.eachEntry (f : State → Nat → Except (TransFail × Nat) Unit × State) : State → List Nat → Except (TransFail × Nat × Nat) Unit × State
  | s, [] => (.ok (), s)
  | s, i :: l =>
    match f s i with
    | (.error (e, va), s) => (.error (e, va, i), s)
    | (.ok (), s) => State.eachEntry f s l

/-- A window or slot access that failed: held as one request of the warp (17 R417), or the context is lost. -/
def State.frameFault (s : State) (who : Who) (spl : Nat) (pc : Pc) (word : Word) (mask : Mask) (tm : Team) (e : TransFail) (va : Nat)
    (req : HeldReq) : State :=
  match e with
  | .lost => s.loseContext tm.asid 0x74 tm.ctxh 0
  | .fault f =>
    let s := s.holdReq { who := who, spl := spl, pc := pc, word := word, lanes := mask, req := req }
    s.raise who spl { cause := f.cause, prec := true, tpc := pc, word := word, lanes := mask, addr := va + f.off,
                      detail := memDetail f 9 0 0, words := [laneWord f.cause (va + f.off)] } none

/-- The window set to max(0, H - C) after an instruction that changed H (03 R58): entries that leave are written out unless they are
clean (06 R136), entries that come back are read. -/
def State.moveWindow (s : State) (tm : Team) (who : Who) (spl : Nat) (pc : Pc) (word : Word) (mask : Mask) : State :=
  match s.thread? who with
  | none => s
  | some t =>
    if !who.isUser then s.updThread who Warp.dropDead
    else
      let w := t.top - t.cap
      let party := ((t.split? spl).map Split.party).getD ((t.live.head?.map fun x => x.2.party).getD 0)
      let out := (List.range (w - t.win)).map fun i => t.win + i
      let back := ((List.range (t.win - w)).map fun i => w + i).filter fun i => decide (i < t.top)
      let r := State.eachEntry (fun s i => s.spillEntry tm who party i) s (out.filter fun i => !t.clean.contains i)
      match r with
      | (.error (e, va, _), s) => s.frameFault who spl pc word mask tm e va .window
      | (.ok (), s) =>
        match State.eachEntry (fun s i => s.fillEntry tm who party i) s back with
        | (.error (e, va, _), s) => s.frameFault who spl pc word mask tm e va .window
        | (.ok (), s) => s.updThread who fun t => { t with win := w, clean := t.clean.filter fun i => decide (w ≤ i) }.dropDead

/-! ## An instruction about to take effect -/

/-- What an instruction runs with: its thread, split and team, the switched-on lanes, and its words. -/
structure Cx where
  who : Who
  k : Nat
  pc : Pc
  word : Word
  h : Hdr
  t : Warp
  sp : Split
  tm : Team
  on : Mask
  deriving DecidableEq, Repr

/-- The lanes of the issuing split. -/
def Cx.mask (cx : Cx) : Mask := cx.sp.mask

def Cx.lanes (cx : Cx) : List Nat := lanesOf cx.on

-- DEDUCED (log 31, unsafe): TLANES of an engine or system instruction's fault is the lead lane, and of a lock operation the lane used, with its word in words 16 to 47.
/-- The lowest switched-on lane. -/
def Cx.lead (cx : Cx) : Option Nat := cx.lanes.head?

/-- Bytes of the instruction (05 R106). -/
def Cx.len (cx : Cx) : Nat := if cx.h.ext.isSome then 16 else 8

def Cx.nextPc (cx : Cx) : Pc := cx.pc + BitVec.ofNat 48 cx.len

/-- A precise trap of this instruction; a memory cause stands in the words of its lanes too (17 R413). -/
def Cx.trap (cx : Cx) (cause : Nat) (lanes : Mask) (addr detail : Nat) : Trap :=
  { cause := cause, prec := true, tpc := cx.pc, word := cx.word, lanes := lanes, addr := addr, detail := detail,
    words := if 0x20 ≤ cause ∧ cause ≤ 0x28 then (List.range 32).map fun l => if lanes.getLsbD l then laneWord cause addr else 0 else [] }

/-- The instruction fails a stage: it has no effect, and the trap is taken (16 R389). -/
def State.fail (s : State) (cx : Cx) (cause : Nat) (lanes : Mask) (addr detail : Nat) : State :=
  s.raise cx.who cx.k (cx.trap cause lanes addr detail) none

/-- What an entry says before its effect: legal in a guide, legal there in this form, a system instruction, waits under R75, the sources it
reads with their field numbers, whether it pushes, and for `ldblk` the lanes of a group, whose leader alone reads SB (07 R178). -/
structure Shape where
  guide : Bool
  form : Bool
  system : Bool
  waits : Bool
  srcs : List (Nat × Src)
  pushes : Bool
  block : Nat := 0
  deriving DecidableEq, Repr

/-- The shape of most entries: user warps only. -/
def Shape.user (srcs : List (Nat × Src)) (pushes : Bool) : Shape :=
  { guide := false, form := true, system := false, waits := false, srcs := srcs, pushes := pushes }

/-- The shape of an entry that is legal in a guide. -/
def Shape.both (srcs : List (Nat × Src)) (pushes : Bool) : Shape := { Shape.user srcs pushes with guide := true }

/-- The shape of a system instruction. -/
def Shape.sys (srcs : List (Nat × Src)) (pushes : Bool) : Shape := { Shape.user srcs pushes with system := true }

def srcOff (h : Hdr) : List (Nat × Src) := [(4, h.sa)]
def src1 (h : Hdr) : List (Nat × Src) := [(0, h.sa)]
def src2 (h : Hdr) : List (Nat × Src) := [(0, h.sa), (1, h.sb)]
def src3 (h : Hdr) : List (Nat × Src) := [(0, h.sa), (1, h.sb), (2, h.sc)]

/-- The mode check of stage 2: cause and TDETAIL (16 R392). -/
def modeFail (who : Who) (sh : Shape) (word : Word) : Option (Nat × Nat) :=
  let opc := fieldOf word.toNat 56 8
  match who with
  | .handler _ _ => none
  | .warp _ _ => if sh.system then some (0x12, opc) else none
  | .guide _ => if !sh.guide then some (0x11, opc) else if !sh.form then some (0x11, opc + 256) else none

/-- The leaders of the groups of a block instruction that have a switched-on lane: of each group the lowest active lane (07 R178). -/
def blockLeads (mask on : Mask) (g : Nat) : Mask :=
  maskOf ((List.range (32 / g)).filterMap fun b =>
    let ls := (List.range g).map (b * g + ·)
    if ls.any fun l => on.getLsbD l then ls.find? fun l => mask.getLsbD l else none)

/-- The lanes in which a source is read. Field 4 stands for the SA of an entry that reads it in switched-off lanes only (06 R131). -/
def readMask (mask on : Mask) (pushes : Bool) (block field : Nat) : Mask :=
  if field = 1 ∧ block ≠ 0 then blockLeads mask on block
  else if field = 4 then mask &&& ~~~on else if field = 0 ∧ pushes then mask else on

/-- The lanes in which a source would be read while pending, with its field and selector (16 R393). -/
def pendingLanes (t : Warp) (mask on : Mask) (pushes : Bool) (block : Nat) (f : Nat × Src) : Mask :=
  match f.2 with
  | .age n => maskOf ((lanesOf (readMask mask on pushes block f.1)).filter fun l => (t.age l (n.toNat + 1)).pend.isSome)
  | _ => 0

/-- The lookahead hazard of stage 3, when LADBG is set for a team's thread: every lane that would read a pending value, and the first field and
selector that do (16 R395). -/
def ladbgFail (who : Who) (tm : Team) (t : Warp) (mask on : Mask) (sh : Shape) : Option (Mask × Nat) :=
  if !tm.brken.getLsbD 1 || who.isHandler then none
  else
    (sh.srcs.find? fun f => pendingLanes t mask on sh.pushes sh.block f != 0).map fun f =>
      (sh.srcs.foldl (fun m f => m ||| pendingLanes t mask on sh.pushes sh.block f) 0, f.2.sel + 32 * (f.1 % 4))

/-- A frame slot that the split's frame does not hold: reason and slot or entry (16 R397 reasons 1 and 6). -/
def slotFail (who : Who) (sp : Split) (slot : Nat) : Option (Nat × Nat) :=
  if slot ≥ sp.fs then some (1, slot)
  else if !who.isUser && decide (sp.fb + slot ≥ 16) then some (6, sp.fb + slot)
  else none

/-- Near-frame selectors of stage 4. -/
def selectorFail (who : Who) (sp : Split) (sh : Shape) : Option (Nat × Nat) :=
  (sh.srcs.filterMap fun f => match f.2 with
    | .slot n => slotFail who sp n.toNat
    | _ => none).head?

/-- The reservations of a split that have not been filled. -/
def Warp.pendsOf (t : Warp) (k : Nat) : List Pend :=
  match t.split? k with
  | none => []
  | some sp => t.pend.filter fun p => p.spl == k || sp.windows.any fun w => w.1 == p.id

/-- A held instruction: the split waits and issues it again (02 R50). -/
def State.hold (s : State) (cx : Cx) : State := s.updSplit cx.who cx.k fun sp => { sp with wait := some .held }

/-- An instruction held for the values of earlier reserved entries of its split (03 R75). -/
def State.holdEntries (s : State) (cx : Cx) : State := s.updSplit cx.who cx.k fun sp => { sp with wait := some .entries }

/-- The faults of a team's stop so far. -/
def State.faultsOf (s : State) (h : Nat) : List WarpFault := (((s.team? h).bind Team.stop).map StopRec.faults).getD []

/-- Whether an instruction has failed a stage before that of translation: its split has raised a trap and stands where it did (16 R389). -/
def State.failedEarlier (s s' : State) (cx : Cx) : Bool :=
  let h := s.ctxhOf cx.who
  decide ((s.faultsOf h).length < (s'.faultsOf h).length) &&
    (((s'.faultsOf h).getLast?).any fun f => f.cause != 0x20 && f.cause != 0x21) &&
    (((s'.thread? cx.who).bind fun t => t.split? cx.k).any fun sp => sp.pc == cx.pc && sp.wait == cx.sp.wait)

-- DEDUCED (log 24, unsafe): Where an entry cannot be read, the checks of the stages before that of translation are made with the words that the thread holds.
/-- Reads of stack entries below the window (03 R59): an access that fails holds the instruction for replay (17 R417), unless the instruction fails
an earlier stage (16 R389). -/
def State.slotReads (s : State) (cx : Cx) (entries : List Nat) (body : State → State) : State :=
  let below := if cx.who.isUser then entries.filter fun i => decide (i < cx.t.win) else []
  match State.eachEntry (fun s i => s.fillEntry cx.tm cx.who cx.sp.party i) s below with
  | (.error (e, va, _), s) =>
    if s.failedEarlier (body s) cx then body s else s.frameFault cx.who cx.k cx.pc cx.word cx.mask cx.tm e va .slot
  | (.ok (), s) => body s

/-- The stack entries that an instruction's near-frame selectors read. -/
def slotEntries (sp : Split) (sh : Shape) : List Nat :=
  sh.srcs.filterMap fun f => match f.2 with
    | .slot n => some (sp.fb + n.toNat)
    | _ => none

/-- The lookahead hazards of an instruction: those of its own lanes, then those of the lanes it reads across (16 R395). -/
def hazards (cx : Cx) (sh : Shape) (cross : Cx → Option (Mask × Nat)) : Option (Mask × Nat) :=
  let across := if cx.tm.brken.getLsbD 1 && !cx.who.isHandler then cross cx else none
  match ladbgFail cx.who cx.tm cx.t cx.mask cx.on sh with
  | some f => some (f.1 ||| (across.map Prod.fst).getD 0, f.2)
  | none => across

/-- An instruction up to its effect: its thread, then the mode, the waits of R75, lookahead hazards and near-frame selectors. `body` is what
it does from there; `cross` gives the pending values that it reads from other lanes. -/
def runAcross (s : State) (h : Hdr) (sh : Shape) (cross : Cx → Option (Mask × Nat)) (body : Cx → State → State) :
    Host.Outcome State Fault Refusal :=
  match s.cur with
  | none => .fault .noIssue
  | some i =>
    match s.thread? i.who, s.team? (s.ctxhOf i.who) with
    | some t, some tm =>
      match t.split? i.spl with
      | none => .fault .noIssue
      | some sp =>
        let s := { s with cur := none }
        let on := sp.mask &&& t.guardMask h.guard
        let cx : Cx := { who := i.who, k := i.spl, pc := i.pc, word := i.word, h := h, t := t, sp := sp, tm := tm, on := on }
        .next <|
          match modeFail i.who sh i.word with
          | some (c, d) => s.fail cx c sp.mask 0 d
          | none =>
            if sh.waits && !(t.pendsOf i.spl).isEmpty then s.holdEntries cx
            else match hazards cx sh cross with
              | some (m, d) => s.fail cx 0x16 m 0 d
              | none =>
                match selectorFail i.who sp sh with
                | some (r, n) => s.fail cx 0x19 sp.mask 0 (r + 16 * n)
                | none => s.slotReads cx (slotEntries sp sh) fun s => body { cx with t := (s.thread? i.who).getD t } s
    | _, _ => .fault .noIssue

/-- An instruction that reads no other lane. -/
def run (s : State) (h : Hdr) (sh : Shape) (body : Cx → State → State) : Host.Outcome State Fault Refusal :=
  runAcross s h sh (fun _ => none) body

/-! ## Completion -/

/-- The push counter stops at 31 (03 R65). -/
def addP (p k : Nat) : Nat := min 31 (p + k)

/-- An instruction of a split has issued: open windows shrink, later counts of its reservations rise, its wait is over. -/
def Warp.issued (t : Warp) (k now : Nat) : Warp :=
  let t := t.updSplit k fun sp => { sp with
    windows := (sp.windows.filter fun w => t.pend.any fun p => p.id == w.1).map fun w => (w.1, w.2 - 1)
    wait := none, waited := 0, readyFrom := now, promoted := 0, acted := 0, up := false, skips := 0, issues := sp.issues + 1 }
  { t with pend := t.pend.map fun p => if p.spl == k then { p with later := p.later + 1 } else p }

/-- Entries pushed in the lanes of a mask, oldest result first (03 R52, R53). -/
def Warp.pushEach (t : Warp) (mask : Mask) (f : Nat → List QEnt) : Warp :=
  { t with queue := t.queue.zipIdx.map fun (q, l) => if mask.getLsbD l then (f l).foldl pushLane q else q }

/-- A team's instruction has completed. -/
def State.noteProgress (s : State) (cx : Cx) : State :=
  match cx.who with
  | .handler _ _ => s
  | _ => s.updTeam cx.tm.ctxh fun t => { t with progress := true }

/-- A split has issued: its thread changes as given and it goes on at an address with `n` pushes counted. -/
def State.advance (s : State) (who : Who) (k : Nat) (f : Warp → Warp) (pc : Pc) (n : Nat) : State :=
  let now := s.clkFor who
  let stopping := ((s.team? (s.ctxhOf who)).map fun t => t.status == .stopping).getD false && !who.isHandler
  s.updThread who fun t =>
    let t := f (t.issued k now)
    let t := t.updSplit k fun sp => { sp with pc := pc, p := addP sp.p n }
    { t with skid := if stopping then t.skid + 1 else t.skid }

/-- An instruction completes. -/
def State.finishAt (s : State) (cx : Cx) (f : Warp → Warp) (pc : Pc) (n : Nat) : State := (s.advance cx.who cx.k f pc n).noteProgress cx

/-- An instruction that pushes `n` results in every lane of its split and goes on. -/
def State.finish (s : State) (cx : Cx) (n : Nat) (f : Nat → List QEnt) : State :=
  s.finishAt cx (fun t => t.pushEach cx.mask f) cx.nextPc n

/-- An instruction that pushes nothing and goes on. -/
def State.done (s : State) (cx : Cx) : State := s.finishAt cx (fun t => t) cx.nextPc 0

/-- A thread changed by the instruction, without a push. -/
def State.doneWith (s : State) (cx : Cx) (f : Warp → Warp) : State := s.finishAt cx f cx.nextPc 0

/-- An arrived entry. -/
def ent (v : Word) (poison : Bool) : QEnt := { val := v, pend := none, poison := poison }

/-- A new reservation: its entries are pushed now and filled later (03 R73), with the window of its lookahead field (R74). -/
def State.reserve (s : State) (cx : Cx) (n : Nat) (wait : Mask) (off : Nat → QEnt) (kind : PendKind) : State :=
  let id := s.nextPend
  let s := { s with nextPend := id + 1 }
  if wait == 0 then s.finish cx n fun l => List.replicate n (off l)
  else
    let p : Pend := { id := id, spl := cx.k, pc := cx.pc, word := cx.word, lanes := wait, kind := kind, later := 0,
                      from_ := s.clkFor cx.who, ref := s.ref, raised := [] }
    s.finishAt cx (fun t =>
      let t := t.pushEach cx.mask fun l =>
        if wait.getLsbD l then (List.range n).map fun i => { val := 0, pend := some (id, i), poison := false } else List.replicate n (off l)
      { t.updSplit cx.k (fun sp => { sp with windows := (id, cx.h.la.toNat) :: sp.windows }) with pend := p :: t.pend }) cx.nextPc n

/-- The reserved entries of some lanes filled (03 R73): results and poisoned lanes. -/
def Warp.fillPend (t : Warp) (id : Nat) (vals : List (Nat × List Word)) (poison : List Nat) : Warp :=
  let lanes := maskOf (vals.map Prod.fst)
  { t with
    queue := t.queue.zipIdx.map fun (q, l) => q.map fun e =>
      match e.pend with
      | some (i, r) => if i == id && lanes.getLsbD l then ent (((assoc? vals l).getD []).getD r 0) (poison.contains l) else e
      | none => e
    pend := (t.pend.map fun p => if p.id == id then { p with lanes := p.lanes &&& ~~~lanes } else p).filter fun p => p.lanes != 0 }

end Sys2Proof.Machine
end

