-- ==== Sys2Proof/Machine/Operands.lean ====
section
/-!
DEFINITION. Reading the sources of an instruction (05 R110, 03 R53, R55), pending and undefined words as free values (16 R393, 03 R58),
and the consumption of poisoned words (17 R433, R434).
-/
namespace Sys2Proof.Machine

/-- A word read through a selector, with its poison mark. -/
structure SVal where
  v : Word
  poison : Bool
  deriving DecidableEq, Repr

/-- What a selector reads in one lane. A pending entry and an undefined frame word read as free values. -/
def State.readLane (s : State) (cx : Cx) (x : Src) (lane : Nat) : SVal × State :=
  match x with
  | .age n =>
    let e := cx.t.age lane (n.toNat + 1)
    if e.pend.isSome then let (v, s) := takeFree s; ({ v := v, poison := false }, s) else ({ v := e.val, poison := e.poison }, s)
  | .slot n =>
    let i := cx.sp.fb + n.toNat
    match cx.t.fword i lane with
    | some v => ({ v := v, poison := cx.t.fpoison i lane }, s)
    | none => let (v, s) := takeFree s; ({ v := v, poison := false }, s)
  | .zero => ({ v := 0, poison := false }, s)
  | .imm => ({ v := cx.h.ext.getD 0, poison := false }, s)

/-- A source read in the lanes of a mask; lanes outside it hold zero. -/
def readLanes (cx : Cx) (x : Src) (mask : Mask) : State → List Nat → List SVal × State
  | s, [] => ([], s)
  | s, l :: ls =>
    if mask.getLsbD l then
      let (v, s) := s.readLane cx x l
      let (vs, s) := readLanes cx x mask s ls
      (v :: vs, s)
    else
      let (vs, s) := readLanes cx x mask s ls
      ({ v := 0, poison := false } :: vs, s)

/-- One source of an instruction as read in all lanes, before anything is pushed (03 R53). -/
structure Operand where
  field : Nat
  sel : Src
  vals : List SVal
  deriving DecidableEq, Repr

def Operand.at (o : Operand) (l : Nat) : SVal := o.vals.getD l { v := 0, poison := false }

/-- The sources of an instruction: SA also in the switched-off lanes of an instruction that pushes (03 R55). -/
def State.operands (s : State) (cx : Cx) : List (Nat × Src) → Bool → List Operand × State
  | [], _ => ([], s)
  | f :: fs, pushes =>
    let (vs, s) := readLanes cx f.2 (readMask cx.mask cx.on pushes 0 f.1) s (List.range 32)
    let (os, s) := s.operands cx fs pushes
    ({ field := f.1, sel := f.2, vals := vs } :: os, s)

/-- The values of a lane's sources, in the order SA, SB, SC. -/
def valsAt (os : List Operand) (l : Nat) : List Word := os.map fun o => (o.at l).v

def poisonAt (os : List Operand) (l : Nat) : Bool := os.any fun o => (o.at l).poison

/-- What a switched-off lane pushes (03 R55); age 1 where the entry reads no source through SA (06 R131). -/
def offEnt (os : List Operand) (l : Nat) : QEnt :=
  match os.find? fun o => o.field % 4 == 0 with
  | some o => ent (o.at l).v (o.at l).poison
  | none => ent 0 false

/-- The lanes that consume a poisoned word, and TDETAIL: the first poisoned selector and its field (17 R434). -/
def poisonUse (os : List Operand) (on : Mask) : Option (Mask × Nat) :=
  (os.find? fun o => (lanesOf on).any fun l => (o.at l).poison).map fun o =>
    (maskOf ((lanesOf on).filter fun l => poisonAt os l), o.sel.sel + 32 * o.field)

/-- The stop of R434 once the instruction has completed. -/
def State.consume (s : State) (cx : Cx) (os : List Operand) : State :=
  match poisonUse os cx.on with
  | some (m, d) => s.raise cx.who cx.k { cx.trap 0x71 m 0 d with prec := true } none
  | none => s

/-- The sources of the lowest switched-on lane, for an instruction that acts once with them. -/
def leadVals (cx : Cx) (os : List Operand) : List Word := (cx.lead.map fun l => valsAt os l).getD []

/-- An entry that pushes `n` results computed lane by lane, at once; poisoned sources poison the results (17 R434). -/
def State.pushEntry (s : State) (cx : Cx) (os : List Operand) (n : Nat) (f : Nat → List Word → List Word) : State :=
  (s.finish cx n fun l =>
    if cx.on.getLsbD l then (f l (valsAt os l)).map fun v => ent v (poisonAt os l)
    else List.replicate n (offEnt os l)).consume cx os

/-- The same for a long-latency entry, whose values arrive later (03 R73). -/
def State.reserveEntry (s : State) (cx : Cx) (os : List Operand) (n : Nat) (f : Nat → List Word → List Word × Flags) : State :=
  let outs := cx.lanes.map fun l => (l, f l (valsAt os l))
  (s.reserve cx n cx.on (offEnt os) (.value (outs.map fun o => (o.1, o.2.1)) (outs.map fun o => (o.1, o.2.2))
    (cx.lanes.filter (poisonAt os)))).consume cx os

/-- The split's requests whose values have not arrived: an acquire among them keeps later accesses back, and a release waits for all of
them (10 R272, 07 R176). -/
def memWait (cx : Cx) (release : Bool) : Bool :=
  (cx.t.pendsOf cx.k).any fun p => match p.kind with
    | .mem r => release || isAcq r.ord
    | _ => false

/-- Whether a reservation is an atomic on some bytes that stands before what a clock covers and has not been performed (10 R272, R277). -/
def Pend.openAtomic (q : Pend) (clk : Clock) (keys : List Nat) : Bool :=
  match q.kind with
  | .mem x => x.op.isAtomic && decide (x.stamp ≤ clkGet clk x.party) && x.acc.any fun a => q.lanes.getLsbD a.lane && a.keys.any keys.contains
  | _ => false

/-! ## The shapes of the compute entries (06) -/

/-- An entry of one or more results computed lane by lane at once, with no flag. -/
def alu (s : State) (h : Hdr) (guide : Bool) (srcs : List (Nat × Src)) (n : Nat) (f : Cx → Nat → List Word → List Word) :
    Host.Outcome State Fault Refusal :=
  run s h { Shape.user srcs true with guide := guide } fun cx s =>
    let (os, s) := s.operands cx srcs true
    s.pushEntry cx os n (f cx)

/-- A long-latency entry. -/
def aluLong (s : State) (h : Hdr) (guide : Bool) (srcs : List (Nat × Src)) (n : Nat) (f : Cx → Nat → List Word → List Word × Flags) :
    Host.Outcome State Fault Refusal :=
  run s h { Shape.user srcs true with guide := guide } fun cx s =>
    let (os, s) := s.operands cx srcs true
    s.reserveEntry cx os n (f cx)

/-- An entry that acts on its thread and pushes nothing. -/
def act (s : State) (h : Hdr) (sh : Shape) (f : Cx → List Operand → State → State) : Host.Outcome State Fault Refusal :=
  run s h sh fun cx s =>
    let (os, s) := s.operands cx sh.srcs sh.pushes
    f cx os s

end Sys2Proof.Machine
end

