-- ==== Sys2Proof/Machine/Flags.lean ====
section
/-!
DEFINITION. The floating-point flags: FPX, the traps they take, and flushing (04 R84 to R87, 16 R396).
-/
namespace Sys2Proof.Machine

/-- FPCTL.FTZ of a thread (04 R84). -/
def Warp.ftz (t : Warp) : Bool := t.fpctl.getLsbD 8

/-- FPCTL.TRAPEN. -/
def Warp.trapen (t : Warp) : Flags := t.fpctl.setWidth 5

/-- Every flag raised in some lane. -/
def allFlags (fl : List (Nat × Flags)) : Flags := fl.foldl (fun f x => f ||| x.2) 0

/-- The lanes that raised an enabled flag. -/
def trapLanes (en : Flags) (fl : List (Nat × Flags)) : Mask := maskOf ((fl.filter fun x => x.2 &&& en != 0).map Prod.fst)

/-- Flags raised by an instruction, ORed into FPX (04 R85). -/
def Warp.addFlags (t : Warp) (f : Flags) : Warp := { t with fpx := t.fpx ||| f.setWidth 32 }

/-- FPX, then the trap of an enabled flag once the instruction has completed (16 R396); `later` instructions of the split have issued. -/
def State.raiseFlags (s : State) (who : Who) (k : Nat) (pc : Pc) (word : Word) (later : Nat) (fl : List (Nat × Flags)) : State :=
  let f := allFlags fl
  let s := s.updThread who fun t => t.addFlags f
  match s.thread? who with
  | none => s
  | some t =>
    if f &&& t.trapen == 0 then s
    else s.raise who k { cause := 0x13, prec := later == 0, tpc := pc, word := word, lanes := trapLanes t.trapen fl, addr := 0,
                         detail := (f &&& t.trapen).toNat, words := [] } none

/-- The flags of an instruction that has just completed. -/
def State.flagsNow (s : State) (cx : Cx) (fl : List (Nat × Flags)) : State := s.raiseFlags cx.who cx.k cx.pc cx.word 0 fl

/-- A short-latency floating-point entry: one result and flags in each switched-on lane. -/
def fpu (s : State) (h : Hdr) (srcs : List (Nat × Src)) (f : Cx → List Word → Word × Flags) : Host.Outcome State Fault Refusal :=
  run s h (Shape.user srcs true) fun cx s =>
    let (os, s) := s.operands cx srcs true
    let outs := (List.range 32).map fun l => f cx (valsAt os l)
    let out (l : Nat) : Word × Flags := outs.getD l (0, 0)
    ((s.finish cx 1 fun l =>
      if cx.on.getLsbD l then [ent (out l).1 (poisonAt os l)] else [offEnt os l]).flagsNow cx
        (cx.lanes.map fun l => (l, (out l).2))).consume cx os

end Sys2Proof.Machine
end

