-- ==== Sys2Proof/Machine/Integer.lean ====
section
/-!
DEFINITION. The integer and bit instructions (06 R139 to R144), as arithmetic of one lane and as instructions.
-/
namespace Sys2Proof.Machine

/-! ## One lane -/

/-- The n-th source value. -/
def arg (v : List Word) (n : Nat) : Word := v.getD n 0

/-- An exact result, clamped where SAT = 1, widened (06 R140). -/
def satRes (t : Ty) (sat : Bool) (i : Int) : Word := widen t (if sat then clampTo t i else i)

/-- A carry-in: bit 0 of the third source. -/
def carryIn (v : List Word) : Nat := (arg v 2).toNat % 2

def addcRes (t : Ty) (v : List Word) : Word × Bool :=
  let x := unsOf t (arg v 0) + unsOf t (arg v 1) + carryIn v
  (widen t (x : Int), decide (x ≥ 2 ^ t.width))

def subbRes (t : Ty) (v : List Word) : Word × Bool :=
  let ua := unsOf t (arg v 0)
  let ub := unsOf t (arg v 1) + carryIn v
  (widen t ((ua : Int) - ub), decide (ua < ub))

/-- The exact product under TY. -/
def product (t : Ty) (v : List Word) : Int := intOf t (arg v 0) * intOf t (arg v 1)

def mulhiRes (t : Ty) (v : List Word) : Word := widen t (product t v / (2 ^ t.width : Nat))

/-- Low half zero-extended, then the high half (06 R140). -/
def mulwRes (t : Ty) (v : List Word) : List Word :=
  let x := product t v
  [BitVec.ofNat 64 (x % (2 ^ t.width : Nat)).toNat, widen t (x / (2 ^ t.width : Nat))]

/-- Quotient and remainder with the borderline results of R141. -/
def divRes (t : Ty) (v : List Word) : Word × Word :=
  let a := intOf t (arg v 0)
  let b := intOf t (arg v 1)
  if b = 0 then (widen t (if t.signed then -1 else ((2 ^ t.width : Nat) : Int) - 1), widen t a)
  else (widen t (a.tdiv b), widen t (a.tmod b))

def adiffRes (t : Ty) (v : List Word) : Word :=
  BitVec.ofNat 64 (intOf t (arg v 0) - intOf t (arg v 1)).natAbs

def clampRes (t : Ty) (v : List Word) : Word := widen t (min (max (intOf t (arg v 0)) (intOf t (arg v 1))) (intOf t (arg v 2)))

/-- A bitwise operation of the low w bits, zero-extended. -/
def bitRes (t : Ty) (f : Nat → Nat → Nat) (v : List Word) : Word := widen t (f (unsOf t (arg v 0)) (unsOf t (arg v 1)) : Nat)

def notNat (w a : Nat) : Nat := 2 ^ w - 1 - a

/-- The shift amount: a constant, or the low 32 bits of the second source (06 R142). -/
def shiftAmount (n : Option (BitVec 6)) (v : List Word) : Nat :=
  match n with
  | some k => k.toNat
  | none => lowBits 32 (arg v 1)

def shlRes (t : Ty) (n : Nat) (v : List Word) : Word :=
  if n ≥ t.width then widen t 0 else widen t ((unsOf t (arg v 0) * 2 ^ n : Nat) : Int)

def shrRes (t : Ty) (n : Nat) (v : List Word) : Word :=
  if n ≥ t.width then widen t 0 else widen t ((unsOf t (arg v 0) / 2 ^ n : Nat) : Int)

def sraRes (t : Ty) (n : Nat) (v : List Word) : Word :=
  let a := signedOf t.width (arg v 0).toNat
  if n ≥ t.width then widen t (if a < 0 then -1 else 0) else widen t (a / (2 ^ n : Nat))

def rotlNat (w n a : Nat) : Nat := (a * 2 ^ (n % w) + a / 2 ^ (w - n % w)) % 2 ^ w

def rotlRes (t : Ty) (n : Nat) (v : List Word) : Word := widen t (rotlNat t.width n (unsOf t (arg v 0)) : Nat)
def rotrRes (t : Ty) (n : Nat) (v : List Word) : Word := widen t (rotlNat t.width (t.width - n % t.width) (unsOf t (arg v 0)) : Nat)

/-- The bits of a number from 0 to n - 1, by a rule for each. -/
def buildBits (n : Nat) (f : Nat → Bool) : Nat := ((List.range n).map fun i => if f i then 2 ^ i else 0).sum

def bitOf (a i : Nat) : Bool := a / 2 ^ i % 2 == 1

/-- `bfx` (06 R143). -/
def bfxRes (t : Ty) (pos len : Nat) (v : List Word) : Word :=
  let w := t.width
  let a := unsOf t (arg v 0)
  let n := min len w
  let r := buildBits n fun i => if pos + i < w then bitOf a (pos + i) else t.signed && bitOf a (w - 1)
  if n = 0 then 0 else if t.signed then wordOfInt (signedOf n r) else BitVec.ofNat 64 r

/-- `bfi` (06 R143). -/
def bfiRes (t : Ty) (pos len : Nat) (v : List Word) : Word :=
  let w := t.width
  let a := unsOf t (arg v 0)
  let b := unsOf t (arg v 1)
  widen t (buildBits w fun i => if pos ≤ i ∧ i < pos + len then bitOf b (i - pos) else bitOf a i : Nat)

def popcNat (w a : Nat) : Nat := ((List.range w).filter fun i => bitOf a i).length
def clzNat (w a : Nat) : Nat := if a = 0 then w else w - 1 - Nat.log2 a
def ctzNat (w a : Nat) : Nat := ((List.range w).find? fun i => bitOf a i).getD w

/-- The funnel shift (06 R144). -/
def extRes (t : Ty) (n : Nat) (v : List Word) : Word :=
  let w := t.width
  widen t ((unsOf t (arg v 1) * 2 ^ w + unsOf t (arg v 0)) / 2 ^ (n % (2 * w)) : Nat)

def leaRes (tys : Ty) (sh : Nat) (v : List Word) : Word := arg v 0 + wordOfInt (intOf tys (arg v 1) * (2 ^ sh : Nat))

/-! ## The instructions -/

def execAdd (h : Hdr) (sat : Bool) (s : State) : Host.Outcome State Fault Refusal :=
  alu s h true (src2 h) 1 fun _ _ v => [satRes h.ty sat (intOf h.ty (arg v 0) + intOf h.ty (arg v 1))]

def execSub (h : Hdr) (sat : Bool) (s : State) : Host.Outcome State Fault Refusal :=
  alu s h true (src2 h) 1 fun _ _ v => [satRes h.ty sat (intOf h.ty (arg v 0) - intOf h.ty (arg v 1))]

/-- A predicate written in the switched-on lanes that a mask names (06 R132). -/
def Warp.writePred (t : Warp) (pd : Option Pred) (on set : Mask) : Warp :=
  match pd with
  | none => t
  | some p => t.setPred p ((t.pred (some p) &&& ~~~on) ||| (set &&& on))

/-- An entry that pushes a result and writes a carry or borrow; a poisoned lane's predicate is false (17 R434). -/
def carryOp (s : State) (h : Hdr) (pd : Option Pred) (f : Ty → List Word → Word × Bool) : Host.Outcome State Fault Refusal :=
  run s h (Shape.both (src3 h) true) fun cx s =>
    let (os, s) := s.operands cx (src3 h) true
    let set := maskOf (cx.lanes.filter fun l => (f h.ty (valsAt os l)).2 && !poisonAt os l)
    (s.finishAt cx (fun t => (t.writePred pd cx.on set).pushEach cx.mask fun l =>
      if cx.on.getLsbD l then [ent (f h.ty (valsAt os l)).1 (poisonAt os l)] else [offEnt os l]) cx.nextPc 1).consume cx os

def execAddc (h : Hdr) (pd : Option Pred) (s : State) : Host.Outcome State Fault Refusal := carryOp s h pd addcRes
def execSubb (h : Hdr) (pd : Option Pred) (s : State) : Host.Outcome State Fault Refusal := carryOp s h pd subbRes

def execMul (h : Hdr) (s : State) : Host.Outcome State Fault Refusal :=
  alu s h true (src2 h) 1 fun _ _ v => [widen h.ty (product h.ty v)]

def execMulhi (h : Hdr) (s : State) : Host.Outcome State Fault Refusal := alu s h true (src2 h) 1 fun _ _ v => [mulhiRes h.ty v]

def execMulw (h : Hdr) (s : State) : Host.Outcome State Fault Refusal := alu s h true (src2 h) 2 fun _ _ v => mulwRes h.ty v

def execMad (h : Hdr) (s : State) : Host.Outcome State Fault Refusal :=
  alu s h true (src3 h) 1 fun _ _ v => [widen h.ty (product h.ty v + intOf h.ty (arg v 2))]

def execDiv (h : Hdr) (s : State) : Host.Outcome State Fault Refusal :=
  aluLong s h true (src2 h) 1 fun _ _ v => ([(divRes h.ty v).1], 0)

def execRem (h : Hdr) (s : State) : Host.Outcome State Fault Refusal :=
  aluLong s h true (src2 h) 1 fun _ _ v => ([(divRes h.ty v).2], 0)

def execDivrem (h : Hdr) (s : State) : Host.Outcome State Fault Refusal :=
  aluLong s h true (src2 h) 2 fun _ _ v => ([(divRes h.ty v).1, (divRes h.ty v).2], 0)

def execNeg (h : Hdr) (sat : Bool) (s : State) : Host.Outcome State Fault Refusal :=
  alu s h true (src1 h) 1 fun _ _ v => [satRes h.ty sat (-intOf h.ty (arg v 0))]

def execAbs (h : Hdr) (sat : Bool) (s : State) : Host.Outcome State Fault Refusal :=
  alu s h true (src1 h) 1 fun _ _ v => [satRes h.ty sat (intOf h.ty (arg v 0)).natAbs]

def execAdiff (h : Hdr) (s : State) : Host.Outcome State Fault Refusal := alu s h true (src2 h) 1 fun _ _ v => [adiffRes h.ty v]

def execMin (h : Hdr) (s : State) : Host.Outcome State Fault Refusal :=
  alu s h true (src2 h) 1 fun _ _ v => [widen h.ty (min (intOf h.ty (arg v 0)) (intOf h.ty (arg v 1)))]

def execMax (h : Hdr) (s : State) : Host.Outcome State Fault Refusal :=
  alu s h true (src2 h) 1 fun _ _ v => [widen h.ty (max (intOf h.ty (arg v 0)) (intOf h.ty (arg v 1)))]

def execClamp (h : Hdr) (s : State) : Host.Outcome State Fault Refusal := alu s h true (src3 h) 1 fun _ _ v => [clampRes h.ty v]

def execAnd (h : Hdr) (s : State) : Host.Outcome State Fault Refusal :=
  alu s h true (src2 h) 1 fun _ _ v => [bitRes h.ty (· &&& ·) v]

def execOr (h : Hdr) (s : State) : Host.Outcome State Fault Refusal :=
  alu s h true (src2 h) 1 fun _ _ v => [bitRes h.ty (· ||| ·) v]

def execXor (h : Hdr) (s : State) : Host.Outcome State Fault Refusal :=
  alu s h true (src2 h) 1 fun _ _ v => [bitRes h.ty (· ^^^ ·) v]

def execNot (h : Hdr) (s : State) : Host.Outcome State Fault Refusal :=
  alu s h true (src1 h) 1 fun _ _ v => [bitRes h.ty (fun a _ => notNat h.ty.width a) v]

def execAndn (h : Hdr) (s : State) : Host.Outcome State Fault Refusal :=
  alu s h true (src2 h) 1 fun _ _ v => [bitRes h.ty (fun a b => a &&& notNat h.ty.width b) v]

/-- The sources of an entry whose second operand may be a constant. -/
def srcN (h : Hdr) (const : Bool) : List (Nat × Src) := if const then src1 h else src2 h

def execShl (h : Hdr) (n : Option (BitVec 6)) (s : State) : Host.Outcome State Fault Refusal :=
  alu s h true (srcN h n.isSome) 1 fun _ _ v => [shlRes h.ty (shiftAmount n v) v]

def execShr (h : Hdr) (n : Option (BitVec 6)) (s : State) : Host.Outcome State Fault Refusal :=
  alu s h true (srcN h n.isSome) 1 fun _ _ v => [shrRes h.ty (shiftAmount n v) v]

def execSra (h : Hdr) (n : Option (BitVec 6)) (s : State) : Host.Outcome State Fault Refusal :=
  alu s h true (srcN h n.isSome) 1 fun _ _ v => [sraRes h.ty (shiftAmount n v) v]

def execRotl (h : Hdr) (n : Option (BitVec 6)) (s : State) : Host.Outcome State Fault Refusal :=
  alu s h true (srcN h n.isSome) 1 fun _ _ v => [rotlRes h.ty (shiftAmount n v) v]

def execRotr (h : Hdr) (n : Option (BitVec 6)) (s : State) : Host.Outcome State Fault Refusal :=
  alu s h true (srcN h n.isSome) 1 fun _ _ v => [rotrRes h.ty (shiftAmount n v) v]

def execBfx (h : Hdr) (pl : Option (BitVec 6 × BitVec 7)) (s : State) : Host.Outcome State Fault Refusal :=
  alu s h true (if pl.isSome then src1 h else src3 h) 1 fun _ _ v =>
    match pl with
    | some (p, n) => [bfxRes h.ty p.toNat n.toNat v]
    | none => [bfxRes h.ty (lowBits 8 (arg v 1)) (lowBits 8 (arg v 2)) v]

def execBfi (h : Hdr) (pl : Option (BitVec 6 × BitVec 7)) (s : State) : Host.Outcome State Fault Refusal :=
  alu s h true (if pl.isSome then src2 h else src3 h) 1 fun _ _ v =>
    match pl with
    | some (p, n) => [bfiRes h.ty p.toNat n.toNat v]
    | none => [bfiRes h.ty (lowBits 8 (arg v 2)) (fieldOf (arg v 2).toNat 8 8) v]

def execPopc (h : Hdr) (s : State) : Host.Outcome State Fault Refusal :=
  alu s h true (src1 h) 1 fun _ _ v => [wordOf (popcNat h.ty.width (unsOf h.ty (arg v 0)))]

def execClz (h : Hdr) (s : State) : Host.Outcome State Fault Refusal :=
  alu s h true (src1 h) 1 fun _ _ v => [wordOf (clzNat h.ty.width (unsOf h.ty (arg v 0)))]

def execCtz (h : Hdr) (s : State) : Host.Outcome State Fault Refusal :=
  alu s h true (src1 h) 1 fun _ _ v => [wordOf (ctzNat h.ty.width (unsOf h.ty (arg v 0)))]

def execBrev (h : Hdr) (s : State) : Host.Outcome State Fault Refusal :=
  alu s h true (src1 h) 1 fun _ _ v => [wordOf (buildBits h.ty.width fun i => bitOf (unsOf h.ty (arg v 0)) (h.ty.width - 1 - i))]

def execSel (h : Hdr) (ps : Option Pred) (s : State) : Host.Outcome State Fault Refusal :=
  alu s h true (src2 h) 1 fun cx l v => [widen h.ty (unsOf h.ty (if (cx.t.pred ps).getLsbD l then arg v 0 else arg v 1) : Nat)]

def execLea (h : Hdr) (tys : Ty) (sh : BitVec 3) (s : State) : Host.Outcome State Fault Refusal :=
  alu s h true (src2 h) 1 fun _ _ v => [leaRes tys sh.toNat v]

def execExt (h : Hdr) (n : Option (BitVec 7)) (s : State) : Host.Outcome State Fault Refusal :=
  alu s h true (if n.isSome then src2 h else src3 h) 1 fun _ _ v =>
    [extRes h.ty (match n with
      | some k => k.toNat
      | none => lowBits 32 (arg v 2)) v]

end Sys2Proof.Machine
end

