-- ==== Sys2Proof/Machine/Queue.lean ====
section
/-!
DEFINITION. The queue, frame and special instructions (06 R134 to R138, 03 R56 to R60).
-/
namespace Sys2Proof.Machine

/-- `nop` (06 R135). -/
def execNop (h : Hdr) (s : State) : Host.Outcome State Fault Refusal :=
  act s h (Shape.user [] false) fun cx _ s => s.done cx

/-- `dup`: the source copied with its mark (06 R135, 17 R433). -/
def execDup (h : Hdr) (s : State) : Host.Outcome State Fault Refusal :=
  run s h (Shape.user (src1 h) true) fun cx s =>
    let (os, s) := s.operands cx (src1 h) true
    s.finish cx 1 fun l =>
      if cx.on.getLsbD l then os.map fun o => ent (if h.ty == .b32 then wordOf (lowBits 32 (o.at l).v) else (o.at l).v) (o.at l).poison
      else [offEnt os l]

-- DESIGN CHOICE (log 68, unsafe): An entry that the 14-bit field cannot hold is named modulo 2^14.
/-- TDETAIL of cause 0x19: the reason, and the frame slot or stack entry concerned in 14 bits (16 R397). -/
def limitDetail (reason entry : Nat) : Nat := reason + 16 * (entry % 2 ^ 14)

/-- A frame slot named by an instruction, checked at stage 4 (16 R397). -/
def State.withSlot (s : State) (cx : Cx) (slot : Nat) (body : State → State) : State :=
  match slotFail cx.who cx.sp slot with
  | some (r, n) => s.fail cx 0x19 cx.mask 0 (r + 16 * n)
  | none => s.slotReads cx [cx.sp.fb + slot] body

/-- A write of a stack entry below the window is decoded and encoded again in its private place (03 R59); its write rights are checked
first. -/
def State.slotWrite (s : State) (cx : Cx) (i : Nat) (f : State → State) : State :=
  if !cx.who.isUser || decide (cx.t.win ≤ i) then f s
  else
    let clk := s.clkOf cx.sp.party
    let va := privVa cx.tm cx.who (i * 256)
    let fva := privVa cx.tm cx.who (0x400000 + i)
    match s.transBytes cx.sp.party clk cx.tm.asid (frameRights true) va 0 256 with
    | (.error e, s) => s.frameFault cx.who cx.k cx.pc cx.word cx.mask cx.tm e va .slot
    | (.ok _, s) =>
      match s.transBytes cx.sp.party clk cx.tm.asid (frameRights true) fva 0 1 with
      | (.error e, s) => s.frameFault cx.who cx.k cx.pc cx.word cx.mask cx.tm e fva .slot
      | (.ok _, s) => ((f s).spillEntry cx.tm cx.who cx.sp.party i).2

/-- The contents of a physical tile slot: its reset contents where nothing differs (08 R499). -/
def TileSlot.zero (core slot : Nat) : TileSlot :=
  { core := core, slot := slot, elems := List.replicate 1024 0, m := List.replicate 32 0xFF800000, l := List.replicate 32 0, poison := [] }

def State.tile (s : State) (core slot : Nat) : TileSlot :=
  (s.tiles.find? fun t => t.core == core && t.slot == slot).getD (.zero core slot)

def State.putTile (s : State) (t : TileSlot) : State :=
  { s with tiles := t :: s.tiles.filter fun x => !(x.core == t.core && x.slot == t.slot) }

/-- Every element of a tile an undefined value (16 R409). -/
def State.undefTile (s : State) (core slot : Nat) : State :=
  let t := s.tile core slot
  { s with freeCtr := s.freeCtr + 1024 }.putTile
    { t with elems := (List.range 1024).map fun i => (Config.freeWord (s.freeCtr + i)).setWidth 32 }

/-- Every element of a tile, and its side registers, undefined values (16 R409). -/
def State.undefSide (s : State) (core slot : Nat) : State :=
  let s := s.undefTile core slot
  let t := s.tile core slot
  let free (i : Nat) : BitVec 32 := (Config.freeWord (s.freeCtr + i)).setWidth 32
  { s with freeCtr := s.freeCtr + 64 }.putTile { t with m := (List.range 32).map free, l := (List.range 32).map fun i => free (32 + i) }

/-- Stack entries written or made dead by a member of a quartet: an operation of it that no `mmwait` has shown complete and that reads B
there has an undefined result (16 R409). -/
def State.touchEntries (s : State) (cx : Cx) (lo n : Nat) : State :=
  match s.thread? cx.who with
  | none => s
  | some t =>
    let hit (u : Unseen) : Bool := u.quartet && decide (u.base < lo + n ∧ lo < u.base + u.span)
    let s := (t.unseen.filter fun u => hit u && u.done).foldl (fun s u => s.undefTile (coreId cx.tm.die cx.tm.core) (cx.tm.slot u.tile)) s
    if t.unseen.any hit then
      s.updThread cx.who fun t => { t with unseen := t.unseen.map fun u => if hit u then { u with spoiled := true } else u }
    else s

/-- `save` (06 R135): the 64-bit source of each switched-on lane, with its mark, into a frame slot. -/
def execSave (h : Hdr) (slot : BitVec 6) (s : State) : Host.Outcome State Fault Refusal :=
  run s h { Shape.both (src1 h) false with waits := true } fun cx s =>
    s.withSlot cx slot.toNat fun s =>
      let (os, s) := s.operands cx (src1 h) false
      let i := cx.sp.fb + slot.toNat
      s.slotWrite cx i fun s =>
        let s := s.doneWith cx fun t => cx.lanes.foldl (fun t l => os.foldl (fun t o => t.fwrite i l (o.at l).v (o.at l).poison) t) t
        if cx.on == 0 then s else s.touchEntries cx i 1

/-- The word an `fget` reads in a lane. -/
def State.slotLane (s : State) (cx : Cx) (i l : Nat) : SVal × State :=
  match cx.t.fword i l with
  | some v => ({ v := v, poison := cx.t.fpoison i l }, s)
  | none => let (v, s) := takeFree s; ({ v := v, poison := false }, s)

def slotLanes (cx : Cx) (i : Nat) : State → List Nat → List SVal × State
  | s, [] => ([], s)
  | s, l :: ls =>
    let (v, s) := s.slotLane cx i l
    let (vs, s) := slotLanes cx i s ls
    (v :: vs, s)

/-- `fget` (06 R135, R131). -/
def execFget (h : Hdr) (slot : BitVec 6) (s : State) : Host.Outcome State Fault Refusal :=
  run s h (Shape.both (srcOff h) true) fun cx s =>
    s.withSlot cx slot.toNat fun s =>
      let cx := { cx with t := (s.thread? cx.who).getD cx.t }
      let (os, s) := s.operands cx (srcOff h) true
      let (vs, s) := slotLanes cx (cx.sp.fb + slot.toNat) s cx.lanes
      let tab := cx.lanes.zip vs
      s.finish cx 1 fun l => match assoc? tab l with
        | some v => [ent v.v v.poison]
        | none => [offEnt os l]

/-- FS changed for the issuing split, then the window moved (03 R56, R58). Slots above become dead; a B operand among them is undefined. -/
def State.setFs (s : State) (cx : Cx) (n : Nat) : State :=
  let s := s.doneWith cx fun t => t.updSplit cx.k fun sp => { sp with fs := n }
  let s := if n < cx.sp.fs then s.touchEntries cx (cx.sp.fb + n) (cx.sp.fs - n) else s
  s.moveWindow cx.tm cx.who cx.k cx.pc cx.word cx.mask

/-- `fenter` (06 R135, 16 R397). -/
def execFenter (h : Hdr) (n : BitVec 7) (s : State) : Host.Outcome State Fault Refusal :=
  act s h (Shape.both [] false) fun cx _ s =>
    let top := cx.sp.fb + n.toNat
    if top > 16384 then s.fail cx 0x19 cx.mask 0 (limitDetail 2 (top - 1))
    else if !cx.who.isUser && decide (top > 16) then s.fail cx 0x19 cx.mask 0 (6 + 16 * (top - 1))
    else s.setFs cx n.toNat

/-- `fleave` (06 R135). -/
def execFleave (h : Hdr) (s : State) : Host.Outcome State Fault Refusal :=
  act s h (Shape.both [] false) fun cx _ s => s.setFs cx 0

/-- Stack entries from `lo` written out and marked clean; the first write that fails and those after it are held (06 R136, 17 R417). -/
def State.spillRange (s : State) (tm : Team) (who : Who) (spl party : Nat) (pc : Pc) (word : Word) (mask : Mask) (lo n : Nat) : State :=
  let one (s : State) (i : Nat) : Except (TransFail × Nat) Unit × State :=
    match s.spillEntry tm who party i with
    | (.ok (), s) => (.ok (), s.updThread who fun t => { t with clean := (i :: t.clean).eraseDups })
    | r => r
  match State.eachEntry one s ((List.range n).map fun i => lo + i) with
  | (.error (e, va, i), s) => s.frameFault who spl pc word mask tm e va (.spill i (lo + n - i))
  | (.ok (), s) => s

/-- `spill` (06 R136): the lowest entries of the window. -/
def execSpill (h : Hdr) (n : BitVec 7) (s : State) : Host.Outcome State Fault Refusal :=
  act s h (Shape.user [] false) fun cx _ s =>
    let s := s.done cx
    if !cx.who.isUser then s
    else
      let hi := min (cx.t.win + n.toNat) cx.t.top
      s.spillRange cx.tm cx.who cx.k cx.sp.party cx.pc cx.word cx.mask cx.t.win (hi - cx.t.win)

/-- Bytes of a thread's private space brought into its core's L1; an address without a valid translation or permission is dropped (06 R136). -/
def State.fillPriv (s : State) (cx : Cx) (off n : Nat) : State :=
  match s.transBytes cx.sp.party (s.clkOf cx.sp.party) cx.tm.asid (frameRights false) (privVa cx.tm cx.who off) 0 n with
  | (.ok ks, s) => (s.cross cx.tm.die false (s.missed cx.tm.die cx.tm.core ks)).fillLines cx.tm.die cx.tm.core ks true
  | (.error .lost, s) => s.loseContext cx.tm.asid 0x74 cx.tm.ctxh 0
  | (.error _, s) => s

/-- `fill` (06 R136): reads of the private places and format bytes of the entries below the window into the L1; no value changes. -/
def execFill (h : Hdr) (n : BitVec 7) (s : State) : Host.Outcome State Fault Refusal :=
  act s h (Shape.user [] false) fun cx _ s =>
    let s := s.done cx
    if !cx.who.isUser then s
    else
      let lo := cx.t.win - n.toNat
      ((List.range (cx.t.win - lo)).map (lo + ·)).foldl (fun s i => (s.fillPriv cx (i * 256) 256).fillPriv cx (0x400000 + i) 1) s

/-! ## `sget` -/

/-- The capability entries of the XN-960 in their order: ID, length in 8-byte units (01 R25). -/
def capEntries : List (Nat × Nat) :=
  [(0, 2), (1, 1), (2, 1), (3, 1), (4, 1), (5, 1), (0x40, 1), (0x41, 1), (0x42, 1), (0x43, 1)]

/-- The capability list as 8-byte words (01 R20, R25, R26). -/
def capWords : List Nat → Nat → List (Nat × Nat) → List Nat
  | acc, _, [] => acc
  | acc, off, (id, len) :: l =>
    let next := if l.isEmpty then 0 else off + 8 * len
    let head := next * 2 ^ 32 + len * 2 ^ 24 + 1 * 2 ^ 16 + id
    let arch := Config.stepping % 256 * 2 ^ 48 + 32 * 2 ^ 40 + 16 * 2 ^ 32 + 8 * 2 ^ 24 + 4 * 2 ^ 16 + 4 * 2 ^ 8
    capWords (acc ++ (if len = 2 then [head, arch] else [head])) (off + 8 * len) l

/-- The 8 bytes of the list at an offset, zero beyond it (01 R24). -/
def capAt (off : Nat) : Nat := if off / 2 ^ 16 ≠ 0 then 0 else (capWords [] 0 capEntries).getD (off / 8) 0

/-- The selected coordinate bits v of an affinity function, in ascending order (11 R302). -/
def affinityBits (afn cx cy cz : Nat) : List Bool :=
  let x := cx + 2 ^ 20 * cy + 2 ^ 40 * cz
  ((List.range 60).filter fun i => fieldOf afn i 1 == 1).map fun i => fieldOf x i 1 == 1

/-- XOR of the n-bit groups of v. -/
def xorGroups (n : Nat) (v : Nat) : Nat := (List.range (12 / n)).foldl (fun r i => r ^^^ fieldOf v (i * n) n) 0

/-- The preferred memory die of a cluster, if its launch has one, and its home slice (11 R302). -/
def affinity (afn cx cy cz : Nat) : Option Nat × Nat :=
  let v := bitSum (affinityBits afn cx cy cz)
  if afn = 0 then (none, 0) else (some (xorGroups 3 v), xorGroups 4 v)

/-- Ring distance of a compute die from the preferred die's neighbour (02 R47). -/
def diePos (die : Nat) (pref : Option Nat) : Nat :=
  match pref with
  | none => 0
  | some m => match (die + 4 - m / 2) % 4 with
    | 0 => 0
    | 2 => 2
    | _ => 1

/-- A system value that is fixed at issue; none where the spec gives the handler warp no value (06 R137). LANE and CAPS are read lane by
lane. -/
def State.sysVal (s : State) (cx : Cx) (v : SysVal) : Option Nat :=
  let g := cx.who.isGuide
  let hd := cx.who.isHandler
  let tm := cx.tm
  let cl := s.cluster? tm.cluster
  let gr := s.grid? tm.grid
  let (_, core) := s.placeOfWho cx.who
  let part := match cx.who with
    | .handler _ p => p
    | _ => cx.t.part
  let team (n : Nat) : Option Nat := if hd then none else some n
  match v with
  | .lane | .caps => some 0
  | .warp => if g then some 0xFFFF else team cx.who.warpNo
  | .team => team tm.rank
  | .role => if g then some 0xFF else team cx.t.role
  | .cx => team ((cl.map Cluster.cx).getD 0)
  | .cy => team ((cl.map Cluster.cy).getD 0)
  | .cz => team ((cl.map Cluster.cz).getD 0)
  | .gx => team ((gr.map fun x => x.launch.gx).getD 0)
  | .gy => team ((gr.map fun x => x.launch.gy).getD 0)
  | .gz => team ((gr.map fun x => x.launch.gz).getD 0)
  | .depth => team ((gr.map Grid.depth).getD 0)
  | .nwarp => team tm.nwarp
  | .nteam => team (s.nteam tm)
  | .prio => team tm.prio
  | .core => some core
  | .part => if g then some 0xFF else some part
  | .quad => if g then some 0xFF else some (part / 8)
  | .diepos => team (match cl, gr with
      | some c, some x => diePos tm.die (affinity x.launch.afn.toNat c.cx c.cy c.cz).1
      | _, _ => 0)
  | .param => team tm.param.toNat
  | .data => team tm.data.toNat
  | .code => team tm.code.toNat
  | .fpctl => if g then some 0 else some cx.t.fpctl.toNat
  | .fpx | .fpxc => if g then some 0 else some cx.t.fpx.toNat
  | .clk | .clks | .ref => some 0

/-- A counter as a thread reads it (06 R137, 12 R336, R338). -/
def State.counterNow (s : State) (who : Who) (v : SysVal) : Nat :=
  match s.die? (s.dieOf who) with
  | none => 0
  | some d => match v with
    | .clk => d.clk
    | .clks => d.clks / 2 ^ 16
    | _ => d.ref

/-- `sget` (06 R137, R138, 04 R87). A counter is sampled at the arrival of its value. -/
def execSget (h : Hdr) (v : SysVal) (s : State) : Host.Outcome State Fault Refusal :=
  let srcs := if v == .caps then src1 h else srcOff h
  run s h { Shape.both srcs true with waits := v == .fpx || v == .fpxc } fun cx s =>
    let (os, s) := s.operands cx srcs true
    if v.counter then s.reserve cx 1 cx.on (offEnt os) (.counter v (s.counterNow cx.who v) none)
    else
      let (w, s) := match s.sysVal cx v with
        | some n => (wordOf n, s)
        | none => takeFree s
      let s := (s.finish cx 1 fun l =>
        if cx.on.getLsbD l then
          match v with
          | .lane => [ent (wordOf (if cx.who.isGuide then 0 else l)) false]
          | .caps => [ent (wordOf (capAt ((valsAt os l).getD 0 0).toNat)) (poisonAt os l)]
          | _ => [ent w false]
        else [offEnt os l])
      let s := if v == .fpxc && cx.on != 0 then s.updThread cx.who fun t => { t with fpx := t.fpx &&& ~~~(w.setWidth 32) } else s
      if v == .caps then s.consume cx os else s

end Sys2Proof.Machine
end

