-- ==== Sys2Proof/Machine/Fetch.lean ====
section
/-!
DEFINITION. Instruction fetches: of a split's next instruction, and of the permutation tables and shape records that the part reads as
fetches of the issuing warp (05 R106, R127, 10 R285, 17 R416).
-/
namespace Sys2Proof.Machine

/-- The writes of a byte that the earlier fetches of its word no longer let a fetch return: the excluded writes, and those that come after one of
them in happens-before. -/
def fetchOld (f : Fetched) (p : Pick) : Bool :=
  match p.w with
  | none => f.gone.contains 0
  | some w => f.gone.contains w.id || f.by_.any fun r => decide (r.2 ≤ clkGet w.clk r.1)

-- DEDUCED (log 17, safe): Where no candidate is left that R285 allows, every candidate of R278 is one.
/-- The candidates of one byte of a fetch, whose clock holds its own stamp. Where no candidate is left, every candidate of R278 is one (log 17). -/
def State.fetchCands (s : State) (t : Warp) (party : Nat) (clk : Clock) (k : Nat) : List Pick :=
  let cs := s.candsOf party clk (clkGet clk party) none k
  let ok := cs.filter fun p => !t.fetched.any fun f => f.word == k / 8 && fetchOld f p
  if ok.isEmpty then cs else ok

/-- A word's fetch recorded, with what the word's later ones may no longer return. -/
def State.noteFetch (s : State) (who : Who) (party : Nat) (clk : Clock) (word : Nat) : State :=
  let gone : List Nat := (keysFrom (8 * word) 8).flatMap fun k =>
    let cs := s.candsOf party clk (clkGet clk party) none k
    match s.histOf k with
    | none => []
    | some h =>
      (if cs.any fun p => p.w.isNone then [] else [0]) ++ (h.ws.filter fun w => !cs.any fun p => p.w == some w).map ByteW.id
  s.updThread who fun t =>
    let f := (t.fetched.find? fun f => f.word == word).getD { word := word, by_ := [], gone := [] }
    { t with fetched := { f with by_ := (party, clkGet clk party) :: f.by_, gone := (f.gone ++ gone).eraseDups } ::
        t.fetched.filter fun x => x.word != word }

/-- The bytes of one single-copy-atomic fetch at keys: a read of its party like any other (10 R278, R285). -/
def State.fetchKeys (s : State) (who : Who) (t : Warp) (party : Nat) (keys : List Nat) : List Byte × State :=
  let die := s.dieOf who
  let s := s.cross die false (keys.filter fun k => (s.line? .l2 die (lineOf k)).isNone)
  let (n, s) := s.tick party
  let clk := s.clkOf party
  let cs := keys.map (s.fetchCands t party clk)
  let (ps, s') := pickEach s cs
  let (ps, s) := if untorn s ps then (ps, s') else (cs.filterMap List.getLast?, s')
  let (bs, s) := fillBytes s ps
  let s := ((keys.map (· / 8)).eraseDups).foldl (fun s w => s.noteFetch who party clk w) s
  (bs, s.noteRead party n ps)

/-- The keys of `n` bytes of code in the thread's address space: the handler has supervisor rights (15 R383). -/
def State.codeKeys (s : State) (who : Who) (tm : Team) (party va n : Nat) : Except (TransFail × Nat) (List Nat) × State :=
  if va + n > globalTop then (.error (.fault (.window 7), va), s)
  else
    match s.transBytes party (s.clkOf party) tm.asid { write := false, fetch := true, super := who.isHandler } va 0 n with
    | (.ok ks, s) => (.ok ks, s)
    | (.error (.fault f), s) => (.error (.fault f, va), s)
    | (.error .lost, s) => (.error (.lost, va), s)

/-- `n` bytes read as one instruction fetch. -/
def State.codeRead (s : State) (who : Who) (tm : Team) (party va n : Nat) : Except (TransFail × Nat) (List Byte) × State :=
  match s.codeKeys who tm party va n with
  | (.error e, s) => (.error e, s)
  | (.ok ks, s) =>
    match s.thread? who with
    | none => (.ok [], s)
    | some t => let (bs, s) := s.fetchKeys who t party ks; (.ok bs, s)

/-- The words of the instruction at an address (05 R106): a 16-byte fetch at a multiple of 16 reads both as one (10 R285). -/
def State.fetchWords (s : State) (who : Who) (tm : Team) (party va : Nat) : Except (TransFail × Nat) (Word × Word) × State :=
  match s.codeRead who tm party va 8 with
  | (.error e, s) => (.error e, s)
  | (.ok bs, s1) =>
    let w := wordOf (leNum bs)
    if !xBit w then (.ok (w, 0), s1)
    else if va % 16 = 0 then
      match s.codeRead who tm party va 16 with
      | (.error e, s) => (.error e, s)
      | (.ok bs, s) => (.ok (wordOf (leNum (bs.take 8)), wordOf (leNum (bs.drop 8))), s)
    else
      match s1.codeRead who tm party (va + 8) 8 with
      | (.error e, s) => (.error e, s)
      | (.ok bs, s) => (.ok (w, wordOf (leNum bs)), s)

/-- A fetch that failed: precise, TADDR the failed byte; a translation failure holds the fetch for replay (17 R416). -/
def State.fetchFault (s : State) (who : Who) (spl : Nat) (pc : Pc) (word : Word) (mask : Mask) (tm : Team) (e : TransFail × Nat) : State :=
  match e.1 with
  | .lost => s.loseContext tm.asid 0x74 tm.ctxh 0
  | .fault f =>
    let a := e.2 + f.off
    let s := if f.cause == 0x22 || who.isHandler then s
      else s.holdReq { who := who, spl := spl, pc := pc, word := word, lanes := mask, req := .fetch }
    s.raise who spl { cause := f.cause, prec := true, tpc := pc, word := word, lanes := mask, addr := a, detail := memDetail f 5 0 0,
                      words := [laneWord f.cause a] } none

/-! ## Lists of the code object (05 R127) -/

/-- The entry of a list of the object: `hdr` is the header's offset of the list's offset and count. None where the index is at or above the
count, which an OBJ of zero makes zero. -/
def State.objEntry (s : State) (who : Who) (tm : Team) (party hdr i : Nat) : Except (TransFail × Nat) (Option Nat) × State :=
  if tm.obj = 0 then (.ok none, s)
  else
    match s.codeRead who tm party (tm.obj + hdr) 8 with
    | (.error e, s) => (.error e, s)
    | (.ok bs, s) =>
      let off := leNum (bs.take 4)
      if i ≥ leNum (bs.drop 4) then (.ok none, s)
      else
        match s.codeRead who tm party (tm.obj + off + 4 * i) 4 with
        | (.error e, s) => (.error e, s)
        | (.ok bs, s) => (.ok (some (tm.obj + leNum bs)), s)

/-- Eight-byte words of an object's record, each a fetch of its own. -/
def State.objWords (s : State) (who : Who) (tm : Team) (party va : Nat) : Nat → Except (TransFail × Nat) (List Word) × State
  | 0 => (.ok [], s)
  | n + 1 =>
    match s.codeRead who tm party va 8 with
    | (.error e, s) => (.error e, s)
    | (.ok bs, s) =>
      match s.objWords who tm party (va + 8) n with
      | (.error e, s) => (.error e, s)
      | (.ok ws, s) => (.ok (wordOf (leNum bs) :: ws), s)

end Sys2Proof.Machine
end

