-- ==== Sys2Proof/Machine/Walk.lean ====
section
/-!
DEFINITION. Waiter edges: their registration, the table's overflow, the cycle walk and the deadlock trap (07 R201, R202, 18 R439 to R451,
R500).
-/
namespace Sys2Proof.Machine

/-! ## The walk -/

-- DEDUCED (log 35, unsafe): see notes/assumptions/35.md.
/-- The edge of a node: a warp with exactly one valid split, which holds an edge (18 R439). -/
def State.nodeEdge (s : State) (h w : Nat) : Option Edge :=
  match (s.thread? (.warp h w)).map Warp.live with
  | some [(k, _)] => s.edges.find? fun e => e.ctxh == h && e.warp == w && e.spl == k
  | _ => none

/-- What a visit has found: the path that closes the cycle, the holders visited so far, and the edges whose holders it has asked for. -/
structure Visit where
  path : Option (List Edge)
  count : Nat
  asked : List Edge
  deriving DecidableEq, Repr

/-- The visit of R441 over some holders. -/
def State.visit (s : State) (h0 w0 : Nat) : Nat → List Edge → Nat → List Edge → List (Nat × Nat) → Visit
  | 0, _, v, as, _ => { path := none, count := v, asked := as }
  | _, _, v, as, [] => { path := none, count := v, asked := as }
  | fuel + 1, path, v, as, (h, w) :: rest =>
    if v + 1 > 256 then { path := none, count := v + 1, asked := as }
    else if h == h0 && w == w0 then { path := some path, count := v + 1, asked := as }
    else
      match s.nodeEdge h w with
      | some e =>
        if path.any (fun x => x.ctxh == h && x.warp == w) || decide (path.length ≥ 16) then s.visit h0 w0 fuel path (v + 1) as rest
        else
          let r := s.visit h0 w0 fuel (path ++ [e]) (v + 1) (e :: as) (s.holders e)
          if r.path.isSome || decide (r.count > 256) then r else s.visit h0 w0 fuel path r.count r.asked rest
      | none => s.visit h0 w0 fuel path (v + 1) as rest

-- DEDUCED (log 35, unsafe): The waiting warp itself is not counted among the holders that the first hop follows, so that only a cycle through others is a deadlock.
/-- A walk from an edge (18 R440, R441). A cycle of one edge cannot arise (R443): the waiter's own warp, whose arrival a meet has not recorded yet,
is no holder of its own edge's object. -/
def State.walkOf (s : State) (e : Edge) : Visit :=
  let others := (s.holders e).filter fun x => x != (e.ctxh, e.warp)
  if s.nodeEdge e.ctxh e.warp == some e then s.visit e.ctxh e.warp 600 [e] 0 [e] others else { path := none, count := 0, asked := [] }

/-- The cycle that a walk from an edge finds. -/
def State.walkFromEdge (s : State) (e : Edge) : Option (List Edge) := (s.walkOf e).path

/-- A compute die asks another over the narrow plane; where that die is not reached, or takes no messages, the query waits (12 R334, R337, log 23). -/
def State.askDie (s : State) (die other : Nat) : State :=
  if other == die || (s.dieReaches die other 1 && !s.stalled other) then s else { s with closed := true }

/-- The wait-for queries of a walk, which runs on a compute die: to the homes of locks, software and monitored objects for holder entries, and to
the dies of the holders for edges (18 R441, 12 R334). -/
def State.askWalk (s : State) (die : Nat) (asked : List Edge) : State :=
  asked.foldl (fun s e =>
    let s := if e.kind = 0 ∨ e.kind = 1 ∨ e.kind = 4 then s.cross die true [e.key] else s
    (s.holders e).foldl (fun s x => s.askDie die (((s.team? x.1).map Team.die).getD die)) s) s

/-- The first word at a split's PC, as a record names it. -/
def State.wordAt (s : State) (who : Who) (tm : Team) (party : Nat) (pc : Pc) : Word :=
  match (s.codeRead who tm party pc.toNat 8).1 with
  | .ok bs => wordOf (leNum bs)
  | .error _ => 0

/-- The words of a cycle's edge in the record (18 R444). -/
def State.edgeWords (s : State) (e : Edge) : List Word :=
  [wordOf (2 ^ 63 + e.kind * 2 ^ 60 + e.obj % 2 ^ 48),
   wordOf (s.effPrio e.ctxh e.warp * 2 ^ 41 + e.spl * 2 ^ 39 + e.warp * 2 ^ 32 + e.ctxh)]

/-- The key under which a thread arrives at its team's barriers. -/
def barKey (who : Who) : Nat :=
  match who with
  | .warp _ w => w
  | _ => 255

/-- The wait of an edge undone as if it had never begun (18 R443). A software edge stays. -/
def State.undoWait (s : State) (who : Who) (spl : Nat) (e : Edge) : State :=
  if e.kind == 1 then s
  else
    let sp := (s.thread? who).bind fun t => t.split? spl
    let mask := (sp.map Split.mask).getD 0
    let tm := s.team? (s.ctxhOf who)
    let s := match sp.bind Split.wait, tm with
      | some (.bar b true), some tm =>
        let s := s.updTeam tm.ctxh fun t => { t with bars := setAt t.bars b ((t.bars.getD b Bar.zero).unarrive (barKey who) mask) }
        s.updThread who fun t => { t with barArr := t.barArr.filter fun a => !(mask.getLsbD a.1 && a.2.1 == b) }
      | some (.cbar true), some tm =>
        let s := s.updCluster tm.cluster fun c => { c with bar := c.bar.unarrive (tm.rank * 128 + barKey who) mask }
        s.updThread who fun t => { t with cbarArr := t.cbarArr.filter fun a => !mask.getLsbD a.1 }
      | _, _ => s
    { s with
      edges := s.edges.filter fun x => x != e
      lockQ := s.lockQ.filter fun w => !(w.who == who && w.spl == spl)
      monitors := s.monitors.filter fun m => !(m.who == who && m.spl == spl) }.updSplit who spl fun x => { x with wait := none, waited := 0 }

/-- The deadlock trap of a confirmed cycle; `trig` that the warp's split count fell to one (18 R443, R444, R500). -/
def State.deadlock (s : State) (who : Who) (spl : Nat) (pc : Pc) (word : Word) (trig : Nat) (path : List Edge) : State :=
  match path with
  | [] => s
  | e0 :: _ =>
    let mask := (((s.thread? who).bind fun t => t.split? spl).map Split.mask).getD 0
    let tr : Trap := { cause := 0x30, prec := true, tpc := pc, word := word, lanes := mask, addr := e0.obj,
                       detail := path.length + 32 * trig, words := path.flatMap s.edgeWords }
    (s.undoWait who spl e0).raise who spl tr none

/-- The walk of a warp whose count of valid splits has fallen to one (18 R440). -/
def State.walkLast (s : State) (who : Who) : State :=
  match who with
  | .warp h w =>
    match s.nodeEdge h w, s.team? h, (s.thread? who).map Warp.live with
    | some e, some tm, some [(k, sp)] =>
      let r := s.walkOf e
      let s := s.askWalk tm.die r.asked
      match r.path with
      | some path => s.deadlock who k sp.pc (s.wordAt who tm sp.party sp.pc) 1 path
      | none => s
    | _, _, _ => s
  | _ => s

/-! ## Beginning a wait -/

/-- The lowest free waiter-edge index of a die, among its 8,192 (18 R448). -/
def State.freeEdge (s : State) (die : Nat) : Option Nat :=
  let used := (s.edges.filter fun e => e.die == die).map Edge.idx
  (List.range (min 8192 (used.length + 1))).find? fun i => !used.contains i

def State.strict (s : State) (die : Nat) : Bool := ((s.die? die).map Die.strict).getD false

/-- WFTOVF counts one wait or holding without an entry (08 R236). -/
def State.countOvf (s : State) (die : Nat) : State := s.updDie die fun d => { d with wftovf := min (d.wftovf + 1) (2 ^ 64 - 1) }

/-- What registering an edge gives: registered or waiting unregistered, or a trap taken. -/
inductive Registered where
  | yes | no | trapped
  deriving DecidableEq, Repr

/-- An edge of the issuing split registered and walked (07 R201, 18 R440, R448). A hardware edge removes the software edge; a new software
edge replaces the old one. `pc` and `word` are those of the instruction a deadlock trap names. -/
def State.register (s : State) (cx : Cx) (kind obj key : Nat) (pc : Pc) (word : Word) : Registered × State :=
  if !cx.who.isUser then (.no, s)
  else
    let s := (s.dropEdges cx.who cx.k true).updSplit cx.who cx.k fun sp => { sp with soft := none }
    let die := cx.tm.die
    match s.freeEdge die with
    | none =>
      if s.strict die then
        let addr := if kind = 0 ∨ kind = 1 ∨ kind = 4 then obj else 0
        (.trapped, s.fail cx 0x32 cx.mask addr (kind * 16))
      else (.no, s.countOvf die)
    | some i =>
      let e : Edge := { idx := i, die := die, kind := kind, obj := obj, key := key, ctxh := cx.tm.ctxh, warp := cx.who.warpNo, spl := cx.k }
      let s := { s with edges := e :: s.edges }
      let r := s.walkOf e
      let s := s.askWalk die r.asked
      match r.path with
      | some path => (.trapped, s.deadlock cx.who cx.k pc word 0 path)
      | none => (.yes, s)

/-- Whether a wait is the wait part of a meet, which counts toward its barrier's limit from its own start (18 R452). -/
def Wait.meets : Wait → Bool
  | .bar _ m | .cbar m => m
  | _ => false

/-- A wait begins: its edge is registered and walked, and then it is recorded (18 R440). What a wait that is issued again had counted toward its
barrier's limit stands (R452). -/
def State.beginWait (s : State) (cx : Cx) (kind obj key : Nat) (w : Wait) (record : State → State) : State :=
  match s.register cx kind obj key cx.pc cx.word with
  | (.trapped, s) => s
  | (_, s) =>
    let now := s.clkFor cx.who
    (record s).updSplit cx.who cx.k fun sp => { sp with wait := some w, waitFrom := now, waited := if w.meets then 0 else sp.waited }

/-- The wait of the issuing split goes on. -/
def stillWaiting (cx : Cx) (w : Wait) : Bool := cx.sp.wait == some w

end Sys2Proof.Machine
end

