-- ==== Sys2Proof/Machine/Control.lean ====
section
/-!
DEFINITION. The control-flow instructions: branches, calls, forks and rejoins, exits, traps (07 R160 to R170, 03 R63 to R72, 16 R397 to
R399, R402, R407).
-/
namespace Sys2Proof.Machine

/-! ## Splits -/

/-- A target from a signed count of words (05 R114). -/
def relTarget (pc : Pc) (off : BitVec 25) : Pc := pc + BitVec.ofInt 48 (8 * off.toInt)

-- DESIGN CHOICE (log 81, unsafe): of several free entries of the split table a new, unparked or merged split takes the lowest-numbered one.
/-- The split-table entry that the next split takes (03 R66, R67, R71). -/
def Warp.freeSplit (t : Warp) : Option Nat := (List.range t.splits.length).find? fun k => (t.split? k).isNone

/-- A new split from another: its lanes and PC, and its creator's frame, push count and windows (03 R66, R74). -/
def childSplit (sp : Split) (pc : Pc) (mask : Mask) (party now : Nat) : Split :=
  { sp with pc := pc, mask := mask, party := party, wait := none, waitFrom := now, waited := 0, readyFrom := now, promoted := 0, soft := none }

/-- Whether a divergent branch of a warp would have to wait: four splits, and a group parked in the innermost waypoint (03 R67). -/
def mustWait (t : Warp) : Bool := t.freeSplit.isNone && (t.wps.head?.map fun w => w.parked != 0).getD false

-- DEDUCED (log 18, safe): a group that R67 parks at a calli has performed its call, and keeps its own frame while it is parked.
/-- Some lanes of a split that has just issued leave it for an address: as a new split, or parked in the innermost waypoint (03 R66, R67).
`fr` is their FB and FS where a call has changed them; otherwise a new split copies its creator's, and a parked group takes the waypoint's. -/
def State.divert (s : State) (cx : Cx) (lanes : Mask) (pc : Pc) (fr : Option (Nat × Nat)) : State :=
  match (s.thread? cx.who).bind fun t => t.split? cx.k with
  | none => s
  | some sp =>
    let (party, s) := s.forkParty sp.party
    let now := s.clkFor cx.who
    s.updThread cx.who fun t =>
      let t := t.updSplit cx.k fun x => { x with mask := x.mask &&& ~~~lanes }
      match t.freeSplit, t.wps with
      | some i, _ =>
        let c := childSplit sp pc lanes party now
        t.setSplit i (some { c with fb := (fr.map Prod.fst).getD c.fb, fs := (fr.map Prod.snd).getD c.fs })
      | none, w :: ws => { t with wps := { w with
          parked := lanes, parkedPc := pc, parkedP := sp.p, parkedFb := (fr.map Prod.fst).getD w.fb, parkedFs := (fr.map Prod.snd).getD w.fs,
          parkedBy := party, parkedOpf := sp.opf, parkedWin := sp.windows } :: ws }
      | none, [] => t

/-- What follows a split's retirement: a group parked in the innermost waypoint takes a free split entry before any other use of it; a waypoint
all of whose members have arrived is popped and its split formed, and one without members is popped (03 R67, R71). -/
def State.settleWps (who : Who) : Nat → State → State
  | 0, s => s
  | fuel + 1, s =>
    match s.thread? who with
    | none => s
    | some t =>
      match t.wps with
      | [] => s
      | w :: ws =>
        let now := s.clkFor who
        if w.parked != 0 then
          match t.freeSplit with
          | none => s
          | some i =>
            let sp : Split := { pc := w.parkedPc, mask := w.parked, fb := w.parkedFb, fs := w.parkedFs, p := w.parkedP, party := w.parkedBy,
                                windows := w.parkedWin, wait := none, waitFrom := now, waited := 0, readyFrom := now, promoted := 0,
                                soft := none, opf := w.parkedOpf }
            State.settleWps who fuel (s.setThread { t.setSplit i (some sp) with wps := { w with parked := 0, parkedWin := [] } :: ws })
        else if w.member == w.arrived then
          if w.member == 0 then State.settleWps who fuel (s.setThread { t with wps := ws })
          else
            match t.freeSplit with
            | none => s
            | some i =>
              let kind := s.kindOf (w.arrivedBy.headD 0)
              let (party, s) := s.mergeParties kind w.arrivedBy
              let sp : Split := { pc := if w.implicit then w.target else w.target + 8, mask := w.member, fb := w.fb, fs := w.fs,
                                  p := addP w.savedP w.k, party := party, windows := [], wait := none, waitFrom := now, waited := 0,
                                  readyFrom := now, promoted := 0, soft := none, opf := w.opf }
              State.settleWps who fuel (s.setThread { t.setSplit i (some sp) with wps := ws })
        else s

/-- Depth of the waypoint stack. -/
def Warp.depth (t : Warp) : Nat := t.wps.length

/-! ## Branches -/

/-- The lanes of a branch go to a target and the others to the next address (07 R162); `n` results are pushed as `f` says, and poisoned
sources are consumed once it has issued. -/
def State.branch (s : State) (cx : Cx) (os : List Operand) (taken : Mask) (target notTaken : Pc) (n : Nat) (f : Warp → Warp) : State :=
  if taken == 0 then (s.finishAt cx f notTaken n).consume cx os
  else if taken == cx.mask then (s.finishAt cx f target n).consume cx os
  else if cx.t.wps.isEmpty then s.fail cx 0x18 cx.mask 0 1
  else if mustWait cx.t then s.hold cx
  else ((s.finishAt cx f notTaken n).divert cx taken target none).consume cx os

def execBra (h : Hdr) (off : BitVec 25) (s : State) : Host.Outcome State Fault Refusal :=
  act s h (Shape.both [] false) fun cx _ s => s.branch cx [] cx.on (relTarget cx.pc off) cx.nextPc 0 fun t => t

/-- The target that a lane names (07 R163). -/
def laneTarget (os : List Operand) (l : Nat) : Pc := BitVec.ofNat 48 ((arg (valsAt os l) 0).toNat % 2 ^ 48 / 8 * 8)

/-- The leader's target and the lanes that share it. -/
def leadTarget (cx : Cx) (os : List Operand) : Pc × Mask :=
  let t := laneTarget os (cx.lead.getD 0)
  (t, maskOf (cx.lanes.filter fun l => laneTarget os l == t))

def execBrx (h : Hdr) (s : State) : Host.Outcome State Fault Refusal :=
  act s h (Shape.both (src1 h) false) fun cx os s =>
    let (t, m) := leadTarget cx os
    s.branch cx os m t cx.pc 0 fun t => t

def execLoop (h : Hdr) (off : BitVec 25) (s : State) : Host.Outcome State Fault Refusal :=
  act s h (Shape.both (src1 h) true) fun cx os s =>
    let c (l : Nat) : Word := widen h.ty ((unsOf h.ty (arg (valsAt os l) 0) : Int) - 1)
    let taken := maskOf (cx.lanes.filter fun l => c l != 0)
    let push (t : Warp) : Warp := t.pushEach cx.mask fun l =>
      if cx.on.getLsbD l then [ent (c l) (poisonAt os l)] else [offEnt os l]
    s.branch cx os taken (relTarget cx.pc off) cx.nextPc 1 push

/-! ## Calls -/

/-- The link word of a call (03 R63). -/
def linkWord (ret : Pc) (fbd k depth : Nat) : Word := wordOf (ret.toNat / 8 * 2 ^ 19 + fbd * 2 ^ 10 + k * 2 ^ 5 + depth)

/-- Writes of consecutive stack entries, some of them below the window: rights first, then the words, then their places (03 R59). -/
def State.slotWrites (s : State) (cx : Cx) : List Nat → (State → State) → State
  | [], f => f s
  | i :: is, f => s.slotWrite cx i fun s => s.slotWrites cx is f

/-- The limits of a call record (16 R397 reasons 3 and 6). -/
def callFail (cx : Cx) (k : Nat) : Option Nat :=
  let top := cx.sp.fb + cx.sp.fs + k
  if top + 1 > 16384 then some (limitDetail 3 top)
  else if !cx.who.isUser && decide (top ≥ 16) then some (limitDetail 6 top)
  else none

/-- The call records and the queues of the callee in some lanes of the issuing split, at a waypoint depth (03 R63). -/
def Warp.callIn (t : Warp) (cx : Cx) (mask : Mask) (n k depth : Nat) : Warp :=
  let ft := cx.sp.fb + cx.sp.fs
  let link := linkWord cx.nextPc (cx.sp.fs + k + 1) k depth
  let save (t : Warp) (l : Nat) : Warp :=
    let t := (List.range k).foldl (fun t j => t.fwrite (ft + j) l (cx.t.age l (j + 1)).val (cx.t.age l (j + 1)).poison) t
    t.fwrite (ft + k) l link false
  let callee (q : List QEnt) : List QEnt := (List.range 16).map fun j => if j < n then q.getD j zeroEnt else zeroEnt
  let t := (lanesOf mask).foldl save t
  { t with queue := t.queue.zipIdx.map fun (q, l) => if mask.getLsbD l then callee q else q }

/-- The call records of the issuing split written: entries below the window are decoded first and encoded again (03 R59), and the window follows
the new frame tops (R58). -/
def State.callRecords (s : State) (cx : Cx) (k : Nat) (f : State → State) : State :=
  let ft := cx.sp.fb + cx.sp.fs
  let ents := (List.range (k + 1)).map (ft + ·)
  s.slotReads cx ents fun s => s.slotWrites cx ents fun s =>
    ((f s).touchEntries cx ft (k + 1)).moveWindow cx.tm cx.who cx.k cx.pc cx.word cx.mask

/-- `call target, n, k` for the issuing split (03 R63). -/
def State.doCall (s : State) (cx : Cx) (target : Pc) (n k : Nat) : State :=
  s.callRecords cx k fun s => s.finishAt cx (fun t =>
    (t.callIn cx cx.mask n k cx.t.depth).updSplit cx.k fun sp => { sp with fb := cx.sp.fb + cx.sp.fs + k + 1, fs := 0 }) target 0

def execCall (h : Hdr) (n k : BitVec 5) (off : BitVec 25) (s : State) : Host.Outcome State Fault Refusal :=
  act s h { Shape.both [] false with waits := true } fun cx _ s =>
    match callFail cx k.toNat with
    | some d => s.fail cx 0x19 cx.mask 0 d
    | none => s.doCall cx (relTarget cx.pc off) n.toNat k.toNat

-- DEDUCED (log 18, safe): see notes/assumptions/18.md.
/-- Where the issuing split holds the lanes left of a `calli` whose targets differ: the place of its waypoint in the stack (03 R72; log 18). -/
def calliWp (cx : Cx) : Option Nat :=
  cx.t.wps.findIdx? fun w =>
    w.implicit && w.target == cx.nextPc && w.fb == cx.sp.fb && w.fs == cx.sp.fs && (cx.mask &&& ~~~(w.member &&& ~~~w.arrived)) == 0

/-- The groups of active lanes that name one target, by their lowest lane (07 R165). -/
def targetGroups (os : List Operand) : List Nat → List (Pc × Mask)
  | [] => []
  | l :: ls =>
    let t := laneTarget os l
    let rest := targetGroups os ls
    let mine := (rest.find? fun g => g.1 == t).map Prod.snd
    (t, bitMask l ||| mine.getD 0) :: rest.filter fun g => g.1 != t

/-- A waypoint opened by the issuing split (03 R68, R72). -/
def openWp (cx : Cx) (target : Pc) (k table : Nat) (implicit : Bool) : Waypoint :=
  { target := target, parkedPc := 0, member := cx.mask, arrived := 0, parked := 0, table := table, k := k, savedP := cx.sp.p, parkedP := 0,
    fb := cx.sp.fb, fs := cx.sp.fs, implicit := implicit, arrivedBy := [], opf := [], parkedBy := 0, parkedOpf := [], parkedWin := [] }

/-- Groups that R66 and R67 can place at once: one for each free split entry, one in the innermost waypoint. -/
def Warp.roomFor (t : Warp) : Nat :=
  (t.splits.filter Option.isNone).length + (if (t.wps.head?.map fun w => w.parked == 0).getD false then 1 else 0)

/-- The target groups of a `calli` each perform their call: all but the last leave the issuing split, which keeps the last; with too few places
the issuing split keeps the remaining lanes at the `calli` (03 R67, R72). `opens` that the waypoint is opened now. -/
def State.callGroups (s : State) (cx : Cx) (n k m : Nat) (opens : Bool) (gs : List (Pc × Mask)) (room : Nat) : State :=
  let leave := gs.take (min room (gs.length - 1))
  let last := gs.drop leave.length
  let whole := decide (last.length = 1)
  let called := (if whole then gs else leave).foldl (fun m g => m ||| g.2) (0 : Mask)
  let top := cx.sp.fb + cx.sp.fs + k + 1
  s.callRecords cx k fun s =>
    let s := s.finishAt cx (fun t =>
      let t := if opens then { t.updSplit cx.k (fun sp => { sp with p := 0 }) with wps := openWp cx cx.nextPc m 0 true :: t.wps } else t
      t.callIn cx called n k t.depth) cx.pc 0
    let s := leave.foldl (fun s g => s.divert cx g.2 g.1 (some (top, 0))) s
    if whole then s.updSplit cx.who cx.k fun sp => { sp with pc := (last.head?.map Prod.fst).getD cx.pc, fb := top, fs := 0 } else s

-- DEDUCED (log 18, safe): a calli whose target groups find too few split entries places as many as it can, and its other lanes wait at the calli.
/-- `calli`: one target is a call; with several, every target's group calls as a split of its own under one implicit waypoint (07 R165,
03 R72). Lanes left over wait until a place is free and the waypoint is the innermost one. -/
def execCalli (h : Hdr) (n k : BitVec 5) (m : BitVec 4) (s : State) : Host.Outcome State Fault Refusal :=
  act s h { Shape.user (src1 h) false with waits := true } fun cx os s =>
    let gs := targetGroups os (lanesOf cx.mask)
    let wp := calliWp cx
    if decide (gs.length > 1) && wp.isNone && decide (cx.t.depth ≥ 16) then s.fail cx 0x18 cx.mask 0 3
    else match callFail cx k.toNat with
      | some d => s.fail cx 0x19 cx.mask 0 d
      | none =>
        match wp with
        | some (_ + 1) => s.hold cx
        | some 0 =>
          if gs.length > 1 ∧ cx.t.roomFor = 0 then s.hold cx
          else (s.callGroups cx n.toNat k.toNat m.toNat false gs cx.t.roomFor).consume cx os
        | none =>
          if gs.length > 1 then
            (s.callGroups cx n.toNat k.toNat m.toNat true gs ((cx.t.splits.filter Option.isNone).length + 1)).consume cx os
          else (s.doCall cx ((gs.head?.map Prod.fst).getD cx.nextPc) n.toNat k.toNat).consume cx os

/-- Fields of a link word. -/
structure Link where
  rpc : Pc
  fbd : Nat
  k : Nat
  wpd : Nat
  bad : Bool
  deriving DecidableEq, Repr

def linkOf (w : Word) (fb : Nat) : Link :=
  let n := w.toNat
  let fbd := fieldOf n 10 7
  let k := fieldOf n 5 5
  { rpc := BitVec.ofNat 48 (fieldOf n 19 45 * 8), fbd := fbd, k := k, wpd := fieldOf n 0 5,
    bad := decide (k > 16) || decide (fbd < k + 1) || decide (fbd > fb) || decide (fbd > 81) || fieldOf n 17 2 != 0 }

/-- The frame words of some entries in every active lane: entry, lane and word. -/
def State.frameWords (s : State) (cx : Cx) (t : Warp) : List (Nat × Nat) → List (Nat × Nat × QEnt) × State
  | [] => ([], s)
  | (i, l) :: r =>
    let (e, s) := match t.fword i l with
      | some v => (ent v (t.fpoison i l), s)
      | none => let (v, s) := takeFree s; (ent v false, s)
    let (es, s) := s.frameWords cx t r
    ((i, l, e) :: es, s)

/-- The implicit waypoint that a return arrives at: the innermost one, opened by the `calli` this link returns to (03 R72). -/
def implicitRet (cx : Cx) (l : Link) : Option Waypoint :=
  match cx.t.wps with
  | w :: _ =>
    if w.implicit && w.target == l.rpc && decide (w.fb + l.fbd = cx.sp.fb) && decide (w.fs + l.k + 1 = l.fbd) && (cx.mask &&& ~~~w.member) == 0
    then some w else none
  | [] => none

-- DESIGN CHOICE (log 69, unsafe): A software edge stays registered under its split-table index when its split retires before the warp has exited.
/-- Lanes that have arrived at the innermost waypoint: they leave the split table, and what follows a retirement happens. -/
def State.arrive (s : State) (cx : Cx) : State :=
  match (s.thread? cx.who).bind fun t => t.split? cx.k with
  | none => s
  | some sp =>
    let s := s.updThread cx.who fun t =>
      match t.wps with
      | w :: ws => { t.setSplit cx.k none with wps := { w with
          arrived := w.arrived ||| sp.mask, arrivedBy := sp.party :: w.arrivedBy, opf := clkJoin w.opf sp.opf } :: ws }
      | [] => t
    State.settleWps cx.who 18 s

/-- The walk of a warp whose count of valid splits this instruction has brought down to one (18 R440). -/
def State.walkLeft (s : State) (cx : Cx) : State :=
  let now := ((s.thread? cx.who).map fun t => t.live.length).getD 0
  if cx.t.live.length > 1 ∧ now = 1 then s.walkLast cx.who else s

/-- `ret m` (03 R64, R72, 07 R166). -/
def execRet (h : Hdr) (m : BitVec 4) (s : State) : Host.Outcome State Fault Refusal :=
  act s h { Shape.both [] false with waits := true } fun cx _ s =>
    let fb := cx.sp.fb
    if fb = 0 then s.fail cx 0x19 cx.mask 0 4
    else s.slotReads cx [fb - 1] fun s =>
      let t := (s.thread? cx.who).getD cx.t
      let lanes := lanesOf cx.mask
      let (ls, s) := s.frameWords cx t (lanes.map fun l => (fb - 1, l))
      let words := ls.map fun x => x.2.2.val
      let l := linkOf (words.headD 0) fb
      let imp := implicitRet cx l
      if !l.bad && words.all (· == words.headD 0) && (imp.map fun w => w.k != m.toNat).getD false then
        s.fail cx 0x17 cx.mask 0 (7 + 16 * cx.sp.p)
      else if words.any fun w => decide ((linkOf w fb).wpd ≠ cx.t.depth) then s.fail cx 0x18 cx.mask 0 4
      else if words.any fun w => (linkOf w fb).bad then s.fail cx 0x19 cx.mask 0 (4 + 16 * (fb - 1))
      else if words.any (· != words.headD 0) then s.fail cx 0x19 cx.mask 0 (5 + 16 * (fb - 1))
      else
        let base := fb - 1 - l.k
        s.slotReads cx ((List.range l.k).map (base + ·)) fun s =>
          let t := (s.thread? cx.who).getD cx.t
          let (saved, s) := s.frameWords cx t ((List.range l.k).flatMap fun j => lanes.map fun ln => (base + j, ln))
          let word (i ln : Nat) : QEnt := ((saved.find? fun x => x.1 == i && x.2.1 == ln).map fun x => x.2.2).getD zeroEnt
          let caller (q : List QEnt) (ln : Nat) : List QEnt := (List.range 16).map fun j =>
            if j < m.toNat then q.getD j zeroEnt else if j < m.toNat + l.k then word (base + (j - m.toNat)) ln else zeroEnt
          let fs := l.fbd - l.k - 1
          let s := s.finishAt cx (fun t =>
            let t := { t with queue := t.queue.zipIdx.map fun (q, ln) => if cx.mask.getLsbD ln then caller q ln else q }
            t.updSplit cx.k fun sp => { sp with fb := fb - l.fbd, fs := fs, p := if imp.isSome then m.toNat else sp.p }) l.rpc 0
          let s := s.touchEntries cx (fb - 1 - l.k) (cx.sp.fs + l.k + 1)
          let s := if imp.isSome then s.arrive cx else s
          let s := (s.moveWindow cx.tm cx.who cx.k cx.pc cx.word cx.mask).walkLeft cx
          let bad := ls.filter fun x => x.2.2.poison
          if bad.isEmpty then s else s.raise cx.who cx.k (cx.trap 0x71 (maskOf (bad.map fun x => x.2.1)) 0 0) none

/-! ## Forks and rejoins -/

/-- A permutation table's header fields and the row for a push count (03 R69). -/
structure PermRow where
  rows : Nat
  kt : Nat
  reserved : Bool
  row : List Nat
  deriving DecidableEq, Repr

/-- The table `i` of the launch's object, with its row for `p`; none where the index is at or above PCNT. -/
def State.permTable (s : State) (cx : Cx) (i p : Nat) : Except (TransFail × Nat) (Option PermRow) × State :=
  match s.objEntry cx.who cx.tm cx.sp.party 24 i with
  | (.error e, s) => (.error e, s)
  | (.ok none, s) => (.ok none, s)
  | (.ok (some a), s) =>
    match s.objWords cx.who cx.tm cx.sp.party a 1 with
    | (.error e, s) => (.error e, s)
    | (.ok ws, s) =>
      let hd := (ws.headD 0).toNat
      let rows := fieldOf hd 0 16
      let r : PermRow := { rows := rows, kt := fieldOf hd 16 4, reserved := fieldOf hd 20 44 != 0, row := [] }
      if p > 15 ∨ !bitOf rows p then (.ok (some r), s)
      else
        match s.objWords cx.who cx.tm cx.sp.party (a + 8 + 8 * popcNat p (rows % 2 ^ p)) 1 with
        | (.error e, s) => (.error e, s)
        | (.ok ws, s) =>
          let w := (ws.headD 0).toNat
          (.ok (some { r with row := (List.range 8).map fun j => fieldOf w (8 * j) 8 }), s)

def execFork (h : Hdr) (k : BitVec 5) (perm : BitVec 10) (off : BitVec 25) (s : State) : Host.Outcome State Fault Refusal :=
  act s h { Shape.user [] false with waits := true } fun cx _ s =>
    let det (r : Nat) : Nat := r + 16 * cx.sp.p + 512 * perm.toNat
    -- a push count above every row's asks for no row
    match s.permTable cx perm.toNat 16 with
    | (.error e, s) =>
      if cx.t.depth ≥ 16 then s.fail cx 0x18 cx.mask 0 2 else s.fetchFault cx.who cx.k cx.pc cx.word cx.mask cx.tm e
    | (.ok none, s) => s.fail cx 0x17 cx.mask 0 (det 1)
    | (.ok (some r), s) =>
      if r.reserved then s.fail cx 0x17 cx.mask 0 (det 1)
      else if r.kt ≠ k.toNat then s.fail cx 0x17 cx.mask 0 (det 2)
      else if cx.t.depth ≥ 16 then s.fail cx 0x18 cx.mask 0 2
      else s.doneWith cx fun t =>
        { t.updSplit cx.k (fun sp => { sp with p := 0 }) with wps := openWp cx (relTarget cx.pc off) k.toNat perm.toNat false :: t.wps }

/-- The queue of a lane that rejoins with a row (03 R70). -/
def rejoinQueue (q : List QEnt) (k p : Nat) (row : List Nat) : List QEnt :=
  (List.range 16).map fun j =>
    if j < k then (match row.getD j 0 with
      | 0 => zeroEnt
      | n + 1 => q.getD n zeroEnt)
    else if j + 1 - k + p ≤ 16 then q.getD (j - k + p) zeroEnt
    else zeroEnt

def execRjn (h : Hdr) (s : State) : Host.Outcome State Fault Refusal :=
  act s h { Shape.user [] false with waits := true } fun cx _ s =>
    match cx.t.wps with
    | [] => s.fail cx 0x17 cx.mask 0 (3 + 16 * cx.sp.p)
    | w :: _ =>
      let p := cx.sp.p
      let det (r : Nat) : Nat := r + 16 * p + 512 * w.table
      if w.implicit || w.target != cx.pc then s.fail cx 0x17 cx.mask 0 (det 3)
      else if p > 15 then s.fail cx 0x17 cx.mask 0 (det 4)
      else match s.permTable cx w.table p with
        | (.error e, s) => s.fetchFault cx.who cx.k cx.pc cx.word cx.mask cx.tm e
        | (.ok none, s) => s.fail cx 0x17 cx.mask 0 (det 5)
        | (.ok (some r), s) =>
          if !bitOf r.rows p then s.fail cx 0x17 cx.mask 0 (det 5)
          else if (r.row.zipIdx.any fun (b, j) => decide (b > 16) || (decide (j ≥ r.kt) && b != 0)) then s.fail cx 0x17 cx.mask 0 (det 6)
          else
            let s := s.finishAt cx (fun t =>
              { t with queue := t.queue.zipIdx.map fun (q, l) => if cx.mask.getLsbD l then rejoinQueue q w.k p r.row else q }) cx.pc 0
            ((s.arrive cx).moveWindow cx.tm cx.who cx.k cx.pc cx.word cx.mask).walkLeft cx

/-! ## Ends and traps -/

/-- The quartet partners of a warp, itself first in no order (02 R34, 08 R213). -/
def State.quartetOf (s : State) (tm : Team) (w : Nat) : List Warp :=
  let r := roleOf tm.roles w 0
  let first := roleFirst tm.roles r
  let base := first + (w - first) / 4 * 4
  if ((tm.roles[r]?).map Role.qtet).getD false then (s.warpsOf tm.ctxh).filter fun t => decide (base ≤ t.who.warpNo ∧ t.who.warpNo < base + 4)
  else []

/-- What happens when every lane of a user warp has exited: its locks, holds and edges, its barriers, and the quartet check of R407. -/
def State.warpExited (s : State) (cx : Cx) : State :=
  let s := s.warpGone cx.who
  let s := (s.checkBars cx.tm.ctxh).checkCbar cx.tm.cluster
  let q := s.quartetOf cx.tm cx.who.warpNo
  let mine := ((s.thread? cx.who).map Warp.mmaSeq).getD 0
  if cx.who.isUser && q.any fun t => decide (mine < t.mmaSeq) then s.raise cx.who cx.k (cx.trap 0x40 cx.on 0 4) none else s

def execExit (h : Hdr) (s : State) : Host.Outcome State Fault Refusal :=
  act s h { Shape.both [] false with waits := true } fun cx _ s =>
    if cx.on == 0 then s.done cx
    else
      let clk := s.clkOf cx.sp.party
      let s := s.doneWith cx fun t =>
        let left := cx.mask &&& ~~~cx.on
        let t := if left == 0 then { t.setSplit cx.k none with gone := clkJoin t.gone clk } else t.updSplit cx.k fun sp => { sp with mask := left }
        { t with exited := t.exited ||| cx.on, wps := t.wps.map fun w => { w with member := w.member &&& ~~~cx.on } }
      let s := (State.settleWps cx.who 18 s).moveWindow cx.tm cx.who cx.k cx.pc cx.word cx.mask
      let gone := (s.thread? cx.who).all fun t => t.splits.all Option.isNone && t.wps.isEmpty
      if cx.who.isUser && gone then s.warpExited cx
      else if cx.who.isUser then ((s.checkBars cx.tm.ctxh).checkCbar cx.tm.cluster).walkLeft cx
      else s

/-- A software trap or breakpoint: the split goes on after it when the team resumes (07 R169, 15 R370). -/
def State.softTrap (s : State) (cx : Cx) (cause code : Nat) : State :=
  let s := s.done cx
  if cx.on == 0 then s else s.raise cx.who cx.k (cx.trap cause cx.on 0 code) none

def execTrap (h : Hdr) (code : BitVec 8) (s : State) : Host.Outcome State Fault Refusal :=
  act s h (Shape.both [] false) fun cx _ s => s.softTrap cx 0x14 code.toNat

-- DEDUCED (log 32, safe and in part unsafe): brk in a handler warp follows the BRKEN of the served context.
def execBrk (h : Hdr) (code : BitVec 8) (s : State) : Host.Outcome State Fault Refusal :=
  act s h (Shape.both [] false) fun cx _ s => if cx.tm.brken.getLsbD 0 then s.softTrap cx 0x15 code.toNat else s.done cx

/-- `yield`: ineligible for `n` cycles counted from the cycle after its issue, or, with n = 0, until another split of the partition has issued (07 R170). -/
def execYield (h : Hdr) (n : BitVec 8) (s : State) : Host.Outcome State Fault Refusal :=
  act s h (Shape.both [] false) fun cx _ s =>
    let now := s.clkFor cx.who
    let w : Wait := if n == 0 then .yield 0 (now + 17) else .yield 1 (now + n.toNat + 1)
    s.doneWith cx fun t => t.updSplit cx.k fun sp => { sp with wait := some w, waitFrom := now }

end Sys2Proof.Machine
end

