-- ==== Sys2Proof/Machine/MemOps.lean ====
section
/-!
DEFINITION. Memory instructions: loads, stores, prefetches, block accesses, seals and fetch fences (07 R171 to R178, R185, R186, 09 R262,
17 R412 to R431). The one path from an instruction's lanes to its accesses serves the atomics as well.
-/
namespace Sys2Proof.Machine

/-! ## Elements -/

/-- An element of an access: its lane, first byte and size, and whether it must be naturally aligned (17 R421, R422). -/
structure Elem where
  lane : Nat
  ea : Nat
  size : Nat
  align : Bool
  deriving DecidableEq, Repr

/-- The elements of a lane's access. A block is one element, an MX scale another (17 R421). -/
def accElems (op : MemOp) (a : LaneAcc) : List Elem :=
  let one (n : Nat) (al : Bool) : List Elem := [{ lane := a.lane, ea := a.ea, size := n, align := al }]
  let blk (f : BlkFmt) (x : Word) : List Elem :=
    if Wf.seBlock f then one (blockBytes f) false
    else one (blockBytes f) false ++ [{ lane := a.lane, ea := x.toNat, size := 1, align := false }]
  match op with
  | .loadPair | .storePair => one 16 true
  | .ldblk f => blk f (a.ops.headD 0)
  | .stblk f => blk f (a.ops.getLastD 0)
  | .seal => []
  | _ => one (op.ty.width / 8) true

/-- A failed element of a lane. -/
structure LaneFault where
  lane : Nat
  f : MFault
  ea : Nat
  size : Nat
  deriving DecidableEq, Repr

def LaneFault.addr (x : LaneFault) : Nat := (x.ea + x.f.off) % 2 ^ 64

def alignFault (reason : Nat) : MFault := { cause := 0x23, reason := reason, tgt := 0, lvl := 0, rank := 0, seg := 0, off := 0 }

/-- The rank and the segment that an address names in a scratchpad space or window (07 R172, 09 R245, 17 R412). -/
def spNames (sp : Space) (ea : Nat) : Nat × Nat :=
  let seg (off : Nat) : Nat := off % 2 ^ 22 / segBytes
  match sp with
  | .own => (0, seg ea)
  | .cluster => (ea % 2 ^ 25 / 2 ^ 22, seg ea)
  | .generic =>
    if clusterBase ≤ ea ∧ ea < clusterBase + 2 ^ 25 then ((ea - clusterBase) / 2 ^ 22, seg (ea - clusterBase))
    else if ownBase ≤ ea ∧ ea < ownBase + 2 ^ 22 then (0, seg (ea - ownBase))
    else (0, 0)
  | _ => (0, 0)

/-- The stage 5 failure of an element, the lowest cause first (16 R389, 17 R421 to R423). -/
def State.elemFault (s : State) (tm : Team) (who : Who) (sp : Space) (e : Elem) : Option LaneFault :=
  let mis := e.align && e.ea % e.size != 0
  let (rank, seg) := spNames sp e.ea
  let al : LaneFault := { lane := e.lane, f := { alignFault 1 with rank := rank, seg := seg }, ea := e.ea, size := e.size }
  match placeOf s tm who sp e.ea e.size with
  | .error f => some (if f.cause > 0x23 && mis then al else { lane := e.lane, f := f, ea := e.ea, size := e.size })
  | .ok _ => if mis then some al else none

/-- SP as a code (07 R172). -/
def spCode : Space → Nat
  | .generic => 0
  | .global => 1
  | .own => 2
  | .cluster => 3
  | .priv => 4

/-- KIND of a request's faults (17 R412). -/
def MemOp.kind : MemOp → Nat
  | .load _ | .loadPair => 1
  | .store _ | .storePair => 2
  | .ldblk _ | .stblk _ => 4
  | .seal => 8
  | _ => 3

/-- Words 16 to 47 of a record: what each lane met first (17 R413). -/
def laneWords (fs : List LaneFault) : List Word :=
  (List.range 32).map fun l => ((fs.find? fun x => x.lane == l).map fun x => laneWord x.f.cause x.addr).getD 0

-- DEDUCED (log 24, unsafe): see notes/assumptions/24.md.
-- DEDUCED (log 31, unsafe): see notes/assumptions/31.md.
/-- The trap of lanes that fail: the lowest cause, the lowest lane's byte (17 R412, R413). -/
def faultTrap (pc : Pc) (word : Word) (prec : Bool) (kind sp : Nat) (fs : List LaneFault) : Trap :=
  let cause := fs.foldl (fun c x => min c x.f.cause) 0xFF
  let low := sortBy (fun a b => decide (a.lane ≤ b.lane)) fs
  let rep := (low.find? fun x => x.f.cause == cause).getD { lane := 0, f := alignFault 0, ea := 0, size := 0 }
  { cause := cause, prec := prec, tpc := pc, word := word, lanes := maskOf (fs.map LaneFault.lane),
    addr := ((low.head?).map LaneFault.addr).getD 0, detail := memDetail rep.f kind sp rep.size, words := laneWords low }

/-- Of a lane's failures the one of the lowest cause, the first of them (16 R389). -/
def lowestFault : List LaneFault → Option LaneFault
  | [] => none
  | f :: l => match lowestFault l with
    | none => some f
    | some g => some (if g.f.cause < f.f.cause then g else f)

/-- The stage 5 failures of a request. -/
def State.stage5 (s : State) (tm : Team) (who : Who) (sp : Space) (op : MemOp) (acc : List LaneAcc) : List LaneFault :=
  acc.filterMap fun a => lowestFault ((accElems op a).filterMap (s.elemFault tm who sp))

/-! ## Translation (stage 7) -/

/-- What one lane's translation gives: its keys, a fault, or a lost context. -/
inductive LaneXlate where
  | ok (keys : List Nat) | bad (f : LaneFault) | lost
  deriving DecidableEq, Repr

/-- The keys of a lane's elements in order. -/
def State.xlateElems (s : State) (tm : Team) (who : Who) (sp : Space) (party : Nat) (clk : Clock) (r : Rights) : List Elem → LaneXlate × State
  | [] => (.ok [], s)
  | e :: es =>
    match placeOf s tm who sp e.ea e.size with
    | .error f => (.bad { lane := e.lane, f := f, ea := e.ea, size := e.size }, s)
    | .ok p =>
      match s.keysAt party clk tm.asid r p e.size with
      | (.error .lost, s) => (.lost, s)
      | (.error (.fault f), s) => (.bad { lane := e.lane, f := f, ea := e.ea, size := e.size }, s)
      | (.ok ks, s) =>
        match s.xlateElems tm who sp party clk r es with
        | (.ok ks', s) => (.ok (ks ++ ks'), s)
        | x => x

/-- The pages of a sealed range, as pairs of first key and length, `fuel` leaves at most. -/
def State.xlateRange (s : State) (tm : Team) (party : Nat) (clk : Clock) (r : Rights) (lane va len : Nat) : Nat → LaneXlate × State
  | 0 => (.ok [], s)
  | fuel + 1 =>
    if len = 0 then (.ok [], s)
    else match s.transByte party clk tm.asid r va with
      | (.error .lost, s) => (.lost, s)
      | (.error (.fault f), s) => (.bad { lane := lane, f := f, ea := va, size := 0 }, s)
      | (.ok k, s) =>
        let page := s.pageSpan party tm.asid va
        let n := min len (page - va % page)
        match s.xlateRange tm party clk r lane (va + n) (len - n) fuel with
        | (.ok ks, s) => (.ok (k :: n :: ks), s)
        | x => x

/-- Whether a request writes, as a leaf's W right sees it (17 R415). -/
def MemOp.writes : MemOp → Bool
  | .load _ | .loadPair | .ldblk _ => false
  | _ => true

/-- The lanes of a request translated in ascending order; lanes that name one address share one request (07 R190). Gives the lanes with
keys, the failed ones, and whether a walk met poison. -/
def State.xlateLanes (s : State) (tm : Team) (who : Who) (sp : Space) (party : Nat) (clk : Clock) (op : MemOp) :
    List LaneAcc → List (Nat × LaneXlate) → List LaneAcc × List (LaneAcc × LaneFault) × Bool × State
  | [], _ => ([], [], false, s)
  | a :: l, known =>
    let r : Rights := { write := op.writes, fetch := false, super := who.isHandler }
    let (x, s) := match (if op.isAtomic then assoc? known a.ea else none) with
      | some x => (x, s)
      | none => if op == MemOp.seal then s.xlateRange tm party clk r a.lane a.ea ((a.ops.headD 0).toNat) ((a.ops.headD 0).toNat / 4096 + 1)
                else s.xlateElems tm who sp party clk r (accElems op a)
    let (ok, bad, lost, s) := s.xlateLanes tm who sp party clk op l ((a.ea, x) :: known)
    match x with
    | .ok ks => ({ a with keys := ks } :: ok, bad, lost, s)
    | .bad f => (ok, (a, { f with lane := a.lane }) :: bad, lost, s)
    | .lost => (ok, bad, true, s)

/-- Whether an address lies in the private window (07 R191). -/
def inPriv (sp : Space) (ea : Nat) : Bool :=
  match sp with
  | .priv => true
  | .generic => decide (privBase ≤ ea ∧ ea < clusterBase)
  | _ => false

/-! ## Performing -/

/-- What is left of a sealed piece once a run of bytes of the same memory has been sealed anew. -/
def SealEnt.minus (e : SealEnt) (peer : Option Nat) (base len : Nat) : List SealEnt :=
  if e.peer != peer || decide (base + len ≤ e.base ∨ e.base + e.len ≤ base) then [e]
  else (if e.base < base then [{ e with len := base - e.base }] else []) ++
    (if base + len < e.base + e.len then [{ e with base := base + len, len := e.base + e.len - (base + len) }] else [])

/-- The peer and the address there of a page that can be sealed: none for a host page, which has no home (09 R257, R262). -/
def sealPlace (k : Nat) : Option (Option Nat × Nat) :=
  if isDeviceKey k then some (none, k) else if isPeerKey k then some (some ((k - 2 ^ 61) / 2 ^ 43), k % 2 ^ 43) else none

/-- Whether a home has an entry for a range, or a free one among its 256 (17 R430). -/
def State.sealRoom (s : State) (peer : Option Nat) (mdie num : Nat) : Bool :=
  let nums := ((s.seals.filter fun e => e.peer == peer && e.mdie == mdie).map SealEnt.num).eraseDups
  nums.contains num || decide (nums.length < 256)

/-- The pages of a range that can be sealed, given as pairs of first key and length: peer, address there, length. -/
def sealRuns : List Nat → List (Option Nat × Nat × Nat)
  | k :: n :: l => ((sealPlace k).toList.map fun p => (p.1, p.2, n)) ++ sealRuns l
  | _ => []

-- DESIGN CHOICE (log 63, unsafe): what is left of an older sealed range keeps its version and its table entry.
/-- A range recorded at the homes of its pages as sealed with a version, or with version 0 as not sealed: what it held before goes, then one entry
of each home's table stands for the range, and a home without a free one leaves all its pages of the range unsealed (09 R262, 17 R430). -/
def State.recordSeal (s : State) (ver : Nat) (pages : List Nat) : State :=
  let num := s.nextId
  let runs := sealRuns pages
  let s := { s with nextId := num + 1, seals := runs.foldl (fun (l : List SealEnt) (r : Option Nat × Nat × Nat) => l.flatMap fun (e : SealEnt) => e.minus r.1 r.2.1 r.2.2) s.seals }
  let room := runs.filter fun (r : Option Nat × Nat × Nat) => ver != 0 && s.sealRoom r.1 (mdieOf r.2.1) num
  { s with seals := (room.map fun (r : Option Nat × Nat × Nat) => ({ peer := r.1, mdie := mdieOf r.2.1, base := r.2.1, len := r.2.2, ver := ver, num := num } : SealEnt)).reverse ++ s.seals }

-- DEDUCED (log 32, safe and in part unsafe): The release of a seal acts as a release fence at system scope, since it writes no location.
/-- The request of a seal: a release at system scope, then the record, lane by lane (07 R185, 10 R273, R289). -/
def State.performSeal (s : State) (die core party : Nat) : List LaneAcc → State
  | [] => s
  | a :: l => (((s.pushLines die core .system).relFence party .system).recordSeal (lowBits 32 (a.ops.getD 1 0)) a.keys).performSeal die core party l

/-- Every kind of request performed in some lanes. -/
def State.perform (s : State) (die core ctxh : Nat) (r : MemReq) (lanes : Mask) : ReqOut × State :=
  if r.op == MemOp.seal then (.nothing, s.performSeal die core r.party (r.acc.filter fun a => lanes.getLsbD a.lane))
  else s.performReq die core ctxh r lanes

/-- TGT of a lane's target as its key shows it. -/
def tgtOf (keys : List Nat) : Nat := if keys.any isHostKey then 1 else if keys.any isPeerKey then 2 else 0

/-- Bytes of a lane's first element (17 R412). -/
def elemSize (op : MemOp) (a : LaneAcc) : Nat := ((accElems op a).head?.map Elem.size).getD 0

/-- The traps of a performed request: lanes that a sealed range refused (17 R431), lanes whose target could not be reached (R427). -/
def State.reqTraps (s : State) (who : Who) (spl : Nat) (pc : Pc) (word : Word) (later : Nat) (r : MemReq) (o : ReqOut) : State :=
  let accOf (l : Nat) : Option LaneAcc := r.acc.find? fun a => a.lane == l
  let fault (cause reason l : Nat) : LaneFault :=
    { lane := l, f := { cause := cause, reason := reason, tgt := ((accOf l).map fun a => tgtOf a.keys).getD 0, lvl := 0, rank := 0, seg := 0, off := 0 },
      ea := ((accOf l).map LaneAcc.ea).getD 0, size := ((accOf l).map (elemSize r.op)).getD 0 }
  let prec := later == 0
  let s := if o.refused.isEmpty then s
    else
      let tr := faultTrap pc word prec r.op.kind (spCode r.sp) (o.refused.map (fault 0x27 0))
      s.raise who spl tr (some { kind := r.op.itemKind, cause := 0x27, addr := tr.addr, lanes := tr.lanes, warp := who.warpNo,
                                 guide := who.isGuide, spl := spl })
  if o.unreach.isEmpty then s
  else
    let fs := o.unreach.map fun u => fault 0x28 u.2 u.1
    let tr := faultTrap pc word prec r.op.kind (spCode r.sp) fs
    s.raise who spl tr (some { kind := r.op.itemKind, cause := 0x28, addr := tr.addr, lanes := tr.lanes, warp := who.warpNo,
                               guide := who.isGuide, spl := spl })

/-- Whether a segment of a team is in transit (09 R253). -/
def State.segTransit (s : State) (h seg : Nat) : Bool := (((s.team? h).bind fun t => t.tags[seg]?).map fun g => g.st == 3).getD false

/-- Whether a write of a request meets a segment in transit (17 R425). -/
def State.inTransit (s : State) (tm : Team) (who : Who) (sp : Space) (op : MemOp) (acc : List LaneAcc) : Bool :=
  op.writes && acc.any fun a => (accElems op a).any fun e =>
    match placeOf s tm who sp e.ea e.size with
    | .ok (.sp _ _ h seg) => s.segTransit h seg
    | _ => false

/-- A request as an instruction makes it: its lanes before translation, its order, and the results that an on lane with a poisoned address
pushes instead (17 R434). -/
structure Access where
  op : MemOp
  sp : Space
  scope : Scope
  ord : Order
  acc : List LaneAcc
  /-- lanes whose address is poisoned -/
  badAddr : List Nat
  /-- results pushed, 0 for a store -/
  n : Nat
  /-- the hint `.nc` (07 R171) -/
  nc : Bool := false
  deriving DecidableEq, Repr

/-- The held part of a request, its trap, and a lost context (17 R419, 15 R379). -/
def State.holdLanes (s : State) (who : Who) (spl : Nat) (pc : Pc) (word : Word) (prec : Bool) (tm : Team) (pendId : Option Nat) (r : MemReq)
    (bad : List (LaneAcc × LaneFault)) (lost : Bool) : State :=
  if lost then s.loseContext tm.asid 0x74 tm.ctxh 0
  else if bad.isEmpty then s
  else
    let fs := bad.map Prod.snd
    let s := if who.isHandler then s
      else s.holdReq { who := who, spl := spl, pc := pc, word := word, lanes := maskOf (fs.map LaneFault.lane),
                       req := .access pendId { r with acc := bad.map fun b => { b.1 with keys := [] } } }
    s.raise who spl (faultTrap pc word prec r.op.kind (spCode r.sp) fs) none

/-- Requests that a core's replay buffer of 64 entries holds (15 R379). -/
def State.replayUsed (s : State) (core : Nat) : Nat :=
  ((s.teams.filter fun t => coreId t.die t.core == core).map fun t => t.held.length).sum

/-- Whether a memory instruction of a team finds no free entry in its core's replay buffer (15 R379). -/
def State.replayFull (s : State) (cx : Cx) : Bool :=
  let (die, core) := s.placeOfWho cx.who
  !cx.who.isHandler && decide (s.replayUsed (coreId die core) ≥ 64)

/-- A reduction is performed when it issues, so it waits for the earlier atomics of its split (10 R277). -/
def redWait (cx : Cx) (a : Access) : Bool :=
  a.n == 0 && a.op.isAtomic && (cx.t.pendsOf cx.k).any fun p => match p.kind with
    | .mem r => r.op.isAtomic
    | _ => false

/-- The lanes of a release that makes several accesses, each under a party of its own; accesses that make up one atomic share it (07 R190, 10 R272). -/
def State.ownParties (s : State) (r : MemReq) : MemReq × State :=
  let keys := (r.acc.map LaneAcc.keys).eraseDups
  if !isRel r.ord || decide (r.acc.length ≤ 1) || (r.op.isAtomic && decide (keys.length ≤ 1)) then (r, s)
  else
    let base := s.nextParty
    let place (a : LaneAcc) (i : Nat) : Nat := base + (if r.op.isAtomic then (keys.findIdx? fun k => k == a.keys).getD 0 else i)
    let acc := r.acc.zipIdx.map fun (a, i) => { a with own := place a i }
    let owns := (acc.map LaneAcc.own).eraseDups
    ({ r with acc := acc, owns := owns },
     { s with nextParty := base + r.acc.length }.joinClk r.party (owns.map fun p => (p, 1)))

/-- The first keys of pages given as pairs of first key and length. -/
def firstKeys : List Nat → List Nat
  | k :: _ :: l => k :: firstKeys l
  | _ => []

/-- The locations at whose homes a request is performed when it issues: an atomic there, or a seal (07 R191, 09 R262). -/
def MemReq.homeKeys (r : MemReq) : List Nat :=
  if r.op == MemOp.seal then r.acc.flatMap fun a => firstKeys a.keys
  else if r.op.isAtomic then (r.acc.filter fun a => a.pt == pointHome).flatMap LaneAcc.keys else []

/-- A memory instruction from stage 5 on: its checks, its translation, its accesses or its reservation, and what it leaves held. `useOs` are
the operands that it consumes. -/
def State.access (s : State) (cx : Cx) (os useOs : List Operand) (a : Access) : State :=
  let faults := s.stage5 cx.tm cx.who a.sp a.op a.acc
  let (die, core) := s.placeOfWho cx.who
  let ctxh := cx.tm.ctxh
  if !faults.isEmpty then s.raise cx.who cx.k (faultTrap cx.pc cx.word true a.op.kind (spCode a.sp) faults) none
  else if s.inTransit cx.tm cx.who a.sp a.op a.acc || s.replayFull cx || redWait cx a then s.hold cx
  else
    let party := cx.sp.party
    let (stamp, s) := s.tick party
    let clk := s.clkOf party
    let (ok, bad, lost, s) := s.xlateLanes cx.tm cx.who a.sp party clk a.op a.acc []
    let ok := ok.map fun x => { x with pt := atomPoint die core a.scope x.keys (inPriv a.sp x.ea) }
    -- the zero writes of the pages it meets happen before its accesses
    let some_ := !bad.isEmpty && a.ord != .plain
    let (r, s) := s.ownParties { op := a.op, sp := a.sp, scope := a.scope, ord := a.ord, acc := ok, party := party, clk := s.clkOf party, stamp := stamp,
                                 nc := a.nc, late := some_, held := some_ }
    if a.n = 0 then
      let s := (s.cross die true r.homeKeys).done cx
      let (o, s) := s.perform die core ctxh r (maskOf (ok.map LaneAcc.lane))
      let s := s.reqTraps cx.who cx.k cx.pc cx.word 0 r o
      (s.holdLanes cx.who cx.k cx.pc cx.word true cx.tm none r bad lost).consume cx useOs
    else
      let (free, s) := takeFrees s 32
      let id := s.nextPend
      let wait := maskOf (a.acc.map LaneAcc.lane)
      let off (l : Nat) : QEnt := if a.badAddr.contains l then ent (free.getD l 0) true else offEnt os l
      let s := s.reserve cx a.n wait off (.mem r)
      (s.holdLanes cx.who cx.k cx.pc cx.word true cx.tm (some id) r bad lost).consume cx useOs

/-! ## Loads, stores, prefetches -/

/-- The offset of R173: OFF, or the extension word when no read source field holds it. -/
def memOff (h : Hdr) (srcs : List (Nat × Src)) (off : BitVec 12) : Word :=
  match h.ext with
  | some w => if srcs.any fun f => f.2 == .imm then off.signExtend 64 else w
  | none => off.signExtend 64

/-- The operand with a field number. -/
def fieldOp (os : List Operand) (n : Nat) : Operand := (os.find? fun o => o.field == n).getD { field := n, sel := .zero, vals := [] }

/-- The lanes of an access: its effective address and its value words from the given fields. Lanes with a poisoned address are left out. -/
def accOf (cx : Cx) (os : List Operand) (off : Word) (fields : List Nat) : List LaneAcc :=
  (cx.lanes.filter fun l => !((fieldOp os 0).at l).poison).map fun l =>
    { lane := l, ea := (((fieldOp os 0).at l).v + off).toNat, ops := fields.map fun f => ((fieldOp os f).at l).v, keys := [], pt := 0,
      poisoned := fields.any fun f => ((fieldOp os f).at l).poison }

def badLanes (cx : Cx) (os : List Operand) : List Nat := cx.lanes.filter fun l => ((fieldOp os 0).at l).poison

/-- The forms a guide accepts: SP 1 and 2 (07 R172, R174). -/
def guideSp : Space → Bool
  | .global | .own => true
  | _ => false

/-- A load, store or atomic of the layout of R171. `fields` are the sources beside the address; `used` those whose poison it consumes. -/
def memInstr (s : State) (h : Hdr) (guide form : Bool) (m : MemF) (op : MemOp) (srcs : List (Nat × Src)) (fields used : List Nat) (n : Nat) :
    Host.Outcome State Fault Refusal :=
  run s h { Shape.user srcs (n != 0) with guide := guide, form := form } fun cx s =>
    if memWait cx (isRel m.ord) then s.holdEntries cx
    else
      let (os, s) := s.operands cx srcs (n != 0)
      s.access cx os (os.filter fun o => used.contains o.field)
        { op := op, sp := m.sp, scope := m.scope, ord := m.ord, acc := accOf cx os (memOff h srcs m.off) fields, badAddr := badLanes cx os, n := n,
          nc := m.ch == .nc }

-- DEDUCED (log 5, safe): A load or an atomic is translated and checked when it issues, and reads (and an atomic writes) when its values arrive.
def execLd (h : Hdr) (m : MemF) (s : State) : Host.Outcome State Fault Refusal :=
  memInstr s h true (guideSp m.sp) m (.load h.ty) (src1 h) [] [0] 1

def execLdPair (h : Hdr) (m : MemF) (s : State) : Host.Outcome State Fault Refusal :=
  memInstr s h true false m .loadPair (src1 h) [] [0] 2

def execSt (h : Hdr) (m : MemF) (s : State) : Host.Outcome State Fault Refusal :=
  memInstr s h true (guideSp m.sp) m (.store h.ty) (src2 h) [1] [0] 0

def execStPair (h : Hdr) (m : MemF) (s : State) : Host.Outcome State Fault Refusal :=
  memInstr s h true false m .storePair (src3 h) [1, 2] [0] 0

/-- The line that a prefetch names, where its address has a valid translation; it never faults (07 R177), but a walk that reads a poisoned entry
loses the context (17 R432). -/
def State.prefKey (s : State) (cx : Cx) (sp : Space) (ea : Nat) : Option Nat × State :=
  match placeOf s cx.tm cx.who sp ea 1 with
  | .error _ => (none, s)
  | .ok p =>
    match s.keysAt cx.sp.party (s.clkOf cx.sp.party) cx.tm.asid { write := false, fetch := false, super := cx.who.isHandler } p 1 with
    | (.ok (k :: _), s') => (some k, s')
    | (.error .lost, s') => (none, s'.loseContext cx.tm.asid 0x74 cx.tm.ctxh 0)
    | (_, s') => (none, s')

/-- `pref`: the fills of the lines named; no value changes. -/
def prefetch (s : State) (h : Hdr) (m : MemF) (l1 : Bool) : Host.Outcome State Fault Refusal :=
  act s h (Shape.user (src1 h) false) fun cx os s =>
    let (die, core) := s.placeOfWho cx.who
    let s := (accOf cx os (memOff h (src1 h) m.off) []).foldl (fun s a =>
      match s.prefKey cx m.sp a.ea with
      | (some k, s) =>
        if isSpKey k then s
        else (s.cross die false [k]).fillLines die core [k] l1
      | (none, s) => s) s
    s.done cx

def execPrefL1 (h : Hdr) (m : MemF) (s : State) : Host.Outcome State Fault Refusal := prefetch s h m true
def execPrefL2 (h : Hdr) (m : MemF) (s : State) : Host.Outcome State Fault Refusal := prefetch s h m false

/-! ## Block loads and stores -/

/-- The lanes of a group and its lowest active lane (07 R178). -/
def groupLanes (f : BlkFmt) (l : Nat) : List Nat := (List.range (blkLanes f)).map (l / blkLanes f * blkLanes f + ·)
def groupLead (cx : Cx) (f : BlkFmt) (l : Nat) : Nat := ((groupLanes f l).find? fun q => cx.mask.getLsbD q).getD l

-- DEDUCED (log 30, unsafe): the extension word of a block instruction that holds no selector 25 is the offset of its element area and not of its scale.
/-- The sources of a block load: its leader's address is read in active lanes, switched on or not. The extension word is an offset where no
selector 25 reads it (05 R108). -/
def execLdblk (h : Hdr) (sp : Space) (f : BlkFmt) (s : State) : Host.Outcome State Fault Refusal :=
  let mx := !Wf.seBlock f
  let srcs := if mx then src2 h else src1 h
  run s h { Shape.user srcs true with block := blkLanes f } fun cx s =>
    if memWait cx false then s.holdEntries cx
    else
      -- every active lane reads its sources, as a leader may be switched off
      let (os, s) := s.operands { cx with on := cx.mask } srcs true
      let bad (l : Nat) : Bool := ((fieldOp os 0).at (groupLead cx f l)).poison || (mx && ((fieldOp os 1).at (groupLead cx f l)).poison)
      let acc : List LaneAcc := (cx.lanes.filter fun l => !bad l).map fun l =>
        { lane := l, ea := (((fieldOp os 0).at (groupLead cx f l)).v + memOff h srcs 0).toNat, ops := [((fieldOp os 1).at (groupLead cx f l)).v], keys := [], pt := 0,
          poisoned := false }
      let used := os.map fun o => { o with vals := (List.range 32).map fun l => o.at (groupLead cx f l) }
      s.access cx os used
        { op := .ldblk f, sp := sp, scope := .team, ord := .plain, acc := acc, badAddr := cx.lanes.filter bad, n := 1 }

/-- A number as `n` words, lowest first. -/
def wordsOf (n v : Nat) : List Word := (List.range n).map fun i => wordOf (v / 2 ^ (64 * i) % 2 ^ 64)

/-- The words of a block to be stored: for SE, E and MU stand before the elements; for MX the scale byte follows them (04 R89, R92). -/
def blockData (f : BlkFmt) (ws : List Word) : List Word :=
  let lead := (ws.headD 0).toNat
  let area := (ws.zipIdx.map fun (w, j) => fieldOf w.toNat 0 (elemBits f) * 2 ^ (j * elemBits f)).sum
  let ex := fieldOf lead 8 8
  wordsOf 5 (if Wf.seBlock f then ex + fieldOf lead 16 8 * 2 ^ 8 + area * 2 ^ 16 else area + ex * 2 ^ (8 * areaBytes f))

/-- An operand as it is used in some lanes only. -/
def onlyLanes (ls : List Nat) (o : Operand) : Operand :=
  let vals := (List.range 32).map fun l => if ls.contains l then Operand.at o l else { v := 0, poison := false }
  { o with vals := vals }

/-- `stblk`: each group that is wholly switched on (07 R178). -/
def execStblk (h : Hdr) (sp : Space) (f : BlkFmt) (s : State) : Host.Outcome State Fault Refusal :=
  let mx := !Wf.seBlock f
  let srcs := if mx then src3 h else src2 h
  run s h (Shape.user srcs false) fun cx s =>
    if memWait cx false then s.holdEntries cx
    else
      let (os, s) := s.operands cx srcs false
      let g := blkLanes f
      let leads := ((List.range (32 / g)).map (g * ·)).filter fun b => (groupLanes f b).all fun l => cx.on.getLsbD l
      let bad (b : Nat) : Bool := ((fieldOp os 0).at b).poison || (mx && ((fieldOp os 2).at b).poison)
      let acc : List LaneAcc := (leads.filter fun b => !bad b).map fun b =>
        { lane := b, ea := (((fieldOp os 0).at b).v + memOff h srcs 0).toNat,
          ops := blockData f ((groupLanes f b).map fun l => ((fieldOp os 1).at l).v) ++ [((fieldOp os 2).at b).v], keys := [], pt := 0,
          poisoned := (groupLanes f b).any fun l => ((fieldOp os 1).at l).poison }
      let used := (os.filter fun o => o.field != 1).map (onlyLanes leads)
      s.access cx os used { op := .stblk f, sp := sp, scope := .team, ord := .plain, acc := acc, badAddr := [], n := 0 }

/-! ## seal and ifence -/

-- DESIGN CHOICE (log 63, unsafe): A length of 0, below the least length of R185 but no fault of R422, names an empty range.
/-- The stage 5 failure of a lane of `seal` (17 R421 reason 8, R422 reason 2). -/
def sealFault (l base len : Nat) : Option LaneFault :=
  if base + len > globalTop then some { lane := l, f := MFault.window 8, ea := base, size := 0 }
  else if base % 4096 ≠ 0 ∨ len % 4096 ≠ 0 ∨ len > 2 ^ 40 then some { lane := l, f := alignFault 2, ea := base, size := 0 }
  else none

-- DEDUCED (log 32, safe and in part unsafe): see notes/assumptions/32.md.
def execSeal (h : Hdr) (s : State) : Host.Outcome State Fault Refusal :=
  run s h (Shape.user (src3 h) false) fun cx s =>
    if memWait cx true then s.holdEntries cx
    else
      let (os, s) := s.operands cx (src3 h) false
      let acc := accOf cx os 0 [1, 2]
      let faults := acc.filterMap fun a => sealFault a.lane a.ea (a.ops.headD 0).toNat
      if !faults.isEmpty then s.raise cx.who cx.k (faultTrap cx.pc cx.word true 8 1 faults) none
      else s.access cx os os { op := .seal, sp := .global, scope := .system, ord := .rel, acc := acc, badAddr := [], n := 0 }

/-- `ifence`: the split's writes performed at device scope, an acquire there, and its warp's fetches forget what they have read
(07 R186, 10 R285). -/
def execIfence (h : Hdr) (s : State) : Host.Outcome State Fault Refusal :=
  run s h (Shape.user [] false) fun cx s =>
    if memWait cx true then s.holdEntries cx
    else
      let (die, core) := s.placeOfWho cx.who
      let s := ((s.pushLines die core .device).acqFence cx.sp.party .device).dropLines die core .device
      s.doneWith cx fun t => { t with fetched := [] }

end Sys2Proof.Machine
end

