-- ==== Sys2Proof/Machine/Preds.lean ====
section
/-!
DEFINITION. The predicate and comparison instructions (06 R159, R132, 17 R434).
-/
namespace Sys2Proof.Machine

/-- The condition of `cmp` and `mwait` on exact integers. -/
def Cond.holds (c : Cond) (a b : Int) : Bool :=
  match c with
  | .eq => decide (a = b)
  | .ne => decide (a ≠ b)
  | .lt => decide (a < b)
  | .le => decide (a ≤ b)
  | .gt => decide (a > b)
  | .ge => decide (a ≥ b)

/-- The value written to PD under BOP. -/
def bopMask (b : Bop) (old t : Mask) : Mask :=
  match b with
  | .set => t
  | .and => old &&& t
  | .or => old ||| t
  | .xor => old ^^^ t

/-- A comparison: in a lane that consumes a poisoned word the predicate becomes false. -/
def compareOp (s : State) (h : Hdr) (bop : Bop) (pd : Pred) (f : Cx → List Word → Bool × Flags) : Host.Outcome State Fault Refusal :=
  act s h (Shape.user (src2 h) false) fun cx os s =>
    let t := maskOf (cx.lanes.filter fun l => (f cx (valsAt os l)).1)
    let good := ~~~(maskOf (cx.lanes.filter (poisonAt os)))
    let s := s.doneWith cx fun w => w.writePred (some pd) cx.on (bopMask bop (w.pred (some pd)) t &&& good)
    (s.flagsNow cx (cx.lanes.map fun l => (l, (f cx (valsAt os l)).2))).consume cx os

def execCmp (h : Hdr) (cc : Cond) (bop : Bop) (pd : Pred) (s : State) : Host.Outcome State Fault Refusal :=
  compareOp s h bop pd fun _ v => (Cond.holds cc (intOf h.ty (arg v 0)) (intOf h.ty (arg v 1)), 0)

def execFcmp (h : Hdr) (cc : FCond) (bop : Bop) (pd : Pred) (s : State) : Host.Outcome State Fault Refusal :=
  compareOp s h bop pd fun cx v =>
    let a := readF h.ty cx.t.ftz (arg v 0)
    let b := readF h.ty cx.t.ftz (arg v 1)
    (fCond cc a b, if a.isSig || b.isSig then fNV else 0)

def plogMask (op : PlogOp) (a b : Mask) : Mask :=
  match op with
  | .and => a &&& b
  | .or => a ||| b
  | .xor => a ^^^ b
  | .andn => a &&& ~~~b
  | .not => ~~~a
  | .mov => a

def execPlog (h : Hdr) (op : PlogOp) (pa pb : Option Pred) (pd : Pred) (s : State) : Host.Outcome State Fault Refusal :=
  act s h (Shape.user [] false) fun cx _ s =>
    s.doneWith cx fun t => t.writePred (some pd) cx.on (plogMask op (t.pred pa) (t.pred pb))

def execPget (h : Hdr) (s : State) : Host.Outcome State Fault Refusal :=
  act s h (Shape.user (srcOff h) true) fun cx os s =>
    let bit (m : Mask) (l n : Nat) : Nat := if m.getLsbD l then n else 0
    s.finish cx 1 fun l =>
      if cx.on.getLsbD l then [ent (wordOf (bit cx.t.p3 l 8 + bit cx.t.p2 l 4 + bit cx.t.p1 l 2 + 1)) false] else [offEnt os l]

def execPput (h : Hdr) (s : State) : Host.Outcome State Fault Refusal :=
  act s h (Shape.user (src1 h) false) fun cx os s =>
    let set (n : Nat) : Mask := maskOf (cx.lanes.filter fun l => bitOf (arg (valsAt os l) 0).toNat n && !poisonAt os l)
    (s.doneWith cx fun t => ((t.writePred (some .p1) cx.on (set 1)).writePred (some .p2) cx.on (set 2)).writePred (some .p3) cx.on
      (set 3)).consume cx os

end Sys2Proof.Machine
end

