-- ==== Sys2Proof/Machine/Sync.lean ====
section
/-!
DEFINITION. The synchronisation instructions: fences, barriers, monitors, locks and software edges (07 R192 to R202, 10 R281, 16 R404,
18 R437 to R459).
-/
namespace Sys2Proof.Machine

/-! ## Fences (07 R193, 10 R281) -/

/-- A fence waits for the split's requests whose values have not arrived, and then takes its effect. -/
def fenceAs (s : State) (h : Hdr) (f : Cx → Nat → Nat → State → State) : Host.Outcome State Fault Refusal :=
  act s h (Shape.user [] false) fun cx _ s =>
    if memWait cx true then s.holdEntries cx
    else
      let (die, core) := s.placeOfWho cx.who
      (f cx die core s).done cx

def execFence (h : Hdr) (sc : Scope) (s : State) : Host.Outcome State Fault Refusal :=
  fenceAs s h fun cx die core s => ((s.pushLines die core sc).fullFence cx.sp.party sc).dropLines die core sc

def execFenceAcq (h : Hdr) (sc : Scope) (s : State) : Host.Outcome State Fault Refusal :=
  fenceAs s h fun cx die core s => (s.acqFence cx.sp.party sc).dropLines die core sc

def execFenceRel (h : Hdr) (sc : Scope) (s : State) : Host.Outcome State Fault Refusal :=
  fenceAs s h fun cx die core s => (s.pushLines die core sc).relFence cx.sp.party sc

/-! ## Barriers -/

/-- The clocks of the completed generations that some lanes of a mask arrived in. -/
def Bar.joined (b : Bar) (gens : List Nat) : Clock := ((b.done.filter fun d => gens.contains d.1).map Prod.snd).foldl clkJoin []

/-- The end of a wait at a team barrier: an acquire at team scope (07 R195). -/
def State.endBar (s : State) (cx : Cx) (bid : Nat) : State :=
  let mine (a : Nat × Nat × Nat) : Bool := cx.mask.getLsbD a.1 && a.2.1 == bid
  let b := cx.tm.bars.getD bid Bar.zero
  let s := s.joinClk cx.sp.party (b.joined ((cx.t.barArr.filter mine).map fun a => a.2.2))
  (s.dropEdges cx.who cx.k false).updThread cx.who fun t => { t with barArr := t.barArr.filter fun a => !mine a }

/-- The active lanes recorded as arrived in the current generation, and a generation that this completes (07 R194). -/
def State.arriveBar (s : State) (cx : Cx) (bid cnt : Nat) : State :=
  let b := cx.tm.bars.getD bid Bar.zero
  let clk := s.clkOf cx.sp.party
  let s := s.updTeam cx.tm.ctxh fun t => { t with bars := setAt t.bars bid (b.arrive (barKey cx.who) cnt cx.mask clk) }
  let new := (lanesOf cx.mask).map fun l => (l, bid, b.gen)
  let s := s.updThread cx.who fun t => { t with barArr := new ++ t.barArr.filter (fun a => !(cx.mask.getLsbD a.1 && a.2.1 == bid)) }
  s.checkBars cx.tm.ctxh

/-- A barrier wait of this split goes on; one that has not begun begins (18 R440). -/
def State.waitOn (s : State) (cx : Cx) (kind obj : Nat) (w : Wait) (record : State → State) : State :=
  if stillWaiting cx w then s else s.beginWait cx kind obj obj w record

/-- An arrival in the generation a team barrier counts: earlier arrivals of its lanes are waited for first (07 R195). -/
def State.barArrival (s : State) (cx : Cx) (bid : Nat) (go : State → State) : State :=
  if memWait cx true then s.holdEntries cx
  else if barBlocked cx.t cx.tm.bars cx.mask bid then s.waitOn cx 2 bid (.bar bid false) fun s => s
  else go (if stillWaiting cx (.bar bid false) then s.endBar cx bid else s)

/-- The team as it stands now. -/
def Cx.now (cx : Cx) (s : State) : Cx :=
  { cx with tm := (s.team? cx.tm.ctxh).getD cx.tm, t := (s.thread? cx.who).getD cx.t }

def execBarPost (h : Hdr) (bid : BitVec 4) (cnt : BitVec 8) (s : State) : Host.Outcome State Fault Refusal :=
  act s h (Shape.user [] false) fun cx _ s =>
    s.barArrival cx bid.toNat fun s => (s.arriveBar cx bid.toNat cnt.toNat).done cx

def execBarAwait (h : Hdr) (bid : BitVec 4) (s : State) : Host.Outcome State Fault Refusal :=
  act s h (Shape.user [] false) fun cx _ s =>
    if barBlocked cx.t cx.tm.bars cx.mask bid.toNat then s.waitOn cx 2 bid.toNat (.bar bid.toNat false) fun s => s
    else (s.endBar cx bid.toNat).done cx

/-- `bar.meet`: an arrival that completes its generation registers no edge; any other registers it and walks before it is recorded
(18 R440). -/
def execBarMeet (h : Hdr) (bid : BitVec 4) (cnt : BitVec 8) (s : State) : Host.Outcome State Fault Refusal :=
  act s h (Shape.user [] false) fun cx _ s =>
    let b := bid.toNat
    let finish (s : State) : State := (s.endBar (cx.now s) b).done cx
    if stillWaiting cx (.bar b true) then
      if barBlocked cx.t cx.tm.bars cx.mask b then s else finish s
    else s.barArrival cx b fun s =>
      let s' := s.arriveBar cx b cnt.toNat
      if barBlocked (cx.now s').t (cx.now s').tm.bars cx.mask b then
        s.beginWait cx 2 b b (.bar b true) fun s => s.arriveBar cx b cnt.toNat
      else finish s'

/-- The cluster barrier that a split sees. -/
def State.cbarOf (s : State) (cx : Cx) : Bar := ((s.cluster? cx.tm.cluster).map Cluster.bar).getD Bar.zero

/-- The end of a wait at the cluster barrier: an acquire at cluster scope (07 R196). -/
def State.endCbar (s : State) (cx : Cx) : State :=
  let (die, core) := s.placeOfWho cx.who
  let gens := (cx.t.cbarArr.filter fun a => cx.mask.getLsbD a.1).map Prod.snd
  let s := (s.joinClk cx.sp.party ((s.cbarOf cx).joined gens)).dropLines die core .cluster
  (s.dropEdges cx.who cx.k false).updThread cx.who fun t => { t with cbarArr := t.cbarArr.filter fun a => !cx.mask.getLsbD a.1 }

/-- An arrival at the cluster barrier: a release at cluster scope. -/
def State.arriveCbar (s : State) (cx : Cx) : State :=
  let (die, core) := s.placeOfWho cx.who
  let b := s.cbarOf cx
  let clk := s.clkOf cx.sp.party
  let s := (s.pushLines die core .cluster).updCluster cx.tm.cluster fun c =>
    { c with bar := b.arrive (cx.tm.rank * 128 + barKey cx.who) 0 cx.mask clk }
  let new := (lanesOf cx.mask).map fun l => (l, b.gen)
  let s := s.updThread cx.who fun t => { t with cbarArr := new ++ t.cbarArr.filter (fun a => !cx.mask.getLsbD a.1) }
  s.checkCbar cx.tm.cluster

def State.cbarArrival (s : State) (cx : Cx) (go : State → State) : State :=
  if memWait cx true then s.holdEntries cx
  else if cbarBlocked cx.t (s.cbarOf cx) cx.mask then s.waitOn cx 3 0 (.cbar false) fun s => s
  else go (if stillWaiting cx (.cbar false) then s.endCbar cx else s)

def execCbarPost (h : Hdr) (s : State) : Host.Outcome State Fault Refusal :=
  act s h (Shape.user [] false) fun cx _ s => s.cbarArrival cx fun s => (s.arriveCbar cx).done cx

def execCbarAwait (h : Hdr) (s : State) : Host.Outcome State Fault Refusal :=
  act s h (Shape.user [] false) fun cx _ s =>
    if cbarBlocked cx.t (s.cbarOf cx) cx.mask then s.waitOn cx 3 0 (.cbar false) fun s => s
    else (s.endCbar cx).done cx

def execCbarMeet (h : Hdr) (s : State) : Host.Outcome State Fault Refusal :=
  act s h (Shape.user [] false) fun cx _ s =>
    let finish (s : State) : State := (s.endCbar (cx.now s)).done cx
    if stillWaiting cx (.cbar true) then
      if cbarBlocked cx.t (s.cbarOf cx) cx.mask then s else finish s
    else s.cbarArrival cx fun s =>
      let s' := s.arriveCbar cx
      if cbarBlocked (cx.now s').t (s'.cbarOf cx) cx.mask then s.beginWait cx 3 0 0 (.cbar true) fun s => s.arriveCbar cx
      else finish s'

/-! ## One naturally aligned location of a lane -/

/-- The keys of one location as stages 5 and 7 give them; `bad` is the failed lane, with `held` when its request is held. -/
inductive OneLoc where
  | ok (keys : List Nat) | bad (f : LaneFault) (held : Bool) | lost
  deriving DecidableEq, Repr

/-- A lane's location of `n` bytes checked and translated, with write rights or without (16 R389, 17 R415). -/
def State.oneLoc (s : State) (cx : Cx) (sp : Space) (write : Bool) (lane ea n : Nat) : OneLoc × State :=
  let e : Elem := { lane := lane, ea := ea, size := n, align := true }
  match s.elemFault cx.tm cx.who sp e with
  | some f => (.bad f false, s)
  | none =>
    match s.xlateElems cx.tm cx.who sp cx.sp.party (s.clkOf cx.sp.party) { write := write, fetch := false, super := cx.who.isHandler } [e] with
    | (.ok ks, s) => (.ok ks, s)
    | (.bad f, s) => (.bad f true, s)
    | (.lost, s) => (.lost, s)

/-- The trap of failed locations of a lock, monitor or wait registration, KIND 6. A request that failed its translation is issued again at
the replay (15 R379). -/
def State.locFail (s : State) (cx : Cx) (sp : Space) (held : Bool) (fs : List LaneFault) : State :=
  let s := if held && !cx.who.isHandler then
      s.holdReq { who := cx.who, spl := cx.k, pc := cx.pc, word := cx.word, lanes := maskOf (fs.map LaneFault.lane), req := .slot }
    else s
  s.raise cx.who cx.k (faultTrap cx.pc cx.word true 6 (spCode sp) fs) none

/-! ## Locks -/

/-- Lock misuse (18 R458). -/
def State.lockUse (s : State) (cx : Cx) (lane ea reason held : Nat) : State := s.fail cx 0x34 (bitMask lane) ea (reason + 16 * held)

-- DESIGN CHOICE (log 63, unsafe): A lock and a software hold of one address by one warp count as one object toward the 16.
/-- Objects a warp holds: locks and software holds, recorded in the table or not (07 R200, 18 R449). -/
def State.heldCount (s : State) (cx : Cx) : Nat :=
  let ks := cx.t.heldLocks.map fun l => l.2.1
  cx.t.locks + (s.objs.filter fun o => !o.lock && names cx.who o.ctxh o.warp && !ks.contains o.key).length +
    (cx.t.softHolds.filter fun k => !ks.contains k).length

/-- The location that an instruction names in its lowest switched-on lane; `skip` runs where no lane is switched on or the address is
poisoned, and tells the two apart. `misuse` is the lock misuse that its address shows, which stands before a failed translation (16 R389). -/
def State.leadLoc (s : State) (cx : Cx) (os : List Operand) (sp : Space) (write : Bool) (misuse : Nat → Option Nat) (skip : Option Nat → State → State)
    (body : Nat → Nat → List Nat → State → State) : State :=
  match cx.lead with
  | none => skip none s
  | some l =>
    let a := (fieldOp os 0).at l
    if a.poison then skip (some l) s
    else
      if s.replayFull cx then s.hold cx
      else match s.oneLoc cx sp write l a.v.toNat 8 with
      | (.bad f held, s) => match (if held then misuse a.v.toNat else none) with
        | some reason => s.lockUse cx l a.v.toNat reason (s.heldCount cx)
        | none => s.locFail cx sp held [f]
      | (.lost, s) => s.loseContext cx.tm.asid 0x74 cx.tm.ctxh 0
      | (.ok ks, s) => body l a.v.toNat ks s

/-- The address as the lead lane alone uses it. -/
def leadUse (cx : Cx) (os : List Operand) : List Operand := (os.filter fun o => o.field == 0).map (onlyLanes cx.lead.toList)

/-- Whether the tables say that a warp holds the lock, or has the software hold, of an address. -/
def State.holdsAt (s : State) (cx : Cx) (lock : Bool) (ea : Nat) : Bool :=
  s.objs.any fun o => o.lock == lock && o.addr == ea && names cx.who o.ctxh o.warp

/-- The lowest free object-table index of a home, among its 4,096 (18 R449). -/
def State.freeObj (s : State) (md : Nat) : Option Nat :=
  let used := (s.objs.filter fun o => o.mdie == md).map Obj.idx
  (List.range (min 4096 (used.length + 1))).find? fun i => !used.contains i

/-- The status of an `acq` pushed in every switched-on lane once it has arrived. -/
def State.pushStatus (s : State) (cx : Cx) (os : List Operand) (n : Nat) : State :=
  s.reserve cx 1 cx.on (offEnt os) (.value (cx.lanes.map fun l => (l, [wordOf n])) [] [])

/-- The lock taken at its home by the split: the word set, the holder recorded, the acquire due before the status (07 R198). -/
def State.takeLock (s : State) (cx : Cx) (os : List Operand) (sc : Scope) (ea : Nat) (ks : List Nat) (entry : Option Nat) : State :=
  let party := cx.sp.party
  let k := ks.headD 0
  let (n, s) := s.tick party
  let (ps, s) := s.readPicks party (s.clkOf party) n (some pointHome) ks
  let s := s.noteRead party n ps
  let clk := ((relsRead ps).filter fun r => s.syncs r party sc).foldl (fun c r => clkJoin c r.clk) []
  let wid := s.nextWrite
  let s := (s.write party (cellsOf k 8 1) none (some pointHome) (ps.filterMap fun p => p.w.map fun w => (p.key, w)) false).landHome
    (some cx.tm.die) ks wid
  let s := match entry with
    | some i => { s with objs := { idx := i, mdie := mdieOf k, addr := ea, key := k, lock := true, ctxh := cx.tm.ctxh, warp := cx.who.warpNo } :: s.objs }
    | none => s.countOvf cx.tm.die
  let s := s.updThread cx.who fun t => { t with locks := t.locks + 1, heldLocks := (ea, k, sc) :: t.heldLocks }
  s.reserve cx 1 cx.on (offEnt os) (.acquired sc clk)

/-- A home that cannot be reached or refuses the write: the request is a failed item (17 R427, R431). -/
def State.lockFailed (s : State) (cx : Cx) (sp : Space) (ks : List Nat) (lane ea cause reason : Nat) : State :=
  let f : LaneFault := { lane := lane, f := { cause := cause, reason := reason, tgt := tgtOf ks, lvl := 0, rank := 0, seg := 0, off := 0 }, ea := ea, size := 8 }
  let tr := faultTrap cx.pc cx.word true 6 (spCode sp) [f]
  s.raise cx.who cx.k tr (some { kind := 3, cause := cause, addr := tr.addr, lanes := tr.lanes, warp := cx.who.warpNo, guide := false, spl := cx.k })

/-- An `acq` whose request is a failed item: its lanes are poisoned. -/
def State.acqFailed (s : State) (cx : Cx) (os : List Operand) (sp : Space) (ks : List Nat) (lane ea cause reason : Nat) : State :=
  let (w, s) := takeFree s
  (s.reserve cx 1 cx.on (offEnt os) (.value (cx.lanes.map fun l => (l, [w])) [] cx.lanes)).lockFailed cx sp ks lane ea cause reason

-- DEDUCED (log 67, safe and in part unsafe): The write of an acq into a sealed range has the fate of an atomic at the home.
/-- An `acq` at its home: granted, busy, or waiting in the home's grant order (07 R198, 16 R404, 18 R449, R458). -/
def State.acqAt (s : State) (cx : Cx) (os : List Operand) (sp : Space) (sc : Scope) (try_ : Bool) (lane ea : Nat) (ks : List Nat) : State :=
  let k := ks.headD 0
  let held := s.heldCount cx
  let own := s.objs.any fun o => o.lock && o.key == k && names cx.who o.ctxh o.warp
  let s := s.cross cx.tm.die true ks
  -- misuse is a failure of stage 5, and an unreachable target shows after issue (16 R389)
  if own && !try_ then s.lockUse cx lane ea 1 held
  else if !own && decide (held ≥ 16) then s.lockUse cx lane ea 2 held
  else match s.remoteFail ks with
  | (some reason, s) => s.acqFailed cx os sp ks lane ea 0x28 reason
  | (none, s) =>
    let (v, s') := s.homeRead ks
    if own then s.pushStatus cx os 1
    else if v = 0 && !(s.lockQ.any fun w => w.key == k) then
      if s.sealed k then s'.acqFailed cx os sp ks lane ea 0x27 0
      else match s.freeObj (mdieOf k) with
      | none =>
        if s.strict cx.tm.die then s.fail cx 0x32 cx.mask ea (1 + 2 * mdieOf k + 16) else s'.takeLock cx os sc ea ks none
      | some i => s'.takeLock cx os sc ea ks (some i)
    else if try_ then s'.pushStatus cx os 1
    else s'.beginWait cx 0 ea k (.lock ea) fun s =>
      { s with lockQ := s.lockQ ++ [{ addr := ea, key := k, who := cx.who, spl := cx.k, scope := sc, order := s.nextId }], nextId := s.nextId + 1 }

/-- `acq` and `acq.try`; an ended lock wait completes without a new request (18 R437, R447). -/
def acqInstr (s : State) (h : Hdr) (sp : Space) (sc : Scope) (try_ : Bool) : Host.Outcome State Fault Refusal :=
  act s h (Shape.user (src1 h) true) fun cx os s =>
    match cx.sp.wait with
    | some .granted => s.reserve cx 1 cx.on (offEnt os) (.acquired sc [])
    | some .aborted => s.pushStatus cx os 2
    | some (.lock _) => s
    | _ =>
      if memWait cx false then s.holdEntries cx
      else s.leadLoc cx os sp true
        (fun ea => if !try_ && s.holdsAt cx true ea then some 1 else if decide (s.heldCount cx ≥ 16) && !s.holdsAt cx true ea then some 2 else none)
        (fun bad s => match bad with
          | none => s.finish cx 1 fun l => [offEnt os l]
          | some l =>
            let (v, s) := takeFree s
            (s.reserve cx 1 cx.on (offEnt os) (.value (cx.lanes.map fun x => (x, [v])) [] [l])).consume cx (leadUse cx os))
        fun l ea ks s => s.acqAt cx os sp sc try_ l ea ks

-- DEDUCED (log 26, unsafe): see notes/assumptions/26.md.
def execAcq (h : Hdr) (sp : Space) (sc : Scope) (s : State) : Host.Outcome State Fault Refusal := acqInstr s h sp sc false
def execAcqTry (h : Hdr) (sp : Space) (sc : Scope) (s : State) : Host.Outcome State Fault Refusal := acqInstr s h sp sc true

/-- `rel` (07 R199, 18 R458, R459). -/
def execRel (h : Hdr) (sp : Space) (sc : Scope) (s : State) : Host.Outcome State Fault Refusal :=
  act s h (Shape.user (src1 h) false) fun cx os s =>
    if memWait cx true then s.holdEntries cx
    else s.leadLoc cx os sp true (fun _ => if cx.t.locks = 0 then some 3 else none) (fun _ s => (s.done cx).consume cx (leadUse cx os)) fun l ea ks s =>
      let k := ks.headD 0
      let held := s.heldCount cx
      let entry := s.objs.find? fun o => o.lock && o.key == k
      let s := s.cross cx.tm.die true ks
      if cx.t.locks = 0 then s.lockUse cx l ea 3 held
      else if entry.any fun o => !names cx.who o.ctxh o.warp then s.lockUse cx l ea 4 held
      else match s.remoteFail ks with
      | (some reason, s) => (s.done cx).lockFailed cx sp ks l ea 0x28 reason
      | (none, s) =>
        let (v, s') := s.homeRead ks
        if entry.isSome && v == 0 then s.lockUse cx l ea 4 held
        else
          let (die, core) := s'.placeOfWho cx.who
          ((s'.pushLines die core sc).unlock cx.sp.party k sc).doneWith cx fun t =>
            { t with locks := t.locks - 1, heldLocks := t.heldLocks.filter fun x => x.2.1 != k }

/-! ## Software edges (07 R200) -/

/-- An instruction that names an object with its lowest switched-on lane; read rights suffice (17 R415). -/
def objInstr (s : State) (h : Hdr) (sp : Space) (misuse : Cx → Nat → Option Nat) (f : Cx → Nat → Nat → Nat → State → State) : Host.Outcome State Fault Refusal :=
  act s h (Shape.user (src1 h) false) fun cx os s =>
    s.leadLoc cx os sp false (misuse cx) (fun _ s => (s.done cx).consume cx (leadUse cx os)) fun l ea ks s => f cx l ea (ks.headD 0) s

/-- Whether a warp has a software hold on a location. -/
def State.holdsSoft (s : State) (cx : Cx) (k : Nat) : Bool :=
  cx.t.softHolds.contains k || s.objs.any fun o => !o.lock && o.key == k && names cx.who o.ctxh o.warp

-- DESIGN CHOICE (log 63, unsafe): An object whose address is not in device memory is accepted and kept in the table of the memory die that its location's number names.
/-- `wreg.hold`: a second registration of one object by its warp changes nothing; a hold that finds no entry stands all the same (18 R449,
R451). -/
def execWregHold (h : Hdr) (sp : Space) (s : State) : Host.Outcome State Fault Refusal :=
  objInstr s h sp (fun cx ea => if decide (s.heldCount cx ≥ 16) && !s.holdsAt cx false ea then some 2 else none) fun cx l ea k s =>
    let held := s.heldCount cx
    if s.holdsSoft cx k then s.done cx
    else if held ≥ 16 then s.lockUse cx l ea 2 held
    else if !cx.who.isUser then s.done cx
    else
      match s.freeObj (mdieOf k) with
      | none => if s.strict cx.tm.die then s.fail cx 0x32 cx.mask ea (1 + 2 * mdieOf k)
        else (s.countOvf cx.tm.die).doneWith cx fun t => { t with softHolds := k :: t.softHolds }
      | some i =>
        ({ s with objs := { idx := i, mdie := mdieOf k, addr := ea, key := k, lock := false, ctxh := cx.tm.ctxh, warp := cx.who.warpNo } :: s.objs }).done cx

/-- `wreg.wait`: it completes, and a cycle that its edge closes traps at the split's next instruction (18 R500). -/
def execWregWait (h : Hdr) (sp : Space) (s : State) : Host.Outcome State Fault Refusal :=
  objInstr s h sp (fun _ _ => none) fun cx _ ea k s =>
    let next := s.wordAt cx.who cx.tm cx.sp.party cx.nextPc
    match (s.dropEdges cx.who cx.k true).freeEdge cx.tm.die, s.strict cx.tm.die, cx.who.isUser with
    | none, true, true => s.fail cx 0x32 cx.mask ea 16
    | _, _, _ =>
      let s := s.done cx
      match s.register (cx.now s) 1 ea k cx.nextPc next with
      | (.yes, s) => s.updSplit cx.who cx.k fun sp => { sp with soft := some ea }
      | (.trapped, s) => s.updSplit cx.who cx.k fun sp => { sp with soft := some ea }
      | (.no, s) => s

def execWdropHold (h : Hdr) (sp : Space) (s : State) : Host.Outcome State Fault Refusal :=
  objInstr s h sp (fun _ _ => none) fun cx _ _ k s =>
    ({ s with objs := s.objs.filter fun o => !(!o.lock && o.key == k && names cx.who o.ctxh o.warp) }).doneWith cx fun t =>
      { t with softHolds := t.softHolds.filter fun x => x != k }

def execWdropWait (h : Hdr) (sp : Space) (s : State) : Host.Outcome State Fault Refusal :=
  objInstr s h sp (fun _ _ => none) fun cx _ _ k s =>
    let mine (e : Edge) : Bool := e.kind == 1 && e.key == k && names cx.who e.ctxh e.warp && e.spl == cx.k
    let s' := { s with edges := s.edges.filter fun e => !mine e }
    ((if s.edges.any mine then s'.updSplit cx.who cx.k fun sp => { sp with soft := none } else s')).done cx

/-! ## Monitors (07 R197, 09 R266) -/

/-- The monitor point of some keys: 0 a core's scratchpad, 1 the issuing die's L2, 2 the home. -/
def State.monPoint (s : State) (die : Nat) (sc : Scope) (ks : List Nat) : MonLoc :=
  let k := ks.headD 0
  if isSpKey k then
    let serial := (k - 2 ^ 62) / 2 ^ 22
    { point := 0, place := ((s.teams.find? fun t => t.serial == serial).map fun t => coreId t.die t.core).getD 0, keys := ks }
  else match sc with
    | .team | .cluster => { point := 1, place := die, keys := ks }
    | _ => { point := 2, place := mdieOf k, keys := ks }

/-- Entries that the front end's WAIT_VALUE packets hold at a home (18 R457): packets of type 3 whose first word says that they are armed. -/
def State.feMonitors (s : State) (md : Nat) : Nat :=
  (s.queues.flatMap fun q => q.runs.filter fun r => r.type == 3 && !r.complete && r.args.getD 0 0 == 1 && mdieOf (r.args.getD 1 0).toNat == md).length

/-- Entries in use at a point, and its size for programs. -/
def State.monUsed (s : State) (l : MonLoc) : Nat :=
  (s.monitors.flatMap fun m => m.locs.filter fun x => x.point == l.point && x.place == l.place).length +
    (if l.point == 2 then s.feMonitors l.place else 0)

def monSize (point : Nat) : Nat := if point = 0 then 64 else if point = 1 then 1024 else 2048 - 128

/-- The first location of a list that finds no free entry. -/
def State.monFull (s : State) : List MonLoc → List MonLoc → Option Nat
  | _, [] => none
  | before, l :: ls =>
    let mine := (before.filter fun x => x.point == l.point && x.place == l.place).length
    if s.monUsed l + mine ≥ monSize l.point then some before.length else s.monFull (before ++ [l]) ls

/-- What reading the locations of an `mwait` gave: a value and its mark for each location, the releases read from. -/
structure MonRead where
  vals : List (Nat × Bool)
  rels : List Rel
  deriving DecidableEq, Repr

/-- An L2 slice fills a line that it arms a monitor on; one that it holds stale, or without the die's presence bit, it fetches again
(09 R260, R267). -/
def State.armLine (s : State) (die line : Nat) : State :=
  match s.line? .l2 die line with
  | none => s.holdL2 die line
  | some l =>
    let known := !isDeviceKey (line * 64) || ((assoc? s.dir line).map fun ds => ds.contains die).getD true
    if l.stale || !known then (s.cross die false [line * 64]).refetch die line else s

/-- The L2 slices where monitors stand hold the monitored lines (09 R267). -/
def State.armLines (s : State) (locs : List MonLoc) : State :=
  (locs.filter fun l => l.point == 1).foldl (fun s l => (linesOf l.keys).foldl (fun s x => s.armLine l.place x) s) s

/-- The locations that arming and reading some monitors reaches at their homes: those of a home's table, and those that an L2 slice does not
hold (09 R266, R267). -/
def State.monFar (s : State) (locs : List MonLoc) : List Nat :=
  locs.flatMap fun l => if l.point = 2 then l.keys
    else if l.point = 1 then l.keys.filter fun k => (s.line? .l2 l.place (lineOf k)).isNone else []

/-- Each location read single-copy atomically at its monitor point. -/
def State.monReads (s : State) (party : Nat) : List MonLoc → MonRead × State
  | [] => ({ vals := [], rels := [] }, s)
  | l :: ls =>
    let (bs, ps, s) := s.readAt party l.pt l.keys
    let bad := ps.any s.pickBad
    let (r, s) := s.monReads party ls
    ({ vals := (leNum bs, bad) :: r.vals, rels := relsRead ps ++ r.rels }, s)

/-- Whether every lane's condition holds. -/
def Monitor.holds (m : Monitor) (r : MonRead) : Bool :=
  m.operands.all fun o =>
    Cond.holds m.cc (intOf m.ty (widenBits m.ty (r.vals.getD o.2.1 (0, false)).1)) (intOf m.ty o.2.2)

/-- An `mwait` whose conditions hold: the pushes, the monitors freed, the acquire, and the stop of a poisoned address (07 R197,
17 R434). -/
def State.monDone (s : State) (m : Monitor) (r : MonRead) : State :=
  match (s.thread? m.who).bind fun t => (t.split? m.spl).map fun sp => (t, sp) with
  | none => s
  | some (_, sp) =>
    let (die, core) := s.placeOfWho m.who
    let entOf (l : Nat) : QEnt :=
      match m.operands.find? fun o => o.1 == l with
      | some o => let v := r.vals.getD o.2.1 (0, false); ent (widenBits m.ty v.1) v.2
      | none => match m.off.find? fun o => o.1 == l with
        | some o => ent o.2.1 o.2.2
        | none => ent 0 false
    let s := (s.acquire sp.party m.scope r.rels).dropLines die core m.scope
    let s := { s with monitors := s.monitors.filter fun x => !(x.who == m.who && x.spl == m.spl) }
    let s := s.dropEdges m.who m.spl false
    let s := s.advance m.who m.spl (fun t => t.pushEach sp.mask fun l => [entOf l]) (sp.pc + BitVec.ofNat 48 m.len) 1
    let s := if m.who.isHandler then s else s.updTeam (s.ctxhOf m.who) fun t => { t with progress := true }
    if m.bad == 0 then s
    else s.raise m.who m.spl { cause := 0x71, prec := true, tpc := sp.pc, word := m.word, lanes := m.bad, addr := 0,
                               detail := fieldOf m.word.toNat 47 5, words := [] } none

/-- The lanes of an `mwait` checked and translated: each lane's address and keys, the stage 5 failures, the held ones, a lost context. -/
def State.monLanes (s : State) (cx : Cx) (sp : Space) (n : Nat) : List (Nat × Nat) → List (Nat × Nat × List Nat) × List LaneFault × List LaneFault × Bool × State
  | [] => ([], [], [], false, s)
  | (l, ea) :: ls =>
    let (x, s) := s.oneLoc cx sp false l ea n
    let (ok, bad, held, lost, s) := s.monLanes cx sp n ls
    match x with
    | .ok ks => ((l, ea, ks) :: ok, bad, held, lost, s)
    | .bad f h => if h then (ok, bad, f :: held, lost, s) else (ok, f :: bad, held, lost, s)
    | .lost => (ok, bad, held, true, s)

-- DEDUCED (log 26, unsafe): mwait, acq and wreg that fail in translation have no effect and are issued again after the supervisor's service.
def execMwait (h : Hdr) (sp : Space) (sc : Scope) (cc : Cond) (s : State) : Host.Outcome State Fault Refusal :=
  act s h { Shape.user (src2 h) true with guide := true, form := guideSp sp } fun cx os s =>
    if memWait cx false then s.holdEntries cx
    else if s.replayFull cx then s.hold cx
    else
      let goodLanes := cx.lanes.filter fun l => !((fieldOp os 0).at l).poison
      let badLs := cx.lanes.filter fun l => ((fieldOp os 0).at l).poison
      let n := h.ty.width / 8
      let s0 := { s with monitors := s.monitors.filter fun m => !(m.who == cx.who && m.spl == cx.k) }.dropEdges cx.who cx.k false
      let (ok, bad, held, lost, s) := s0.monLanes cx sp n (goodLanes.map fun l => (l, ((fieldOp os 0).at l).v.toNat))
      if !bad.isEmpty then s0.locFail cx sp false bad
      else if lost then s.loseContext cx.tm.asid 0x74 cx.tm.ctxh 0
      else if !held.isEmpty then s.locFail cx sp true held
      else
        let eas := (ok.map fun x => x.2.1).eraseDups
        let locs := eas.map fun ea => s.monPoint (s.placeOfWho cx.who).1 sc (((ok.find? fun x => x.2.1 == ea).map fun x => x.2.2).getD [])
        let (free, s) := takeFrees s 32
        let m : Monitor :=
          { who := cx.who, spl := cx.k, cc := cc, ty := h.ty, scope := sc, addr := eas.headD 0, locs := locs,
            operands := ok.map fun x => (x.1, eas.findIdx (· == x.2.1), ((fieldOp os 1).at x.1).v), word := cx.word, len := cx.len,
            off := (lanesOf cx.mask).filterMap fun l =>
              if badLs.contains l then some (l, free.getD l 0, true)
              else if cx.on.getLsbD l then none
              else some (l, (offEnt os l).val, (offEnt os l).poison),
            bad := maskOf badLs }
        let (r, s') := ((s.cross (s.placeOfWho cx.who).1 false (s.monFar locs)).armLines locs).monReads cx.sp.party locs
        if m.holds r then s'.monDone m r
        else match s.monFull [] locs with
          | some i =>
            let l := locs.getD i { point := 0, place := 0, keys := [] }
            s'.fail cx 0x33 cx.mask (eas.getD i 0) (l.point + (if l.point == 2 then 4 * l.place else 0) + 32 * locs.length)
          | none => s'.beginWait cx 4 m.addr ((locs.head?.map fun l => l.keys.headD 0).getD 0) .monitor fun s => { s with monitors := m :: s.monitors }

/-- A monitored location read again after a write performed at its monitor point: the wait of a running team ends when every condition holds
(07 R197); the splits of other teams issue the `mwait` again when they resume (14 R361). -/
def State.monWake (s : State) (who : Who) (spl : Nat) : State :=
  match s.monitors.find? fun m => m.who == who && m.spl == spl with
  | none => s
  | some m =>
    match (s.thread? who).bind fun t => t.split? spl, s.team? (s.ctxhOf who) with
    | some sp, some tm =>
      let live := tm.status == .running || who.isHandler
      if !live || sp.wait != some .monitor then s
      else
        let (r, s') := s.monReads sp.party m.locs
        let far := m.locs.flatMap fun l => if l.pt == pointHome then l.keys else []
        if m.holds r then (s'.cross tm.die true far).monDone m r else s
    | _, _ => s

end Sys2Proof.Machine
end

