-- ==== Sys2Proof/Machine/Engines.lean ====
section
/-!
DEFINITION. What engine commands share: issue, guards, chains, tickets and counters, tile tags, engine accesses, and how a command ends
(08 R203 to R210, R216, R225, R227, R230, 10 R282, R283, 17 R424, R425, R433, R434, 19 R464 to R471).
-/
namespace Sys2Proof.Machine

/-! ## The engine control word (08 R208) -/

structure Ctl where
  seg2 : Nat
  aft : Bool
  chn : Bool
  guard : Option Nat
  deriving DecidableEq, Repr

def ctlOf (h : Hdr) : Ctl :=
  let w := (h.ext.getD 0).toNat
  { seg2 := fieldOf w 16 10, aft := fieldOf w 6 1 == 1, chn := fieldOf w 5 1 == 1,
    guard := if fieldOf w 4 1 = 1 then some (fieldOf w 0 4) else none }

/-! ## Counters of an issuer (08 R204, R205, R210) -/

/-- The count of a queue's releases pending for successors. -/
def Warp.chains (t : Warp) (matrix : Bool) : List Clock := if matrix then t.chM else t.chC

def Warp.setChains (t : Warp) (matrix : Bool) (l : List Clock) : Warp := if matrix then { t with chM := l } else { t with chC := l }

/-- COC or MOC changed. -/
def Warp.count (t : Warp) (matrix : Bool) (f : Nat → Nat) : Warp := if matrix then { t with moc := f t.moc } else { t with coc := f t.coc }

/-- A ticket of a guide returned or taken. -/
def State.ticket (s : State) (who : Who) (matrix : Bool) (f : Nat → Nat) : State :=
  if who.isGuide then
    s.updTeam (s.ctxhOf who) fun t => if matrix then { t with tickM := f t.tickM } else { t with tickC := f t.tickC }
  else s

/-- The releases of an issuer toward the other queue and its chain heads that have not completed. -/
def State.chainHeads (s : State) (cx : Cx) (matrix : Bool) : Nat :=
  (cx.t.chains (!matrix)).length + (s.cmds.filter fun x => x.issuer == cx.who && x.matrix == matrix && x.chn).length

/-- An engine command refused as a chain head (19 R470): its issuer's releases toward the other queue and its chain heads that have not
completed are already 15. -/
def State.chainFull (s : State) (cx : Cx) (matrix : Bool) (c : Ctl) : Bool := c.chn && decide (s.chainHeads cx matrix ≥ 15)

-- DEDUCED (log 71, safe and in part unsafe): A quartet operation that every member has issued counts among the 256 of the matrix queue.
/-- Whether a command waits to issue: its queue is full, the guide holds no ticket, or an eviction holds the team's commands (08 R205,
11 R307, 19 R469). -/
def State.queueFull (s : State) (cx : Cx) (matrix : Bool) (n : Nat) : Bool :=
  let (die, core) := s.placeOfWho cx.who
  let used := (s.cmds.filter fun c => c.core == coreId die core && c.matrix == matrix).length
  decide (used + n > 256) || cx.tm.cmdHold != 0 || (cx.who.isGuide && (if matrix then cx.tm.tickM else cx.tm.tickC) == 0)

-- DEDUCED (log 56, unsafe): A command with a poisoned operand word completes and poisons what it writes (R433), and its issuer takes cause 0x71 at issue.
/-- A command into its queue: its counter rises and a guide's ticket is taken. The instruction's own completion is the caller's. -/
def State.issueCmd (s : State) (cx : Cx) (matrix : Bool) (op : EngOp) (c : Ctl) (ops : List Word) (poison : Bool) : State :=
  let (die, core) := s.placeOfWho cx.who
  let id := s.nextId
  let cmd : Cmd :=
    { id := id, core := coreId die core, matrix := matrix, issuer := cx.who, ctxh := cx.tm.ctxh, spl := cx.k, pc := cx.pc, word := cx.word,
      op := op, ctl := cx.h.ext.getD 0, ops := ops, guard := c.guard, held := false, chn := c.chn, aft := c.aft, started := false,
      clk := cx.sp.opf, idx := [], poison := poison, accepted := id, party := cx.sp.party, nth := cx.sp.issues + 1 }
  (({ s with nextId := id + 1, cmds := s.cmds ++ [cmd] }).updThread cx.who fun t => t.count matrix (· + 1)).ticket cx.who matrix (· - 1)

/-- The chain refusal of stage 5. -/
def State.chainFail (s : State) (cx : Cx) (matrix : Bool) (lane : Nat) : State :=
  s.fail cx 0x52 (bitMask lane) 0 (1 + (if matrix then 16 else 0))

/-! ## Tiles (08 R237, 11 R313, 16 R405) -/

def State.accOwn (s : State) (core slot : Nat) : AccOwn :=
  (s.accown.find? fun a => a.core == core && a.slot == slot).getD { core := core, slot := slot, sdv := false, val := false, ctxh := 0 }

def State.putAccOwn (s : State) (a : AccOwn) : State :=
  { s with accown := a :: s.accown.filter fun x => !(x.core == a.core && x.slot == a.slot) }

def State.setSdv (s : State) (core slot : Nat) (b : Bool) : State := s.putAccOwn { s.accOwn core slot with sdv := b }

/-- The core that a thread's engine and tiles belong to. -/
def State.coreOf (s : State) (who : Who) : Nat := let (d, c) := s.placeOfWho who; coreId d c

/-- TILERANGE of stage 4: TDETAIL. -/
def tileFail (tm : Team) (tiles : List Nat) : Option Nat := (tiles.find? fun i => decide (i ≥ tm.tiles)).map fun i => i + 256 * tm.tiles

/-- The accumulator first-use trap of stage 6: TDETAIL (11 R313, 15 R380). -/
def State.ownFail (s : State) (cx : Cx) (tiles : List Nat) : Option Nat :=
  (tiles.find? fun i =>
    let a := s.accOwn (s.coreOf cx.who) (cx.tm.slot i)
    !a.val || a.ctxh != cx.tm.ctxh).map fun i => i + 256 * cx.tm.slot i

/-! ## Tile tags and segments (08 R215 to R228, 10 R283) -/

def emptySeg : SegEnt := { tag := 0, st := 0, v := false, c := true, ut := false, clk := [] }

def Team.seg (t : Team) (i : Nat) : SegEnt := t.tags.getD i emptySeg

def State.updSeg (s : State) (ctxh i : Nat) (f : SegEnt → SegEnt) : State :=
  s.updTeam ctxh fun t => { t with tags := setAt t.tags i (f (t.seg i)) }

/-- V and C set, with what happens before whoever finds them (10 R283). -/
def State.setTag (s : State) (ctxh i : Nat) (v c : Bool) (clk : Clock) : State := s.updSeg ctxh i fun e => { e with v := v, c := c, clk := clk }

/-- Consecutive segments. -/
def segRun (first n : Nat) : List Nat := (List.range n).map (first + ·)

/-- Keys of a segment's bytes. -/
def segKeys (t : Team) (seg off n : Nat) : List Nat := keysFrom (spKey t.serial (seg * segBytes + off)) n

/-- SEGRANGE of a segment named in a field or source: TDETAIL (17 R423 reason 3). -/
def segDetail (rank seg : Nat) : Nat := memDetail (.range 3 rank seg) 0 0 0

/-- The first segment of a list at or above a team's SEGS. -/
def segFail (t : Team) (segs : List Nat) : Option Nat := segs.find? fun i => decide (i ≥ t.segs)

/-! ## Accesses of a command -/

/-- Why an element of a transfer fails: the reason of R464 and its first failed byte; reason 0 is a lost context. -/
structure EngFail where
  reason : Nat
  addr : Nat
  deriving DecidableEq, Repr

/-- The keys of an element in global memory (19 R464, R467). A target that refuses it, cannot be reached or gives no completion fails it with reason 4
(17 R427). -/
def State.engKeys (s : State) (tm : Team) (party : Nat) (super write : Bool) (va n : Nat) : Except EngFail (List Nat) × State :=
  let va := va % 2 ^ 64
  if va + n > globalTop then (.error { reason := 3, addr := max va globalTop }, s)
  else
    match s.transBytes party (s.clkOf party) tm.asid { write := write, fetch := false, super := super } va 0 n with
    | (.error .lost, s) => (.error { reason := 0, addr := va }, s)
    | (.error (.fault f), s) => (.error { reason := if f.cause = 0x20 then 1 else 2, addr := va + f.off }, s)
    | (.ok ks, s) => match (s.cross tm.die false ks).remoteFail ks with
      | (some _, s) => (.error { reason := 4, addr := va }, s)
      | (none, s) => (.ok ks, s)

/-- Bytes read as one element: single-copy atomic where it is naturally aligned (19 R467). -/
def State.engRead (s : State) (party : Nat) (ks : List Nat) : List Byte × Bool × State :=
  let whole := (ks.headD 0) % ks.length == 0
  let (n, s) := s.tick party
  let clk := s.clkOf party
  let (bs, ps, s) := if whole then s.read party clk n none ks else s.readEach party clk n ks
  (bs, ps.any s.pickBad, s)

/-- Bytes written as one element; a home that refuses them takes none (17 R431). Tells whether they were refused. -/
def State.engWrite (s : State) (tm : Team) (party : Nat) (data : List (Nat × Byte)) (poison : Bool) : Bool × State :=
  let ks := data.map Prod.fst
  if ks.any s.sealed then (true, s)
  else
    let whole := (ks.headD 0) % ks.length == 0
    let wid := s.nextWrite
    let s := if whole then s.write party data none none [] poison
      else (data.foldl (fun s d => (s.tick party).2.writeFrom party party (s.tick party).1 ((s.tick party).2.clkOf party) [d] none none [] poison) s).markPoison
        ks poison
    (false, ((List.range (s.nextWrite - wid)).foldl (fun s i => s.landHome (some tm.die) ks (wid + i)) s).spWrite ks)

/-- The bytes of several segments, one location at a time. -/
def State.engBytes (s : State) (party : Nat) (ks : List Nat) : List Byte × Bool × State :=
  let (n, s) := s.tick party
  let (bs, ps, s) := s.readEach party (s.clkOf party) n ks
  (bs, ps.any s.pickBad, s)

/-! ## Shapes (08 R224, R225) -/

/-- A record's element width in bytes and, for each dimension, stride, extent and box. -/
structure ShapeRec where
  width : Nat
  dims : List (Int × Nat × Nat)
  deriving DecidableEq, Repr

def shapeRank (ws : List Word) : Nat := fieldOf (ws.headD 0).toNat 0 3

/-- The type that a TY code names (04 R77). -/
def tyOfCode (c : Nat) : Ty :=
  ([.b32, .b64, .s8, .s16, .s32, .s64, .n8, .n16, .n32, .n64, .f16, .bf16, .f32, .f64, .e4m3, .e5m2] : List Ty).getD c .b32

def shapeOf (ws : List Word) : ShapeRec :=
  let dim (d : Nat) : Int × Nat × Nat :=
    let x := (ws.getD (2 + 2 * d) 0).toNat
    ((ws.getD (1 + 2 * d) 0).toInt, fieldOf x 0 32, fieldOf x 32 16)
  { width := (tyOfCode (fieldOf (ws.headD 0).toNat 8 4)).width / 8, dims := (List.range (shapeRank ws)).map dim }

/-- Elements of the box. -/
def ShapeRec.count (r : ShapeRec) : Nat := r.dims.foldl (fun n d => n * d.2.2) 1

/-- Digits of an element's number in the box, dimension 0 fastest (08 R225). -/
def boxDigits : List Nat → Nat → List Nat
  | [], _ => []
  | b :: bs, n => n % b :: boxDigits bs (n / b)

/-- The tensor coordinates of an element are in bounds, and its global byte (08 R225, 19 R467). -/
def elemAddr (r : ShapeRec) (base : Nat) (xs : List Int) : Bool × Nat :=
  ((xs.zip r.dims).all fun p => decide (0 ≤ p.1 ∧ p.1 < (p.2.2.1 : Int)),
    ((((base : Int) + ((xs.zip r.dims).map fun p => p.1 * p.2.1).foldl (· + ·) 0) % (2 ^ 64 : Nat)).toNat))

/-! ## The end of a command -/

/-- What a command's completion tells its issuer about (08 R229): 0 scratchpad, 1 accumulator, 2 global, 3 remote, 4 matrix. -/
def Cmd.writes (c : Cmd) : Nat :=
  match c.op with
  | .tcopy d _ _ _ _ _ _ _ => if d = 1 then 2 else 0
  | .accld _ _ _ => 1
  | .accst _ own _ => if own then 0 else 2
  | .tgather _ _ _ _ _ _ _ | .spmove _ _ _ | .spshare _ _ _ => 0
  | _ => 4

/-- The elements of a box in global memory, in order: whether each is in bounds, and its first byte (08 R225). -/
def boxElems (r : ShapeRec) (base : Nat) (start : List Int) : List (Bool × Nat) :=
  (List.range r.count).map fun n => elemAddr r base ((start.zip (boxDigits (r.dims.map fun d => d.2.2) n)).map fun p => p.1 + p.2)

/-- The 4 KiB units of global memory that a command writes. -/
def Cmd.targets (c : Cmd) : List Nat :=
  (match c.op with
    | .tcopy 1 b _ _ cs ws _ _ => ((boxElems (shapeOf ws) b cs).filter Prod.fst).map fun (e : Bool × Nat) => e.2 / 4096
    | .accst _ false a => [a / 4096, (a + 4095) / 4096]
    | _ => []).eraseDups

-- DEDUCED (log 57, unsafe): Whether a queued command writes remotely is decided by translating the addresses of its elements when the question is asked.
/-- The TGTs that cover a command: a write into a Ronou fabric window is remote, any other write outside the scratchpads and tiles global. -/
def State.writeClasses (s : State) (c : Cmd) : List Nat :=
  if c.writes ≠ 2 then [c.writes]
  else
    match s.team? c.ctxh with
    | none => [2]
    | some tm =>
      let cls (u : Nat) : Nat :=
        match (s.transByte 0 [] tm.asid { write := false, fetch := false, super := true } (u * 4096 % 2 ^ 48)).1 with
        | .ok k => if isPeerKey k then 3 else 2
        | .error _ => 2
      let l := (c.targets.map cls).eraseDups
      if l.isEmpty then [2] else l

/-- What a thread's command with a number has made visible to a later covering wait, for each class. -/
def Warp.noteDone (t : Warp) (codes : List Nat) (id : Nat) (clk : Clock) : Warp :=
  { t with done := codes.map (fun x => (x, id, clk)) ++ t.done }

/-- Whether a copy-queue command of a core that was accepted before a number and writes into a class of memory has not completed (08 R229). -/
def State.drains (s : State) (core tgt upTo : Nat) : Bool :=
  s.cmds.any fun c => c.core == core && !c.matrix && decide (c.accepted < upTo) && (s.writeClasses c).contains tgt

/-- Whether an engine wait of a thread of a core has ended (08 R219, R229). -/
def State.engWaitOver (s : State) (core : Nat) (t : Warp) (q n : Nat) : Bool :=
  if q ≥ 8 then !s.drains core (q - 8) n else decide ((if q = 1 then t.moc else t.coc) ≤ n)

/-- The edges of engine waits that have ended (07 R202). -/
def State.dropEngEdges (s : State) : State :=
  let ended (e : Edge) : Bool := e.kind == 5 && match (s.thread? (.warp e.ctxh e.warp)).bind fun t => (t.split? e.spl).map fun sp => (t, sp) with
    | some (t, sp) => (match sp.wait with
      | some (.engine q n) => s.engWaitOver (s.coreOf t.who) t q n
      | _ => false)
    | none => false
  { s with edges := s.edges.filter fun e => !ended e }

-- DEDUCED (log 59, unsafe): A successor in a chain happens after what its head had performed.
/-- A command leaves: its counters fall, its ticket returns, and what it has performed can be waited for. As a chain head it releases a
successor (08 R204, R207, R210). -/
def State.endCmd (s : State) (c : Cmd) (codes : List Nat) (clk : Clock) : State :=
  let seqOf (who : Who) (u : Unseen) : Bool := match c.op with
    | .mma _ _ _ _ _ ms => u.quartet && (ms.any fun m => who == .warp c.ctxh m.1 && m.2 == u.seq)
    | _ => !u.quartet && u.seq == c.id
  let s := c.owners.foldl (fun s who => s.updThread who fun t =>
    ({ t.count c.matrix (· - 1) with unseen := t.unseen.map fun u => if seqOf who u then { u with done := true } else u }).noteDone codes c.accepted clk) s
  let s := (match c.op with
    | .mma _ _ _ _ _ _ => s
    | _ => s.ticket c.issuer c.matrix (· + 1))
  let s := if c.chn then s.updThread c.issuer fun t => t.setChains (!c.matrix) (t.chains (!c.matrix) ++ [clk]) else s
  { s with cmds := s.cmds.filter fun x => x.id != c.id }.dropEngEdges

/-- The number under which the commands of an issuer are ordered: a quartet counts as one issuer (08 R216). -/
def State.issuerNo (s : State) (who : Who) : Nat :=
  match who with
  | .warp h w => match s.team? h with
    | some t =>
      let r := roleOf t.roles w 0
      let first := roleFirst t.roles r
      if ((t.roles[r]?).map Role.qtet).getD false then first + (w - first) / 4 * 4 else w
    | none => w
  | .guide _ => 128
  | .handler _ p => 129 + p

/-- A source segment that the issue of `spmove` or `spshare` has put in transit is again what it was: a discarded command leaves the tile tags
untouched (08 R209). -/
def State.restoreSource (s : State) (c : Cmd) : State :=
  let back (seg : Nat) : State := s.updSeg c.ctxh seg fun e =>
    { e with st := BitVec.ofInt 2 (c.idx.getD 0 0), v := c.idx.getD 1 0 == 1 }
  match c.op with
  | .spmove seg _ _ | .spshare seg _ _ => back seg
  | _ => s

/-- A command discarded: it has read and written nothing and releases no chain (08 R209). -/
def State.discardCmd (s : State) (c : Cmd) : State :=
  let s := s.updThread c.issuer fun t => { t.count c.matrix (· - 1) with unseen := t.unseen.filter fun u => u.quartet || u.seq != c.id }
  let s := (s.ticket c.issuer c.matrix (· + 1)).restoreSource c
  { s with cmds := s.cmds.filter fun x => x.id != c.id }.dropEngEdges

/-! ## Guards (08 R209, R230) -/

/-- A command at the head of its queue for its issuer meets its guard. -/
def State.meetGuard (s : State) (c : Cmd) : State :=
  match c.guard, s.team? c.ctxh with
  | some g, some tm =>
    match tm.guards.getD g .unresolved with
    | .unresolved => { s with cmds := s.cmds.map fun x => if x.id == c.id then { x with held := true } else x }
    | .yes => { s with cmds := s.cmds.map fun x => if x.id == c.id then { x with guard := none, held := false } else x }
    | .no => s.discardCmd c
  | _, _ => s

/-- A guard slot of a team set; the commands that are held on it act on the state they find. -/
def State.setGuard (s : State) (ctxh g : Nat) (v : GuardSlot) : State :=
  let s := s.updTeam ctxh fun t => { t with guards := setAt t.guards g v }
  if v == .unresolved then s else (s.cmds.filter fun c => c.ctxh == ctxh && c.held && c.guard == some g).foldl State.meetGuard s

def gsetAct (cx : Cx) (os : List Operand) (g : Nat) (s : State) : State :=
  match cx.lead with
  | none => s.done cx
  | some l =>
    let s := s.setGuard cx.tm.ctxh g (if arg (valsAt os l) 0 = 0 then .no else .yes)
    (s.done cx).consume cx (os.map (onlyLanes [l]))

def execGset (h : Hdr) (g : BitVec 4) (s : State) : Host.Outcome State Fault Refusal :=
  act s h (Shape.user (src1 h) false) fun cx os s => gsetAct cx os g.toNat s

def execGclr (h : Hdr) (g : BitVec 4) (s : State) : Host.Outcome State Fault Refusal :=
  act s h (Shape.user [] false) fun cx _ s => (if cx.on == 0 then s else s.setGuard cx.tm.ctxh g.toNat .unresolved).done cx

/-! ## Waits (08 R219, R229, R233) -/

/-- What the completed commands of a thread with numbers below a bound have performed, seen by its split. -/
def State.seeDone (s : State) (cx : Cx) (t : Warp) (codes : List Nat) (upTo : Nat) : State :=
  (t.done.filter fun d => codes.contains d.1 && decide (d.2.1 < upTo)).foldl (fun s d => s.joinClk cx.sp.party d.2.2) s

/-- The object word of an engine edge of a wait for a count: a quartet operation that it awaits and a partner has not issued, or a queue
(08 R233). -/
def State.engObj (s : State) (cx : Cx) (matrix : Bool) (n : Nat) : Nat :=
  if !matrix then 0
  else if cx.who.isUser && !(s.awaited cx.tm.ctxh cx.who.warpNo n).isEmpty then 2 else 1

/-- A wait on a counter of the issuer. -/
def State.waitCount (s : State) (cx : Cx) (matrix : Bool) (n : Nat) (shown : Warp → Warp) : State :=
  let c := if matrix then cx.t.moc else cx.t.coc
  let w : Wait := .engine (if matrix then 1 else 0) n
  if c ≤ n then
    ((s.seeDone cx cx.t (if matrix then [4] else [0, 1, 2, 3]) s.nextId).dropEdges cx.who cx.k false).doneWith cx shown
  else if stillWaiting cx w then s
  else s.beginWait cx 5 (s.engObj cx matrix n) n w fun s => s

/-- Matrix commands shown complete (08 R221, 16 R409). -/
def Warp.showDone (t : Warp) : Warp := { t with unseen := t.unseen.filter fun u => !u.done }

def execMmwait (h : Hdr) (n : BitVec 4) (s : State) : Host.Outcome State Fault Refusal :=
  act s h (Shape.user [] false) fun cx _ s => s.waitCount cx true n.toNat Warp.showDone

def execTwaitC (h : Hdr) (n : BitVec 6) (s : State) : Host.Outcome State Fault Refusal :=
  act s h (Shape.both [] false) fun cx _ s => s.waitCount cx false n.toNat fun t => t

def execTwaitM (h : Hdr) (n : BitVec 6) (s : State) : Host.Outcome State Fault Refusal :=
  act s h (Shape.both [] false) fun cx _ s => s.waitCount cx true n.toNat fun t => t

/-- `drain`: it covers the commands that its core accepted before it (08 R229). -/
def drain (s : State) (h : Hdr) (tgt : Nat) : Host.Outcome State Fault Refusal :=
  act s h (Shape.both [] false) fun cx _ s =>
    let core := s.coreOf cx.who
    let upTo := match cx.sp.wait with
      | some (.engine q n) => if q = 8 + tgt then n else s.nextId
      | _ => s.nextId
    if s.drains core tgt upTo then
      if stillWaiting cx (.engine (8 + tgt) upTo) then s else s.beginWait cx 5 0 0 (.engine (8 + tgt) upTo) fun s => s
    else
      let s := (s.threads.filter fun t => s.coreOf t.who == core).foldl (fun s t => s.seeDone cx t [tgt] upTo) s
      (s.dropEdges cx.who cx.k false).done cx

def execDrainSp (h : Hdr) (s : State) : Host.Outcome State Fault Refusal := drain s h 0
def execDrainAcc (h : Hdr) (s : State) : Host.Outcome State Fault Refusal := drain s h 1
def execDrainG (h : Hdr) (s : State) : Host.Outcome State Fault Refusal := drain s h 2
def execDrainRem (h : Hdr) (s : State) : Host.Outcome State Fault Refusal := drain s h 3

/-- `opfence`: the split's accesses so far happen before its later commands (08 R206, 10 R282). -/
def execOpfence (h : Hdr) (s : State) : Host.Outcome State Fault Refusal :=
  act s h (Shape.user [] false) fun cx _ s =>
    if memWait cx true then s.holdEntries cx
    else
      let clk := s.clkOf cx.sp.party
      s.doneWith cx fun t => (t.forget cx.mask).updSplit cx.k fun sp => { sp with opf := clk }

/-! ## tset, tfree (08 R228) -/

/-- A tag instruction on the segment of the lowest switched-on lane. -/
def tagInstr (s : State) (h : Hdr) (v c : Bool) : Host.Outcome State Fault Refusal :=
  act s h (Shape.both (src1 h) false) fun cx os s =>
    match cx.lead with
    | none => s.done cx
    | some l =>
      let seg := fieldOf (arg (valsAt os l) 0).toNat 0 10
      if seg ≥ cx.tm.segs then s.fail cx 0x25 (bitMask l) 0 (segDetail 0 seg)
      else ((s.setTag cx.tm.ctxh seg v c cx.sp.opf).done cx).consume cx (os.map (onlyLanes [l]))

def execTfree (h : Hdr) (s : State) : Host.Outcome State Fault Refusal := tagInstr s h false true
def execTset (h : Hdr) (v c : Bool) (s : State) : Host.Outcome State Fault Refusal := tagInstr s h v c

end Sys2Proof.Machine
end

