-- ==== Sys2Proof/Machine/Trans.lean ====
section
/-!
DEFINITION. The transcendental instructions (06 R148). Each result is bound by an error limit and not by a rounding: the part's own
bits are a free value of `Config.trans`, taken where they lie within the bound of a rational approximation of the exact result, and
replaced by that approximation, rounded, where they do not (log 9). The exact and special cases of R148 are exact.
-/
namespace Sys2Proof.Machine

/-- ln 2 and pi in fixed point: ln2Fix / 2^120 and piFix / 2^160, truncated series constants. -/
def ln2Fix : Nat := 921350637599661305226344307672478455
def piFix : Nat := 4591442807048218921384805199743311128454155024418
/-- The unit of the fixed-point series. -/
def unitFix : Int := ((2 ^ 120 : Nat) : Int)

/-- Product of two fixed-point numbers. -/
def mulFix (a b : Int) : Int := a * b / unitFix

/-- sum of t^i / i! from the i-th term on, `n` terms, in fixed point. -/
def expSeries (t : Int) : Nat → Int → Int → Int
  | 0, _, _ => 0
  | n + 1, term, i => term + expSeries t n (mulFix term t / (i + 1)) (i + 1)

/-- e^t for a fixed-point t in [0, 1). -/
def expFix (t : Int) : Int := expSeries t 45 unitFix 0

/-- Alternating series for sine (from term t) and cosine (from term 1): each next term is -term * t^2 / ((i+1)(i+2)). -/
def altSeries (t2 : Int) : Nat → Int → Int → Int
  | 0, _, _ => 0
  | n + 1, term, i => term + altSeries t2 n (-(mulFix term t2) / ((i + 1) * (i + 2))) (i + 2)

/-- sum of z^(2i+1) / (2i+1). -/
def atanhSeries (z2 : Int) : Nat → Int → Int → Int
  | 0, _, _ => 0
  | n + 1, pw, i => pw / (2 * i + 1) + atanhSeries z2 n (mulFix pw z2) (i + 1)

/-- An approximation of an exact result: sign, positive rational n/d * 2^e. -/
structure Approx where
  neg : Bool
  n : Nat
  d : Nat
  e : Int
  deriving DecidableEq, Repr

def approxFix (v : Int) (e : Int) : Approx := { neg := decide (v < 0), n := v.natAbs, d := 1, e := e - 120 }

/-- Whether the finite value (-1)^neg m 2^e lies within `mult` * 2^b of a rational. -/
def Approx.within (a : Approx) (neg : Bool) (m : Nat) (e : Int) (mult : Nat) (b : Int) : Bool :=
  let k := min (min a.e e) b
  let va : Int := ((a.n * 2 ^ (a.e - k).toNat : Nat) : Int)
  let vc : Int := ((m * 2 ^ (e - k).toNat * a.d : Nat) : Int)
  decide (((if neg then -vc else vc) - (if a.neg then -va else va)).natAbs ≤ mult * 2 ^ (b - k).toNat * a.d)

/-- Two rationals that the exact result lies between, ends included; the result of an operation is rounded from the first where the part's own
bits do not count. -/
structure Encl where
  lo : Approx
  hi : Approx
  deriving DecidableEq, Repr

/-- An exact rational. -/
def Encl.exact (a : Approx) : Encl := { lo := a, hi := a }

/-- A fixed-point series value times 2^e: its error is below 2^10 units. -/
def enclFix (v : Int) (e : Int) : Encl := { lo := approxFix (v - 1024) e, hi := approxFix (v + 1024) e }

/-- The rational p / q times 2^e. -/
def approxRat (p : Int) (q : Nat) (e : Int) : Approx := { neg := decide (p < 0), n := p.natAbs, d := q, e := e }

/-- A magnitude below 2^-20. -/
def tinyArg (m : Nat) (e : Int) : Bool := decide ((Nat.log2 m : Int) + e < -20)

/-- For 0 < a = m 2^e below 2^-20, with a power series a + c2 a^3 + c4 a^5 or 1 + c2 a^2 + c4 a^4 whose terms alternate: the partial sums of
two and of three terms. `odd` is 1 or 0, and the coefficients are c2 = -1 / d2 and c4 = n4 / d4. -/
def enclSeries (odd : Nat) (neg : Bool) (m : Nat) (e : Int) (d2 n4 d4 : Nat) : Encl :=
  -- every term over d2 * d4, in units of 2^(4 k) with k = e
  let u := (-e).toNat
  let t0 : Int := ((m ^ odd * 2 ^ (4 * u) * (d2 * d4) : Nat) : Int)
  let t2 : Int := ((m ^ (odd + 2) * 2 ^ (2 * u) * d4 : Nat) : Int)
  let t4 : Int := ((m ^ (odd + 4) * n4 * d2 : Nat) : Int)
  let sg (v : Int) : Int := if neg ∧ odd = 1 then -v else v
  let ex := e * (odd + 4 : Int)
  { lo := approxRat (sg (t0 - t2)) (d2 * d4) ex, hi := approxRat (sg (t0 - t2 + t4)) (d2 * d4) ex }

/-- Exponent of one f32 ulp at a value (04 R77). -/
def ulpExp (a : Approx) : Int := max (floorLog2 a.n a.d + a.e) (-126) - 23

-- PRESUMED (log 9, safe and in part unsafe): see notes/assumptions/9.md.
/-- The f32 bits for an operation on f32 source bits: the free value if it is finite and within the bound, else the rounded
approximation. -/
def pickTrans (op : Nat) (src : Nat) (a : Encl) (mult : Nat) (b : Int) : Nat :=
  let c := Config.trans op src % 2 ^ 32
  let r := (roundF .f32 .rn false false a.lo.neg a.lo.n a.lo.d a.lo.e).1
  match decodeF .f32 c with
  | .fin neg m e => if a.lo.within neg m e mult b && a.hi.within neg m e mult b then c else r
  | _ => r

/-- 2^x for x = v / 2^120. -/
def exp2Encl (v : Int) : Encl :=
  let i := v / unitFix
  enclFix (expFix (mulFix (v - i * unitFix) ln2Fix)) i

/-- A finite value in fixed point, toward minus infinity. -/
def toFix (neg : Bool) (m : Nat) (e : Int) : Int :=
  let (a, b) := scale2 m 1 (e + 120)
  if neg then -((a / b : Nat) : Int) else ((a / b : Nat) : Int)

/-- A result of R148 before it is rounded into the type: f32 bits, with the flags the row lists, and whether it is one of the listed
exact or special cases. -/
structure TransOut where
  bits : Nat
  flags : Flags
  exact : Bool
  deriving DecidableEq, Repr

def special (bits : Nat) (flags : Flags) : TransOut := { bits := bits, flags := flags, exact := true }
def bounded (bits : Nat) : TransOut := { bits := bits, flags := 0, exact := false }

/-- m is a power of two: its exponent. -/
def pow2? (m : Nat) : Option Nat := if m ≠ 0 ∧ 2 ^ Nat.log2 m = m then some (Nat.log2 m) else none

/-- 2^k as f32 bits when f32 represents it. -/
def pow2F32 (neg : Bool) (k : Int) : Option Nat :=
  if -149 ≤ k ∧ k ≤ 127 then some (roundF .f32 .rn false false neg 1 1 k).1 else none

def one32 (neg : Bool) : Nat := signBits .f32 neg + 0x3F800000

/-- frcp. -/
def trRcp (src : Nat) (a : FV) : TransOut :=
  match a with
  | .nan s => special (canonNaN .f32) (if s then fNV else 0)
  | .inf n => special (signBits .f32 n) 0
  | .fin neg m e =>
    if m = 0 then special (infBits .f32 neg) fDZ
    else
      match (pow2? m).bind fun k => pow2F32 neg (-(k + e)) with
      | some b => special b 0
      | none => let ap : Approx := { neg := neg, n := 1, d := m, e := -e }; bounded (pickTrans 0 src (.exact ap) 1 (ulpExp ap))

/-- frsq. -/
def trRsq (src : Nat) (a : FV) : TransOut :=
  match a with
  | .nan s => special (canonNaN .f32) (if s then fNV else 0)
  | .inf n => if n then special (canonNaN .f32) fNV else special 0 0
  | .fin neg m e =>
    if m = 0 then special (infBits .f32 neg) fDZ
    else if neg then special (canonNaN .f32) fNV
    else
      let odd := decide (e % 2 = 1)
      let m2 := if odd then 2 * m else m
      let e2 := if odd then e - 1 else e
      match (pow2? m2).bind fun k => if k % 2 = 0 then pow2F32 false (-((k / 2 : Nat) : Int) - e2 / 2) else none with
      | some b => special b 0
      | none =>
        let r := isqrt (m2 * 2 ^ 256)
        let ap : Approx := { neg := false, n := 2 ^ 128, d := r, e := -(e2 / 2) }
        bounded (pickTrans 1 src { lo := ap, hi := if r * r = m2 * 2 ^ 256 then ap else { ap with d := r + 1 } } 2 (ulpExp ap))

/-- The function of `fex2.f32` before flags (06 R148, 08 R218). -/
def trEx2 (src : Nat) (a : FV) : TransOut :=
  match a with
  | .nan s => special (canonNaN .f32) (if s then fNV else 0)
  | .inf n => special (if n then 0 else infBits .f32 false) 0
  | .fin neg m e =>
    -- a magnitude of 2^40 and above overflows or underflows alike
    let (p, q) := scale2 m 1 (min e 40)
    let isInt := decide (p % q = 0)
    let fl : Int := if neg then -((p : Int) / q) - (if isInt then 0 else 1) else (p : Int) / q
    if isInt && decide (-149 ≤ fl ∧ fl ≤ 127) then special ((pow2F32 false fl).getD 0) 0
    else if 128 ≤ fl then special (infBits .f32 false) (fOF ||| fNX)
    else if fl < -149 then special 0 (fUF ||| fNX)
    else if decide ((Nat.log2 m : Int) + e < -60) then
      -- 2^a lies between 1 and 1 + a
      let one : Approx := { neg := false, n := 1, d := 1, e := 0 }
      let u := (-e).toNat
      bounded (pickTrans 2 src { lo := one, hi := approxRat (((2 ^ u : Nat) : Int) + (if neg then -(m : Int) else m)) 1 e } 2
        (if neg then -24 else -23))
    else let ap := exp2Encl (toFix neg m e); bounded (pickTrans 2 src ap 2 (ulpExp ap.lo))

/-- flg2: log2 of m * 2^e is the exponent plus log2 of the significand in [1, 2). -/
def trLg2 (src : Nat) (a : FV) : TransOut :=
  match a with
  | .nan s => special (canonNaN .f32) (if s then fNV else 0)
  | .inf n => if n then special (canonNaN .f32) fNV else special (infBits .f32 false) 0
  | .fin neg m e =>
    if m = 0 then special (infBits .f32 true) fDZ
    else if neg then special (canonNaN .f32) fNV
    else
      let k := Nat.log2 m
      let ex := (k : Int) + e
      if 2 ^ k = m then special (convert .f32 .s64 .rn false false (wordOfInt ex)).1.toNat 0
      else
        let z := ((m : Int) - (2 ^ k : Nat)) * unitFix / ((m : Int) + (2 ^ k : Nat))
        let ln := 2 * atanhSeries (mulFix z z) 45 z 0
        let ap := enclFix (ex * unitFix + ln * unitFix / ln2Fix) 0
        let u := ulpExp ap.lo + 1
        bounded (pickTrans 3 src ap 1 (if -1 ≤ ex ∧ ex ≤ 0 then max u (-22) else u))

/-- The magnitude exceeds 100 pi. -/
def beyond100Pi (m : Nat) (e : Int) : Bool :=
  let (p, q) := scale2 m 1 (min e 40)
  decide (p * 2 ^ 160 > 100 * piFix * q)

/-- Sine and cosine of v / 2^120 after reduction by multiples of pi / 2: `quarter` added to the quadrant gives cosine. -/
def sinFix (v : Int) (quarter : Int) : Int :=
  let halfPi : Int := ((piFix / 2 ^ 41 : Nat) : Int)
  let k := (v + halfPi / 2) / halfPi
  let r := v - (k * (piFix : Int)) / ((2 ^ 41 : Nat) : Int)
  let r2 := mulFix r r
  let s := altSeries r2 24 r 1
  let c := altSeries r2 24 unitFix 0
  match ((k + quarter) % 4).toNat with
  | 0 => s
  | 1 => c
  | 2 => -s
  | _ => -c

/-- fsin and fcos of a finite non-zero source. -/
def trSinCos (op src : Nat) (quarter : Int) (neg : Bool) (m : Nat) (e : Int) : TransOut :=
  if tinyArg m e then
    bounded (pickTrans op src (if quarter = 0 then enclSeries 1 neg m e 6 1 120 else enclSeries 0 neg m e 2 1 24) 1 (-21))
  else if beyond100Pi m e then
    -- a listed special case: some value in [-1, 1]
    special (pickTrans op src (.exact { neg := false, n := 0, d := 1, e := 0 }) 1 0) 0
  else bounded (pickTrans op src (enclFix (sinFix (toFix neg m e) quarter) 0) 1 (-21))

def trSin (src : Nat) (a : FV) : TransOut :=
  match a with
  | .nan s => special (canonNaN .f32) (if s then fNV else 0)
  | .inf _ => special (canonNaN .f32) fNV
  | .fin neg m e => if m = 0 then special (signBits .f32 neg) 0 else trSinCos 4 src 0 neg m e

def trCos (src : Nat) (a : FV) : TransOut :=
  match a with
  | .nan s => special (canonNaN .f32) (if s then fNV else 0)
  | .inf _ => special (canonNaN .f32) fNV
  | .fin neg m e => if m = 0 then special (one32 false) 0 else trSinCos 5 src 1 neg m e

/-- ftanh: (e^2a - 1) / (e^2a + 1). -/
def trTanh (src : Nat) (a : FV) : TransOut :=
  match a with
  | .nan s => special (canonNaN .f32) (if s then fNV else 0)
  | .inf n => special (one32 n) 0
  | .fin neg m e =>
    let (p, q) := scale2 m 1 (min e 40)
    if m = 0 then special (signBits .f32 neg) 0
    else if tinyArg m e then bounded (pickTrans 6 src (enclSeries 1 neg m e 3 2 15) 1 (-21))
    else if p ≥ 10 * q then special (one32 neg) 0
    else
      let t := 2 * toFix false m e
      let i := t / (ln2Fix : Int)
      let ex := expFix (t - i * ln2Fix) * ((2 ^ i.toNat : Nat) : Int)
      let v := (ex - unitFix) * unitFix / (ex + unitFix)
      bounded (pickTrans 6 src (enclFix (if neg then -v else v) 0) 1 (-21))

-- DEDUCED (log 61, unsafe): fsin's or fcos's value beyond 100π raises the flags of its rounding into f16 or bf16.
/-- A transcendental result in its type: the source read as f32 (exact), the f32 value rounded into the type with the flags of R148, FTZ
under R86. -/
def transOp (f : Nat → FV → TransOut) (t : Ty) (ftz : Bool) (v : Word) : Nat × Flags :=
  let a := readF t ftz v
  let o := f (rneF32 a) a
  match decodeF .f32 o.bits with
  | .nan _ => (canonNaN t, o.flags)
  | .inf n => (infBits t n, if o.exact then o.flags else o.flags ||| fOF ||| fNX)
  | .fin neg m e =>
    let (b, fl) := roundF t .rn ftz false neg m 1 e
    -- a subnormal or zero result that is no listed case is tiny and inexact
    let tiny := decide (b % 2 ^ (t.width - 1) < 2 ^ (ffmt t).fb)
    if o.exact then (b, o.flags ||| fl) else (b, o.flags ||| fl ||| fNX ||| (if tiny then fUF else 0))

end Sys2Proof.Machine
end

