-- ==== Sys2Proof/Machine/Matrix.lean ====
section
/-!
DEFINITION. The matrix instructions: formats and operand images, the sum of R103, quartet `mma`, the queue commands `mmas`, `mmsm` and
`acczero`, and the accumulator accesses (04 R98 to R104, 08 R211 to R222, 16 R405 to R409).
-/
namespace Sys2Proof.Machine

/-! ## Formats (04 R98 to R102) -/

/-- The block format of a code, none for the natural formats 0 to 3. -/
def blkOf : Nat → Option BlkFmt
  | 4 => some .se7 | 5 => some .se4 | 6 => some .se2 | 7 => some .mxe4m3 | 8 => some .mxe5m2 | 9 => some .mxe3m2
  | 10 => some .mxe2m3 | 11 => some .mxfp4 | 12 => some .mxint8 | _ => none

/-- The lane type of a natural format. -/
def natTy : Nat → Ty
  | 0 => .bf16 | 1 => .f16 | 2 => .e4m3 | _ => .e5m2

/-- The class of R100; formats of one class share K. -/
def fmtClass (f : Nat) : Nat :=
  if f ≤ 1 then 0 else if f = 6 then 3 else if f = 5 ∨ f = 9 ∨ f = 10 ∨ f = 11 then 2 else 1

def fmtK (f : Nat) : Nat :=
  match fmtClass f with
  | 0 => 64 | 1 => 128 | 2 => 256 | _ => 512

/-- Bytes of a 32 x K operand, scales included. -/
def fmtBytes (f : Nat) : Nat :=
  match blkOf f with
  | none => 32 * fmtK f * (natTy f).width / 8
  | some b => if Wf.seBlock b then 32 * (fmtK f / 16) * blockBytes b else 32 * (fmtK f / 32) * (areaBytes b + 1)

def fmtSegs (f : Nat) : Nat := (fmtBytes f + 4095) / 4096

/-- B span: frame entries in each member of a quartet. -/
def fmtSpan (f : Nat) : Nat := (fmtBytes f + 1023) / 1024

/-- Of a member's B slots, those that hold bytes of the operand: member `j` holds its bytes from 256 * span * j on (04 R102, 08 R213). -/
def fmtSlots (f j : Nat) : Nat := min (fmtSpan f) ((fmtBytes f - 256 * fmtSpan f * j + 255) / 256)

/-- Terms in a group of R103. -/
def groupSize (a b : Nat) : Nat := if a ≤ 1 ∧ b ≤ 1 then 8 else 16

/-- The fields of a format word. -/
structure FmtWord where
  a : Nat
  b : Nat
  pen : Bool
  ta : Bool
  tb : Bool
  acc : Bool
  perm : Nat
  deriving DecidableEq, Repr

def fmtWord (w : Nat) : FmtWord :=
  { a := fieldOf w 0 5, b := fieldOf w 5 5, pen := fieldOf w 10 1 == 1, ta := fieldOf w 11 1 == 1, tb := fieldOf w 12 1 == 1,
    acc := fieldOf w 13 1 == 1, perm := fieldOf w 16 10 }

/-- FMTBAD: its reason, the lowest first (16 R405). -/
def fmtBad (w : Nat) : Option Nat :=
  let f := fmtWord w
  if f.a > 12 ∨ f.b > 12 then some 1
  else if fieldOf w 14 2 ≠ 0 ∨ fieldOf w 26 6 ≠ 0 then some 2
  else if fmtClass f.a ≠ fmtClass f.b then some 3
  else if ((blkOf f.a).isSome && f.ta) || ((blkOf f.b).isSome && !f.tb) then some 4
  else none

/-- Frame entries of B in each member, one where the format has no code of R99 (16 R405). -/
def bSpan (fw : Nat) : Nat := if (fmtWord fw).b ≤ 12 then fmtSpan (fmtWord fw).b else 1

/-- TDETAIL of the format causes. -/
def fmtDetail (reason w : Nat) : Nat := reason + w * 2 ^ 32

/-! ## Operand images (08 R212) -/

-- DESIGN CHOICE (log 2, safe): see notes/assumptions/2.md.
def byteAt (img : Array Nat) (i : Nat) : Nat := img.getD i 0

/-- Bits of a little-endian field of an image. -/
def bitsAt (img : Array Nat) (bit n : Nat) : Nat :=
  fieldOf (byteAt img (bit / 8) + 256 * byteAt img (bit / 8 + 1)) (bit % 8) n

/-- Element (i, k) of an operand that has 32 rows of K; `rowMajor` that it is stored so. -/
def imageElem (f : Nat) (rowMajor : Bool) (img : Array Nat) (i k : Nat) : FV :=
  let kk := fmtK f
  match blkOf f with
  | none =>
    let n := (natTy f).width / 8
    let o := (if rowMajor then i * kk + k else k * 32 + i) * n
    decodeF (natTy f) (byteAt img o + (if n = 2 then 256 * byteAt img (o + 1) else 0))
  | some b =>
    if Wf.seBlock b then
      let o := (i * (kk / 16) + k / 16) * blockBytes b
      seValue b (byteAt img o) (bitOf (byteAt img (o + 1)) (k % 16 / 2)) (bitsAt img (8 * (o + 2) + k % 16 * elemBits b) (elemBits b))
    else
      let g := i * (kk / 32) + k / 32
      mxValue b (byteAt img (32 * (kk / 32) * areaBytes b + g)) (bitsAt img (8 * g * areaBytes b + k % 32 * elemBits b) (elemBits b))

/-- The terms of a row in summation order: a block format is stored in permuted order, another is read through the table (04 R101). -/
def rowTerms (f : Nat) (rowMajor : Bool) (img : Array Nat) (perm : List Nat) (i : Nat) : List FV :=
  if (blkOf f).isSome then (List.range (fmtK f)).map (imageElem f rowMajor img i) else perm.map (imageElem f rowMajor img i)

/-- The groups of G products, each summed exactly. -/
def groupSums (g : Nat) : Nat → List (FV × FV) → List Sum
  | 0, _ => []
  | n + 1, l => (l.take g).foldl (fun s p => s.add (mulExact p.1 p.2)) Sum.zero :: groupSums g n (l.drop g)

/-- One output element (04 R103, R104). -/
def dotElem (g : Nat) (acc : BitVec 32) (a b : List FV) : BitVec 32 :=
  (groupSums g (a.length / g) (a.zip b)).foldl accStep acc

/-- A whole tile, row by row. -/
def tileProduct (w : FmtWord) (imgA imgB : Array Nat) (perm : List Nat) (old : List (BitVec 32)) : List (BitVec 32) :=
  let g := groupSize w.a w.b
  let bs := (List.range 32).map fun j => rowTerms w.b w.tb imgB perm j
  (List.range 32).flatMap fun i =>
    let a := rowTerms w.a (!w.ta) imgA perm i
    bs.zipIdx.map fun (b, j) => dotElem g (if w.acc then old.getD (32 * i + j) 0 else 0) a b

/-! ## The softmax step (08 R218) -/

/-- One f32 result rounded to nearest even, subnormals kept. -/
def mulF (a b : Nat) : Nat := (fMul .f32 .rn false (decodeF .f32 a) (decodeF .f32 b)).1
def subF (a b : Nat) : Nat := (fAdd .f32 .rn false (decodeF .f32 a) (decodeF .f32 b).negate).1
def maxF (a b : Nat) : Nat := (fMinMax .f32 false true (wordOf a) (wordOf b)).1
def ex2F (a : Nat) : Nat := (transOp trEx2 .f32 false (wordOf a)).1

/-- One row: the new O row, m, l, and the row of P. -/
structure SmRow where
  o : List Nat
  m : Nat
  l : Nat
  p : List Nat
  deriving DecidableEq, Repr

-- DEDUCED (log 28, unsafe): The canonical NaN 0x7FC0 is written to P in such a row.
def softmaxRow (c : Nat) (srow orow : List Nat) (m l : Nat) : SmRow :=
  let y := srow.map fun x => mulF x c
  let mx := (y.drop 1).foldl maxF (y.headD 0)
  let mn := maxF m mx
  let negInf := mn == 0xFF800000
  let alpha := if negInf then 0x3F800000 else ex2F (subF m mn)
  -- a NaN y gives the NaN of bf16 in every case
  let p := y.map fun v =>
    if (decodeF .f32 v).isNaN then canonNaN .bf16
    else if negInf then 0
    else lowBits 16 (convert .bf16 .f32 .rn false false (wordOf (ex2F (subF v mn)))).1
  let sum := p.foldl (fun (s : Sum) v => s.add (decodeF .bf16 v)) (Sum.zero.add (mulExact (decodeF .f32 l) (decodeF .f32 alpha)))
  { o := orow.map fun x => mulF x alpha, m := mn, l := rneF32 sum.value, p := p }

-- DEDUCED (log 28, unsafe): see notes/assumptions/28.md.
/-- Every row of the step. -/
def softmaxRows (c : Nat) (st ot : TileSlot) : List SmRow :=
  (List.range 32).map fun i =>
    softmaxRow c (((st.elems.drop (32 * i)).take 32).map BitVec.toNat) (((ot.elems.drop (32 * i)).take 32).map BitVec.toNat)
      ((ot.m.getD i 0).toNat) ((ot.l.getD i 0).toNat)

/-! ## Checks -/

/-- Segments that a format word's operand A from `aseg`, B from `bseg` where it is in segments, and permutation table name; an operand whose format
has no code of R99 names one. -/
def fmtRuns (w : Nat) (aseg : Nat) (bseg : Option Nat) : List Nat :=
  let f := fmtWord w
  let segs (x : Nat) : Nat := if x ≤ 12 then fmtSegs x else 1
  segRun aseg (segs f.a) ++ (match bseg with
    | some b => segRun b (segs f.b)
    | none => []) ++ (if f.pen then [f.perm] else [])

/-- What a queue command writes besides its tile. -/
def EngOp.result (op : EngOp) : MatResult :=
  match op with
  | .mmsm _ _ ot p half => .softmax ot p half
  | .acczero _ => .side
  | _ => .tile

/-- The keys of a half of a P segment (08 R218). -/
def pKeys (tm : Team) (pseg : Nat) (half : Bool) : List Nat :=
  (List.range 32).flatMap fun i => segKeys tm pseg ((i * 64 + if half then 32 else 0) * 2) 64

/-- The result of a matrix command on a tile made undefined (16 R409); its P bytes are written anew by a party. -/
def State.undefResult (s : State) (tm : Team) (core party tile : Nat) (r : MatResult) : State :=
  match r with
  | .tile => s.undefTile core (tm.slot tile)
  | .side => s.undefSide core (tm.slot tile)
  | .softmax ot p half =>
    let (ws, s) := (s.undefSide core (tm.slot ot)).takeBytes 2048
    (s.engWrite tm party ((pKeys tm p half).zip ws) false).2

/-- An issue-time note of a matrix command that no `mmwait` has shown complete. -/
def State.noteUnseen (s : State) (who : Who) (u : Unseen) : State := s.updThread who fun t => { t with unseen := u :: t.unseen }

/-- The end of the checks of a matrix or accumulator queue command: stage 6, the queue, then the command. `tiles` are what it names. -/
def State.queueCmd (s : State) (cx : Cx) (os : List Operand) (matrix : Bool) (tiles : List Nat) (op : EngOp) (lane : Nat) (addr : Bool) :
    State :=
  let ctl := ctlOf cx.h
  match s.ownFail cx tiles with
  | some d => s.fail cx 0x60 cx.on 0 d
  | none =>
    let use := os.map (onlyLanes [lane])
    let bad := poisonAt os lane
    if s.queueFull cx matrix 1 then s.hold cx
    -- an access whose address is poisoned is not made (17 R434)
    else if bad && addr then (s.done cx).consume cx use
    else
      let id := s.nextId
      let s := s.issueCmd cx matrix op ctl (valsAt os lane) bad
      let s := if matrix then tiles.foldl (fun s i => s.noteUnseen cx.who
          { tile := i, base := 0, span := 0, seq := id, quartet := false, done := false, spoiled := false, res := op.result }) s
        else s
      (s.done cx).consume cx use

/-! ## Queue commands -/

def execMmas (h : Hdr) (tile : BitVec 7) (aseg : BitVec 10) (frea freb : Bool) (s : State) : Host.Outcome State Fault Refusal :=
  act s h (Shape.both (src2 h) false) fun cx os s =>
    match segFail cx.tm [aseg.toNat], tileFail cx.tm [tile.toNat], cx.lead with
    | some g, _, _ => s.fail cx 0x25 cx.mask 0 (segDetail 0 g)
    | none, some d, _ => s.fail cx 0x43 cx.mask 0 d
    | none, none, none => s.done cx
    | none, none, some l =>
      let fw := lowBits 32 (arg (valsAt os l) 0)
      let bseg := fieldOf (arg (valsAt os l) 1).toNat 0 10
      match segFail cx.tm (fmtRuns fw aseg.toNat (some bseg)), fmtBad fw with
      | some g, _ => s.fail cx 0x25 (bitMask l) 0 (segDetail 0 g)
      | none, some r => s.fail cx 0x42 (bitMask l) 0 (fmtDetail r fw)
      | none, none =>
        if s.chainFull cx true (ctlOf h) then s.chainFail cx true l
        else s.queueCmd cx os true [tile.toNat] (.mmas fw bseg tile.toNat aseg.toNat frea freb) l false

def execMmsm (h : Hdr) (stile otile : BitVec 7) (pseg : BitVec 10) (half : Bool) (s : State) : Host.Outcome State Fault Refusal :=
  act s h (Shape.user (src1 h) false) fun cx os s =>
    let tiles := [stile.toNat, otile.toNat]
    match segFail cx.tm [pseg.toNat], tileFail cx.tm tiles, cx.lead with
    | some g, _, _ => s.fail cx 0x25 cx.mask 0 (segDetail 0 g)
    | none, some d, _ => s.fail cx 0x43 cx.mask 0 d
    | none, none, none => s.done cx
    | none, none, some l =>
      if s.chainFull cx true (ctlOf h) then s.chainFail cx true l
      else s.queueCmd cx os true tiles.eraseDups (.mmsm (lowBits 32 (arg (valsAt os l) 0)) stile.toNat otile.toNat pseg.toNat half) l false

def execAcczero (h : Hdr) (tile : BitVec 7) (s : State) : Host.Outcome State Fault Refusal :=
  act s h (Shape.user [] false) fun cx os s =>
    match tileFail cx.tm [tile.toNat], cx.lead with
    | some d, _ => s.fail cx 0x43 cx.mask 0 d
    | none, none => s.done cx
    | none, some l =>
      if s.chainFull cx true (ctlOf h) then s.chainFail cx true l
      else s.queueCmd cx os true [tile.toNat] (.acczero tile.toNat) l false

/-- `accld` and `accst`: an own-scratchpad area must lie in the team's segments, and the address is a multiple of 64 (16 R405, 17 R422). -/
def accCopy (s : State) (h : Hdr) (tile : Nat) (sp : Space) (op : Nat → EngOp) : Host.Outcome State Fault Refusal :=
  act s h (Shape.user (src1 h) false) fun cx os s =>
    match tileFail cx.tm [tile], cx.lead with
    | some d, _ => s.fail cx 0x43 cx.mask 0 d
    | none, none => s.done cx
    | none, some l =>
      let a := (arg (valsAt os l) 0).toNat
      let bad (f : MFault) : State :=
        s.raise cx.who cx.k (faultTrap cx.pc cx.word true 0 (spCode sp) [{ lane := l, f := f, ea := a, size := 0 }]) none
      let range : Option MFault := if sp == .own then (match placeOf s cx.tm cx.who .own a 4096 with
        | .error f => some f
        | .ok _ => none) else none
      if poisonAt os l then s.queueCmd cx os false [tile] (op a) l true
      else if a % 64 ≠ 0 then bad { alignFault 3 with rank := (spNames sp a).1, seg := (spNames sp a).2 }
      else match range with
        | some f => bad f
        | none =>
          if s.chainFull cx false (ctlOf h) then s.chainFail cx false l
          else s.queueCmd cx os false [tile] (op a) l true

def execAccld (h : Hdr) (tile : BitVec 7) (sp : Space) (s : State) : Host.Outcome State Fault Refusal :=
  accCopy s h tile.toNat sp fun a => .accld tile.toNat (sp == .own) a

def execAccst (h : Hdr) (tile : BitVec 7) (sp : Space) (s : State) : Host.Outcome State Fault Refusal :=
  accCopy s h tile.toNat sp fun a => .accst tile.toNat (sp == .own) a

/-! ## accrd and accwr (08 R221, 16 R409) -/

/-- Whether a matrix command of the thread on a tile is not yet shown complete. -/
def Warp.tilePending (t : Warp) (tile : Nat) : Bool := t.unseen.any fun u => u.tile == tile

/-- Index of a value in a slot's poison marks: an element, m or l of a row. -/
def accIdx (fn r lane : Nat) : Nat := if fn = 0 then 32 * r + lane else if fn = 1 then 1024 + r else 1056 + r

/-- A value of a tile slot: 0 element, 1 m, 2 l. -/
def accVal (ts : TileSlot) (fn r lane : Nat) : BitVec 32 :=
  if fn = 0 then ts.elems.getD (32 * r + lane) 0 else if fn = 1 then ts.m.getD r 0 else ts.l.getD r 0

/-- A slot with one value replaced and its mark as given. -/
def accPut (ts : TileSlot) (fn r lane : Nat) (v : BitVec 32) (poison : Bool) : TileSlot :=
  let i := accIdx fn r lane
  let p := if poison then (i :: ts.poison).eraseDups else ts.poison.filter (· != i)
  if fn = 0 then { ts with elems := setAt ts.elems i v, poison := p }
  else if fn = 1 then { ts with m := setAt ts.m r v, poison := p }
  else { ts with l := setAt ts.l r v, poison := p }

/-- The values an `accrd` pushes: undefined where a command on the tile is not shown complete. -/
def State.accReads (s : State) (t : Warp) (tile fn : Nat) (ts : TileSlot) : List (Nat × Nat) → List (Nat × List Word) × State
  | [] => ([], s)
  | (l, r) :: ls =>
    let (v, s) := if t.tilePending tile then (let (w, s) := takeFree s; (w.setWidth 32, s)) else (accVal ts fn r l, s)
    let (vs, s) := s.accReads t tile fn ts ls
    ((l, [v.setWidth 64]) :: vs, s)

def accrd (s : State) (h : Hdr) (tile fn : Nat) : Host.Outcome State Fault Refusal :=
  act s h (Shape.user (src1 h) true) fun cx os s =>
    match tileFail cx.tm [tile] with
    | some d => s.fail cx 0x43 cx.mask 0 d
    | none =>
      match (if cx.on == 0 then none else s.ownFail cx [tile]) with
      | some d => s.fail cx 0x60 cx.on 0 d
      | none =>
        let ts := s.tile (s.coreOf cx.who) (cx.tm.slot tile)
        let row (l : Nat) : Nat := (arg (valsAt os l) 0).toNat % 32
        let (vs, s) := s.accReads cx.t tile fn ts (cx.lanes.map fun l => (l, row l))
        let bad := cx.lanes.filter fun l => poisonAt os l || ts.poison.contains (accIdx fn (row l) l)
        (s.reserve cx 1 cx.on (offEnt os) (.value vs [] bad)).consume cx os

def execAccrd (h : Hdr) (tile : BitVec 7) (s : State) : Host.Outcome State Fault Refusal := accrd s h tile.toNat 0
def execAccrdMax (h : Hdr) (tile : BitVec 7) (s : State) : Host.Outcome State Fault Refusal := accrd s h tile.toNat 1
def execAccrdSum (h : Hdr) (tile : BitVec 7) (s : State) : Host.Outcome State Fault Refusal := accrd s h tile.toNat 2

/-- The writes of an `accwr` in ascending lane order; a value written while a command on the tile is not shown complete is undefined. -/
def accWrites (fn : Nat) (pending : Bool) : State → TileSlot → List (Nat × Nat × Word × Bool) → TileSlot × State
  | s, ts, [] => (ts, s)
  | s, ts, (l, r, v, p) :: ls =>
    let (v, s) := if pending then takeFree s else (v, s)
    accWrites fn pending s (accPut ts fn r l (v.setWidth 32) p) ls

def accwr (s : State) (h : Hdr) (tile fn : Nat) : Host.Outcome State Fault Refusal :=
  act s h (Shape.user (src2 h) false) fun cx os s =>
    match tileFail cx.tm [tile] with
    | some d => s.fail cx 0x43 cx.mask 0 d
    | none =>
      if cx.on == 0 then s.done cx
      else match s.ownFail cx [tile] with
      | some d => s.fail cx 0x60 cx.on 0 d
      | none =>
        let core := s.coreOf cx.who
        let slot := cx.tm.slot tile
        let pend := cx.t.tilePending tile
        -- a command that has completed unseen loses its result at once, another when it completes
        let s := (cx.t.unseen.filter fun u => u.tile == tile && u.done).foldl (fun s u => s.undefResult cx.tm core cx.sp.party tile u.res) s
        let ws := (cx.lanes.filter fun l => !((fieldOp os 0).at l).poison).map fun l =>
          (l, (arg (valsAt os l) 0).toNat % 32, arg (valsAt os l) 1, ((fieldOp os 1).at l).poison)
        let (ts, s) := accWrites fn pend s (s.tile core slot) ws
        let s := s.putTile ts
        let s := if fn = 0 then s else s.setSdv core slot true
        (s.doneWith cx fun t => { t with unseen := t.unseen.map fun u => if u.tile == tile && !u.done then { u with spoiled := true } else u }).consume
          cx (os.filter fun o => o.field == 0)

def execAccwr (h : Hdr) (tile : BitVec 7) (s : State) : Host.Outcome State Fault Refusal := accwr s h tile.toNat 0
def execAccwrMax (h : Hdr) (tile : BitVec 7) (s : State) : Host.Outcome State Fault Refusal := accwr s h tile.toNat 1
def execAccwrSum (h : Hdr) (tile : BitVec 7) (s : State) : Host.Outcome State Fault Refusal := accwr s h tile.toNat 2

/-! ## Quartet mma (08 R214, 16 R406) -/

/-- The checks of one member's issue: stages 4 and 6. -/
def State.mmaFail (s : State) (cx : Cx) (fw tile aseg bfb : Nat) : Option (Nat × Mask × Nat) :=
  let span := bSpan fw
  let qtet := ((cx.tm.roles[cx.t.role]?).map Role.qtet).getD false
  if bfb + span > cx.sp.fs then some (0x19, cx.mask, limitDetail 1 (bfb + span - 1))
  else match segFail cx.tm (fmtRuns fw aseg none) with
    | some g => some (0x25, cx.mask, segDetail 0 g)
    | none =>
      if cx.mask != allLanes then some (0x40, ~~~cx.mask, 1)
      else if !qtet || !cx.who.isUser then some (0x40, cx.mask, 3)
      else match tileFail cx.tm [tile] with
        | some d => some (0x43, cx.mask, d)
        | none => (s.ownFail cx [tile]).map fun d => (0x60, cx.on, d)

/-- The members of a quartet that have issued its operation `n`, the issuing warp included. -/
def State.mmaSet (s : State) (cx : Cx) (n : Nat) : List MmaIssue :=
  let q := (s.quartetOf cx.tm cx.who.warpNo).map fun t => t.who.warpNo
  sortBy (fun a b => decide (a.warp ≤ b.warp)) (s.mmaWait.filter fun m => m.ctxh == cx.tm.ctxh && m.seq == n && q.contains m.warp)

/-- An operation that is never started: it is lowered out of the MOC of the members that have issued it (16 R406). -/
def State.dropMma (s : State) (ms : List MmaIssue) : State :=
  let s := ms.foldl (fun s m => s.updThread (.warp m.ctxh m.warp) fun t =>
    { t.count true (· - 1) with unseen := t.unseen.filter fun u => !(u.quartet && u.seq == m.seq) }) s
  { s with mmaWait := s.mmaWait.filter fun m => !ms.contains m }.dropEngEdges

-- DEDUCED (log 79, unsafe): The checks of a member's issue that need the format word are made with the word of the split's lowest lane.
def mma (s : State) (h : Hdr) (tile aseg bfb : Nat) (free : Bool) : Host.Outcome State Fault Refusal :=
  act s h (Shape.user (src1 h) false) fun cx os s =>
    let fws := (List.range 32).map fun l => lowBits 32 (arg (valsAt os l) 0)
    -- a split without lane 0 is checked with the word of its lowest lane
    let fw := fws.getD ((lanesOf cx.mask).headD 0) 0
    match s.mmaFail cx fw tile aseg bfb with
    | some (c, m, d) => s.fail cx c m 0 d
    | none =>
      if s.queueFull cx true 1 then s.hold cx else
      let member := (cx.who.warpNo - roleFirst cx.tm.roles (roleOf cx.tm.roles cx.who.warpNo 0)) % 4
      s.slotReads cx ((List.range (if (fmtBad fw).isNone then fmtSlots (fmtWord fw).b member else 0)).map (cx.sp.fb + bfb + ·)) fun s =>
      let n := cx.t.mmaSeq
      let base := cx.sp.fb + bfb
      let span := bSpan fw
      let bad := cx.lanes.any (poisonAt os)
      let mine : MmaIssue :=
        { ctxh := cx.tm.ctxh, warp := cx.who.warpNo, seq := n, order := s.nextId, pc := cx.pc, word := cx.word, tile := tile, fws := fws,
          poison := bad, clk := cx.sp.opf, aseg := aseg }
      let others := s.mmaSet cx n
      let issue (s : State) : State :=
        (({ s with nextId := s.nextId + 1 }).noteUnseen cx.who
          { tile := tile, base := base, span := span, seq := n, quartet := true, done := false, spoiled := false,
            old := cx.t.recent.filter fun w => decide (base ≤ w.idx ∧ w.idx < base + span) }).updThread cx.who fun t => { t.count true (· + 1) with mmaSeq := n + 1 }
      if others.length < 3 then
        (({ issue s with mmaWait := s.mmaWait ++ [mine] }).done cx).consume cx os
      else if others.any fun m => m.word != cx.word then (s.dropMma others).fail cx 0x40 cx.mask 0 5
      else match others.find? fun m => m.fws.any (· != fw), fws.find? (· != fw) with
        | some m, _ => (s.dropMma others).fail cx 0x41 cx.mask 0 (fw + ((m.fws.find? (· != fw)).getD 0) * 2 ^ 32)
        | none, some x => (s.dropMma others).fail cx 0x41 cx.mask 0 (x + fw * 2 ^ 32)
        | none, none =>
          match fmtBad fw with
          | some r => (s.dropMma others).fail cx 0x42 cx.mask 0 (fmtDetail r fw)
          | none =>
            let all := sortBy (fun a b => decide (a.warp ≤ b.warp)) (mine :: others)
            let s := issue s
            let cmd : Cmd :=
              { id := s.nextId, core := s.coreOf cx.who, matrix := true, issuer := cx.who, ctxh := cx.tm.ctxh, spl := cx.k, pc := cx.pc,
                word := cx.word, op := .mma fw tile aseg bfb free (all.map fun m => (m.warp, m.seq)), ctl := 0, ops := [wordOf fw],
                guard := none, held := false, chn := false, aft := false, started := false,
                clk := (all.map MmaIssue.clk).foldl clkJoin [], idx := all.map fun m => (m.order : Int), poison := all.any MmaIssue.poison
                accepted := s.nextId, party := cx.sp.party, nth := cx.sp.issues + 1 }
            let s := { s with nextId := s.nextId + 1, cmds := s.cmds ++ [cmd], mmaWait := s.mmaWait.filter fun m => !others.contains m }
            (s.done cx).consume cx os

def execMma (h : Hdr) (tile : BitVec 7) (aseg : BitVec 10) (bfb : BitVec 6) (s : State) : Host.Outcome State Fault Refusal :=
  mma s h tile.toNat aseg.toNat bfb.toNat false

def execMmaFree (h : Hdr) (tile : BitVec 7) (aseg : BitVec 10) (bfb : BitVec 6) (s : State) : Host.Outcome State Fault Refusal :=
  mma s h tile.toNat aseg.toNat bfb.toNat true

end Sys2Proof.Machine
end

