-- ==== Sys2Proof/Machine/Copies.lean ====
section
/-!
DEFINITION. The copy and segment instructions, and the start and completion of every engine command (07 R179 to R184, 08 R215 to R228,
16 R410, 17 R424, R425, 19 R464 to R468).
-/
namespace Sys2Proof.Machine

/-! ## Shape records (08 R224, 16 R410) -/

/-- SHAPE reason 2 of R410. -/
def shapeBad (ws : List Word) : Bool :=
  let h := (ws.headD 0).toNat
  let rank := shapeRank ws
  let dimBad (d : Nat) : Bool :=
    let st := ws.getD (1 + 2 * d) 0
    let x := (ws.getD (2 + 2 * d) 0).toNat
    if d < rank then fieldOf x 0 32 == 0 || decide (fieldOf x 0 32 > 2 ^ 31) || fieldOf x 32 16 == 0 || decide (fieldOf x 32 16 > 4096) || fieldOf x 48 16 != 0
    else st != 0 || x != 0
  rank == 0 || decide (rank > 5) || fieldOf h 3 5 != 0 || fieldOf h 12 52 != 0 || (List.range 5).any dimBad ||
    decide ((shapeOf ws).count * (shapeOf ws).width > 4096)

/-- SHAPE of a record read at issue: its reason. -/
def shapeFail (ws : List Word) (sb : Nat) (gather : Bool) : Option Nat :=
  if shapeBad ws then some 2
  else if sb + (if gather then 2 else shapeRank ws) > 16 then some 3
  else if gather && shapeRank ws != 2 then some 4
  else none

/-! ## tcopy and tgather -/

/-- The age that SB names. -/
def ageOf (x : Src) : Nat :=
  match x with
  | .age n => n.toNat
  | _ => 0

/-- Coordinates read as s32 from consecutive ages of a lane (08 R225). -/
def State.coordsOf (s : State) (cx : Cx) (lane : Nat) : Nat → Nat → List (SVal × Int) × State
  | _, 0 => ([], s)
  | a, n + 1 =>
    let (v, s) := s.readLane cx (.age (BitVec.ofNat 4 a)) lane
    let (vs, s) := s.coordsOf cx lane (a + 1) n
    ((v, intOf .s32 v.v) :: vs, s)

/-- The lookahead hazard of a copy command's coordinates, when LADBG is set for a team's thread: its lane and the first pending one. How many it
reads its shape record says (16 R395). -/
def State.coordHazard (s : State) (cx : Cx) (lane tsr : Nat) (gather : Bool) : Option (Mask × Nat) :=
  let sb := ageOf cx.h.sb
  if !cx.tm.brken.getLsbD 1 || cx.who.isHandler then none
  else
    match s.objEntry cx.who cx.tm cx.sp.party 32 tsr with
    | (.ok (some a), s) =>
      match s.objWords cx.who cx.tm cx.sp.party a 11 with
      | (.ok ws, _) =>
        if (shapeFail ws sb gather).isSome then none
        else ((List.range (if gather then 1 else shapeRank ws)).find? fun i => (cx.t.age lane (sb + i + 1)).pend.isSome).map fun i =>
          (bitMask lane, sb + i + 32)
      | _ => none
    | _ => none

/-- The checks that `tcopy` and `tgather` share once a lane is on: the counter's alignment, then what `segs` finds, then the record, then the
chain; `go` issues the command with the record's words and the coordinates. -/
def State.copyInstr (s : State) (cx : Cx) (os : List Operand) (lane tsr : Nat) (gather : Bool) (segs : Option Nat)
    (op : List Word → List Int → Option Nat → EngOp) : State :=
  let det (r : Nat) : Nat := r + 16 * tsr
  let counter : Option Nat := if cx.h.sc == .zero then none else some (arg (valsAt os lane) 2).toNat
  let use := os.map (onlyLanes [lane])
  match counter.bind (fun a => if a % 8 ≠ 0 && !((fieldOf' os).at lane).poison then some a else none), segs with
  | some a, _ => s.raise cx.who cx.k (faultTrap cx.pc cx.word true 0 0 [{ lane := lane, f := alignFault 3, ea := a, size := 0 }]) none
  | none, some d => s.fail cx 0x25 (bitMask lane) 0 d
  | none, none =>
    -- the fetch of the record fails at stage 7, behind the chain's refusal, unless it lies in no window (16 R389)
    let unread (s : State) (e : TransFail × Nat) : State :=
      let window : Bool := match e.1 with
        | .fault f => f.cause == 0x22
        | .lost => false
      if !window && s.chainFull cx false (ctlOf cx.h) then s.chainFail cx false lane else s.fetchFault cx.who cx.k cx.pc cx.word cx.mask cx.tm e
    match s.objEntry cx.who cx.tm cx.sp.party 32 tsr with
    | (.error e, s) => unread s e
    | (.ok none, s) => s.fail cx 0x50 (bitMask lane) 0 (det 1)
    | (.ok (some a), s) =>
      match s.objWords cx.who cx.tm cx.sp.party a 11 with
      | (.error e, s) => unread s e
      | (.ok ws, s) =>
        match shapeFail ws (ageOf cx.h.sb) gather with
        | some r => s.fail cx 0x50 (bitMask lane) 0 (det r)
        | none =>
          if s.chainFull cx false (ctlOf cx.h) then s.chainFail cx false lane
          else if s.queueFull cx false 1 then s.hold cx
          else
            let (cs, s) := s.coordsOf cx lane (ageOf cx.h.sb) (if gather then 1 else shapeRank ws)
            let bad := poisonAt os lane || cs.any fun c => c.1.poison
            -- an access whose address is poisoned is not made (17 R434)
            if bad then
              let coord (c : (SVal × Int) × Nat) : Operand := { field := 1, sel := .age (BitVec.ofNat 4 (ageOf cx.h.sb + c.2)), vals := (List.range 32).map fun l =>
                { v := 0, poison := l == lane && c.1.1.poison } }
              let isC (o : Operand) : Bool := o.field == 2
              (s.done cx).consume cx ((use.filter fun o => !isC o) ++ cs.zipIdx.map coord ++ use.filter isC)
            else
              let s := s.issueCmd cx false (op ws (cs.map Prod.snd) counter) (ctlOf cx.h)
                -- in source order: SA, the coordinates that SB names, SC (19 R469)
                ((valsAt os lane).take 1 ++ (cs.map fun c => c.1.v) ++ counter.toList.map wordOf) false
              s.done cx
where
  fieldOf' (os : List Operand) : Operand := fieldOp os 2

/-- A copy command up to its effect: the coordinates that its shape record makes it read are sources of stage 3 (16 R395). -/
def copyAct (s : State) (h : Hdr) (tsr : Nat) (gather : Bool) (f : Cx → List Operand → State → State) : Host.Outcome State Fault Refusal :=
  let sh := Shape.both (src3 h) false
  runAcross s h sh (fun cx => cx.lead.bind fun l => s.coordHazard cx l tsr gather) fun cx s =>
    let (os, s) := s.operands cx sh.srcs sh.pushes
    f cx os s

/-- `tcopy`: the segment of its field at stage 4, a peer's at stage 5 (16 R410). -/
def tcopy (s : State) (h : Hdr) (dir tsr seg : Nat) (free : Bool) : Host.Outcome State Fault Refusal :=
  copyAct s h tsr false fun cx os s =>
    match segFail cx.tm [seg], cx.lead with
    | some g, _ => s.fail cx 0x25 cx.mask 0 (segDetail 0 g)
    | none, none => s.done cx
    | none, some l =>
      let a := (arg (valsAt os l) 0).toNat
      let rank := fieldOf a 10 3
      let dseg := fieldOf a 0 10
      let peer : Option Nat :=
        if dir ≠ 2 then none
        else if rank ≥ s.nteam cx.tm then some (memDetail (.range 2 rank dseg) 0 0 0)
        else if dseg ≥ ((s.teamOfRank cx.tm.cluster rank).map Team.segs).getD 0 then some (segDetail rank dseg)
        else none
      s.copyInstr cx os l tsr false peer fun ws cs cnt => .tcopy dir a tsr seg cs ws cnt free

def execTcopyG2s (h : Hdr) (tsr seg : BitVec 10) (s : State) : Host.Outcome State Fault Refusal := tcopy s h 0 tsr.toNat seg.toNat false
def execTcopyS2g (h : Hdr) (tsr seg : BitVec 10) (free : Bool) (s : State) : Host.Outcome State Fault Refusal :=
  tcopy s h 1 tsr.toNat seg.toNat free
def execTcopyS2c (h : Hdr) (tsr seg : BitVec 10) (free : Bool) (s : State) : Host.Outcome State Fault Refusal :=
  tcopy s h 2 tsr.toNat seg.toNat free

/-- `tgather` (08 R226). -/
def execTgather (h : Hdr) (tsr seg : BitVec 10) (s : State) : Host.Outcome State Fault Refusal :=
  copyAct s h tsr.toNat true fun cx os s =>
    let iseg := (ctlOf h).seg2
    match segFail cx.tm [seg.toNat, iseg], cx.lead with
    | some g, _ => s.fail cx 0x25 cx.mask 0 (segDetail 0 g)
    | none, none => s.done cx
    | none, some l =>
      s.copyInstr cx os l tsr.toNat true none fun ws cs cnt =>
        .tgather (arg (valsAt os l) 0).toNat tsr.toNat seg.toNat iseg (cs.headD 0) ws cnt

/-! ## Segment instructions (07 R179 to R184, 17 R424) -/

/-- The segments of its own team, whose rank is given, that a command names until it completes. -/
def EngOp.segs (op : EngOp) (own : Nat) : List Nat :=
  match op with
  | .tcopy dir base _ seg _ _ _ _ => seg :: if dir = 2 ∧ fieldOf base 10 3 = own then [fieldOf base 0 10] else []
  | .tgather _ _ seg iseg _ _ _ => [seg, iseg]
  | .spmove seg rank dseg | .spshare seg rank dseg => seg :: if rank = own then [dseg] else []
  | .mmas fw b _ a _ _ => fmtRuns fw a (some b)
  | .mmsm _ _ _ p _ => [p]
  | .mma fw _ a _ _ _ => fmtRuns fw a none
  | .accld _ sp a | .accst _ sp a => if sp then segRun (a / segBytes) (if a % segBytes = 0 then 1 else 2) else []
  | .acczero _ => []

/-- A failure of a segment instruction in a lane: it names a segment, not a byte. -/
def segFault (lane cause reason rank seg : Nat) : LaneFault :=
  { lane := lane, f := { MFault.range reason rank seg with cause := cause }, ea := 0, size := 0 }

/-- An `spset` or `spdrop` on a segment of a command that has not completed (17 R424 reason 4). -/
def State.segBusy (s : State) (tm : Team) (seg : Nat) : Bool :=
  (s.cmds.any fun c => c.ctxh == tm.ctxh && (c.op.segs tm.rank).contains seg) ||
    s.mmaWait.any fun m => m.ctxh == tm.ctxh && (fmtRuns (m.fws.headD 0) m.aseg none).contains seg

def segIdx (w : Word) : Nat := fieldOf w.toNat 0 10

/-- The lanes of a segment instruction act in turn, up to one that waits; gives the lanes that have acted and whether all have. -/
def segEach (cx : Cx) (waits : State → Cx → List Word → Bool) (effect : State → Cx → List Word → State) :
    State → List (Nat × List Word) → Mask × Bool × State
  | s, [] => (0, true, s)
  | s, x :: l =>
    if waits s (cx.now s) x.2 then (0, false, s)
    else
      let (m, all, s) := segEach cx waits effect (effect s (cx.now s) x.2) l
      (bitMask x.1 ||| m, all, s)

/-- A segment instruction (07 R179): the checks of its lanes (each given the earlier lanes that passed), what refuses it as a whole, and the lanes'
effects in ascending order. A lane that meets an entry in transit waits, and the instruction goes on with that lane when it issues again; an entry
that was in transit before any lane acted is waited for before the checks. -/
def segInstr (s : State) (h : Hdr) (srcs : List (Nat × Src)) (waits : State → Cx → List Word → Bool)
    (check : State → Cx → List (Nat × List Word) → Nat → List Word → Option LaneFault)
    (refuse : State → Cx → List Nat → Option State) (effect : State → Cx → List Word → State) : Host.Outcome State Fault Refusal :=
  act s h (Shape.user srcs false) fun cx os s =>
    let lanes := (cx.lanes.filter fun l => !poisonAt os l && !cx.sp.acted.getLsbD l).map fun l => (l, valsAt os l)
    if lanes.any fun x => waits s cx x.2 then s.hold cx
    else
      let faults := (lanes.foldl (fun (a : List (Nat × List Word) × List LaneFault) x => match check s cx a.1 x.1 x.2 with
      | some f => (a.1, a.2 ++ [f])
      | none => (a.1 ++ [x], a.2)) ([], [])).2
      if !faults.isEmpty then s.raise cx.who cx.k (faultTrap cx.pc cx.word true 7 0 faults) none
      else match refuse s cx (lanes.map Prod.fst) with
        | some s => s
        | none =>
          let (m, all, s) := segEach cx waits effect s lanes
          if all then (s.done cx).consume cx os
          else (s.updSplit cx.who cx.k fun sp => { sp with acted := sp.acted ||| m }).hold cx

/-- Nothing refuses the instruction as a whole. -/
def noRefusal (_ : State) (_ : Cx) (_ : List Nat) : Option State := none

/-- Whether an entry of a team holds a tag. -/
def SegEnt.holds (e : SegEnt) (tag : BitVec 36) : Bool := e.st != 0 && !e.ut && e.tag == tag

def tagOfVa (w : Word) : BitVec 36 := BitVec.ofNat 36 (fieldOf w.toNat 12 36)

/-- The check that `spset` and `spdrop` share. -/
def ownSegCheck (s : State) (cx : Cx) (_ : List (Nat × List Word)) (l : Nat) (v : List Word) : Option LaneFault :=
  let seg := segIdx (arg v 0)
  if seg ≥ cx.tm.segs then some (segFault l 0x25 3 0 seg)
  else if s.segBusy cx.tm seg then some (segFault l 0x24 4 cx.tm.rank seg)
  else none

/-- A segment of the issuing team is in transit. -/
def ownTransit (cx : Cx) (v : List Word) : Bool := (cx.tm.seg (segIdx (arg v 0))).st == 3

/-- The entries of a cluster's other teams that own a tag become shared, and the team's own other entries of it invalid (07 R182). -/
def State.claimTag (s : State) (tm : Team) (seg : Nat) (tag : BitVec 36) : State :=
  { s with teams := s.teams.map fun t =>
      if t.ctxh == tm.ctxh then
        { t with tags := t.tags.zipIdx.map fun (e, i) => if i != seg && e.holds tag then { e with st := 0 } else e }
      else if t.cluster == tm.cluster then { t with tags := t.tags.map fun e => if e.st == 2 && e.holds tag then { e with st := 1 } else e }
      else t }

-- DEDUCED (log 25, unsafe): A lane that fails its check does nothing and later lanes see the table without it.
def execSpsetTag (h : Hdr) (s : State) : Host.Outcome State Fault Refusal :=
  segInstr s h (src2 h)
    (fun s cx v => ownTransit cx v || s.teams.any fun t => t.cluster == cx.tm.cluster && t.tags.any fun e => e.st == 3 && e.holds (tagOfVa (arg v 1)))
    ownSegCheck noRefusal
    fun s cx v =>
      let tag := tagOfVa (arg v 1)
      (s.claimTag cx.tm (segIdx (arg v 0)) tag).updSeg cx.tm.ctxh (segIdx (arg v 0)) fun _ =>
        { tag := tag, st := 2, v := false, c := true, ut := false, clk := [] }

-- DEDUCED (log 25, unsafe): see notes/assumptions/25.md.
def execSpsetUntag (h : Hdr) (s : State) : Host.Outcome State Fault Refusal :=
  segInstr s h (src1 h) (fun _ cx v => ownTransit cx v) ownSegCheck noRefusal fun s cx v =>
    s.updSeg cx.tm.ctxh (segIdx (arg v 0)) fun _ => { tag := 0, st := 2, v := false, c := true, ut := true, clk := [] }

def execSpdrop (h : Hdr) (s : State) : Host.Outcome State Fault Refusal :=
  segInstr s h (src1 h) (fun _ cx v => ownTransit cx v) ownSegCheck noRefusal fun s cx v =>
    s.updSeg cx.tm.ctxh (segIdx (arg v 0)) fun _ => emptySeg

/-- The lookup of `sptag`: the index, or -1 (07 R181). -/
def tagLookup (tm : Team) (tag : BitVec 36) : Word :=
  match tm.tags.findIdx? fun e => (e.st == 1 || e.st == 2) && e.holds tag with
  | some i => wordOf i
  | none => BitVec.allOnes 64

def execSptag (h : Hdr) (s : State) : Host.Outcome State Fault Refusal :=
  act s h (Shape.user (src1 h) true) fun cx os s =>
    let tag (l : Nat) : BitVec 36 := tagOfVa (arg (valsAt os l) 0)
    if (cx.lanes.filter fun l => !poisonAt os l).any fun l => cx.tm.tags.any fun e => e.st == 3 && e.holds (tag l) then s.hold cx
    else
      let (free, s) := takeFrees s 32
      (s.reserve cx 1 cx.on (offEnt os)
        (.value (cx.lanes.map fun l => (l, [if poisonAt os l then free.getD l 0 else tagLookup cx.tm (tag l)])) [] (cx.lanes.filter (poisonAt os)))).consume
          cx os

/-- The checks of `spmove` and `spshare` in a lane; a lane of `spmove` that names the source of an earlier lane finds it moved away. -/
def handOver (move : Bool) (s : State) (cx : Cx) (before : List (Nat × List Word)) (l : Nat) (v : List Word) : Option LaneFault :=
  let seg := segIdx (arg v 0)
  let rank := fieldOf (arg v 1).toNat 0 3
  let dseg := segIdx (arg v 2)
  if seg ≥ cx.tm.segs then some (if rank == cx.tm.rank && dseg == seg then segFault l 0x24 2 rank dseg else segFault l 0x25 3 cx.tm.rank seg)
  else
    let e := cx.tm.seg seg
    let gone := move && before.any fun y => segIdx (arg y.2 0) == seg
    if move && (e.st != 2 || gone) then some (segFault l 0x24 1 cx.tm.rank seg)
    else if rank == cx.tm.rank && dseg == seg then some (segFault l 0x24 2 rank dseg)
    else if !move && e.st == 0 then some (segFault l 0x24 3 cx.tm.rank seg)
    else if rank ≥ s.nteam cx.tm then some (segFault l 0x25 2 rank dseg)
    else if dseg ≥ ((s.teamOfRank cx.tm.cluster rank).map Team.segs).getD 0 then some (segFault l 0x25 3 rank dseg)
    else none

/-- The chain refusal of `spmove` and `spshare`, one chain head for each lane: the first lane whose command finds 15 (19 R470). -/
def handRefusal (s : State) (cx : Cx) (lanes : List Nat) : Option State :=
  if !(ctlOf cx.h).chn then none
  else (lanes[15 - min 15 (s.chainHeads cx false)]?).map fun l => s.chainFail cx false l

/-- `spmove` and `spshare`: one copy command for each lane, under the engine control word; the source is in transit from its issue on. The command
keeps the state and V that the source had. -/
def handInstr (s : State) (h : Hdr) (move : Bool) : Host.Outcome State Fault Refusal :=
  segInstr s h (src3 h)
    (fun s cx v => ownTransit cx v || s.queueFull cx false 1)
    (handOver move) handRefusal
    fun s cx v =>
      let seg := segIdx (arg v 0)
      let rank := fieldOf (arg v 1).toNat 0 3
      let dseg := segIdx (arg v 2)
      let e := cx.tm.seg seg
      let id := s.nextId
      let s := s.updSeg cx.tm.ctxh seg fun e => { e with st := 3, v := if move then false else e.v }
      let s := s.issueCmd cx false (if move then .spmove seg rank dseg else .spshare seg rank dseg) (ctlOf cx.h) v false
      { s with cmds := s.cmds.map fun x => if x.id == id then { x with idx := [e.st.toNat, if e.v then 1 else 0] } else x }

-- DEDUCED (log 29, unsafe): From the issue of the instruction until its command completes.
def execSpmove (h : Hdr) (s : State) : Host.Outcome State Fault Refusal := handInstr s h true
def execSpshare (h : Hdr) (s : State) : Host.Outcome State Fault Refusal := handInstr s h false

/-! ## The start of a command -/

/-- What a command waits for at a segment: V, C, or only that it is not in transit. -/
inductive TagCond where
  | v | c | settled
  deriving DecidableEq, Repr

/-- A condition on a tile tag: the team and segment, and what is waited for. -/
structure TagWait where
  ctxh : Nat
  seg : Nat
  cond : TagCond
  deriving DecidableEq, Repr

/-- The tile tags that a command waits for (08 R215, R217, R218, R225, R226, 07 R183). None where a peer is gone. -/
def State.tagWaits (s : State) (tm : Team) (op : EngOp) : Option (List TagWait) :=
  let onV (i : Nat) : TagWait := { ctxh := tm.ctxh, seg := i, cond := .v }
  let onC (h i : Nat) : TagWait := { ctxh := h, seg := i, cond := .c }
  let peer (rank : Nat) (f : Nat → List TagWait) : Option (List TagWait) := (s.teamOfRank tm.cluster rank).map fun t => f t.ctxh
  match op with
  | .tcopy dir a _ seg _ _ _ _ =>
    if dir = 0 then some [onC tm.ctxh seg]
    else if dir = 1 then some [onV seg]
    else peer (fieldOf a 10 3) fun h => [onV seg, onC h (fieldOf a 0 10)]
  | .tgather _ _ seg iseg _ _ _ => some [onV iseg, onC tm.ctxh seg]
  | .spmove _ rank dseg | .spshare _ rank dseg => peer rank fun h => [onC h dseg]
  | .mmas fw b _ a _ _ => some (((segRun a (fmtSegs (fmtWord fw).a)) ++ segRun b (fmtSegs (fmtWord fw).b)).map onV)
  | .mmsm _ _ _ p _ => some [onC tm.ctxh p]
  | .mma fw _ a _ _ _ => some ((segRun a (fmtSegs (fmtWord fw).a)).map onV)
  | .accst _ true a => some ((EngOp.segs (.accst 0 true a) tm.rank).map fun i => { ctxh := tm.ctxh, seg := i, cond := .settled })
  | .accld _ _ _ | .accst _ false _ | .acczero _ => some []

/-- The entry that a wait names. -/
def State.tagEnt (s : State) (w : TagWait) : SegEnt := ((s.team? w.ctxh).map fun t => t.seg w.seg).getD emptySeg

/-- The wait is over; an engine write into a segment in transit waits for it to settle (17 R425). -/
def State.tagReady (s : State) (w : TagWait) : Bool :=
  let e := s.tagEnt w
  match w.cond with
  | .v => e.v
  | .c => e.c && e.st != 3
  | .settled => e.st != 3

/-- The kind of the party that a command's accesses belong to: its issuer's (10 R269). -/
def State.cmdKind (s : State) (c : Cmd) : PartyKind :=
  match (s.thread? c.issuer).bind fun t => t.split? c.spl with
  | some sp => s.kindOf sp.party
  | none => .user c.ctxh (((s.team? c.ctxh).map Team.cluster).getD 0)

/-- No earlier command of the issuer in the queue is unstarted (08 R204, R209). -/
def State.atHead (s : State) (c : Cmd) : Bool :=
  !(s.cmds.any fun d => decide (d.id < c.id) && d.issuer == c.issuer && d.matrix == c.matrix && !d.started && (match d.op with
    | .mma _ _ _ _ _ _ => false
    | _ => true))

/-- Row indices of a `tgather`, read at its start (08 R226). -/
def gatherIdx (party : Nat) (tm : Team) (iseg : Nat) : State → List Nat → List Int × Bool × State
  | s, [] => ([], false, s)
  | s, n :: ns =>
    let (bs, p, s) := s.engRead party (segKeys tm iseg (4 * n) 4)
    let (is, q, s) := gatherIdx party tm iseg s ns
    (intOf .s32 (wordOf (leNum bs)) :: is, p || q, s)

/-- A lane word of a stack entry as the array reads it: the word as it stands, or one that stood there before a write that no `opfence` of its
member covered when the `mma` issued; which one is open (03 R57, 08 R206). An undefined word is a free value. -/
def State.frameWord (s : State) (t : Warp) (old : List OldWord) (i l : Nat) : SVal × State :=
  let now : OldWord := { idx := i, lane := l, val := t.fword i l, poison := t.fpoison i l }
  let cs := (now :: old.filter fun w => w.idx == i && w.lane == l).eraseDups
  let (k, s) := takeChoice s cs.length
  let w := cs.getD k now
  match w.val with
  | some v => ({ v := v, poison := w.poison }, s)
  | none => let (v, s) := takeFree s; ({ v := v, poison := w.poison }, s)

/-- The bytes of some lane words of a member of a quartet. -/
def frameWordsOf (t : Warp) (old : List OldWord) : State → List (Nat × Nat) → List Nat × Bool × State
  | s, [] => ([], false, s)
  | s, (i, l) :: r =>
    let (w, s) := s.frameWord t old i l
    let (bs, p, s) := frameWordsOf t old s r
    ((List.range 8).map (fun k => w.v.toNat / 256 ^ k % 256) ++ bs, p || w.poison, s)

/-- The first `words` 8-byte words of B in the frames of a quartet's members, `span` slots of each (08 R213). An entry below its member's window is
decoded from its private place (03 R59, R62). -/
def membersImage (tm : Team) (party span : Nat) : State → Nat → List (Warp × Unseen) → List Nat × Bool × State
  | s, _, [] => ([], false, s)
  | s, words, (t, u) :: r =>
    let ks := ((List.range span).flatMap fun i => (List.range 32).map fun l => (u.base + i, l)).take words
    -- a walk that meets poison loses the context (17 R432)
    let s := ((List.range span).filter fun i => decide (32 * i < words ∧ u.base + i < t.win)).foldl (fun s i =>
      match s.fillEntry tm t.who party (u.base + i) with
      | (.error (.lost, _), s) => s.loseContext tm.asid 0x74 tm.ctxh 0
      | (_, s) => s) s
    let (bs, p, s) := frameWordsOf ((s.thread? t.who).getD t) u.old s ks
    let (cs, q, s) := membersImage tm party span s (words - 32 * span) r
    (bs ++ cs, p || q, s)

-- DEDUCED (log 27, safe): see notes/assumptions/27.md.
/-- The command leaves its queue: what set the tags it waited for happens before it (10 R283). A `tgather` reads its row indices now, and a quartet
operation its members' words (08 R215, R226). -/
def State.startNow (s : State) (tm : Team) (c : Cmd) (ws : List TagWait) : State :=
  let clk := (ws.map fun w => (s.tagEnt w).clk).foldl clkJoin c.clk
  let start (s : State) (idx : List Int) (img : List Nat) (bad : Bool) : State :=
    { s with cmds := s.cmds.map fun x =>
        if x.id == c.id then { x with started := true, clk := clk, idx := idx, bImage := img, poison := x.poison || bad } else x }
  match c.op with
  | .tgather _ _ _ iseg _ shape _ =>
    let (p, s) := s.newParty (s.cmdKind c) clk []
    let (idx, bad, s) := gatherIdx p tm iseg s (List.range (((shapeOf shape).dims.getD 1 (0, 0, 0)).2.2))
    start s idx [] bad
  | .mma fw _ _ _ _ ms =>
    let w := fmtWord fw
    let (p, s) := s.newParty (s.cmdKind c) clk []
    let members := ms.filterMap fun m => (s.thread? (.warp c.ctxh m.1)).bind fun t =>
      (t.unseen.find? fun u => u.quartet && u.seq == m.2).map fun u => (t, u)
    let (img, bad, s) := membersImage tm p (fmtSpan w.b) s (fmtBytes w.b / 8) members
    start s c.idx img bad
  | _ => start s c.idx [] false

/-- A command at its head meets its guard, then takes a release if it is a successor, then waits for its tags (08 R209, R210). -/
def State.tryStart (s : State) (id : Nat) : State :=
  match s.cmds.find? fun c => c.id == id with
  | none => s
  | some c0 =>
    let quartet := match c0.op with
      | .mma _ _ _ _ _ _ => true
      | _ => false
    match s.team? c0.ctxh with
    | none => s
    | some tm =>
      let away := match tm.status with
        | .saved _ | .killed => true
        | _ => false
      -- a successor that a chain holds stays held while its team is stopped (15 R374)
      if c0.started || away || (c0.aft && tm.status != .running) || (!quartet && !s.atHead c0) then s
      else
        let s := s.meetGuard c0
        match s.cmds.find? fun c => c.id == id with
        | none => s
        | some c =>
          if c.guard.isSome then s
          else
            let chain := ((s.thread? c.issuer).map fun t => t.chains c.matrix).getD []
            match s.tagWaits tm c.op with
            | none => s
            | some ws =>
              if c.aft && chain.isEmpty then s
              else if c.aft then
                -- the release is taken at the head; the tags are waited for with it in hand
                let s := s.updThread c.issuer fun t => t.setChains c.matrix chain.tail
                let c := { c with aft := false, clk := clkJoin c.clk (chain.headD []) }
                let s := { s with cmds := s.cmds.map fun x => if x.id == id then c else x }
                if ws.all s.tagReady then s.startNow tm c ws else s
              else if ws.all s.tagReady then s.startNow tm c ws else s

/-! ## The work of a command -/

/-- How far a transfer has come: elements performed, the first failure, the first byte that a sealed range refused. -/
structure EngAcc where
  done : Nat
  fail : Option EngFail
  refused : Option Nat
  deriving DecidableEq, Repr

def EngAcc.ok (a : EngAcc) : EngAcc := { a with done := a.done + 1 }
def EngAcc.bad (a : EngAcc) (f : EngFail) : EngAcc := { a with fail := a.fail.or (some f) }

/-- One element from global memory to a segment: zero out of bounds, unchanged where it fails. -/
def State.elemIn (s : State) (tm : Team) (party : Nat) (super poison : Bool) (inb : Bool) (ga width : Nat) (dst : List Nat) (acc : EngAcc) :
    EngAcc × State :=
  if !inb then (acc.ok, (s.engWrite tm party (dst.map fun k => (k, 0)) poison).2)
  else
    match s.engKeys tm party super false ga width with
    | (.error f, s) => (acc.bad f, s)
    | (.ok ks, s) =>
      let (bs, p, s) := s.engRead party ks
      (acc.ok, (s.engWrite tm party (dst.zip bs) (p || poison)).2)

/-- One element from a segment to global memory; out of bounds it writes nothing. -/
def State.elemOut (s : State) (tm : Team) (party : Nat) (super poison : Bool) (inb : Bool) (ga width : Nat) (src : List Nat) (acc : EngAcc) :
    EngAcc × State :=
  if !inb then (acc.ok, s)
  else
    match s.engKeys tm party super true ga width with
    | (.error f, s) => (acc.bad f, s)
    | (.ok ks, s) =>
      let (bs, p, s) := s.engRead party src
      let (no, s) := s.engWrite tm party (ks.zip bs) (p || poison)
      ({ acc.ok with refused := acc.refused.or (if no then some ga else none) }, s)

/-- A list in any order, by free choices. -/
def shuffle (s : State) : List Nat → List Nat × State
  | [] => ([], s)
  | n :: ns =>
    let (l, s) := shuffle s ns
    let (i, s) := takeChoice s (l.length + 1)
    (l.take i ++ n :: l.drop i, s)

/-- Whether two elements of a box name a byte in common. -/
def overlapping (width : Nat) : List (Bool × Nat) → Bool
  | [] => false
  | e :: l => (e.1 && l.any fun x => x.1 && decide (x.2 < e.2 + width ∧ e.2 < x.2 + width)) || overlapping width l

/-- The order in which a box is written to global memory: any, where it matters (08 R225, 19 R467). -/
def State.boxOrder (s : State) (width : Nat) (els : List (Bool × Nat)) : List Nat × State :=
  let l := List.range els.length
  if overlapping width els then shuffle s l else (l, s)

/-- Elements of a transfer in turn. -/
def eachElem (f : State → Nat → EngAcc → EngAcc × State) : State → EngAcc → List Nat → EngAcc × State
  | s, a, [] => (a, s)
  | s, a, n :: ns => let (a, s) := f s n a; eachElem f s a ns

/-- The work of a copy-queue command. -/
def State.copyWork (s : State) (tm : Team) (party : Nat) (c : Cmd) : EngAcc × State :=
  let a0 : EngAcc := { done := 0, fail := none, refused := none }
  let super := c.issuer.isHandler
  match c.op with
  | .tcopy dir base _ seg cs ws _ _ =>
    let r := shapeOf ws
    let els := boxElems r base cs
    let at_ (n : Nat) : Bool × Nat := els.getD n (false, 0)
    let here (n : Nat) : List Nat := segKeys tm seg (r.width * n) r.width
    let (order, s) := if dir = 1 then s.boxOrder r.width els else (List.range r.count, s)
    eachElem (fun s n a =>
      if dir = 0 then s.elemIn tm party super c.poison (at_ n).1 (at_ n).2 r.width (here n) a
      else if dir = 1 then s.elemOut tm party super c.poison (at_ n).1 (at_ n).2 r.width (here n) a
      else
        match s.teamOfRank tm.cluster (fieldOf base 10 3) with
        | none => (a, s)
        | some t =>
          let (bs, p, s) := s.engRead party (here n)
          (a.ok, (s.engWrite tm party ((segKeys t (fieldOf base 0 10) (r.width * n) r.width).zip bs) (p || c.poison)).2))
      s a0 order
  | .tgather base _ seg _ start ws _ =>
    let r := shapeOf ws
    let b0 := (r.dims.getD 0 (0, 0, 1)).2.2
    eachElem (fun s n a =>
      let (inb, ga) := elemAddr r base [start + (n % b0 : Nat), c.idx.getD (n / b0) 0]
      s.elemIn tm party super c.poison inb ga r.width (segKeys tm seg (r.width * n) r.width) a) s a0 (List.range r.count)
  | .accld tile own addr =>
    let slot := tm.slot tile
    eachElem (fun s n a =>
      let got : Except EngFail (List Nat) × State :=
        if own then (.ok (keysFrom (spKey tm.serial (addr + 4 * n)) 4), s) else s.engKeys tm party super false (addr + 4 * n) 4
      match got with
      | (.error f, s) => (a.bad f, s)
      | (.ok ks, s) =>
        let (bs, p, s) := s.engRead party ks
        (a.ok, s.putTile (accPut (s.tile c.core slot) 0 (n / 32) (n % 32) (BitVec.ofNat 32 (leNum bs)) (p || c.poison)))) s a0 (List.range 1024)
  | .accst tile own addr =>
    let ts := s.tile c.core (tm.slot tile)
    eachElem (fun s n a =>
      let got : Except EngFail (List Nat) × State :=
        if own then (.ok (keysFrom (spKey tm.serial (addr + 4 * n)) 4), s) else s.engKeys tm party super true (addr + 4 * n) 4
      match got with
      | (.error f, s) => (a.bad f, s)
      | (.ok ks, s) =>
        let v := (ts.elems.getD n 0).toNat
        let (no, s) := s.engWrite tm party (ks.zip ((List.range 4).map fun i => BitVec.ofNat 8 (v / 256 ^ i))) (ts.poison.contains n || c.poison)
        ({ a.ok with refused := a.refused.or (if no then some (addr + 4 * n) else none) }, s)) s a0 (List.range 1024)
  | .spmove seg rank dseg | .spshare seg rank dseg =>
    match s.teamOfRank tm.cluster rank with
    | none => (a0, s)
    | some t =>
      eachElem (fun s n a =>
        let (bs, p, s) := s.engRead party (segKeys tm seg (8 * n) 8)
        (a.ok, (s.engWrite tm party ((segKeys t dseg (8 * n) 8).zip bs) (p || c.poison)).2)) s a0 (List.range 512)
  | _ => (a0, s)

-- DESIGN CHOICE (log 70, unsafe): The destination of a hand-over takes the untagged flag of its source.
/-- The tile tags that a completed command sets. -/
def State.copyTags (s : State) (tm : Team) (c : Cmd) (clk : Clock) : State :=
  match c.op with
  | .tcopy dir base _ seg _ _ _ free =>
    let s := if dir = 0 then s.setTag tm.ctxh seg true false clk
      else if dir = 2 then (match s.teamOfRank tm.cluster (fieldOf base 10 3) with
        | some t => s.setTag t.ctxh (fieldOf base 0 10) true false clk
        | none => s)
      else s
    if free then s.setTag tm.ctxh seg false true clk else s
  | .tgather _ _ seg _ _ _ _ => s.setTag tm.ctxh seg true false clk
  | .spmove seg rank dseg | .spshare seg rank dseg =>
    let moves := match c.op with
      | .spmove _ _ _ => true
      | _ => false
    let e := tm.seg seg
    match s.teamOfRank tm.cluster rank with
    | none => s
    | some t =>
      let s := if e.ut then s
        else s.updTeam t.ctxh fun t => { t with tags := t.tags.zipIdx.map fun (x, i) => if i != dseg && x.holds e.tag then { x with st := 0 } else x }
      let s := s.updSeg t.ctxh dseg fun _ => { tag := e.tag, st := if moves then 2 else 1, v := true, c := false, ut := e.ut, clk := clk }
      -- within one scratchpad a tag stands in at most one valid entry (09 R254)
      s.updSeg tm.ctxh seg fun x => { x with st := if moves || (t.ctxh == tm.ctxh && !e.ut) then 0 else 1 }
  | _ => s

/-- The counter of R227: an atomic add at device scope with release ordering. Tells whether it could be written. -/
def State.countUp (s : State) (tm : Team) (party : Nat) (super : Bool) (addr : Nat) : Option EngFail × State :=
  match s.engKeys tm party super true addr 8 with
  | (.error f, s) => (some { f with reason := if f.reason = 0 then 0 else 5 }, s)
  | (.ok ks, s) =>
    let s := s.cross tm.die true ks
    let (n, s) := s.tick party
    let acc : LaneAcc := { lane := 0, ea := addr, ops := [1], keys := ks, pt := pointHome, poisoned := false }
    let r : MemReq := { op := .red .add .n64, sp := .global, scope := .device, ord := .rel, acc := [acc], party := party, clk := s.clkOf party, stamp := n }
    let (o, s) := s.performAtomic tm.die tm.core tm.ctxh r [acc]
    if o.refused.isEmpty && o.unreach.isEmpty then (none, s) else (some { reason := 5, addr := addr }, s)

/-- The counter of a command. -/
def EngOp.counter (op : EngOp) : Option Nat :=
  match op with
  | .tcopy _ _ _ _ _ _ c _ => c
  | .tgather _ _ _ _ _ _ c => c
  | _ => none

/-- TDETAIL of cause 0x51 (19 R465). -/
def engDetail (op : EngOp) (reason done : Nat) : Nat :=
  let (cmd, dir, seg) : Nat × Nat × Nat := match op with
    | .tcopy d _ _ seg _ _ _ _ => (1, d, seg)
    | .tgather _ _ seg _ _ _ _ => (2, 0, seg)
    | .accst _ own a => (4, 0, if own then a / segBytes else 0)
    | _ => (3, 0, 0)
  reason * 2 ^ 60 + cmd * 2 ^ 56 + dir * 2 ^ 54 + seg * 2 ^ 44 + done * 2 ^ 31

/-- Whether the split that issued a command has issued no instruction since (15 R380). -/
def State.cmdLast (s : State) (c : Cmd) : Bool :=
  ((s.thread? c.issuer).bind fun t => t.split? c.spl).any fun sp => sp.party == c.party && decide (sp.issues ≤ c.nth)

/-- A trap that a command brings after its issue. -/
def State.cmdTrap (s : State) (c : Cmd) (cause addr detail : Nat) : Trap :=
  { cause := cause, prec := s.cmdLast c, tpc := c.pc, word := c.word, lanes := 0, addr := addr, detail := detail, words := [] }

def cmdItem (c : Cmd) (kind cause addr : Nat) : Item :=
  { kind := kind, cause := cause, addr := addr, lanes := 0, warp := c.issuer.warpNo, guide := c.issuer.isGuide, spl := c.spl }

/-- A copy-queue command completes or ends failed (08 R225 to R227, 19 R464). -/
def State.completeCopy (s : State) (tm : Team) (c : Cmd) : State :=
  let (party, s) := s.newParty (s.cmdKind c) c.clk []
  let (a, s) := s.copyWork tm party c
  let codes := s.writeClasses c
  let (bad, s) : Option EngFail × State := match a.fail, c.op.counter with
    | some f, _ => (some f, s)
    | none, some addr => s.countUp tm party c.issuer.isHandler addr
    | none, none => (none, s)
  let clk := s.clkOf party
  let s := if bad.isSome then s else s.copyTags tm c clk
  let s := s.endCmd c codes clk
  let s := match a.refused with
    | some va => s.raise c.issuer c.spl (s.cmdTrap c 0x27 va (memDetail { MFault.window 0 with cause := 0x27 } 0 0 0)) none
    | none => s
  match bad with
  | none => s
  | some f =>
    if f.reason = 0 then s.loseContext tm.asid 0x74 tm.ctxh 0
    else
      let kind := if f.reason = 5 then 6 else 5
      s.raise c.issuer c.spl (s.cmdTrap c 0x51 f.addr (engDetail c.op f.reason a.done)) (some (cmdItem c kind 0x51 (if kind = 6 then f.addr else c.pc.toNat)))

/-! ## Matrix commands -/

/-- Whether a command is a quartet operation. -/
def Cmd.quartet (c : Cmd) : Bool :=
  match c.op with
  | .mma _ _ _ _ _ _ => true
  | _ => false

/-- Whether an earlier matrix command of the issuer, or of a member of its quartet, on one of the tiles has not completed (08 R216). A quartet
operation stands where the issuer of the other command has issued it. -/
def State.tileWaits (s : State) (c : Cmd) : Bool :=
  let share (ts : List Nat) : Bool := ts.any fun t => c.op.tiles.contains t
  let seen (d : Cmd) : Who := if c.quartet then d.issuer else c.issuer
  (s.cmds.any fun d => d.id != c.id && d.matrix && d.ctxh == c.ctxh && share d.op.tiles && s.issuerNo d.issuer == s.issuerNo c.issuer &&
    decide (d.orderFor (seen d) < c.orderFor (seen d))) ||
  c.owners.any fun w => s.mmaWait.any fun m => w == .warp m.ctxh m.warp && share [m.tile] && decide (m.order < c.orderFor w)

/-- What the earlier matrix commands of its issuer on its tiles had done (08 R216, 10 R282). -/
def State.tileClks (s : State) (tm : Team) (c : Cmd) : Clock :=
  ((tm.tileClk.filter fun x => x.1 == s.issuerNo c.issuer && c.op.tiles.contains x.2.1).map fun x => x.2.2).foldl clkJoin []

/-- A matrix command's place among those of its issuer on its tiles noted. -/
def State.noteTiles (s : State) (c : Cmd) (clk : Clock) : State :=
  let n := s.issuerNo c.issuer
  s.updTeam c.ctxh fun t => { t with
    tileClk := (c.op.tiles.map fun i => (n, i, clk)) ++ t.tileClk.filter fun x => !(x.1 == n && c.op.tiles.contains x.2.1) }

/-- The bytes of an operand in segments from `seg`. -/
def State.segImage (s : State) (tm : Team) (party seg bytes : Nat) : Array Nat × Bool × State :=
  let (bs, p, s) := s.engBytes party (segKeys tm seg 0 bytes)
  ((bs.map BitVec.toNat).toArray, p, s)

/-- The permutation in force: entries taken mod K (04 R101, 16 R405). -/
def State.permOf (s : State) (tm : Team) (party : Nat) (w : FmtWord) : List Nat × Bool × State :=
  let k := fmtK w.a
  if !w.pen then (List.range k, false, s)
  else
    let (bs, p, s) := s.engBytes party (segKeys tm w.perm 0 (2 * k))
    ((List.range k).map fun i => leNum ((bs.drop (2 * i)).take 2) % k, p, s)

/-- Every value of a slot poisoned: its elements, and its side registers too. -/
def poisonSlot (ts : TileSlot) (side : Bool) : TileSlot := { ts with poison := (ts.poison ++ List.range (if side then 1088 else 1024)).eraseDups }

/-- A tile's elements written with their mark. -/
def putElems (ts : TileSlot) (es : List (BitVec 32)) (bad : Bool) : TileSlot :=
  let ts := { ts with elems := es, poison := ts.poison.filter fun i => decide (1024 ≤ i) }
  if bad then poisonSlot ts false else ts

-- DEDUCED (log 27, safe): A command's tiles are read and written as one at its completion, and only mmwait shows matrix commands complete.
/-- The product of R103 into a tile. -/
def State.multiply (s : State) (tm : Team) (party : Nat) (c : Cmd) (fw tile : Nat) (a b : Array Nat) (bad : Bool) : State :=
  let w := fmtWord fw
  let (perm, q, s) := s.permOf tm party w
  let ts := s.tile c.core (tm.slot tile)
  let dirty := w.acc && ts.poison.any fun i => decide (i < 1024)
  s.putTile (putElems ts (tileProduct w a b perm ts.elems) (bad || q || dirty || c.poison))

/-- The work of a matrix command. -/
def State.matrixWork (s : State) (tm : Team) (party : Nat) (c : Cmd) : State :=
  match c.op with
  | .mmas fw b tile a _ _ =>
    let w := fmtWord fw
    let (ia, pa, s) := s.segImage tm party a (fmtBytes w.a)
    let (ib, pb, s) := s.segImage tm party b (fmtBytes w.b)
    s.multiply tm party c fw tile ia ib (pa || pb)
  | .mma fw tile a _ _ _ =>
    let w := fmtWord fw
    let (ia, pa, s) := s.segImage tm party a (fmtBytes w.a)
    s.multiply tm party c fw tile ia c.bImage.toArray pa
  | .mmsm sc st ot pseg half =>
    let sts := s.tile c.core (tm.slot st)
    let ots := s.tile c.core (tm.slot ot)
    let rows := softmaxRows sc sts ots
    let bad := c.poison || sts.poison.any (fun i => decide (i < 1024)) || !ots.poison.isEmpty
    let ts := { putElems ots (rows.flatMap fun r => r.o.map fun v => BitVec.ofNat 32 v) false with
      m := rows.map fun r => BitVec.ofNat 32 r.m, l := rows.map fun r => BitVec.ofNat 32 r.l, poison := [] }
    let s := (s.putTile (if bad then poisonSlot ts true else ts)).setSdv c.core (tm.slot ot) true
    rows.zipIdx.foldl (fun s (r, i) => r.p.zipIdx.foldl (fun s (v, j) =>
      let ks := segKeys tm pseg ((i * 64 + (if half then 32 else 0) + j) * 2) 2
      (s.engWrite tm party (ks.zip [BitVec.ofNat 8 v, BitVec.ofNat 8 (v / 256)]) bad).2) s) s
  | .acczero tile =>
    (s.putTile (TileSlot.zero c.core (tm.slot tile))).setSdv c.core (tm.slot tile) false
  | _ => s

/-- The tags of a matrix command: `.free` and a filled P segment (08 R215, R217, R218). -/
def State.matrixTags (s : State) (tm : Team) (c : Cmd) (clk : Clock) : State :=
  let free (s : State) (b : Bool) (segs : List Nat) : State := if b then segs.foldl (fun s i => s.setTag tm.ctxh i false true clk) s else s
  match c.op with
  | .mmas fw b _ a fa fb => free (free s fa (segRun a (fmtSegs (fmtWord fw).a))) fb (segRun b (fmtSegs (fmtWord fw).b))
  | .mma fw _ a _ f _ => free s f (segRun a (fmtSegs (fmtWord fw).a))
  | .mmsm _ _ _ p half => if half then s.setTag tm.ctxh p true false clk else s
  | _ => s

/-- Whether an issuer has made a command's result undefined (16 R409). -/
def State.spoiled (s : State) (c : Cmd) : Bool :=
  c.owners.any fun w => ((s.thread? w).map fun t => t.unseen.any fun u => u.spoiled && (match c.op with
    | .mma _ _ _ _ _ ms => u.quartet && ms.any fun m => w == .warp c.ctxh m.1 && m.2 == u.seq
    | _ => !u.quartet && u.seq == c.id)).getD false

-- DEDUCED (log 27, safe): see notes/assumptions/27.md.
/-- A matrix command completes; `err` is the reason of a datapath error, 0 for none (19 R468). -/
def State.completeMatrix (s : State) (tm : Team) (c : Cmd) (err : Nat) : State :=
  let (party, s) := s.newParty (s.cmdKind c) (clkJoin c.clk (s.tileClks tm c)) []
  let lost := s.spoiled c
  let s := s.matrixWork tm party c
  let tile := c.op.tiles.getLastD 0
  let slot := tm.slot tile
  let s := if lost then s.undefResult tm c.core party tile c.op.result else s
  let side := match c.op with
    | .mmsm _ _ _ _ _ | .acczero _ => true
    | _ => false
  let mat := decide (1 ≤ err ∧ err ≤ 3)
  let s := if mat then s.putTile (poisonSlot (s.tile c.core slot) side) else s
  let clk := s.clkOf party
  let s := ((s.matrixTags tm c clk).noteTiles c clk).endCmd c [4] clk
  if mat then s.raise c.issuer c.spl (s.cmdTrap c 0x44 0 (tile + 256 * slot + 2 ^ 16 * err)) (some (cmdItem c 5 0x44 c.pc.toNat)) else s

/-- The segments that a command writes: the team's CTXH and the index. -/
def State.writeSegs (s : State) (tm : Team) (op : EngOp) : List (Nat × Nat) :=
  let peer (rank seg : Nat) : List (Nat × Nat) := ((s.teamOfRank tm.cluster rank).map fun t => (t.ctxh, seg)).toList
  match op with
  | .tcopy dir a _ seg _ _ _ _ => if dir = 0 then [(tm.ctxh, seg)] else if dir = 2 then peer (fieldOf a 10 3) (fieldOf a 0 10) else []
  | .tgather _ _ seg _ _ _ _ => [(tm.ctxh, seg)]
  | .spmove _ rank dseg | .spshare _ rank dseg => peer rank dseg
  | .mmsm _ _ _ p _ => [(tm.ctxh, p)]
  | .accst _ true _ => (op.segs tm.rank).map fun i => (tm.ctxh, i)
  | _ => []

/-- Whether a command's writes wait for a segment in transit to settle (17 R425). -/
def State.writeWaits (s : State) (tm : Team) (op : EngOp) : Bool :=
  (s.writeSegs tm op).any fun x => s.segTransit x.1 x.2

/-- ENGINE_COMMAND_COMPLETE of one command. -/
def State.completeCmd (s : State) (id err : Nat) : State :=
  match s.cmds.find? fun c => c.id == id with
  | none => s
  | some c =>
    match s.team? c.ctxh with
    | none => s
    | some tm =>
      if !c.started || s.writeWaits tm c.op then s
      else if c.matrix then (if s.tileWaits c then s else s.completeMatrix tm c err)
      else s.completeCopy tm c

end Sys2Proof.Machine
end

