-- ==== Sys2Proof/Machine/System.lean ====
section
/-!
DEFINITION. Save records (11 R310 to R312), the words of a trap record (15 R380 to R382), how a stopped team goes on (15 R378, R379, R385,
17 R419, 18 R437, R438, R447), and the system instructions (08 R234 to R243, 16 R411).
-/
namespace Sys2Proof.Machine

/-! ## Save records -/

-- DEDUCED (log 73, unsafe): a process that the run list in force leaves out has no save pool, so that nothing more of its records is reached.
/-- rec(h) (11 R299, R314). -/
def State.recBase (s : State) (h : Nat) : Option Nat :=
  (s.plat.runList.find? fun e => e.asid == h / 2 ^ 22).map fun e => e.savepool + h % 2 ^ 22 * 2 ^ 23

/-- The keys of a range of a save record, reached in the context's ASID with supervisor rights; none where the access fails (17 R418). -/
def State.recKeys (s : State) (party h off n : Nat) (write : Bool) : Option (List Nat) × State :=
  match s.recBase h with
  | none => (none, s)
  | some b =>
    match s.transBytes party (s.clkOf party) (h / 2 ^ 22) { write := write, fetch := false, super := true } (b + off) 0 n with
    | (.ok ks, s) =>
      let s := s.cross (dieOfUnit (s.unitOf party)) false ks
      if (s.unreachableAny ks).isSome then (none, s) else (some ks, s)
    | (.error _, s) => (none, s)

/-- The keys of several ranges of a record to be written; none where a range cannot be reached or is sealed. -/
def State.recTargets (s : State) (party h : Nat) : List (Nat × List Byte) → Option (List (List Nat)) × State
  | [] => (some [], s)
  | x :: l =>
    match s.recKeys party h x.1 x.2.length true with
    | (none, s) => (none, s)
    | (some ks, s) =>
      if ks.any s.sealed then (none, s)
      else match s.recTargets party h l with
        | (none, s) => (none, s)
        | (some kss, s) => (some (ks :: kss), s)

/-- Ranges written into a record and performed at their homes, once every one of them can be reached. -/
def State.recWrites (s : State) (party h : Nat) (l : List (Nat × List Byte)) : Bool × State :=
  match s.recTargets party h l with
  | (none, s) => (false, s)
  | (some kss, s) => (true, (kss.zip l).foldl (fun s x => s.writeHome party (x.1.zip x.2.2) false none) s)

/-- One range written into a record. -/
def State.recWrite (s : State) (party h off : Nat) (bs : List Byte) : Bool × State := s.recWrites party h [(off, bs)]

/-- A number of `n` bytes read from a record; none where the access fails or meets poison (17 R418, R436). -/
def State.recRead (s : State) (party h off n : Nat) : Option Nat × State :=
  match s.recKeys party h off n false with
  | (none, s) => (none, s)
  | (some ks, s) => let (bs, ps, s) := s.readNow party (some .device) ks; (if ps.any s.pickBad then none else some (leNum bs), s)

/-- A party of the part that acts for a team, which knows what a clock knows. -/
def State.partParty (s : State) (h : Nat) (clk : Clock) : Nat × State :=
  s.newParty (.user h (((s.team? h).map Team.cluster).getD 0)) clk []

def warpRec (w : Nat) : Nat := 0x10000 + w * 0x6000

/-! ## The trap record -/

/-- A split at a blocking point as a stop finds it. -/
def Split.atWait (sp : Split) : Bool :=
  match sp.wait with
  | some (.bar _ _) | some (.cbar _) | some .monitor | some (.lock _) | some (.engine _ _) | some (.remote _) => true
  | _ => false

/-- WSTAT of a thread (15 R381). How many cycles its skid took is a free value (log 12): none in the warp of the primary split, nor where every
split stands at a blocking point (R371). -/
def wstat (s : State) (r : StopRec) (t : Warp) : Nat :=
  let no := faultNo t.who
  let own := r.faults.find? fun f => f.warp == no
  let prim := r.guide == t.who.isGuide && (r.warp == t.who.warpNo) && r.cause != 0x61
  let b (x : Bool) (n : Nat) : Nat := if x then 2 ^ n else 0
  let cycles := if prim || (t.skid == 0 && t.live.all fun x => x.2.atWait) then 0 else Config.freeNat (s.freeCtr + no) % 97
  2 ^ 63 + b own.isSome 62 + b prim 61 + b t.lost 60 + b (t.exited == allLanes) 59 + ((own.map WarpFault.cause).getD 0) * 2 ^ 48 +
    ((t.live.map fun x => 2 ^ x.1).sum) * 2 ^ 32 + cycles * 2 ^ 8 + min 12 t.skid

/-- Words 48 to 63 for a warp: its status, its own fault, its splits' stop PCs and masks. -/
def warpWords (s : State) (r : StopRec) (t : Warp) : List Word :=
  let own := r.faults.find? fun f => f.warp == faultNo t.who
  let f (g : WarpFault → Nat) : Nat := (own.map g).getD 0
  let spl (k : Nat) : List Nat := match t.split? k with
    | some sp => [sp.pc.toNat, sp.mask.toNat]
    | none => [0, 0]
  ([wstat s r t, f fun x => x.pc.toNat, f WarpFault.addr, f fun x => x.lanes.toNat] ++ ((List.range 4).flatMap spl) ++ [0, 0, 0, 0]).map wordOf

/-- The descriptions of every thread of a team, as its dispatch fixes them (15 R382): GSTAT and GPC under number 128. -/
def State.snapTeam (s : State) (h : Nat) (r : StopRec) : List (Nat × List Word) :=
  (s.threadsOf h).map fun t =>
    if t.who.isGuide then (128, [wordOf (wstat s r t), wordOf ((t.live.head?.map fun x => x.2.pc.toNat).getD 0)])
    else (t.who.warpNo, warpWords s r t)

/-- TSTAT (15 R380). -/
def tstat (r : StopRec) : Nat :=
  let b (x : Bool) (n : Nat) : Nat := if x then 2 ^ n else 0
  let prim := if r.guide then 128 else r.warp
  let sec := (r.faults.filter fun f => f.warp != prim && decide (f.warp < 128)).length
  2 ^ 56 + r.cause * 2 ^ 48 + r.level * 2 ^ 45 + r.res * 2 ^ 42 + b r.guide 41 + b r.prec 40 + r.rep * 2 ^ 32 + min 127 sec * 2 ^ 24 +
    r.spl * 2 ^ 14 + (if r.guide then 0 else r.warp) * 2 ^ 7

/-- Word `i` of the trap record of a team, with a warp selected (15 R380 to R382). -/
def trecWord (t : Team) (hwsel i : Nat) : Word :=
  match t.stop with
  | none => 0
  | some r =>
    if i < 16 then
      ([wordOf (tstat r), wordOf r.tpc.toNat, wordOf r.tlanes.toNat, r.taddr, r.tdetail, r.tword, r.tref, wordOf t.items.length] ++
        ((assoc? r.snap 128).getD [0, 0]).take 2).getD i 0
    else if i < 48 then r.words.getD (i - 16) 0
    else if hwsel < t.nwarp then ((assoc? r.snap hwsel).getD []).getD (i - 48) 0
    else 0

/-! ## ABREQ (18 R446, R447) -/

def abreqOff (w : Nat) : Nat := warpRec w + 0xB0

/-- ABREQ of some warps read, and written zero where it was not; none where an access fails. -/
def State.takeAbreq (s : State) (party h : Nat) : List Nat → Option (List (Nat × Nat)) × State
  | [] => (some [], s)
  | w :: ws =>
    match s.recRead party h (abreqOff w) 8 with
    | (none, s) => (none, s)
    | (some v, s) =>
      let (ok, s) := if v = 0 then (true, s) else s.recWrite party h (abreqOff w) (List.replicate 8 0)
      if !ok then (none, s)
      else
        match s.takeAbreq party h ws with
        | (none, s) => (none, s)
        | (some l, s) => (some ((w, v) :: l), s)

/-- The first word of an `acq` (05, 07 R187). -/
def isAcqWord (w : Word) : Bool := fieldOf w.toNat 56 8 == 0xAC && fieldOf w.toNat 52 4 == 0

/-- Whether a record's cause is that of a request for a lock: a full table, or a cycle whose first edge is a lock wait (18 R444, R447). -/
def StopRec.lockCause (r : StopRec) : Bool := r.cause == 0x32 || (r.cause == 0x30 && fieldOf (r.words.headD 0).toNat 60 3 == 0)

/-- The ABORT bit of one split (18 R447). -/
def State.abortSplit (s : State) (h w k : Nat) : State :=
  let who : Who := .warp h w
  let ended (s : State) : State := s.updSplit who k fun sp => { sp with wait := some .aborted }
  match (s.thread? who).bind fun t => t.split? k with
  | none => s
  | some sp =>
    match sp.wait with
    | some (.lock _) => ended ({ s with lockQ := s.lockQ.filter fun x => !(x.who == who && x.spl == k) }.dropEdges who k false)
    | some .granted => s
    | _ =>
      match (s.team? h).bind Team.stop with
      | some r =>
        if !r.guide && r.warp == w && r.spl == k && r.lockCause && isAcqWord r.tword && r.tpc == sp.pc then ended s else s
      | none => s

/-- ABREQ of every warp of a team read, cleared and applied; a failed access loses the context (17 R418). -/
def State.applyAbreq (s : State) (h : Nat) (clk : Clock) : State :=
  match s.team? h with
  | none => s
  | some t =>
    let (party, s) := s.partParty h clk
    match s.takeAbreq party h (List.range t.nwarp) with
    | (none, s) => s.loseContext t.asid 0x74 h 0
    | (some l, s) => l.foldl (fun s x => ((List.range 4).filter fun k => x.2.testBit k).foldl (fun s k => s.abortSplit h x.1 k) s) s

/-! ## Going on -/

/-- Waits as a resume finds them: a lock wait and the wait part of a `meet` go on, every other blocking instruction is issued again
(18 R437, R448, R452); a split is ready afresh (02 R50). -/
def State.resumeWaits (s : State) (h : Nat) : State :=
  let now := ((s.team? h).map fun t => s.cycles t.die).getD 0
  (s.threadsOf h).foldl (fun s t => t.live.foldl (fun s (k, sp) =>
    match sp.wait with
    | some (.bar _ true) | some (.cbar true) => s.updSplit t.who k fun sp => { sp with waitFrom := now, readyFrom := now, up := false }
    | some (.lock _) | some .granted | some .aborted | some (.yield _ _) | none =>
      s.updSplit t.who k fun sp => { sp with readyFrom := now, up := false }
    | _ => (s.dropEdges t.who k false).updSplit t.who k fun sp => { sp with wait := none, readyFrom := now, up := false }) s) s

/-- A held request reissued in its recorded lanes (17 R417, R419). -/
def State.replayOne (s : State) (x : Held) : State :=
  match s.team? (s.ctxhOf x.who), s.thread? x.who with
  | some tm, some t =>
    match x.req with
    | .fetch | .slot => s
    | .window => s.moveWindow tm x.who x.spl x.pc x.word x.lanes
    | .spill lo n =>
      let party := ((t.split? x.spl).map Split.party).getD ((t.live.head?.map fun y => y.2.party).getD 0)
      s.spillRange tm x.who x.spl party x.pc x.word x.lanes lo n
    | .access pid r =>
      let (ok, bad, lost, s) := s.xlateLanes tm x.who r.sp r.party r.clk r.op r.acc []
      let ok := ok.map fun a => { a with pt := atomPoint tm.die tm.core r.scope a.keys (inPriv r.sp a.ea) }
      let r := { r with clk := clkJoin r.clk (s.zeroKnown r.party) }
      let s := match pid with
        | some id => s.updThread x.who fun t => { t with pend := t.pend.map fun (p : Pend) =>
            if p.id == id then
              match p.kind with
              | .mem q => { p with kind := .mem { q with acc := q.acc ++ ok, clk := r.clk, held := lost || !bad.isEmpty } }
              | _ => p
            else p }
        | none =>
          let q : MemReq := { r with acc := ok, held := lost || !bad.isEmpty }
          let (o, s) := s.perform tm.die tm.core tm.ctxh q (maskOf (ok.map LaneAcc.lane))
          s.reqTraps x.who x.spl x.pc x.word 0 q o
      s.holdLanes x.who x.spl x.pc x.word true tm pid r bad lost
  | _, _ => s

-- DEDUCED (log 42, unsafe): a trap that no handler serves, raised while a halt stopped the team, goes with the halt's record at resume.
/-- A stopped team goes on: its held requests are reissued, if `reissue`, and where those fault again, or items have failed while it was
served, it stops again before any warp issues (15 R378, R385, 17 R420, 19 R476). -/
def State.restart (s : State) (h : Nat) (reissue : Bool) : State :=
  match s.team? h with
  | none => s
  | some t =>
    if t.status == .killed || t.status == .retiring then s else
    let s := s.resumeWaits h
    let (st, stop, last) : TStatus × Option StopRec × Option (Nat × Pc × Nat) := match t.late with
      | [] => (.running, none, t.lastStop)
      | (_, r) :: _ => (.stopping, some { r with faults := mergeFaults (t.late.flatMap fun x => x.2.faults) }, some (r.cause, r.tpc, r.rep))
    let s := { s with threads := s.threads.map fun (w : Warp) => if s.ctxhOf w.who == h && !w.who.isHandler then { w with skid := 0 } else w }
    let s := s.updTeam h fun t => { t with
      status := st, stop := stop, lastStop := last, progress := false, items := t.late.filterMap Prod.fst, late := [], held := if reissue then [] else t.held }
    let s := (if reissue then sortBy (fun a b => decide (faultNo a.who ≤ faultNo b.who)) t.held else []).foldl State.replayOne s
    s.updTeam h fun t => { t with stop := t.stop.map fun r => { r with again := true } }

/-- A plain `tret` of resume kind A: the same record, REP + 1, and nothing is reissued (15 R385). -/
def State.stopSame (s : State) (h : Nat) : State :=
  s.updTeam h fun t => if t.status == .killed || t.status == .retiring then t else
    let same := t.stop.map fun r => { r with rep := min 255 (r.rep + 1), again := true }
    { t with status := .stopping, stop := same, progress := false, lastStop := same.map fun r => (r.cause, r.tpc, r.rep) }

/-- The sixteen bytes of an item (15 R377). -/
def itemBytes (i : Item) : List Byte :=
  let acc := decide (1 ≤ i.kind ∧ i.kind ≤ 4)
  let lo := i.kind * 2 ^ 60 + i.cause * 2 ^ 52 + i.addr % 2 ^ 48
  let hi := (if acc then i.lanes.toNat * 2 ^ 32 else 0) + (if i.guide then 2 ^ 24 else i.warp * 2 ^ 25) + i.spl * 2 ^ 22
  (List.range 16).map fun k => BitVec.ofNat 8 ((lo + hi * 2 ^ 64) / 256 ^ k)

/-- Items written into a team's list from a place on (15 R377). -/
def State.listItems (s : State) (party h from_ : Nat) (l : List Item) : Bool × State :=
  s.recWrites party h (l.zipIdx.map fun (i, n) => (0x7B0000 + 16 * (from_ + n), itemBytes i))

/-- The items of a team that have failed since its list was written, appended to the list (15 R378, R386). -/
def State.appendLate (s : State) (t : Team) : Bool × State :=
  let more := t.late.filterMap Prod.fst
  let (party, s) := s.partParty t.ctxh (s.teamClk t.ctxh)
  let (ok, s) := s.listItems party t.ctxh t.items.length more
  (ok, s.updTeam t.ctxh fun t => { t with items := t.items ++ more, late := [] })

/-- The end of a team by its handler, with its late items in its list (15 R378, R385). -/
def State.killServed (s : State) (h : Nat) : State :=
  match s.team? h with
  | none => s
  | some t =>
    let cause := ((t.stop.map StopRec.cause).getD 0)
    let (ok, s) := s.appendLate t
    if ok then s.killTeam h cause else s.loseContext t.asid 0x74 h 0

/-! ## The system instructions -/

/-- An instruction of the handler, which acts once with the operands of the lowest switched-on lane and pushes `n` words in every lane. -/
def sysInstr (s : State) (h : Hdr) (srcs : List (Nat × Src)) (pushes : Bool) (f : Cx → List Word → State → State) :
    Host.Outcome State Fault Refusal :=
  act s h (Shape.sys srcs pushes) fun cx os s =>
    let s := f cx (leadVals cx os) s
    s.consume cx ((cx.lead.map fun l => os.map (onlyLanes [l])).getD [])

/-- The result words of a system instruction. -/
def State.sysPush (s : State) (cx : Cx) (ws : List Word) : State := s.finish cx ws.length fun _ => ws.map fun w => ent w false

def State.serviceOf (s : State) (who : Who) : Option Service :=
  match who with
  | .handler c p => s.services.find? fun v => v.core == c && v.part == p
  | _ => none

/-- The selected warp of the served team (08 R235). -/
def State.selWarp (s : State) (cx : Cx) : Nat := ((s.serviceOf cx.who).map fun v => v.hwsel.toNat).getD 0

def accOwnWord (a : AccOwn) : Word := wordOf ((if a.sdv then 2 ^ 33 else 0) + (if a.val then 2 ^ 32 else 0) + a.ctxh % 2 ^ 32)

/-- A control register as `sysrd` reads it (08 R235 to R237). -/
def State.crnRead (s : State) (cx : Cx) (c : Crn) : Word :=
  let die := s.dieOf cx.who
  let sel := s.thread? (.warp cx.tm.ctxh (s.selWarp cx))
  match c with
  | .hctx => wordOf cx.tm.ctxh
  | .hcause => wordOf ((cx.tm.stop.map StopRec.cause).getD 0)
  | .hwsel => wordOf (s.selWarp cx)
  | .fpctl => wordOf ((sel.map fun t => t.fpctl.toNat).getD 0)
  | .fpx => wordOf ((sel.map fun t => t.fpx.toNat).getD 0)
  | .brken => cx.tm.brken
  | .barto => cx.tm.barto
  | .grace => cx.tm.grace
  | .lockcap => cx.tm.lockcap
  | .asid => wordOf cx.tm.asid
  | .wftctl => wordOf (((s.die? die).map fun d => (if d.strict then 2 else 0) + (if d.inh then 1 else 0)).getD 0)
  | .wftovf => wordOf (((s.die? die).map Die.wftovf).getD 0)
  | .accown i => accOwnWord (s.accOwn (s.coreOf cx.who) i.toNat)
  | .trec i => trecWord cx.tm (s.selWarp cx) i.toNat

/-- What a read does besides: WFTOVF clears (00 R10). -/
def State.crnReadEffect (s : State) (cx : Cx) (c : Crn) : State :=
  match c with
  | .wftovf => s.updDie (s.dieOf cx.who) fun d => { d with wftovf := 0 }
  | _ => s

def execSysrd (h : Hdr) (c : Crn) (s : State) : Host.Outcome State Fault Refusal :=
  sysInstr s h [] true fun cx _ s => (s.crnReadEffect cx c).sysPush cx [s.crnRead cx c]

/-- A write of a control register (00 R10, R11, 08 R235 to R238, 16 R411). -/
def State.crnWrite (s : State) (cx : Cx) (c : Crn) (v : Word) : State :=
  let h := cx.tm.ctxh
  let sel : Who := .warp h (s.selWarp cx)
  match c with
  | .hwsel => { s with services := s.services.map fun (x : Service) => if cx.who == .handler x.core x.part then { x with hwsel := v.setWidth 7 } else x }
  | .fpctl => s.updThread sel fun t => { t with fpctl := v.setWidth 32 &&& 0x11F }
  | .fpx => s.updThread sel fun t => { t with fpx := t.fpx &&& ~~~(v.setWidth 32 &&& 0x1F) }
  | .brken => s.updTeam h fun t => { t with brken := v &&& 3 }
  | .barto => if v.toNat < 2 ^ 10 ∨ v.toNat > 2 ^ 40 then s else s.updTeam h fun t => { t with barto := v }
  | .grace => s.updTeam h fun t => { t with grace := v }
  | .lockcap => s.updTeam h fun t => { t with lockcap := v }
  | .wftctl => s.updDie (s.dieOf cx.who) fun d => { d with strict := v.getLsbD 1, inh := v.getLsbD 0 }
  | .accown i => s.putAccOwn { core := s.coreOf cx.who, slot := i.toNat, sdv := v.getLsbD 33, val := v.getLsbD 32, ctxh := fieldOf v.toNat 0 32 }
  | .hctx | .hcause | .asid | .wftovf | .trec _ => s

def execSyswr (h : Hdr) (c : Crn) (s : State) : Host.Outcome State Fault Refusal :=
  sysInstr s h (src1 h) false fun cx ws s => (s.crnWrite cx c (ws.getD 0 0)).done cx

/-- The end of a service by an instruction: a release at device scope for the handler's writes, then the fate of the served team
(08 R240, 15 R385, 18 R447). -/
def endByTret (s : State) (h : Hdr) (fate : Nat → StopRec → Clock → State → State) : Host.Outcome State Fault Refusal :=
  sysInstr s h [] false fun cx _ s =>
    let (die, core) := s.placeOfWho cx.who
    let s := (s.pushLines die core .device).relFence cx.sp.party .device
    let clk := s.clkOf cx.sp.party
    let s := { s with svcClk := clkJoin s.svcClk clk }
    let ctxh := cx.tm.ctxh
    let s := match cx.who with
      | .handler c p => s.endService c p
      | _ => s
    match cx.tm.stop with
    | some r => if r.res = 3 then s.killServed ctxh else fate ctxh r clk s
    | none => s

-- DEDUCED (log 36, unsafe): Held requests, also of the primary split or with RES N, are reissued at tret and at tret.ack; a plain tret of kind A reissues none.
def execTret (h : Hdr) (s : State) : Host.Outcome State Fault Refusal :=
  endByTret s h fun ctxh r clk s =>
    let s := s.applyAbreq ctxh clk
    -- a team whose record is of kind A stops again: for its late items, or else with the same record
    if r.res = 2 && (((s.team? ctxh).map fun t => t.late.isEmpty).getD true) then s.stopSame ctxh else s.restart ctxh (r.res != 2)

-- DEDUCED (log 36, unsafe): see notes/assumptions/36.md.
def execTretAck (h : Hdr) (s : State) : Host.Outcome State Fault Refusal :=
  endByTret s h fun ctxh _ clk s => (s.applyAbreq ctxh clk).restart ctxh true

def execTretKill (h : Hdr) (s : State) : Host.Outcome State Fault Refusal :=
  endByTret s h fun ctxh _ _ s => s.killServed ctxh

/-! ## accspill and accfill (08 R239) -/

/-- Whether a started command names a physical slot of a core. -/
def State.slotBusy (s : State) (core slot : Nat) : Bool :=
  s.cmds.any fun c => c.core == core && c.started && match s.team? c.ctxh with
    | some t => c.op.tiles.any fun i => t.slot i == slot
    | none => false

/-- The keys of an accumulator area, or the fault that ends the service: causes as a user access would raise them, none where a walk has met a
poisoned entry (17 R432). -/
def State.areaKeys (s : State) (cx : Cx) (a n : Nat) (write : Bool) : Except (Option Trap) (List Nat) × State :=
  let tr (cause : Nat) : Option Trap := some (cx.trap cause cx.on a 0)
  if a + n > globalTop then (.error (tr 0x22), s)
  else if a % 64 ≠ 0 then (.error (tr 0x23), s)
  else
    match s.transBytes cx.sp.party (s.clkOf cx.sp.party) cx.tm.asid { write := write, fetch := false, super := true } a 0 n with
    | (.error .lost, s) => (.error none, s)
    | (.error (.fault f), s) => (.error (tr f.cause), s)
    | (.ok ks, s) => match (s.cross (s.dieOf cx.who) false ks).remoteFail ks with
      | (some _, s) => (.error (tr 0x28), s)
      | (none, s) => if write && ks.any s.sealed then (.error (tr 0x27), s)
      else (.ok ks, s)

/-- The end of the service by an area's fault, or of the context. -/
def State.areaFail (s : State) (cx : Cx) : Option Trap → State
  | some tr => s.raise cx.who cx.k tr none
  | none => s.loseContext cx.tm.asid 0x74 cx.tm.ctxh 0

/-- The words of a slot's area: elements, then m and l, with their marks. -/
def slotWords (t : TileSlot) (side : Bool) : List (BitVec 32 × Bool) :=
  let mark (l : List (BitVec 32)) (base : Nat) : List (BitVec 32 × Bool) := l.zipIdx.map fun (v, i) => (v, t.poison.contains (base + i))
  mark t.elems 0 ++ (if side then mark t.m 1024 ++ mark t.l 1056 else [])

/-- Words written four bytes at a time; a granule with a poisoned word is poisoned (17 R433). -/
def State.writeSlotWords (s : State) (party : Nat) : List Nat → List (BitVec 32 × Bool) → State
  | ks, a :: b :: l =>
    let bytes (v : BitVec 32) : List Byte := (List.range 4).map fun i => BitVec.ofNat 8 (v.toNat / 256 ^ i)
    let s := s.writeHome party ((ks.take 8).zip (bytes a.1 ++ bytes b.1)) (a.2 || b.2) none
    s.writeSlotWords party (ks.drop 8) l
  | _, _ => s

-- DEDUCED (log 43, unsafe): An address that is not a multiple of 64 takes cause 0x23.
/-- `accspill`: rows as `accld` lays them out, side registers where SDV is set, performed at device scope. -/
def execAccspill (h : Hdr) (s : State) : Host.Outcome State Fault Refusal :=
  sysInstr s h (src2 h) true fun cx ws s =>
    let slot := fieldOf (ws.getD 0 0).toNat 0 7
    let core := s.coreOf cx.who
    let a := (ws.getD 1 0).toNat
    let sdv := (s.accOwn core slot).sdv
    let n := if sdv then 4352 else 4096
    if s.slotBusy core slot then s.hold cx
    else
      match s.areaKeys cx a n true with
      | (.error tr, s) => s.areaFail cx tr
      | (.ok ks, s) =>
        let s := s.writeSlotWords cx.sp.party ks (slotWords (s.tile core slot) sdv)
        s.sysPush cx [if sdv then 1 else 0]

/-- Words of four bytes with the marks of their granules. -/
def State.readSlotWords (s : State) (party : Nat) : Nat → List Nat → List (BitVec 32 × Bool) × State
  | 0, _ => ([], s)
  | n + 1, ks =>
    let k := ks.take 4
    let (bs, ps, s) := s.readNow party none k
    let bad := ps.any s.pickBad
    let (l, s) := s.readSlotWords party n (ks.drop 4)
    ((BitVec.ofNat 32 (leNum bs), bad) :: l, s)

/-- The slot that words of an area give. -/
def slotFrom (core slot : Nat) (ws : List (BitVec 32 × Bool)) : TileSlot :=
  let z := TileSlot.zero core slot
  let side := ws.drop 1024
  let pick (l : List (BitVec 32 × Bool)) (d : List (BitVec 32)) : List (BitVec 32) := if l.isEmpty then d else l.map Prod.fst
  { z with elems := (ws.take 1024).map Prod.fst, m := pick (side.take 32) z.m, l := pick (side.drop 32) z.l,
           poison := (ws.zipIdx.filter fun x => x.1.2).map Prod.snd }

-- DEDUCED (log 43, unsafe): see notes/assumptions/43.md.
def execAccfill (h : Hdr) (s : State) : Host.Outcome State Fault Refusal :=
  sysInstr s h (src3 h) false fun cx ws s =>
    let slot := fieldOf (ws.getD 0 0).toNat 0 7
    let core := s.coreOf cx.who
    let side := ws.getD 2 0 != 0
    let n := if side then 4352 else 4096
    if s.slotBusy core slot then s.hold cx
    else
      match s.areaKeys cx (ws.getD 1 0).toNat n false with
      | (.error tr, s) => s.areaFail cx tr
      | (.ok ks, s) =>
        let (l, s) := s.readSlotWords cx.sp.party (n / 4) ks
        ((s.putTile (slotFrom core slot l)).setSdv core slot side).done cx

def execAccfillZero (h : Hdr) (s : State) : Host.Outcome State Fault Refusal :=
  sysInstr s h (src1 h) false fun cx ws s =>
    let slot := fieldOf (ws.getD 0 0).toNat 0 7
    let core := s.coreOf cx.who
    if s.slotBusy core slot then s.hold cx
    else ((s.putTile (TileSlot.zero core slot)).setSdv core slot false).done cx

/-! ## wftrd, tlbinv (08 R241, R242) -/

/-- The object and information words of a waiter edge. -/
def State.edgeEntry (s : State) (die i : Nat) : List Word :=
  match s.edges.find? fun e => e.die == die && e.idx == i with
  | none => [0, 0]
  | some e =>
    [wordOf (e.obj % 2 ^ 48), wordOf (2 ^ 63 + e.kind * 2 ^ 60 + e.spl * 2 ^ 50 + e.warp * 2 ^ 43 + s.effPrio e.ctxh e.warp * 2 ^ 40 + e.ctxh)]

/-- Whether an edge waits on an object-table entry. -/
def waitsOn (o : Obj) (e : Edge) : Bool := e.key == o.key && (if o.lock then e.kind == 0 else e.kind == 1 || e.kind == 4)

def State.objEntryWords (s : State) (mdie i : Nat) : List Word :=
  match s.objs.find? fun o => o.mdie == mdie && o.idx == i with
  | none => [0, 0]
  | some o =>
    [wordOf (o.addr % 2 ^ 48),
     wordOf (2 ^ 63 + (if o.lock then 2 ^ 60 else 0) + o.warp * 2 ^ 43 + min 255 (s.edges.filter (waitsOn o)).length * 2 ^ 32 + o.ctxh)]

def execWftrdEdge (h : Hdr) (s : State) : Host.Outcome State Fault Refusal :=
  sysInstr s h (src1 h) true fun cx ws s =>
    s.sysPush cx (s.edgeEntry (s.dieOf cx.who) (fieldOf (ws.getD 0 0).toNat 0 13))

def execWftrdObj (h : Hdr) (s : State) : Host.Outcome State Fault Refusal :=
  sysInstr s h (src1 h) true fun cx ws s =>
    s.sysPush cx (s.objEntryWords (fieldOf (ws.getD 0 0).toNat 16 3) (fieldOf (ws.getD 0 0).toNat 0 12))

/-- What a party has released at device scope. -/
def State.released (s : State) (party : Nat) : Clock :=
  let fences := ((s.party? party).map Party.relF).getD []
  let writes := s.hist.flatMap fun h => h.ws.flatMap fun w => w.rels.filter fun r => r.party == party
  ((fences ++ writes).filter fun r => r.scope == .device || r.scope == .system).foldl (fun c r => clkJoin c r.clk) []

/-- Translations removed from every cache, and what later walks of the addresses see: what happens before the `tlbinv` (10 R286). -/
def State.tlbRemove (s : State) (clk : Clock) (asid : Option Nat) (page : Option Nat) : State :=
  let hit (e : TlbEnt) : Bool := (asid.getD e.asid == e.asid) && (match page with
    | some a => decide (e.page ≤ a ∧ a < e.page + e.span)
    | none => true)
  let ranges : List (Nat × Nat) := match page with
    | some a => (a / 4096 * 4096, 4096) :: (s.tlb.filter fun e => hit e && fieldOf e.leaf.toNat 6 1 == 1).map fun e => (e.page, e.span)
    | none => [(0, 2 ^ 48)]
  { s with tlb := s.tlb.filter fun e => !hit e
           tlbInv := ranges.foldl (fun l r => { asid := asid, base := r.1, len := r.2, clk := clk } :: l) s.tlbInv }

/-- A `tlbinv` of the handler. -/
def tlbInstr (s : State) (h : Hdr) (srcs : List (Nat × Src)) (f : List Word → Option Nat × Option Nat) : Host.Outcome State Fault Refusal :=
  sysInstr s h srcs false fun cx ws s =>
    let (asid, page) := f ws
    (s.tlbRemove (s.clkOf cx.sp.party) asid page).done cx

def execTlbinvPage (h : Hdr) (s : State) : Host.Outcome State Fault Refusal :=
  tlbInstr s h (src2 h) fun ws => (some (fieldOf (ws.getD 1 0).toNat 0 10), some (fieldOf (ws.getD 0 0).toNat 0 48))

def execTlbinvAsid (h : Hdr) (s : State) : Host.Outcome State Fault Refusal :=
  tlbInstr s h [(1, h.sb)] fun ws => (some (fieldOf (ws.getD 0 0).toNat 0 10), none)

def execTlbinvAll (h : Hdr) (s : State) : Host.Outcome State Fault Refusal := tlbInstr s h [] fun _ => (none, none)

/-! ## halt, resume (08 R243, 15 R375) -/

/-- The cycle counts of the compute dies. -/
def State.dieCycles (s : State) : List Nat := (List.range 4).map s.cycles

/-- The live teams of a cluster, in rank order. -/
def State.teamsOf (s : State) (cl : Nat) : List Team :=
  sortBy (fun a b => decide (a.rank ≤ b.rank)) (s.teams.filter fun t => t.cluster == cl)

/-- A saved cluster enters the ready queues once any of its teams is ready and none is held by `halt` (11 R309, 08 R243). -/
def State.readySaved (s : State) (cl : Nat) : State :=
  let ts := s.teamsOf cl
  let saved (t : Team) : Bool := match t.status with
    | .saved _ => true
    | _ => false
  let live := ts.filter fun t => t.status != .retiring && t.status != .killed
  let ready := live.any fun t => t.wake || (match t.status with
    | .saved w => decide (w ≥ 2)
    | _ => false)
  if live.isEmpty || !live.all saved then s
  else if ready && (live.all fun t => !t.haltSaved) then
    { s.updCluster cl fun c => if c.status == .ready then c
        else { c with status := .ready, resumed := true, since := s.dieCycles, aged := [], order := s.nextId } with nextId := s.nextId + 1 }
  else s.updCluster cl fun c => { c with status := .saved, resumed := true }

/-- The record of a supervisor halt: no split is primary. -/
def haltRec (s : State) (t : Team) : StopRec :=
  { cause := 0x61, res := 0, level := 0, guide := false, prec := false, rep := 0, warp := 0, spl := 0, tpc := 0, tlanes := 0, taddr := 0,
    tdetail := 0, tword := 0, tref := wordOf (((s.die? t.die).map Die.ref).getD 0), words := [], faults := [], snap := [], again := false }

def State.haltTeam (s : State) (h : Nat) : State :=
  match s.team? h with
  | none => s
  | some t =>
    match t.status with
    | .running => (s.pauseWaits h).updTeam h fun t => { t with status := .stopping, stop := some (haltRec s t), saving := none }
    | .saved _ => (s.updTeam h fun t => { t with haltSaved := true }).readySaved t.cluster
    | _ => s

/-- Whether the stop that a `halt` has begun is not complete. -/
def State.halting (s : State) (h : Nat) : Bool :=
  ((s.team? h).map fun t => t.status == .stopping && ((t.stop.map fun r => r.cause == 0x61).getD false)).getD false

-- DEDUCED (log 42, unsafe): A halted team that is saved stays held, and its cluster is not ready until it is resumed.
/-- `halt` acts once, and completes when the team has stopped (08 R234, R243). -/
def execHalt (h : Hdr) (s : State) : Host.Outcome State Fault Refusal :=
  sysInstr s h (src1 h) false fun cx ws s =>
    let h := fieldOf (ws.getD 0 0).toNat 0 32
    let s := if cx.sp.acted == 0 then s.haltTeam h else s
    if s.halting h then (s.hold cx).updSplit cx.who cx.k fun sp => { sp with acted := allLanes } else s.done cx

-- DEDUCED (log 36, unsafe): The requests held for replay are reissued at `resume`, as at tret.ack.
/-- A team whose stop by `halt` is not complete goes on: what has failed stands in its list (15 R376, R377). -/
def State.resumeStopping (s : State) (t : Team) (clk : Clock) : State :=
  let (party, s) := s.partParty t.ctxh clk
  match s.listItems party t.ctxh 0 t.items with
  | (true, s) => (s.applyAbreq t.ctxh clk).restart t.ctxh true
  | (false, s) => s.loseContext t.asid 0x74 t.ctxh 0

-- DEDUCED (log 42, unsafe): A team whose stop by `halt` is not complete goes on at once.
/-- A team stopped by `halt` goes on; a saved team that `halt` holds is held no more. -/
def State.resumeTeam (s : State) (h : Nat) (clk : Clock) : State :=
  match s.team? h with
  | none => s
  | some t =>
    let byHalt := ((t.stop.map fun r => r.cause == 0x61).getD false)
    match t.status with
    | .halted => (s.applyAbreq h clk).restart h true
    | .stopping => if byHalt then s.resumeStopping t clk else s
    | .saved _ => (s.updTeam h fun t => { t with haltSaved := false }).readySaved t.cluster
    | _ => s

-- DEDUCED (log 42, unsafe): see notes/assumptions/42.md.
def execResume (h : Hdr) (s : State) : Host.Outcome State Fault Refusal :=
  sysInstr s h (src1 h) false fun cx ws s =>
    let h := fieldOf (ws.getD 0 0).toNat 0 32
    (s.resumeTeam h (s.released cx.sp.party)).done cx

end Sys2Proof.Machine
end

