-- ==== Sys2Proof/Machine/FrontEnd.lean ====
section
/-!
DEFINITION. The front end: its accesses, packets and their checks, launches, replays and completions (11 R291 to R302, 19 R472 to R474),
and `glaunch` with the completion of child grids (08 R231, 02 R42 to R44, 19 R477, R478).
-/
namespace Sys2Proof.Machine

/-! ## Accesses of the front end -/

/-- The party of the front end (10 R269). -/
def State.fe (s : State) : Nat × State := s.partyFor .frontEnd

-- DEDUCED (log 33, safe): The front end, saves, item lists and firmware access memory with supervisor rights.
/-- The keys of a range of global memory in a process's ASID, which the front end reaches as the part's own unit, not in user mode. -/
def State.feKeys (s : State) (party asid va n : Nat) (write : Bool) : Except TransFail (List Nat) × State :=
  if va + n > globalTop then (.error (.fault (.window 1)), s)
  else
    match s.transBytes party (s.clkOf party) asid { write := write, fetch := false, super := true } va 0 n with
    | (.error e, s) => (.error e, s)
    | (.ok ks, s) =>
      match (s.cross ioDie false ks).remoteFail ks with
      | (some r, s) => (.error (.fault { cause := 0x28, reason := r, tgt := tgtOf ks, lvl := 0, rank := 0, seg := 0, off := 0 }), s)
      | (none, s) => (.ok ks, s)

/-- Keys read eight bytes at a time, and whether any of what was read is poisoned. -/
def State.readChunks (s : State) (party : Nat) : Nat → List Nat → List Byte × Bool × State
  | 0, _ => ([], false, s)
  | _, [] => ([], false, s)
  | fuel + 1, ks =>
    let n := 8 - (ks.headD 0) % 8
    let (bs, ps, s) := s.readNow party none (ks.take n)
    let (r, bad, s') := s.readChunks party fuel (ks.drop n)
    (bs ++ r, ps.any s.pickBad || bad, s')

/-- Keys read one byte at a time. -/
def State.readBytes (s : State) (party : Nat) : List Nat → List Byte × Bool × State
  | [] => ([], false, s)
  | k :: l =>
    let (b, ps, s) := s.readNow party none [k]
    let (r, bad, s') := s.readBytes party l
    (b ++ r, ps.any s.pickBad || bad, s')

/-- Bytes of global memory of which each is read for itself: a snapshot, a listed packet (19 R474). -/
def State.feReadEach (s : State) (party asid va n : Nat) : Except TransFail (List Byte) × State :=
  match s.feKeys party asid va n false with
  | (.error e, s) => (.error e, s)
  | (.ok ks, s) => let (bs, _, s) := s.readBytes party ks; (.ok bs, s)

/-- Bytes of global memory read by the front end. -/
def State.feRead (s : State) (party asid va n : Nat) : Except TransFail (List Byte) × State :=
  match s.feKeys party asid va n false with
  | (.error e, s) => (.error e, s)
  | (.ok ks, s) => let (bs, _, s) := s.readChunks party (n + 1) ks; (.ok bs, s)

/-- Bytes written at their homes; a sealed range takes none (17 R431). Tells whether they were written. -/
def State.homeStore (s : State) (party : Nat) (data : List (Nat × Byte)) (rel : Option Scope) (poison : Bool) : Bool × State :=
  let ks := data.map Prod.fst
  if ks.any s.sealed then (false, s)
  else
    let wid := s.nextWrite
    (true, (s.write party data rel none [] poison).landHome none ks wid)

/-- A value written by the front end as a release at system scope (11 R292, R293); false where it could not be performed. A walk that meets poison
loses the context (17 R432). -/
def State.feWrite (s : State) (party asid va n v : Nat) : Bool × State :=
  match s.feKeys party asid va n true with
  | (.error .lost, s) => (false, s.loseContext asid 0x74 (asid * 2 ^ 22) 0)
  | (.error _, s) => (false, s)
  | (.ok ks, s) => s.homeStore party (ks.zip ((List.range n).map fun i => BitVec.ofNat 8 (v / 256 ^ i))) (some .system) false

/-! ## Queues and turns -/

/-- The process whose turn it is: only its packets and clusters start (11 R298). -/
def State.turnAsid (s : State) : Option Nat :=
  if s.plat.switching then none else (s.plat.runList[s.plat.turn]?).map RunEnt.asid

def State.queue? (s : State) (asid qid : Nat) : Option Queue := s.queues.find? fun q => q.asid == asid && q.qid == qid

def State.updQueue (s : State) (asid qid : Nat) (f : Queue → Queue) : State :=
  { s with queues := updFirst (fun q => q.asid == asid && q.qid == qid) f s.queues }

def State.updRun (s : State) (asid qid unit : Nat) (f : PktRun → PktRun) : State :=
  s.updQueue asid qid fun q => { q with runs := updFirst (fun r => r.unit == unit) f q.runs }

def State.dropRun (s : State) (asid qid unit : Nat) : State :=
  s.updQueue asid qid fun q => { q with runs := q.runs.filter fun r => r.unit != unit }

/-- Whether firmware has refused a process after a context loss (15 R387). -/
def State.refused (s : State) (asid : Nat) : Bool := ((s.asid? asid).map Asid.refused).getD true

/-- Whether the front end may start work of a process (11 R298, 20 R485, R497). -/
def State.mayStart (s : State) (asid : Nat) : Bool := s.plat.phase == .ready && s.turnAsid == some asid && !s.refused asid

/-- The write index as the front end reads it: an acquire at system scope (11 R292, 10 R274). -/
def State.readWidx (s : State) (q : Queue) : State :=
  let (party, s) := s.fe
  match s.feKeys party q.asid q.widx 8 false with
  | (.error .lost, s) => s.loseContext q.asid 0x74 (q.asid * 2 ^ 22) 0
  | (.error _, s) => s
  | (.ok ks, s) =>
    let (bs, _, s) := s.readNow party (some .system) ks
    s.updQueue q.asid q.qid fun q => { q with wseen := leNum bs }

/-- Whether a queue's write index lies in device memory, where a monitor can live. -/
def State.widxHome (s : State) (q : Queue) : Bool :=
  let (party, s) := s.fe
  match (s.feKeys party q.asid q.widx 8 false).1 with
  | .ok ks => ks.all isDeviceKey
  | .error _ => false

/-- Whether the home of a write index holds another value than the front end has read last. -/
def State.widxMoved (s : State) (q : Queue) : Bool :=
  let (party, s) := s.fe
  match (s.feKeys party q.asid q.widx 8 false).1 with
  | .ok ks => ks.all isDeviceKey && ks.map s.homeByte != (leBytes 8 q.wseen).map some
  | .error _ => false

-- DEDUCED (log 34, safe): A wake of a write index, monitor, WAIT_VALUE packet or saved team whose condition does not hold changes nothing.
/-- QUEUE_WIDX_WAKE: a write to the index has woken the front end. -/
def execQueueWidxWake (asid qid : Nat) (s : State) : Host.Outcome State Fault Refusal :=
  .next (match s.queue? asid qid with
    | some q => if s.turnAsid == some asid && s.widxMoved q then s.readWidx q else s
    | none => s)

/-- WIDX_POLL: an index off device memory is read every 65,536 REF ticks. -/
def execWidxPoll (asid qid : Nat) (s : State) : Host.Outcome State Fault Refusal :=
  .next (match s.queue? asid qid with
    | some q =>
      if s.turnAsid == some asid && !s.widxHome q && decide (q.pollAt ≤ s.ref) then
        (s.readWidx q).updQueue asid qid fun q => { q with pollAt := s.ref + 65536 }
      else s
    | none => s)

/-! ## Launches (11 R295, R296, 19 R472 reasons 4 to 7) -/

def bytesAt (bs : List Byte) (off n : Nat) : Nat := leNum ((bs.drop off).take n)

/-- A role record of a launch (02 R32). -/
def roleAt (bs : List Byte) (k : Nat) : Role :=
  let e := bytesAt bs (128 + 16 * k) 8
  let w := bytesAt bs (136 + 16 * k) 8
  { entry := BitVec.ofNat 48 e, warps := fieldOf w 0 8, frame := fieldOf w 8 4, tiles := fieldOf w 16 8, qtet := fieldOf w 31 1 == 1 }

/-- The roles declared: those before the first record without warps. -/
def declared (rs : List Role) : List Role := rs.takeWhile fun r => r.warps != 0

/-- The reserved bits of a launch are zero at its revision (reason 4). -/
def launchReserved (bs : List Byte) (rev : Nat) : Bool :=
  let f := bytesAt bs
  fieldOf (f 0 8) 26 38 == 0 && fieldOf (f 61 1) 3 4 == 0 && fieldOf (f 73 1) 1 7 == 0 && f 74 2 == 0 && fieldOf (f 76 4) 9 23 == 0 &&
    fieldOf (f 76 4) 5 3 == 0 && f 116 4 == 0 && f 192 64 == 0 &&
    ((List.range 4).all fun k =>
      let e := f (128 + 16 * k) 8
      let w := f (136 + 16 * k) 8
      fieldOf e 48 16 == 0 && fieldOf e 0 3 == 0 && fieldOf w 32 32 == 0 && fieldOf w 24 7 == 0 && fieldOf w 12 4 == 0) &&
    (rev != 3 || (f 88 8 == 0 && fieldOf (f 61 1) 7 1 == 0 && f 72 1 == 0))

/-- The fields of a launch are in range (reason 5). -/
def launchRange (bs : List Byte) (rev : Nat) : Bool :=
  let f := bytesAt bs
  let dim (o : Nat) : Bool := decide (1 ≤ f o 4 ∧ f o 4 ≤ 2 ^ 20)
  let rs := (List.range 4).map (roleAt bs)
  let ds := declared rs
  let guide := fieldOf (f 73 1) 0 1 == 1
  let warps := (ds.map Role.warps).sum
  dim 48 && dim 52 && dim 56 && decide (1 ≤ f 60 1 ∧ f 60 1 ≤ 8) && decide (f 62 2 ≤ 1024) &&
    (!guide || rev == 3 || decide (1 ≤ f 72 1 ∧ f 72 1 ≤ 64)) &&
    ((rs.drop ds.length).all fun r => r.warps == 0) && (ds.all fun r => decide (r.warps ≤ 128 ∧ r.frame ≤ 8 ∧ r.tiles ≤ 128)) &&
    (ds.all fun r => !r.qtet || r.warps % 4 == 0) && decide (1 ≤ warps ∧ warps ≤ 128) && decide ((ds.map Role.tiles).sum ≤ 128) &&
    (rev != 3 || (decide (ds.length ≤ 1) && ds.all fun r => !r.qtet)) &&
    decide (f 96 8 % 65536 = 0 ∧ 0x410000 ≤ f 96 8 ∧ f 96 8 ≤ 2 ^ 31) && decide (f 112 4 ≠ 0) && f 104 8 % 65536 == 0 && f 120 8 % 4096 == 0

/-- The reason for which a launch is refused, the lowest that applies. -/
def launchFail (bs : List Byte) (rev : Nat) : Option Nat :=
  let afn := bytesAt bs 88 8
  let caps := bytesAt bs 80 8
  if !launchReserved bs rev then some 4
  else if !launchRange bs rev then some 5
  else if fieldOf afn 60 4 ≠ 0 ∨ ((List.range 60).filter fun i => afn.testBit i).length > 12 then some 6
  else if caps &&& 0xFFFFFFFFFFFFFFC1 ≠ 0 then some 7
  else none

/-- The launch that 256 bytes describe. -/
def launchOf (bs : List Byte) (rev asid : Nat) : Launch :=
  let f := bytesAt bs
  let guide := fieldOf (f 73 1) 0 1 == 1
  { rev := rev, asid := asid, gx := f 48 4, gy := f 52 4, gz := f 56 4, teams := f 60 1, prio := fieldOf (f 61 1) 0 3,
    bg := rev != 3 && fieldOf (f 61 1) 7 1 == 1, segs := f 62 2, gentry := BitVec.ofNat 48 (f 64 8), hasGuide := guide,
    tickets := if guide && rev != 3 then f 72 1 else 16, fpctl := BitVec.ofNat 32 (f 76 4), caps := wordOf (f 80 8),
    afn := if rev == 3 then 0 else wordOf (f 88 8), psz := f 96 8, ppool := f 104 8, pslabs := f 112 4, obj := f 120 8,
    param := wordOf (f 24 8), code := wordOf (f 32 8), data := wordOf (f 40 8), roles := declared ((List.range 4).map (roleAt bs)),
    cmp := fieldOf (f 0 8) 24 1 == 1, caddr := wordOf (f 8 8), cval := wordOf (f 16 8) }

/-- A cluster at the tail of the ready queue of its priority (11 R303). -/
def readyCluster (s : State) (id grid : Nat) (xyz : Nat × Nat × Nat) : Cluster :=
  { id := id, grid := grid, cx := xyz.1, cy := xyz.2.1, cz := xyz.2.2, status := .ready, bar := Bar.zero, since := s.dieCycles, aged := [],
    order := id, resumed := false, exited := [], logged := false, noTurns := 0 }

/-- The coordinates of a grid's clusters, CX varying fastest. -/
def gridCoords (l : Launch) : List (Nat × Nat × Nat) :=
  (List.range l.gz).flatMap fun z => (List.range l.gy).flatMap fun y => (List.range l.gx).map fun x => (x, y, z)

/-- A grid's clusters placed in the ready queues (11 R296, R303, 02 R41). -/
def State.startGrid (s : State) (l : Launch) (depth : Nat) (owner : Owner) (clk : Clock) : Nat × State :=
  let gid := s.nextId
  let coords := gridCoords l
  let g : Grid := { id := gid, launch := l, depth := depth, owner := owner, left := coords.length, fail := none, clk := clk, relClk := [],
                    done := false }
  let cls := coords.zipIdx.map fun (c, i) => readyCluster s (gid + 1 + i) gid c
  (gid, { s with nextId := gid + 1 + coords.length, grids := s.grids ++ [g], clusters := s.clusters ++ cls })

/-- A grid that is complete leaves. -/
def State.dropGrid (s : State) (gid : Nat) : State :=
  { s with grids := s.grids.filter fun g => g.id != gid, clusters := s.clusters.filter fun c => c.grid != gid }

/-- The value of a failed completion (15 R386). -/
def failWord (cause ctxh : Nat) : Nat := 2 ^ 63 + cause % 256 * 2 ^ 32 + ctxh % 2 ^ 32

/-- The completion write of a packet or a grid; one that cannot be performed is logged as reason 11 (11 R293, 19 R472, R478). -/
def State.writeCompletion (s : State) (asid qid unit caddr v : Nat) : State :=
  let (party, s) := s.fe
  let (ok, s) := if caddr % 8 = 0 then s.feWrite party asid caddr 8 v else (false, s)
  if ok then s else s.logEvent 0x62 0 0xFFFF (asid * 2 ^ 22) (wordOf (11 + qid * 256 + unit % 2 ^ 48 * 65536))

/-- The completion fields of a grid written once its teams' writes are known (10 R274, 02 R43); with PHASE 0xF they are never written (20 R497). -/
def State.completeGrid (s : State) (g : Grid) (qid unit : Nat) : State :=
  let (party, s) := s.fe
  let s := s.joinClk party g.relClk
  if g.launch.cmp && s.plat.phase != .failed then
    s.writeCompletion g.launch.asid qid unit g.launch.caddr.toNat
      (match g.fail with
        | some (c, h) => failWord c h
        | none => g.launch.cval.toNat)
  else s

/-! ## Packets (11 R293, R294, 19 R472, R473) -/

/-- UNITS of a type. -/
def packetUnits (type : Nat) : Nat := if type = 1 then 4 else 1

/-- The reason for which a packet of a known type fails its checks when its units are read (R472 reasons 4 to 7, 9, 10). -/
def packetFail (bs : List Byte) (type rev : Nat) : Option Nat :=
  let f := bytesAt bs
  let hdr := fieldOf (f 0 8) 26 38 == 0
  let zero (from_ : Nat) : Bool := leNum (bs.drop from_) == 0
  let cmp := fieldOf (f 0 8) 24 1 == 1
  let cad : Option Nat := if cmp && f 8 8 % 8 != 0 then some 9 else none
  match type with
  | 0 => if hdr && zero 8 then none else some 4
  | 1 => (launchFail bs rev).or cad
  | 2 => if hdr && zero 40 then cad else some 4
  | 3 =>
    if !hdr || !zero 43 then some 4
    else if f 40 1 > 5 ∨ f 41 1 > 1 ∨ f 42 1 > 1 then some 5
    else if f 24 8 % (if f 41 1 = 1 then 8 else 4) ≠ 0 then some 9
    else cad
  | 4 =>
    if !hdr || !zero 41 then some 4
    else if f 40 1 > 1 then some 5
    else if f 24 8 % (if f 40 1 = 1 then 8 else 4) ≠ 0 then some 9
    else cad
  | 5 => if hdr && zero 48 then cad else some 4
  | 6 =>
    if !hdr || !zero 44 then some 4
    else if cad.isSome then cad
    else if f 24 8 % 4096 ≠ 0 ∨ f 32 8 % 4096 ≠ 0 ∨ f 32 8 < 4096 ∨ f 32 8 > 2 ^ 40 ∨ f 24 8 + f 32 8 > globalTop then some 10
    else none
  | _ => if hdr && zero 24 then cad else some 4

/-- One unit of a ring. -/
def State.readUnit (s : State) (party : Nat) (q : Queue) (i : Nat) : Except TransFail (List Byte) × State :=
  s.feRead party q.asid (q.base + 64 * (i % q.size)) 64

def State.readUnits (s : State) (party : Nat) (q : Queue) (i : Nat) : Nat → Except TransFail (List Byte) × State
  | 0 => (.ok [], s)
  | n + 1 =>
    match s.readUnit party q i with
    | (.error e, s) => (.error e, s)
    | (.ok bs, s) =>
      match s.readUnits party q (i + 1) n with
      | (.error e, s) => (.error e, s)
      | (.ok r, s) => (.ok (bs ++ r), s)

/-- A packet that fails: its queue halts, CADDR receives the failure value where it can, and firmware logs it (19 R473). -/
def State.failPacket (s : State) (asid qid unit reason : Nat) (cmp : Bool) (caddr : Nat) : State :=
  let s := s.updQueue asid qid fun q => { q with halted := true }
  let s := s.logEvent 0x62 0 0xFFFF (asid * 2 ^ 22) (wordOf (reason + qid * 256 + unit % 2 ^ 48 * 65536))
  if cmp && caddr % 8 == 0 then
    let (party, s) := s.fe
    (s.feWrite party asid caddr 8 (failWord 0x62 reason)).2
  else s

-- DEDUCED (log 38, unsafe): see notes/assumptions/38.md.
/-- A started packet that fails at an access (reason 9 after start): RIDX stands. -/
def State.failRun (s : State) (asid qid unit : Nat) : State :=
  match (s.queue? asid qid).bind fun q => q.runs.find? fun r => r.unit == unit with
  | none => s
  | some r => (s.dropRun asid qid unit).failPacket asid qid unit 9 r.cmp r.caddr.toNat

/-- What the head of a queue holds: nothing that may start, a packet that fails its checks, or a packet. -/
inductive Head where
  | nothing | fails (reason : Nat) (cmp : Bool) (caddr : Nat) (type : Nat) | packet (type : Nat) (bytes : List Byte) | unreadable

/-- The packet at a queue's read position. -/
def State.headOf (s : State) (q : Queue) : Head × State :=
  if q.halted || q.stopping || !s.mayStart q.asid || decide (q.rpos ≥ q.wseen) then (.nothing, s)
  else
    let (party, s) := s.fe
    match s.readUnit party q q.rpos with
    | (.error _, s) => (.unreadable, s)
    | (.ok first, s) =>
      let h := bytesAt first 0 8
      let type := fieldOf h 0 8
      let cmp := fieldOf h 24 1 == 1 && type != 0
      let caddr := bytesAt first 8 8
      if fieldOf h 25 1 = 1 ∧ q.runs.any (fun r => !r.complete) then (.nothing, s)
      else if fieldOf h 8 8 ≠ q.rev then (.fails 1 cmp caddr type, s)
      else if type ≥ 8 then (.fails 2 cmp caddr type, s)
      else if fieldOf h 16 8 ≠ packetUnits type then (.fails 3 cmp caddr type, s)
      else if decide (q.wseen < q.rpos + packetUnits type) then (.nothing, s)
      else
        match s.readUnits party q (q.rpos + 1) (packetUnits type - 1) with
        | (.error _, s) => (.unreadable, s)
        | (.ok rest, s) =>
          match packetFail (first ++ rest) type q.rev with
          | some r => (.fails r cmp caddr type, s)
          | none => (.packet type (first ++ rest), s)

-- DEDUCED (log 38, unsafe): A write of RIDX that fails has no effect.
/-- A packet started: it stands behind the read index, which is written as a release at system scope (11 R292). -/
def State.startRun (s : State) (q : Queue) (type : Nat) (bs : List Byte) (args : List Word) : State :=
  let r : PktRun := { unit := q.rpos, units := packetUnits type, type := type, cmp := fieldOf (bytesAt bs 0 8) 24 1 == 1 && type != 0,
                      caddr := wordOf (bytesAt bs 8 8), cval := wordOf (bytesAt bs 16 8), complete := false, fail := none, args := args }
  let s := s.updQueue q.asid q.qid fun q => { q with rpos := q.rpos + packetUnits type, runs := q.runs ++ [r] }
  let (party, s) := s.fe
  (s.feWrite party q.asid q.ridx 8 (q.rpos + packetUnits type)).2

def State.completeRun (s : State) (q : Queue) : State := s.updRun q.asid q.qid q.rpos fun r => { r with complete := true }

/-- A packet event of the type at the head of a queue. A packet of no type is the front end's as well, and NOP's event stands for it;
`check` gives the reason of a check that reads more than the packet's units. -/
def packetEvent (s : State) (asid qid type : Nat) (start : Queue → List Byte → State → State) : Host.Outcome State Fault Refusal :=
  .next (match s.queue? asid qid with
    | none => s
    | some q =>
      match s.headOf q with
      | (.nothing, _) => s
      | (.unreadable, s) => s.loseContext asid 0x74 (asid * 2 ^ 22) 0
      | (.fails r cmp caddr t, s') => if t = type ∨ (t ≥ 8 ∧ type = 0) then s'.failPacket asid qid q.rpos r cmp caddr else s
      | (.packet t bs, s') => if t = type then start q bs s' else s)

def execPacketNop (asid qid : Nat) (s : State) : Host.Outcome State Fault Refusal :=
  packetEvent s asid qid 0 fun q bs s => (s.startRun q 0 bs []).completeRun q

def execPacketLaunch (asid qid : Nat) (s : State) : Host.Outcome State Fault Refusal :=
  packetEvent s asid qid 1 fun q bs s =>
    let s := s.startRun q 1 bs []
    let (party, s) := s.fe
    (s.startGrid (launchOf bs q.rev asid) 0 (.packet asid qid q.rpos) (s.clkOf party)).2

/-- The location of a WAIT_VALUE packet read at its home, and whether its condition holds: an acquire at system scope ends it. -/
def State.waitValue (s : State) (asid qid unit va val cond width sign : Nat) (poll : Bool) : State :=
  let n := if width = 1 then 8 else 4
  let (party, s) := s.fe
  match s.feKeys party asid va n false with
  | (.error .lost, s) => s.loseContext asid 0x74 (asid * 2 ^ 22) 0
  | (.error (.fault _), s) => s.failRun asid qid unit
  | (.ok ks, s) =>
    if !ks.all isDeviceKey then s.failRun asid qid unit
    else
      let (bs, ps, s) := s.readAt party pointHome ks
      let ty : Ty := if n = 8 then (if sign = 1 then .s64 else .n64) else (if sign = 1 then .s32 else .n32)
      let c : Cond := [Cond.eq, .ne, .lt, .le, .gt, .ge].getD cond .eq
      if Cond.holds c (intOf ty (widenBits ty (leNum bs))) (intOf ty (widenBits ty (val % 2 ^ (8 * n)))) then
        (s.acquire party .system (relsRead ps)).updRun asid qid unit fun r => { r with complete := true, args := r.args.drop 0 |>.set 0 0 }
      else
        let k := ks.headD 0
        let used := (s.monUsed { point := 2, place := mdieOf k, keys := ks })
        let armed := !poll || decide (used < monSize 2)
        s.updRun asid qid unit fun r =>
          { r with args := [if armed && decide (used < monSize 2) then 1 else 0, wordOf k] ++ (r.args.drop 2).set 5 (wordOf (s.ref + 65536)) }

/-- The words of a WAIT_VALUE run: armed, key, address, value, condition, width, sign, next poll. -/
def execPacketWaitValue (asid qid : Nat) (s : State) : Host.Outcome State Fault Refusal :=
  packetEvent s asid qid 3 fun q bs s =>
    let f := bytesAt bs
    let args := ([0, 0, f 24 8, f 32 8, f 40 1, f 41 1, f 42 1, 0] : List Nat).map wordOf
    let s := s.startRun q 3 bs args
    s.waitValue asid qid q.rpos (f 24 8) (f 32 8) (f 40 1) (f 41 1) (f 42 1) false

/-- A started WAIT_VALUE packet reads its location again. -/
def State.pollRun (s : State) (asid qid : Nat) (r : PktRun) : State :=
  let a (i : Nat) : Nat := (r.args.getD i 0).toNat
  let s' := s.waitValue asid qid r.unit (a 2) (a 3) (a 4) (a 5) (a 6) true
  -- a write to a monitored location that leaves the condition false wakes nothing
  let waits := ((s'.queue? asid qid).map fun q => q.runs.any fun x => x.unit == r.unit && !x.complete).getD false
  if a 0 = 1 ∧ waits then s else s'

/-- The waiting WAIT_VALUE packets of a queue read their locations again: each woken through its monitor entry, or every 65,536 REF ticks without
one (11 R294, 18 R457). -/
def execWaitValuePoll (asid qid : Nat) (s : State) : Host.Outcome State Fault Refusal :=
  .next (match s.queue? asid qid with
    | none => s
    | some q =>
      (q.runs.filter fun r => r.type == 3 && !r.complete && (r.args.getD 0 0 == 1 || decide ((r.args.getD 7 0).toNat ≤ s.ref))).foldl
        (fun s r => s.pollRun asid qid r) s)

def execPacketWriteValue (asid qid : Nat) (s : State) : Host.Outcome State Fault Refusal :=
  packetEvent s asid qid 4 fun q bs s =>
    let f := bytesAt bs
    let n := if f 40 1 = 1 then 8 else 4
    let s := s.startRun q 4 bs []
    let (party, s) := s.fe
    match s.feKeys party asid (f 24 8) n true with
    | (.error .lost, s) => s.loseContext asid 0x74 (asid * 2 ^ 22) 0
    | (.error (.fault _), s) => s.failRun asid qid q.rpos
    | (.ok ks, s) =>
      (s.homeStore party (ks.zip ((List.range n).map fun i => BitVec.ofNat 8 (f 32 8 / 256 ^ i))) (some .system) false).2.completeRun q

/-- The bytes of a COPY or of a snapshot, up to eight of a destination granule at a time, or each for itself; an error where an access fails. -/
def State.copyBytes (s : State) (party asid src dst n : Nat) (each : Bool) : Nat → Except TransFail Unit × State
  | 0 => (.ok (), s)
  | fuel + 1 =>
    if n = 0 then (.ok (), s)
    else
      let k := min n (8 - dst % 8)
      match s.feKeys party asid src k false with
      | (.error e, s) => (.error e, s)
      | (.ok from_, s) =>
        match s.feKeys party asid dst k true with
        | (.error e, s) => (.error e, s)
        | (.ok into_, s) =>
          let (bs, bad, s) := if each then s.readBytes party from_ else s.readChunks party 9 from_
          let (_, s) := s.homeStore party (into_.zip bs) none bad
          s.copyBytes party asid (src + k) (dst + k) (n - k) each fuel

def execPacketCopy (asid qid : Nat) (s : State) : Host.Outcome State Fault Refusal :=
  packetEvent s asid qid 5 fun q bs s =>
    let f := bytesAt bs
    let s := s.startRun q 5 bs []
    let (party, s) := s.fe
    match s.copyBytes party asid (f 24 8) (f 32 8) (f 40 8) false (f 40 8 + 1) with
    | (.error .lost, s) => s.loseContext asid 0x74 (asid * 2 ^ 22) 0
    | (.error (.fault _), s) => s.failRun asid qid q.rpos
    | (.ok (), s) => (s.relFence party .system).completeRun q

/-- The pages of a range as pairs of first key and length, by the front end. -/
def State.fePages (s : State) (party asid va len : Nat) : Nat → Except TransFail (List Nat) × State
  | 0 => (.ok [], s)
  | fuel + 1 =>
    if len = 0 then (.ok [], s)
    else
      match s.feKeys party asid va 1 true with
      | (.error e, s) => (.error e, s)
      | (.ok ks, s) =>
        let n := min len (4096 - va % 4096)
        match s.fePages party asid (va + n) (len - n) fuel with
        | (.error e, s) => (.error e, s)
        | (.ok r, s) => (.ok (ks.headD 0 :: n :: r), s)

def execPacketSeal (asid qid : Nat) (s : State) : Host.Outcome State Fault Refusal :=
  packetEvent s asid qid 6 fun q bs s =>
    let f := bytesAt bs
    let s := s.startRun q 6 bs []
    let (party, s) := s.fe
    let s := s.relFence party .system
    match s.fePages party asid (f 24 8) (f 32 8) (f 32 8 / 4096 + 1) with
    | (.error .lost, s) => s.loseContext asid 0x74 (asid * 2 ^ 22) 0
    | (.error (.fault _), s) => s.failRun asid qid q.rpos
    | (.ok ps, s) => (s.recordSeal (f 40 4) ps).completeRun q

/-- What a FENCE waits for: the earlier packets of its queue, and those of the process's other queues that have started, as pairs of queue and
unit (11 R294). -/
def State.fenceWaits (s : State) (q : Queue) : List Word :=
  (s.queues.filter fun x => x.asid == q.asid).flatMap fun x => (x.runs.filter fun r => !r.complete).flatMap fun r => [wordOf x.qid, wordOf r.unit]

def execPacketFence (asid qid : Nat) (s : State) : Host.Outcome State Fault Refusal :=
  packetEvent s asid qid 7 fun q bs s => s.startRun q 7 bs (s.fenceWaits q)

/-! ## Replays (11 R300, R301, 19 R474) -/

/-- The header of a launch list: COUNT, EXCL, PBLOCK, PBSIZE. -/
structure ListHdr where
  count : Nat
  excl : Bool
  pblock : Nat
  pbsize : Nat
  deriving DecidableEq, Repr

def listHdr (bs : List Byte) : ListHdr :=
  { count := bytesAt bs 0 4, excl := fieldOf (bytesAt bs 4 1) 0 1 == 1, pblock := bytesAt bs 8 8, pbsize := bytesAt bs 16 4 }

def execPacketReplay (asid qid : Nat) (s : State) : Host.Outcome State Fault Refusal :=
  packetEvent s asid qid 2 fun q bs s =>
    let list := bytesAt bs 24 8
    let snap := bytesAt bs 32 8
    let cmp := fieldOf (bytesAt bs 0 8) 24 1 == 1
    let (party, s) := s.fe
    match s.feRead party asid list 64 with
    | (.error _, s) => s.loseContext asid 0x74 (asid * 2 ^ 22) 0
    | (.ok hb, s) =>
      let h := listHdr hb
      if h.count = 0 ∨ h.count > 4096 ∨ h.pbsize % 64 ≠ 0 ∨ h.pbsize > 2 ^ 20 then s.failPacket asid qid q.rpos 8 cmp (bytesAt bs 8 8)
      else if h.excl && s.replays.any fun r => r.asid == asid && r.list == list && r.running then s
      else
        let s := s.startRun q 2 bs []
        let r (param : Nat) : Replay :=
          { asid := asid, qid := qid, unit := q.rpos, list := list, excl := h.excl, count := h.count, next := 0, param := wordOf param,
            cur := none, running := true }
        if h.excl then { s with replays := s.replays ++ [r h.pblock] }
        else
          match s.copyBytes party asid h.pblock snap h.pbsize true (h.pbsize + 1) with
          | (.error .lost, s) => s.loseContext asid 0x74 (asid * 2 ^ 22) 0
          | (.error (.fault _), s) => s.failRun asid qid q.rpos
          | (.ok (), s) => { s with replays := s.replays ++ [r snap] }

def State.updReplay (s : State) (asid qid unit : Nat) (f : Replay → Replay) : State :=
  { s with replays := updFirst (fun r => r.asid == asid && r.qid == qid && r.unit == unit) f s.replays }

def State.dropReplay (s : State) (asid qid unit : Nat) : State :=
  { s with replays := s.replays.filter fun r => !(r.asid == asid && r.qid == qid && r.unit == unit) }

/-- A replay that ends at a launch that fails its checks: the packet completes with a failure and the queue halts. -/
def State.failReplay (s : State) (r : Replay) (reason : Nat) : State :=
  let s := s.dropReplay r.asid r.qid r.unit
  match (s.queue? r.asid r.qid).bind fun q => q.runs.find? fun x => x.unit == r.unit with
  | none => s
  | some x => (s.dropRun r.asid r.qid r.unit).failPacket r.asid r.qid r.unit reason x.cmp x.caddr.toNat

/-- REPLAY_NEXT_LAUNCH: the launch before has completed and its fields are written, also where its context is lost (15 R387); the next one is read,
checked and started, or the packet completes. -/
def State.replayNext (s : State) (r : Replay) : State :=
  let busy : Bool := match r.cur with
    | some g => ((s.grid? g).map fun x => !x.done).getD false
    | none => false
  if busy then s
  else
    let s := match r.cur.bind s.grid? with
      | some g => ((s.completeGrid g r.qid r.unit).dropGrid g.id).updReplay r.asid r.qid r.unit fun x => { x with cur := none }
      | none => s
    if decide (r.next < r.count) && !s.mayStart r.asid then s
    else if r.next ≥ r.count then
      (s.dropReplay r.asid r.qid r.unit).updRun r.asid r.qid r.unit fun x => { x with complete := true }
    else
      let (party, s) := s.fe
      match s.feReadEach party r.asid (r.list + 64 + 256 * r.next) 256 with
      | (.error _, s) => s.loseContext r.asid 0x74 (r.asid * 2 ^ 22) 0
      | (.ok bs, s) =>
        let h := bytesAt bs 0 8
        let rev := ((s.queue? r.asid r.qid).map Queue.rev).getD 4
        let bad : Option Nat :=
          if fieldOf h 8 8 ≠ rev then some 1
          else if fieldOf h 0 8 ≠ 1 then some 2
          else if fieldOf h 16 8 ≠ 4 then some 3
          else packetFail bs 1 rev
        match bad with
        | some reason => s.failReplay r reason
        | none =>
          let l := launchOf bs rev r.asid
          let (gid, s) := s.startGrid { l with param := r.param + l.param } 0 (.replay r.asid r.qid r.unit) (s.clkOf party)
          s.updReplay r.asid r.qid r.unit fun x => { x with next := x.next + 1, cur := some gid }

def execReplayNextLaunch (asid qid : Nat) (s : State) : Host.Outcome State Fault Refusal :=
  .next (match s.replays.find? fun r => r.asid == asid && r.qid == qid && r.running with
    | some r => s.replayNext r
    | none => s)

/-! ## Completion (11 R293) -/

/-- A fence whose packets have all completed. -/
def State.fenceDone (s : State) (asid : Nat) (r : PktRun) : Bool :=
  let rec ok : List Word → Bool
    | q :: u :: l => !(s.queues.any fun x => x.asid == asid && x.qid == q.toNat && x.runs.any fun y => y.unit == u.toNat && !y.complete) && ok l
    | _ => true
  ok r.args

/-- Whether a started packet has completed. -/
def State.runDone (s : State) (asid qid : Nat) (r : PktRun) : Bool :=
  r.complete || match r.type with
    | 1 => s.grids.any fun g => g.owner == .packet asid qid r.unit && g.done
    | 7 => s.fenceDone asid r
    | _ => false

/-- PACKET_COMPLETION: a completed packet writes its completion value and leaves. A launch writes the fields of its grid. -/
def execPacketCompletion (asid qid unit : Nat) (s : State) : Host.Outcome State Fault Refusal :=
  .next (match (s.queue? asid qid).bind fun q => q.runs.find? fun r => r.unit == unit with
    | none => s
    | some r =>
      if !s.runDone asid qid r then s
      else
        let (party, s) := s.fe
        let s := s.dropRun asid qid unit
        match r.type with
        | 1 =>
          match s.grids.find? fun g => g.owner == .packet asid qid unit with
          | some g => (s.completeGrid g qid unit).dropGrid g.id
          | none => s
        | t =>
          let s := if t = 7 then s.relFence party .system else s
          if r.cmp then s.writeCompletion asid qid unit r.caddr.toNat r.cval.toNat else s)

/-! ## Child launches (08 R231, 19 R477, R478) -/

/-- The descriptor read: eight bytes at a time, as a load. -/
inductive DescRead where
  | ok (bytes : List Byte) | bad (f : LaneFault) | lost | remote (f : LaneFault)
  deriving DecidableEq, Repr

def State.readDesc (s : State) (cx : Cx) (lane va : Nat) : Nat → DescRead × State
  | 0 => (.ok [], s)
  | n + 1 =>
    let e : Elem := { lane := lane, ea := va, size := 8, align := false }
    match s.xlateElems cx.tm cx.who .global cx.sp.party (s.clkOf cx.sp.party) { write := false, fetch := false, super := false } [e] with
    | (.bad f, s) => (.bad f, s)
    | (.lost, s) => (.lost, s)
    | (.ok ks, s) =>
      match (s.cross cx.tm.die false ks).remoteFail ks with
      | (some r, s) =>
        (.remote { lane := lane, f := { cause := 0x28, reason := r, tgt := tgtOf ks, lvl := 0, rank := 0, seg := 0, off := 0 }, ea := va, size := 8 }, s)
      | (none, s) =>
        let (bs, _, s) := s.readNow cx.sp.party none ks
        match s.readDesc cx lane (va + 8) n with
        | (.ok r, s) => (.ok (bs ++ r), s)
        | x => x

/-- The stage 5 failure of a `glaunch`: cause, TADDR, TDETAIL, the lowest cause first (16 R410, 19 R477). -/
def State.glaunchFail (s : State) (cx : Cx) (lane ea : Nat) : Option (LaneFault ⊕ (Nat × Nat)) :=
  match placeOf s cx.tm cx.who .global ea 256 with
  | .error f => some (.inl { lane := lane, f := f, ea := ea, size := 8 })
  | .ok _ =>
    let depth := ((s.grid? cx.tm.grid).map Grid.depth).getD 0
    if ea % 64 ≠ 0 then some (.inl { lane := lane, f := alignFault 3, ea := ea, size := 8 })
    else if depth ≥ 10 then some (.inr (0x53, depth))
    else if cx.who.warpNo ≠ 0 then some (.inr (0x54, 1))
    else if cx.tm.child ≥ 2 ^ 32 - 1 then some (.inr (0x54, 2))
    else none

/-- The launch of a child grid once its descriptor has been read and has passed its checks: a release at device scope by the launching warp, whichever
of its splits, live, parked or ended, made its writes; the counter, and the clusters (02 R42, R43). -/
def State.launchChild (s : State) (cx : Cx) (bs : List Byte) (rev : Nat) : State :=
  let (die, core) := s.placeOfWho cx.who
  let s := s.pushLines die core .device
  let s := s.updTeam cx.tm.ctxh fun t => { t with child := t.child + 1 }
  let l := { launchOf bs rev cx.tm.asid with prio := cx.tm.prio, bg := cx.tm.bg }
  let depth := ((s.grid? cx.tm.grid).map Grid.depth).getD 0
  (s.startGrid l (depth + 1) (.child cx.tm.ctxh) (s.warpClk cx.t)).2

def execGlaunch (h : Hdr) (s : State) : Host.Outcome State Fault Refusal :=
  act s h (Shape.user (src1 h) false) fun cx os s =>
    if memWait cx true then s.holdEntries cx
    else if s.replayFull cx then s.hold cx
    else
      match cx.lead with
      | none => s.done cx
      | some l =>
        let v := (fieldOp os 0).at l
        let use := os.map (onlyLanes [l])
        if v.poison then (s.done cx).consume cx use
        else
          match s.glaunchFail cx l v.v.toNat with
          | some (.inl f) => s.raise cx.who cx.k (faultTrap cx.pc cx.word true 1 1 [f]) none
          | some (.inr (c, d)) => s.fail cx c (bitMask l) 0 d
          | none =>
            match s.readDesc cx l v.v.toNat 32 with
            | (.bad f, s) =>
              (s.holdReq { who := cx.who, spl := cx.k, pc := cx.pc, word := cx.word, lanes := bitMask l, req := .slot }).raise cx.who cx.k
                (faultTrap cx.pc cx.word true 1 1 [f]) none
            | (.lost, s) => s.loseContext cx.tm.asid 0x74 cx.tm.ctxh 0
            | (.remote f, s) =>
              (s.done cx).raise cx.who cx.k (faultTrap cx.pc cx.word true 1 1 [f])
                (some { kind := 7, cause := 0x28, addr := cx.pc.toNat, lanes := 0, warp := cx.who.warpNo, guide := false, spl := cx.k })
            | (.ok bs, s) =>
              let rev := ((s.grid? cx.tm.grid).map fun g => g.launch.rev).getD 4
              match launchFail bs rev with
              | some r => s.fail cx 0x54 (bitMask l) 0 (3 + 16 * r)
              | none => (s.launchChild cx bs rev).done cx

/-- CHILD_GRID_COMPLETE: the completion fields are written, the parent's counter drops by one, and a retiring parent whose counter reaches
zero is freed (02 R44). -/
def execChildGridComplete (gid : Nat) (s : State) : Host.Outcome State Fault Refusal :=
  .next (match s.grid? gid with
    | none => s
    | some g =>
      match g.owner with
      | .child h =>
        if !g.done then s
        else
          let s := (s.completeGrid g 0 0).dropGrid gid
          match s.team? h with
          | none => s
          | some t =>
            let s := s.updTeam h fun t => { t with child := t.child - 1, exitClk := clkJoin t.exitClk g.relClk }
            if t.status == .retiring && t.child == 1 then
              ({ s with teams := s.teams.filter fun x => x.ctxh != h }).checkCluster t.cluster
            else s
      | _ => s)

end Sys2Proof.Machine
end

