-- ==== Sys2Proof/Machine/Placement.lean ====
section
/-!
DEFINITION. The dispatcher and pre-emption: claiming and placing clusters (11 R297 to R304, 19 R475), eviction (R307, 18 R461), saves and
resumes (R308 to R312, 19 R469, R476), wake events (02 R49), and the turns of processes (R298).
-/
namespace Sys2Proof.Machine

/-! ## What a core has free (02 R31, R34 to R37) -/

/-- A team that holds slots of a core: one that has been placed and has neither been saved nor ended. -/
def Team.placed (t : Team) : Bool :=
  match t.status with
  | .saved _ | .retiring => false
  | _ => true

def State.teamsOn (s : State) (core : Nat) : List Team := s.teams.filter fun t => t.placed && coreId t.die t.core == core

/-- Warp slots in use in each partition of a core. -/
def State.partUse (s : State) (core : Nat) : List Nat :=
  let ws := (s.teamsOn core).flatMap fun t => s.warpsOf t.ctxh
  (List.range 32).map fun p => (ws.filter fun w => w.part == p).length

/-- The least used partition of some, the lowest-numbered among equals, with a slot free. -/
def leastUsed (use : List Nat) (ps : List Nat) : Option Nat :=
  (ps.foldl (fun (b : Option Nat) p =>
    match b with
    | none => some p
    | some q => if use.getD p 8 < use.getD q 8 then some p else some q) none).filter fun p => decide (use.getD p 8 < 8)

/-- Partitions for warps, each by whether it is member `i` of a quartet, in the order in which they take their slots: a member goes to quadrant
`i`. -/
def takeParts : List Nat → List (Nat × Option Nat) → Option (List (Nat × Nat))
  | _, [] => some []
  | use, q :: l =>
    let ps := match q.2 with
      | some i => (List.range 8).map (8 * i + ·)
      | none => List.range 32
    match leastUsed use ps with
    | none => none
    | some p => (takeParts (setAt use p (use.getD p 0 + 1)) l).map fun r => (q.1, p) :: r

-- DEDUCED (log 39, safe and in part unsafe): Quartets take their slots first and then every other warp, each in WARP order; a member takes the partition with the fewest occupied slots of its quadrant, the lowest-numbered first.
/-- The partitions of a team's warps, in WARP order (02 R37, R38, 11 R304). -/
def placeParts (use : List Nat) (qs : List (Option Nat)) : Option (List Nat) :=
  let ws := qs.zipIdx.map fun x => (x.2, x.1)
  (takeParts use ((ws.filter fun x => x.2.isSome) ++ ws.filter fun x => x.2.isNone)).map fun r =>
    (List.range qs.length).map fun w => (assoc? r w).getD 0

-- DEDUCED (log 39, safe and in part unsafe): see notes/assumptions/39.md.
/-- The quartet member number of every warp of a team, in WARP order. -/
def quartetMembers (rs : List Role) : List (Option Nat) :=
  rs.flatMap fun r => (List.range r.warps).map fun i => if r.qtet then some (i % 4) else none

def frameNeed (rs : List Role) : Nat := (rs.map fun r => r.warps * 8 * r.frame).sum
def tileNeed (rs : List Role) : Nat := (rs.map Role.tiles).sum
def warpNeed (rs : List Role) : Nat := (rs.map Role.warps).sum

/-- Whether a tile base is free on a core. -/
def State.baseFree (s : State) (core n b : Nat) : Bool :=
  let used := (s.teamsOn core).flatMap fun t => (List.range t.tiles).map t.slot
  (List.range n).all fun i => !used.contains ((b + i) % 128)

/-- B: the team's previous base when it is free, else the lowest (11 R304). -/
def State.findBase (s : State) (core n : Nat) (prev : Option Nat) : Option Nat :=
  match prev with
  | some b => if s.baseFree core n b then some b else (List.range 128).find? (s.baseFree core n)
  | none => (List.range 128).find? (s.baseFree core n)

/-- Whether a team has started commands: what COC and MOC count for a save (19 R469). -/
def State.hasStarted (s : State) (h : Nat) : Bool := s.cmds.any fun c => c.ctxh == h && c.started

/-- Segments of saved teams that cannot be freed on a core yet: commands that these teams have started still write them (08 R232). -/
def State.pinnedSegs (s : State) (core : Nat) : Nat :=
  ((s.teams.filter fun t => t.kept && !t.placed && coreId t.die t.core == core && s.hasStarted t.ctxh).map Team.segs).sum

/-- How a team fits a core: its partitions and its tile base (02 R37). A core out of service fits nothing (19 R475). -/
structure Fit where
  core : Nat
  parts : List Nat
  base : Nat
  deriving DecidableEq, Repr

def State.fitOn (s : State) (l : Launch) (core : Nat) (prev : Option Nat) : Option Fit :=
  let on := s.teamsOn core
  let frames := (on.map fun t => frameNeed t.roles).sum
  let segs := (on.map Team.segs).sum
  let guides := (on.filter Team.hasGuide).length
  let down := ((s.die? (core / 16)).map fun d => d.coreDown.contains (core % 16)).getD true
  if down || decide (frames + frameNeed l.roles > 8192) || decide (segs + s.pinnedSegs core + l.segs > 1024) || (l.hasGuide && decide (guides ≥ 8)) ||
      decide ((on.map Team.tiles).sum + tileNeed l.roles > 128) then none
  else
    match placeParts (s.partUse core) (quartetMembers l.roles), s.findBase core (tileNeed l.roles) prev with
    | some ps, some b => some { core := core, parts := ps, base := b }
    | _, _ => none

/-- The cores that a cluster's teams take on a die: core (home slice + t) mod 16 first, else the lowest that fits (11 R304). `prevs` are the
ranks to place with their previous bases. -/
def State.fitDie (s : State) (l : Launch) (die slice : Nat) : List Nat → List (Nat × Option Nat) → Option (List Fit)
  | _, [] => some []
  | taken, (rank, prev) :: ts =>
    let first := (slice + rank) % 16
    let try_ (c : Nat) : Option Fit := if taken.contains c then none else s.fitOn l (coreId die c) prev
    match (first :: List.range 16).findSome? try_ with
    | none => none
    | some f => (s.fitDie l die slice (f.core % 16 :: taken) ts).map fun r => f :: r

/-! ## Clusters in the ready queues (11 R303) -/

def State.launchOfCluster (s : State) (c : Cluster) : Option Launch := (s.grid? c.grid).map Grid.launch

-- DEDUCED (log 72, unsafe): A saved cluster whose effective priority falls again leaves the higher queue, and a moved entry keeps its order of readiness.
/-- The effective priority of a cluster: its team priority, or the highest effective priority of its teams' warps. It is the queue that a ready cluster
stands in (11 R306, R309). -/
def State.clusterPrio (s : State) (c : Cluster) : Nat :=
  let base := ((s.launchOfCluster c).map Launch.prio).getD 0
  (s.teamsOf c.id).foldl (fun p t => (s.warpsOf t.ctxh).foldl (fun p w => max p (s.effPrio t.ctxh w.who.warpNo)) p) base

/-- Whether one cluster stands before another: the higher priority, a resumed one before one that has never started, the earlier. -/
def State.before (s : State) (a b : Cluster) : Bool :=
  let pa := s.clusterPrio a
  let pb := s.clusterPrio b
  decide (pa > pb) || (pa == pb && ((a.resumed && !b.resumed) || (a.resumed == b.resumed && decide (a.order ≤ b.order))))

/-- The clusters waiting for a place, in the order in which a die scans them. -/
def State.waiting (s : State) : List Cluster :=
  sortBy s.before (s.clusters.filter fun (c : Cluster) => c.status == .ready && s.turnAsid == (s.launchOfCluster c).map Launch.asid)

/-- Save slots and slabs that no live team holds, the lowest first (11 R297, R299). -/
def lowestFree (used : List Nat) (limit n : Nat) : Option (List Nat) :=
  let l := ((List.range (min limit (used.length + n))).filter fun i => !used.contains i).take n
  if l.length = n then some l else none

def State.freeSlots (s : State) (asid n : Nat) : Option (List Nat) :=
  match s.plat.runList.find? fun e => e.asid == asid with
  | none => none
  | some e => lowestFree ((s.teams.filter fun t => t.asid == asid && t.status != .retiring).map fun t => t.ctxh % 2 ^ 22) e.saveslots n

def State.freeSlabs (s : State) (c : Cluster) (l : Launch) : Option (List Nat) :=
  lowestFree ((s.teams.filter fun t => t.grid == c.grid && t.status != .retiring).map Team.slab) l.pslabs l.teams

/-- Whether a die claims clusters at all; one whose core clock stands claims none (20 R496). -/
def Die.claims (d : Die) : Bool := d.released && !d.hot && d.relock.isNone && decide (d.num < 4)

/-- Whether a die may claim a cluster (11 R303). -/
def State.mayClaim (_s : State) (c : Cluster) (l : Launch) (die : Nat) : Bool :=
  match (affinity l.afn.toNat c.cx c.cy c.cz).1 with
  | none => true
  | some m => m / 2 == die || c.aged.contains die

-- DEDUCED (log 39, safe and in part unsafe): A saved cluster is not resumed while commands that its teams have started are in flight.
/-- The ranks of a cluster that are to be placed, with their previous bases. A saved team whose own commands are still in flight is not
placed before they have completed. -/
def State.ranksOf (s : State) (c : Cluster) (l : Launch) : Option (List (Nat × Option Nat)) :=
  if c.resumed then
    let ts := (s.teamsOf c.id).filter fun t => match t.status with
      | .saved _ => true
      | _ => false
    if ts.any fun t => s.cmds.any fun x => x.ctxh == t.ctxh then none else some (ts.map fun t => (t.rank, some t.tileBase))
  else some ((List.range l.teams).map fun r => (r, none))

/-- How a cluster fits a die whole. -/
def State.fitCluster (s : State) (c : Cluster) (die : Nat) : Option (List Fit) :=
  match s.launchOfCluster c with
  | none => none
  | some l =>
    match s.ranksOf c l with
    | none => none
    | some rs =>
      if !c.resumed && ((s.freeSlots l.asid l.teams).isNone || (s.freeSlabs c l).isNone) then none
      else s.fitDie l die (affinity l.afn.toNat c.cx c.cy c.cz).2 [] rs

/-- The cluster that a die takes next, with its places. -/
def State.claimNext (s : State) (die : Nat) : Option (Cluster × List Fit) :=
  match s.die? die with
  | none => none
  | some d =>
    if !d.claims || s.plat.clockStop then none
    else s.waiting.findSome? fun c =>
      match s.launchOfCluster c with
      | none => none
      | some l => if s.mayClaim c l die && !s.refused l.asid then (s.fitCluster c die).map fun f => (c, f) else none

/-! ## Save records (11 R310 to R312, 19 R469) -/

def bytesOf (n v : Nat) : List Byte := (List.range n).map fun i => BitVec.ofNat 8 (v / 256 ^ i)

def guardBits : GuardSlot → Nat
  | .unresolved => 0
  | .yes => 1
  | .no => 2

/-- How many warps of a team have arrived whole at a barrier of it. -/
def State.barArrived (s : State) (h : Nat) (b : Bar) : Nat :=
  ((s.warpsOf h).filter fun t => b.arrived.any (fun a => a.1 == t.who.warpNo) && b.has t.who.warpNo t.alive).length

/-- Bytes 0 to 191 of the team header. -/
def headerBytes (s : State) (t : Team) (why nseg : Nat) : List Byte :=
  let bars := (t.bars.take 16).flatMap fun b => bytesOf 4 b.gen ++ bytesOf 1 b.expect ++ bytesOf 1 (s.barArrived t.ctxh b) ++ bytesOf 2 0
  let c := s.cluster? t.cluster
  let gen := (c.map fun c => c.bar.gen).getD 0
  let arr := (c.map fun c => s.teamArrived c t).getD false
  bytesOf 4 t.ctxh ++ bytesOf 1 why ++ bytesOf 1 t.tileBase ++ bytesOf 2 nseg ++
    bytesOf 8 ((t.guards.zipIdx.map fun (g, i) => guardBits g * 4 ^ i).sum) ++
    bytesOf 8 t.brken.toNat ++ bytesOf 8 t.barto.toNat ++ bytesOf 8 t.grace.toNat ++ bytesOf 8 t.lockcap.toNat ++
    bars ++ bytesOf 4 gen ++ bytesOf 4 (if arr then 1 else 0) ++ bytesOf 8 t.child

/-- COC and MOC as a record holds them. -/
def countBytes (t : Warp) : List Byte := bytesOf 4 t.coc ++ bytesOf 4 t.moc

/-- CHN of a warp record. -/
def chainByte (t : Warp) : List Byte := bytesOf 1 (t.chC.length + 16 * t.chM.length)

/-- The counts of a guide record: COC, MOC, the tickets that the guide holds in each queue, the chain counts. -/
def guideCounts (t : Warp) (tm : Team) : List Byte :=
  countBytes t ++ bytesOf 4 (tm.tickets - tm.tickC) ++ bytesOf 4 (tm.tickets - tm.tickM) ++ bytesOf 4 t.chC.length ++ bytesOf 4 t.chM.length

-- DEDUCED (log 82, unsafe): d = 0 of a warp record is the outermost waypoint.
/-- The control area of a warp record, but for ABREQ at 0xB0, which a save leaves as it stands (18 R446, R447). -/
def controlBytes (t : Warp) : List (Nat × List Byte) :=
  let split (k : Nat) : List Byte := match t.split? k with
    | some sp => bytesOf 8 sp.pc.toNat ++ bytesOf 4 sp.mask.toNat ++ bytesOf 2 sp.fb ++ bytesOf 1 sp.fs ++ bytesOf 1 sp.p ++ bytesOf 1 1 ++ bytesOf 15 0
    | none => bytesOf 32 0
  let wp (w : Waypoint) : List Byte :=
    bytesOf 8 w.target.toNat ++ bytesOf 8 w.parkedPc.toNat ++ bytesOf 4 w.member.toNat ++ bytesOf 4 w.arrived.toNat ++ bytesOf 4 w.parked.toNat ++
      bytesOf 2 (if w.implicit then 0 else w.table) ++ bytesOf 1 w.k ++ bytesOf 1 w.savedP ++ bytesOf 1 w.parkedP ++ bytesOf 1 w.fs ++ bytesOf 2 w.fb ++
      bytesOf 1 (if w.implicit then 1 else 0) ++ bytesOf 11 0
  [(0, (List.range 4).flatMap split),
   (0x80, bytesOf 4 t.exited.toNat ++ bytesOf 4 t.locks ++ bytesOf 4 t.p1.toNat ++ bytesOf 4 t.p2.toNat ++ bytesOf 4 t.p3.toNat ++ bytesOf 4 0 ++
      bytesOf 4 t.fpctl.toNat ++ bytesOf 4 t.fpx.toNat ++ countBytes t ++ bytesOf 2 t.win ++ bytesOf 1 t.wps.length ++ chainByte t ++ bytesOf 4 0),
   (0xB8, bytesOf 72 0),
   (0x100, t.wps.reverse.flatMap wp ++ bytesOf (768 - 48 * t.wps.length) 0)]

/-- Entries encoded into their 256-byte places, with their codes (03 R61). -/
def encodeAll (s : State) : List (List (Option Word)) → List (Nat × List Byte) × State
  | [] => ([], s)
  | e :: es =>
    let (vs, s) := entryWords s e
    let (r, s) := encodeAll s es
    (encodeEntry vs :: r, s)

/-- A warp record's ranges: control area, queue, on-chip frame entries, format bytes. -/
def warpRecord (s : State) (t : Warp) : List (Nat × List Byte) × State :=
  let base := warpRec t.who.warpNo
  let ages := (List.range 16).map fun a => (List.range 32).map fun l => some (t.age l (a + 1)).val
  let n := min t.cap (t.top - t.win)
  let ents := (List.range n).map fun j => (List.range 32).map fun l => t.fword (t.win + j) l
  let (q, s) := encodeAll s ages
  let (f, s) := encodeAll s ents
  let place (off : Nat) (l : List (Nat × List Byte)) : List (Nat × List Byte) := l.zipIdx.map fun (e, i) => (base + off + i * 256, e.2)
  let codes := ((q.map Prod.fst) ++ (f.map Prod.fst)).map fun c => BitVec.ofNat 8 c
  (((controlBytes t).filter fun x => !x.2.isEmpty).map (fun x => (base + x.1, x.2)) ++ place 0x400 q ++ place 0x1400 f ++ [(base + 0x5400, codes)], s)

-- DEDUCED (log 85, unsafe): A guide that has exited has no record of its own: of its 4 KiB the exited flag alone is set.
/-- The guide record; of a guide that has exited the flag that says so, and zeros (19 R476). -/
def guideRecord (s : State) (t : Warp) (tm : Team) : List (Nat × List Byte) × State :=
  match t.live.head?.map Prod.snd with
  | none => ([(0x1000, bytesOf 290 0 ++ bytesOf 1 1 ++ bytesOf 3805 0)], s)
  | some sp =>
    let (frame, s) := entryWords s ((List.range 16).map fun i => t.fword i 0)
    ([(0x1000, bytesOf 8 sp.pc.toNat ++ ((List.range 16).flatMap fun a => bytesOf 8 (t.age 0 (a + 1)).val.toNat) ++
        (frame.flatMap fun w => bytesOf 8 w.toNat) ++ guideCounts t tm ++ bytesOf 1 sp.fb ++ bytesOf 1 sp.fs ++ bytesOf 1 0 ++ bytesOf 3805 0)], s)

/-- What a record holds of the counts of a thread that has not exited as a guide: those that a completing command changes. -/
def countRanges (t : Warp) (tm : Team) : List (Nat × List Byte) :=
  if t.who.isGuide then (if t.live.isEmpty then [] else [(0x1000 + 264, guideCounts t tm)])
  else [(warpRec t.who.warpNo + 0xA0, countBytes t), (warpRec t.who.warpNo + 0xAB, chainByte t)]

/-- A command of a saved team has left: COC, MOC, chain counts and tickets stand in the team's record as they are now (08 R232). -/
def State.recount (s : State) (c : Cmd) : State :=
  match s.team? c.ctxh with
  | none => s
  | some t =>
    match t.status with
    | .saved _ =>
      let h := t.ctxh
      let (party, s) := s.partParty h (clkJoin t.exitClk s.svcClk)
      match s.recWrites party h ((s.threadsOf h).flatMap fun w => if c.owners.contains w.who then countRanges w t else []) with
      | (false, s) => s.loseContext t.asid 0x74 h 0
      | (true, s) => s.updTeam h fun x => { x with exitClk := clkJoin x.exitClk (s.clkOf party) }
    | _ => s

-- DEDUCED (log 71, safe and in part unsafe): OPS holds the operand values in source order, and those beyond the fifth are left out.
/-- The entry of an unstarted command. -/
def cmdBytes (c : Cmd) : List Byte :=
  let who := c.issuer.warpNo + (if c.issuer.isGuide then 128 else 0) + (if c.matrix then 256 else 0)
  bytesOf 8 c.word.toNat ++ bytesOf 8 c.ctl.toNat ++ bytesOf 4 who ++ bytesOf 4 0 ++ ((c.ops ++ List.replicate 5 0).take 5).flatMap fun (w : Word) => bytesOf 8 w.toNat

/-- The unstarted commands of a team in the order of the record: copy queue first. -/
def State.unstarted (s : State) (h : Nat) : List Cmd :=
  let mine := s.cmds.filter fun c => c.ctxh == h && !c.started
  (mine.filter fun c => !c.matrix) ++ mine.filter fun c => c.matrix

/-- TDIR of a team index: its slot, with the SPILLED bit given (11 R311). -/
def tdirByte (t : Team) (i : Nat) (spilled : Bool) : Byte := BitVec.ofNat 8 (t.slot i + if spilled then 128 else 0)

/-- What the handlers in service have stored so far, performed at device scope, and what happens before the part's next access to a record. -/
def State.seeHandlers (s : State) : Clock × State :=
  let s := s.services.foldl (fun s v => s.pushLines (v.core / 16) (v.core % 16) .device) s
  let ps := (s.threads.filter fun t => t.who.isHandler).flatMap fun t => t.live.map fun x => x.2.party
  ((ps.map s.clkOf).foldl clkJoin s.svcClk, s)

-- DEDUCED (log 37, unsafe): The rewrite of TDIR comes after every store that a handler in service has made by then.
/-- The slots of a team's tiles written with the SPILLED bits that the record holds, after what every handler has released or stored and before what a
later one does (11 R314, 14 R365). -/
def State.writeTdir (s : State) (t : Team) : Bool × State :=
  if t.tiles = 0 then (true, s)
  else
    let (clk, s) := s.seeHandlers
    let (party, s) := s.partParty t.ctxh clk
    match s.recRead party t.ctxh 192 t.tiles with
    | (none, s) => (false, s)
    | (some v, s) =>
      let (ok, s) := s.recWrite party t.ctxh 192 ((List.range t.tiles).map fun i => tdirByte t i (fieldOf v (8 * i + 7) 1 == 1))
      (ok, { s with svcClk := clkJoin s.svcClk (s.clkOf party) })

/-- A tag table entry as R253 lays it out. -/
def tagWord (e : SegEnt) : Nat :=
  let b (x : Bool) (n : Nat) : Nat := if x then 2 ^ n else 0
  e.tag.toNat * 2 ^ 28 + e.st.toNat * 2 ^ 26 + b e.v 25 + b e.c 24 + b e.ut 23

/-- The tag table and the segments' bytes as a record keeps them, with NSEG in the header (11 R310, R311). -/
def State.segRecord (s : State) (t : Team) : List (Nat × List Byte) × State :=
  let tags := (0x310000, (List.range t.segs).flatMap fun i => bytesOf 8 (tagWord (t.seg i)))
  let (segs, s) := (List.range t.segs).foldl (fun (x : List (Nat × List Byte) × State) i =>
    let (bs, s) := fillBytes x.2 ((segKeys t i 0 4096).map fun k => x.2.pickAt (recordPoint k) k)
    (x.1 ++ [(0x320000 + 4096 * i, bs)], s)) ([], s)
  ((6, bytesOf 2 t.segs) :: tags :: segs, s)

/-- The ranges of a team's record beside TDIR and TSDV, with zeros where the header, the guide record and the control areas hold no field
(14 R362). TSDV is the supervisor's. -/
def State.recordRanges (s : State) (t : Team) (why : Nat) : List (Nat × List Byte) × State :=
  let (warps, s) := (s.warpsOf t.ctxh).foldl (fun (x : List (Nat × List Byte) × State) w =>
    let (r, s) := warpRecord x.2 w
    (x.1 ++ r, s)) ([], s)
  let (guide, s) := match s.thread? (.guide t.ctxh) with
    | some g => guideRecord s g t
    | none => ([(0x1000, bytesOf 4096 0)], s)
  let rest := if t.tiles = 0 then [(192, bytesOf 3904 0)] else [(192 + t.tiles, bytesOf (128 - t.tiles) 0), (336, bytesOf 3760 0)]
  let cmds := ((s.unstarted t.ctxh).zipIdx).map fun (c, i) => (0x7A8000 + 64 * i, cmdBytes c)
  ((0, headerBytes s t why 0) :: ((rest ++ guide ++ warps ++ cmds).filter fun x => !x.2.isEmpty), s)

-- DESIGN CHOICE (log 13, unsafe): A save writes the record of R310 to R312 to memory, and the team's structure is kept in State beside it; a resume reads the record, takes ABREQ from it and everything else from the kept structure.
/-- The whole record of a team written but for its segments, which stay on the core; false where an access fails (17 R418). -/
def State.writeRecord (s : State) (party : Nat) (t : Team) (why : Nat) : Bool × State :=
  match s.writeTdir t with
  | (false, s) => (false, s)
  | (true, s) =>
    let (l, s) := s.recordRanges t why
    s.recWrites party t.ctxh l

-- DEDUCED (log 37, unsafe): The segments of a saved team must be freed when a team that is placed on that core needs their room, or when their own team resumes elsewhere.
/-- The segments of a saved team written into its record and freed on the core (11 R310). -/
def State.freeSegments (s : State) (h : Nat) : State :=
  match s.team? h with
  | none => s
  | some t =>
    if !t.kept then s
    else
      let (party, s) := s.partParty h (clkJoin t.exitClk s.svcClk)
      let (l, s) := s.segRecord t
      match s.recWrites party h l with
      | (false, s) => s.loseContext t.asid 0x74 h 0
      | (true, s) => s.updTeam h fun x => { x with kept := false, exitClk := clkJoin x.exitClk (s.clkOf party) }

/-- Room for a number of segments on a core: saved teams' segments that still stand there are freed, one team after another, until they fit; those
of a team whose started commands have not completed stay. -/
def State.roomFor (s : State) (core segs : Nat) : State :=
  let here (s : State) : List Team := s.teams.filter fun t => t.kept && !t.placed && coreId t.die t.core == core
  let use (s : State) : Nat := (((s.teamsOn core) ++ here s).map Team.segs).sum
  ((here s).filter fun t => !s.hasStarted t.ctxh).foldl (fun s t => if use s + segs ≤ 1024 then s else s.freeSegments t.ctxh) s

/-! ## First placement (02 R33, R39, 08 R235, 09 R252, 11 R299, 18 R446) -/

/-- A split as it starts; what it finds made visible to it comes before every command that it will issue (10 R270). -/
def newSplit (pc : Pc) (mask : Mask) (party now : Nat) (clk : Clock) : Split :=
  { pc := pc, mask := mask, fb := 0, fs := 0, p := 0, party := party, windows := [], wait := none, waitFrom := 0, waited := 0,
    readyFrom := now, promoted := 0, soft := none, opf := clk }

/-- A thread as it starts: every queue age zero, predicates false, no waypoint. -/
def newThread (who : Who) (part role : Nat) (pc : Pc) (mask : Mask) (cap : Nat) (fpctl : BitVec 32) (party now : Nat) (clk : Clock) :
    Warp :=
  { who := who, part := part, role := role, splits := [some (newSplit pc mask party now clk), none, none, none], exited := ~~~mask,
    queue := emptyQueue, p1 := 0, p2 := 0, p3 := 0, frame := [], cap := cap, win := 0, clean := [], wps := [], fpctl := fpctl, fpx := 0,
    coc := 0, moc := 0, chC := [], chM := [], locks := 0, heldLocks := [], pend := [], mmaSeq := 0, unseen := [], done := [], barArr := [],
    cbarArr := [], fetched := [], lost := false, skid := 0 }

-- DEDUCED (log 19, safe and in part unsafe): Which free warp slot of its partition a warp takes is a free choice.
/-- A free warp slot of a partition of a core, beside those that warps which are being placed take (02 R36, R38). -/
def State.freeWarpSlot (s : State) (core part : Nat) (more : List Nat) : Nat × State :=
  let used := more ++ ((s.teamsOn core).flatMap fun t => (s.warpsOf t.ctxh).filter fun w => w.part == part).map Warp.slot
  let free := (List.range 8).filter fun i => !used.contains i
  let (i, s) := takeChoice s free.length
  (free.getD i 0, s)

/-- A thread added with a party of its own that starts with a clock. -/
def State.addThread (s : State) (who : Who) (part slot role : Nat) (pc : Pc) (mask : Mask) (cap : Nat) (fpctl : BitVec 32) (cluster now : Nat)
    (clk : Clock) : State :=
  let (party, s) := s.newParty (.user (match who with
    | .warp h _ | .guide h => h
    | .handler _ _ => 0) cluster) clk []
  { s with threads := s.threads ++ [{ newThread who part role pc mask cap fpctl party now clk with slot := slot }] }

/-- A team record at its first placement. -/
def newTeam (c : Cluster) (l : Launch) (rank slot slab die serial : Nat) (f : Fit) : Team :=
  let nw := warpNeed l.roles
  { ctxh := l.asid * 2 ^ 22 + slot, asid := l.asid, rank := rank, cluster := c.id, grid := c.grid, serial := serial, die := die,
    core := f.core % 16, tileBase := f.base, tiles := tileNeed l.roles, segs := l.segs, roles := l.roles, hasGuide := l.hasGuide,
    status := .running, stop := none, lastStop := none, progress := true, items := [], late := [], held := [],
    tags := List.replicate l.segs emptySeg, guards := List.replicate 16 .unresolved, bars := List.replicate 16 Bar.zero, brken := 0,
    barto := 0x1000000, grace := 65536, lockcap := 262144, child := 0, slab := slab, priv := l.ppool + slab * nw * l.psz, psz := l.psz,
    param := l.param, data := l.data, code := l.code, obj := l.obj, prio := l.prio, bg := l.bg, tickets := l.tickets, tickC := l.tickets,
    tickM := l.tickets, evict := none, cmdHold := 0, saving := none, haltSaved := false, wake := false, exitClk := [], failed := none }

-- DEDUCED (log 37, unsafe): see notes/assumptions/37.md.
/-- What the part writes into a record at a first placement: ABREQ of every warp, and TDIR. -/
def firstRecord (t : Team) : List (Nat × List Byte) :=
  ((List.range t.nwarp).map fun w => (abreqOff w, List.replicate 8 0)) ++
    (if t.tiles = 0 then [] else [(192, (List.range t.tiles).map fun i => tdirByte t i false)])

/-- The first record of a team written; false where an access fails. A handler that serves the team finds it (11 R311, R314). -/
def State.writeFirst (s : State) (cluster : Nat) (clk : Clock) (t : Team) : Bool × State :=
  let (party, s) := s.newParty (.user t.ctxh cluster) (clkJoin clk s.svcClk) []
  match s.recWrites party t.ctxh (firstRecord t) with
  | (true, s) => (true, { s with svcClk := clkJoin s.svcClk (s.clkOf party) })
  | (false, s) => (false, s)

/-- One team placed for the first time. -/
def State.placeTeam (s : State) (c : Cluster) (l : Launch) (clk : Clock) (rank slot slab : Nat) (f : Fit) : State :=
  let die := f.core / 16
  let t := newTeam c l rank slot slab die s.nextSerial f
  let now := s.cycles die
  let s := { s with nextSerial := s.nextSerial + 1, teams := s.teams ++ [t] }
  let s := (f.parts.zipIdx).foldl (fun s (p, w) =>
    let k := roleOf l.roles w 0
    let r := l.roles.getD k { entry := 0, warps := 0, frame := 0, tiles := 0, qtet := false }
    let (slot, s) := s.freeWarpSlot f.core p []
    s.addThread (.warp t.ctxh w) p slot k r.entry allLanes (8 * r.frame) l.fpctl c.id now clk) s
  if l.hasGuide then s.addThread (.guide t.ctxh) 0 0 0 l.gentry 1 16 0 c.id now clk else s

/-- Values taken together, rank by rank. -/
def zip3 : List Nat → List Nat → List Fit → List (Nat × Nat × Fit)
  | a :: l, b :: m, f :: n => (a, b, f) :: zip3 l m n
  | _, _, _ => []

/-- The first records of a cluster's teams written, rank by rank; the team whose record an access fails in, if one does. -/
def State.writeFirsts (s : State) (cluster : Nat) (clk : Clock) : List Team → Option Team × State
  | [] => (none, s)
  | t :: ts =>
    match s.writeFirst cluster clk t with
    | (true, s) => s.writeFirsts cluster clk ts
    | (false, s) => (some t, s)

/-- A cluster placed for the first time: all its teams at once, once the records of all of them are written (02 R39). -/
def State.placeCluster (s : State) (c : Cluster) (fits : List Fit) : State :=
  match s.grid? c.grid with
  | none => s
  | some g =>
    let l := g.launch
    match s.freeSlots l.asid l.teams, s.freeSlabs c l with
    | some slots, some slabs =>
      -- saved teams' segments make room; a context that is lost in that places nothing
      let s := fits.foldl (fun s f => s.roomFor f.core l.segs) s
      if s.refused l.asid then s else
      let places := (zip3 slots slabs fits).zipIdx
      match s.writeFirsts c.id g.clk (places.map fun (x, rank) => newTeam c l rank x.1 x.2.1 (x.2.2.core / 16) 0 x.2.2) with
      | (some t, s) => s.loseContext t.asid 0x74 t.ctxh 0
      | (none, s) =>
        let s := (s.updCluster c.id fun x => { x with status := .running, order := s.nextId, logged := false, noTurns := 0 })
        let s := { s with nextId := s.nextId + 1 }
        places.foldl (fun s (x, rank) => s.placeTeam c l g.clk rank x.1 x.2.1 x.2.2) s
    | _, _ => s

/-- CLUSTER_CLAIM: a die takes the first cluster of the ready queues that it may claim and that fits, here one that has never started. -/
def execClusterClaim (die cluster : Nat) (s : State) : Host.Outcome State Fault Refusal :=
  .next (match s.claimNext die with
    | some (c, fits) => if c.id = cluster ∧ !c.resumed then s.placeCluster c fits else s
    | none => s)

/-- CLUSTER_CLAIM_AGE: a cluster that has waited 4,096 cycles of a die becomes claimable by it. -/
def execClusterClaimAge (cluster : Nat) (s : State) : Host.Outcome State Fault Refusal :=
  let now := s.dieCycles
  .next (s.updCluster cluster fun c =>
    if c.status != .ready then c
    else { c with aged := (c.aged ++ (List.range 4).filter fun d => decide (now.getD d 0 ≥ c.since.getD d 0 + 4096)).eraseDups })

/-! ## Blocking points and wake events (02 R48, R49) -/

/-- Whether what the points of a monitor's locations hold satisfies it; a byte without a value is free. -/
def State.monTrue (s : State) (m : Monitor) : Bool :=
  let byte (l : MonLoc) (k : Nat) : Byte := ((s.pickAt l.pt k).val).getD ((Config.freeWord (s.freeCtr + k)).setWidth 8)
  let vals := m.locs.map fun l => (leNum (l.keys.map (byte l)), false)
  m.holds { vals := vals, rels := [] }

-- DEDUCED (log 20, safe): A wait that has ended is not an event of its own, but for a monitor, a lock, a yield and a limit in cycles: the split issues its instruction again, finds the condition true and goes on.
/-- Whether the event that a wait waits for has occurred. -/
def State.waitOver (s : State) (t : Warp) (k : Nat) (sp : Split) : Bool :=
  let tm := s.team? (s.ctxhOf t.who)
  match sp.wait with
  | none => true
  | some (.bar b _) => (tm.map fun tm => !barBlocked t tm.bars sp.mask b).getD true
  | some (.cbar _) => !cbarBlocked t (((tm.bind fun tm => s.cluster? tm.cluster).map Cluster.bar).getD Bar.zero) sp.mask
  | some .monitor => (s.monitors.find? fun m => m.who == t.who && m.spl == k).all s.monTrue
  | some (.lock _) => false
  | some .granted | some .aborted | some .held | some .entries => true
  | some (.engine q n) => s.engWaitOver (s.coreOf t.who) t q n
  | some (.remote id) => !t.pend.any fun p => p.id == id
  | some (.yield _ till) => decide (till ≤ s.clkFor t.who)

/-- A split at a blocking point. -/
def State.blocked (s : State) (t : Warp) (k : Nat) (sp : Split) : Bool :=
  match sp.wait with
  | some (.bar _ _) | some (.cbar _) | some .monitor | some (.lock _) | some (.engine _ _) | some (.remote _) => !s.waitOver t k sp
  | _ => false

/-- A team at a blocking point. -/
def State.atBlockingPoint (s : State) (h : Nat) : Bool :=
  (s.threadsOf h).all fun t => t.live.all fun (k, sp) => s.blocked t k sp

/-- Whether the wake event of a saved team has occurred: that of any of its waits. Any write performed at a monitored location since the save is
one (14 R361). -/
def State.wakes (s : State) (h : Nat) : Bool :=
  (s.threadsOf h).any fun t => t.live.any fun (k, sp) =>
    s.waitOver t k sp || (sp.wait == some .monitor && s.monitors.any fun m => m.who == t.who && m.spl == k && m.hit)

/-! ## Eviction and saves (11 R307, R308) -/

/-- Locks held by any warp of a team. -/
def State.holdsLock (s : State) (h : Nat) : Bool := (s.warpsOf h).any fun w => w.locks != 0

/-- Whether every warp and the guide of a team have ended (19 R476). -/
def State.allExited (s : State) (h : Nat) : Bool := (s.threadsOf h).all fun t => t.lost || (t.live.isEmpty && t.wps.isEmpty)

/-- An eviction request for every running team of a cluster. -/
def State.evictCluster (s : State) (cl : Nat) : State :=
  { s with teams := s.teams.map fun (t : Team) =>
      if t.cluster == cl && t.placed && t.evict.isNone then { t with evict := some (s.cycles t.die) } else t }

/-- Cycles since a team's eviction request. -/
def State.evictAge (s : State) (t : Team) : Option Nat := t.evict.map fun c => s.cycles t.die - c

/-- Whether evictions take place: none with PHASE 0xF (20 R485). -/
def State.evicts (s : State) : Bool := s.plat.phase != .failed

/-- GRACE_EXPIRY: a team with no lock held has its further engine commands held. -/
def execGraceExpiry (ctxh : Nat) (s : State) : Host.Outcome State Fault Refusal :=
  .next (match s.team? ctxh with
    | some t =>
      if s.evicts && (s.evictAge t).any (fun a => decide (a ≥ t.grace.toNat)) && !s.holdsLock ctxh && t.cmdHold == 0 then
        s.updTeam ctxh fun t => { t with cmdHold := 2 }
      else s
    | none => s)

/-- LOCKCAP_EXPIRY: the same while locks are held, also with one taken since GRACE. A team that holds none is saved by GRACE. -/
def execLockcapExpiry (ctxh : Nat) (s : State) : Host.Outcome State Fault Refusal :=
  .next (match s.team? ctxh with
    | some t =>
      if s.evicts && (s.evictAge t).any (fun a => decide (a ≥ t.grace.toNat + t.lockcap.toNat)) &&
          t.cmdHold != 3 && s.holdsLock ctxh then
        s.updTeam ctxh fun t => { t with cmdHold := 3 }
      else s
    | none => s)

/-- The STATE under which a team can be saved now, if it can. A stopped or served team is saved after its service (15 R375); a lock taken since GRACE
defers the save (R307). -/
def State.saveWhy (s : State) (t : Team) : Option Nat :=
  if t.evict.isNone || s.allExited t.ctxh || !s.evicts then none
  else match t.status with
    | .running | .halted =>
      if t.saving.isSome then t.saving
      else if s.atBlockingPoint t.ctxh && !s.holdsLock t.ctxh then some 1
      else if (t.cmdHold == 3 || (t.cmdHold == 2 && !s.holdsLock t.ctxh)) && !s.hasStarted t.ctxh then some t.cmdHold
      else none
    | _ => none

/-- Every split of a team performs a release at device scope (11 R308). -/
def State.releaseAll (s : State) (t : Team) : State :=
  (s.threadsOf t.ctxh).foldl (fun s w => w.live.foldl (fun s x => s.relFence x.2.party .device) s) (s.pushLines t.die t.core .device)

/-- A command that hands a segment over. -/
def EngOp.hands (op : EngOp) : Option (Nat × Bool) :=
  match op with
  | .spmove seg _ _ => some (seg, true)
  | .spshare seg _ _ => some (seg, false)
  | _ => none

/-- The source of a hand-over that is resumed unstarted is in transit again. -/
def State.takeSource (s : State) (c : Cmd) : State :=
  match c.op.hands with
  | some (seg, move) => s.updSeg c.ctxh seg fun e => { e with st := 3, v := if move then false else e.v }
  | none => s

-- DESIGN CHOICE (log 13, unsafe): see notes/assumptions/13.md.
/-- The save of a team, whose segments stay on the core until they must be freed. No entry of it is in transit while it is saved: a hand-over in
flight has completed, and the source of an unstarted one is what it was before (09 R256). -/
def State.saveTeam (s : State) (t : Team) (why : Nat) : State :=
  let h := t.ctxh
  let s := (s.releaseAll t).pauseWaits h
  let (party, s) := s.partParty h (clkJoin (s.teamClk h) s.svcClk)
  let gone := s.unstarted h
  let s := (gone.filter fun c => c.op.hands.isSome).foldl State.restoreSource s
  match s.writeRecord party ((s.team? h).getD t) why with
  | (false, s) => s.loseContext t.asid 0x74 h 0
  | (true, s) =>
    let s := { s with monitors := s.monitors.map fun (m : Monitor) => if s.ctxhOf m.who == h then { m with hit := false } else m }
    let s := { s with savedCmds := s.savedCmds ++ gone, cmds := s.cmds.filter fun c => !(c.ctxh == h && !c.started) }
    let clk := s.clkOf party
    let s := s.updTeam h fun x => { x with
      status := .saved why, evict := none, cmdHold := 0, saving := none, haltSaved := x.status == .halted, wake := false, kept := x.segs != 0
      exitClk := clkJoin x.exitClk clk }
    s.readySaved t.cluster

/-- TEAM_SAVE: a team that can be saved stops issuing, and is saved once every reserved entry has been filled; on a die that relocks or whose core clock
stands nothing is saved (12 R337, 20 R496). -/
def execTeamSave (ctxh : Nat) (s : State) : Host.Outcome State Fault Refusal :=
  .next (match s.team? ctxh with
    | none => s
    | some t =>
      match (if s.stalled t.die then none else s.saveWhy t) with
      | none => s
      | some why =>
        if ((s.threadsOf ctxh).all fun w => w.pend.isEmpty) && !(s.cmds.any fun c => c.ctxh == ctxh && c.started && c.op.hands.isSome) then
          s.saveTeam t why
        else s.updTeam ctxh fun t => { t with saving := some why })

/-- TEAM_WAKE: the wake event of a saved team has occurred. -/
def execTeamWake (ctxh : Nat) (s : State) : Host.Outcome State Fault Refusal :=
  .next (match s.team? ctxh with
    | some t =>
      match t.status with
      | .saved _ =>
        if !t.wake && s.wakes ctxh then (s.updTeam ctxh fun t => { t with wake := true }).readySaved t.cluster else s
      | _ => s
    | none => s)

/-! ## Resumes (11 R308, R309, 18 R438, R447, 19 R469) -/

/-- The edges of a team moved into the table of a die; one that finds no entry is dropped and counted. -/
def State.moveEdges (s : State) (h die : Nat) : State :=
  (s.edges.filter fun e => e.ctxh == h && e.die != die).foldl (fun s e =>
    let s := { s with edges := s.edges.filter fun x => x != e }
    match s.freeEdge die with
    | some i => { s with edges := { e with die := die, idx := i } :: s.edges }
    | none => s.countOvf die) s

/-- The ranges of a record as pairs of offset and length that a resume reads: all that a save writes, and the segments if they have been freed. -/
def State.resumeRanges (s : State) (t : Team) : List (Nat × Nat) :=
  let (l, s1) := s.recordRanges t 1
  let tdir := if t.tiles = 0 then [] else [(192, t.tiles)]
  let cmds := (s.savedCmds.filter fun c => c.ctxh == t.ctxh).length
  let cmds := if cmds = 0 then [] else [(0x7A8000, 64 * cmds)]
  (tdir ++ cmds ++ l.map (fun x => (x.1, x.2.length))) ++ if t.kept then [] else ((s1.segRecord t).1.map fun x => (x.1, x.2.length)).filter fun x => x.2 != 0

/-- Whether the ranges of a record can be read, and hold no poison (17 R418, R436). -/
def State.recReadable (s : State) (party h : Nat) : List (Nat × Nat) → Bool × State
  | [] => (true, s)
  | x :: l => match s.recKeys party h x.1 x.2 false with
    | (none, s) => (false, s)
    | (some ks, s) => if ks.any s.poisonedKey then (false, s) else s.recReadable party h l

/-- One team resumed on a core, once its record has been read. Its segments stay where they are on the core that it was saved from, and are freed and
read back elsewhere (11 R310). -/
def State.resumeOn (s : State) (h : Nat) (f : Fit) : State :=
  let die := f.core / 16
  let core := f.core % 16
  let moved := ((s.team? h).map fun t => coreId t.die t.core != f.core).getD false
  let s := if moved then s.freeSegments h else s
  match (s.team? h).map fun t => if t.kept then s else s.roomFor f.core t.segs with
  | none => s
  | some s =>
  match (s.team? h).filter fun t => !t.placed with
  | none => s
  | some t =>
  let (party, s) := s.partParty h (clkJoin t.exitClk s.svcClk)
  match s.recReadable party h (s.resumeRanges t) with
  | (false, s) => s.loseContext t.asid 0x74 h 0
  | (true, s) =>
  let s := s.updTeam h fun t => { t with
    die := die, core := core, tileBase := f.base, wake := false, saving := none, cmdHold := 0, evict := none, kept := false }
  let (_, s) := (f.parts.zipIdx).foldl (fun (x : List (Nat × Nat) × State) (p, w) =>
    let (slot, s) := x.2.freeWarpSlot f.core p ((x.1.filter fun y => y.1 == p).map Prod.snd)
    ((p, slot) :: x.1, s.updThread (.warp h w) fun t => { t with part := p, slot := slot })) ([], s)
  let s := s.moveEdges h die
  let mine := (s.savedCmds.filter fun c => c.ctxh == h).map fun c => { c with core := f.core, held := false, accepted := s.nextId }
  let s := { s with nextId := s.nextId + 1, cmds := s.cmds ++ mine, savedCmds := s.savedCmds.filter fun c => c.ctxh != h }
  let s := mine.foldl State.takeSource s
  let s := (s.threadsOf h).foldl (fun s w => w.live.foldl (fun s x => s.acqFence x.2.party .device) s) s
  ((s.dropLines die core .device).applyAbreq h s.svcClk).restart h true

/-- The live saved teams of a cluster. -/
def State.savedTeams (s : State) (cl : Nat) : List Team :=
  (s.teamsOf cl).filter fun t => match t.status with
    | .saved _ => true
    | _ => false

/-- CLUSTER_RESUME: a ready saved cluster is resumed whole on cores of one die. -/
def execClusterResume (die cluster : Nat) (s : State) : Host.Outcome State Fault Refusal :=
  .next (match s.claimNext die with
    | some (c, fits) =>
      if c.id = cluster ∧ c.resumed then
        let s := s.updCluster c.id fun x => { x with status := .running, order := s.nextId, logged := false, noTurns := 0 }
        let s := { s with nextId := s.nextId + 1 }
        ((s.savedTeams c.id).zip fits).foldl (fun s (t, f) => s.resumeOn t.ctxh f) s
      else s
    | none => s)

/-- The package with no team placed: what a cluster could fit at all (19 R475). -/
def State.emptied (s : State) (c : Cluster) : State :=
  { s with teams := s.teams.filter fun t => t.cluster == c.id && !t.placed, cmds := [] }

/-- Whether no compute die has cores that fit a cluster. -/
def State.noCore (s : State) (c : Cluster) : Bool :=
  match s.launchOfCluster c with
  | none => false
  | some l =>
    let e := s.emptied c
    let slice := (affinity l.afn.toNat c.cx c.cy c.cz).2
    (List.range 4).all fun d => ((e.ranksOf c l).bind fun rs => e.fitDie l d slice [] rs).isNone

-- DEDUCED (log 40, unsafe): It has no CTXH of its own yet; the event carries ASID x 2^22, and after 16 further turns its grid fails with that handle.
/-- NOCORE: reported once with the CTXH of each team, and after 16 further turns its teams are killed. -/
def execNocore (cluster : Nat) (s : State) : Host.Outcome State Fault Refusal :=
  .next (match s.waiting.find? fun c => c.id == cluster with
    | none => s
    | some c =>
      if !s.noCore c then s
      else
        let ts := (s.teamsOf cluster).filter fun t => t.status != .retiring
        let asid := ((s.launchOfCluster c).map Launch.asid).getD 0
        let hs := if ts.isEmpty then [asid * 2 ^ 22] else ts.map Team.ctxh
        if !c.logged then
          (hs.foldl (fun s h => s.logEvent 0x63 0 0xFFFF h 0) s).updCluster cluster fun c => { c with logged := true, noTurns := 0 }
        else if c.noTurns < 16 then s
        else if ts.isEmpty then
          let s := (s.failGrid c.grid 0x63 (asid * 2 ^ 22)).updCluster cluster fun c => { c with status := .done }
          s.updGrid c.grid fun g => { g with left := g.left - 1, done := g.left == 1 }
        else ts.foldl (fun s t => s.killTeam t.ctxh 0x63) s)

/-! ## Priority (11 R307, 18 R461) -/

/-- Whether removing a running cluster lets a waiting one fit its die; the victim's saved teams keep their save slots and slabs. -/
def State.removalFits (s : State) (c victim : Cluster) : Bool :=
  let s' := { s with teams := s.teams.map fun (t : Team) => if t.cluster == victim.id && t.placed then { t with status := .saved 1 } else t }
  match (s.teamsOf victim.id).find? Team.placed with
  | some t => (s'.fitCluster c t.die).isSome
  | none => false

/-- Whether every team of a cluster waits at a blocking point. -/
def State.allBlocked (s : State) (v : Cluster) : Bool := (s.teamsOf v.id).all fun t => s.atBlockingPoint t.ctxh

/-- The running clusters that a waiting cluster may displace: those of a lower team priority than its own (11 R307), and those that are blocked as
a whole and whose effective priority is no higher than its own (18 R461). -/
def State.victims (s : State) (c : Cluster) : List Cluster :=
  let prio (x : Cluster) : Nat := ((s.launchOfCluster x).map Launch.prio).getD 0
  s.clusters.filter fun v => v.status == .running && (decide (prio v < prio c) || (s.allBlocked v && decide (s.clusterPrio v ≤ s.clusterPrio c))) &&
    s.removalFits c v

-- DEDUCED (log 64, safe and in part unsafe): a cluster has waited 4,096 cycles when it has done so in the cycles of every compute die.
/-- PRIORITY_EVICTION: a cluster that has waited 4,096 cycles and fits on no die displaces the running cluster of lowest priority whose
removal lets it fit, among equals the one placed last. -/
def execPriorityEviction (cluster : Nat) (s : State) : Host.Outcome State Fault Refusal :=
  .next (match s.waiting.find? fun c => c.id == cluster with
    | none => s
    | some c =>
      let prio (x : Cluster) : Nat := ((s.launchOfCluster x).map Launch.prio).getD 0
      let waited := (List.range 4).all fun d => decide (s.cycles d ≥ c.since.getD d 0 + 4096)
      if s.plat.phase != .ready || s.plat.fwsw || !waited || (List.range 4).any (fun d => (s.fitCluster c d).isSome) then s
      else
        match sortBy (fun a b => decide (prio a < prio b) || (prio a == prio b && decide (a.order ≥ b.order))) (s.victims c) with
        | v :: _ => s.evictCluster v.id
        | [] => s)

/-! ## Turns (11 R298) -/

def RunEnt.ticks (e : RunEnt) : Nat := (if e.quant = 0 then 2000 else e.quant) * 1000

-- DEDUCED (log 73, unsafe): A RUNLIST_SET that completes while a switch is under way takes effect at that switch.
/-- The entry that runs after the present one, with the list then in force: a new list starts with its entry 0. -/
def State.nextTurn (s : State) : Option (List RunEnt × Nat × RunEnt) :=
  let l := s.plat.nextList.getD s.plat.runList
  let i := match s.plat.nextList with
    | some _ => 0
    | none => if l.isEmpty then 0 else (s.plat.turn + 1) % l.length
  (l[i]?).map fun e => (l, i, e)

/-- Running teams of a process, or services of them. -/
def State.active (s : State) (asid : Nat) : Bool := s.teams.any fun t => t.asid == asid && t.placed

/-- A turn begins: its process's clusters that found no core count it (19 R475). -/
def State.beginTurn (s : State) (l : List RunEnt) (i : Nat) (e : RunEnt) : State :=
  { s with
    plat := { s.plat with runList := l, nextList := none, turn := i, switching := false, quantEnd := s.ref + e.ticks }
    clusters := s.clusters.map fun (c : Cluster) =>
      if c.logged && (s.launchOfCluster c).map Launch.asid == some e.asid then { c with noTurns := c.noTurns + 1 } else c }

/-- The list in force taken, with no process to run. -/
def State.endTurns (s : State) : State := { s with plat := { s.plat with runList := [], nextList := none, turn := 0, switching := false } }

/-- QUANTUM_END: the process keeps running when the next entry names it; otherwise its clusters are evicted, and once none runs and no
service of them is left the next process's queues are mapped, if the list then in force has one. -/
def execQuantumEnd (s : State) : Host.Outcome State Fault Refusal :=
  .next (
    if s.plat.phase != .ready || s.plat.fwsw then s
    else
      match s.plat.runList[s.plat.turn]?, s.nextTurn with
      | none, some (l, i, e) => s.beginTurn l i e
      | none, none => if s.plat.nextList.isSome then s.endTurns else s
      | some cur, next =>
        if !s.plat.switching && decide (s.ref < s.plat.quantEnd) then s
        else if (next.map fun x => x.2.2.asid) == some cur.asid then
          match next with
          | some (l, i, e) => s.beginTurn l i e
          | none => s
        else if !s.plat.switching then
          let s := { s with plat := { s.plat with switching := true } }
          (s.clusters.filter fun c => c.status == .running && (s.launchOfCluster c).map Launch.asid == some cur.asid).foldl
            (fun s c => s.evictCluster c.id) s
        else if s.active cur.asid then s
        else match next with
          | some (l, i, e) => s.beginTurn l i e
          | none => s.endTurns)

end Sys2Proof.Machine
end

