-- ==== Sys2Proof/Machine/Events.lean ====
section
/-!
DEFINITION. The part's own events: values that arrive (03 R73), the dispatch and the end of handler services (15 R372, R377, R383, R384),
limits in cycles (02 R48, 11 R305, 18 R452 to R454), monitors and caches (07 R197, 09 R250, R258, R260), engine commands (08 R204), and the
exit of teams (07 R168, 19 R471).
-/
namespace Sys2Proof.Machine

/-- What happens on a compute die, unless it relocks or its core clock stands (12 R337, 20 R496). -/
def State.whileRuns (s : State) (die : Nat) (after : State) : State := if s.stalled die then s else after

/-! ## Values that arrive (03 R73, 10 R272, 17 R427) -/

/-- The lanes whose accesses are performed together with those of a mask: lanes of an atomic that name one location execute as one
request (07 R190). -/
def performedWith (r : MemReq) (lanes : Mask) : Mask :=
  let mine := r.acc.filter fun a => lanes.getLsbD a.lane
  maskOf ((if r.op.isAtomic then r.acc.filter fun a => mine.any fun b => b.keys == a.keys else mine).map LaneAcc.lane)

/-- The parties of the splits, and of the groups parked in waypoints, that descend from a reservation's issuer (10 R272). -/
def Warp.heirs (t : Warp) (p : Pend) : List Nat :=
  ((t.live.filter fun x => x.1 == p.spl || x.2.windows.any fun w => w.1 == p.id).map fun x => x.2.party) ++
    (t.wps.filter fun w => w.parked != 0 && w.parkedWin.any fun x => x.1 == p.id).map Waypoint.parkedBy

/-- A read that a party has performed stands, with its acquire, before what the splits that descend from its issuer by divergence do (10 R272). -/
def State.shareRead (s : State) (t : Warp) (p : Pend) (r : MemReq) (before : Party) : State :=
  match s.party? r.party with
  | none => s
  | some after =>
    let acq := after.acqP.take (after.acqP.length - before.acqP.length)
    ((t.heirs p).eraseDups.filter (· != r.party)).foldl (fun s x =>
      let s := s.updParty x fun q => { q with acqP := acq ++ q.acqP }
      if isAcq r.ord then s.acquire x r.scope acq else s) s

/-- Whether an earlier atomic of the thread on one of some locations has not been performed (10 R272, R277). -/
def Warp.atomicBefore (t : Warp) (p : Pend) (r : MemReq) (keys : List Nat) : Bool :=
  t.pend.any fun q => decide (q.id < p.id) && q.openAtomic r.clk keys

/-- Whether some scratchpad locations lie in a segment in transit, whose writes wait for it to settle (17 R425). -/
def State.keysTransit (s : State) (keys : List Nat) : Bool :=
  keys.any fun k => isSpKey k && s.teams.any fun t => t.serial == (k - 2 ^ 62) / 2 ^ 22 && s.segTransit t.ctxh (k % 2 ^ 22 / segBytes)

/-- Some lanes of a memory request performed and filled. -/
def State.arriveMem (s : State) (t : Warp) (p : Pend) (r : MemReq) (lanes : Mask) : State :=
  let die := s.dieOf t.who
  let ready (a : LaneAcc) : Bool := a.keys.all (s.reaches die r.op.isAtomic) && !t.atomicBefore p r a.keys &&
    !(r.op.isAtomic && s.keysTransit a.keys)
  let lanes := performedWith r (lanes &&& p.lanes &&& maskOf ((r.acc.filter ready).map LaneAcc.lane))
  if lanes == 0 then s
  else
    let who := t.who
    let (die, core) := s.placeOfWho who
    let before := s.party? r.party
    let (o, s) := s.perform die core (s.ctxhOf who) r lanes
    let s := match before with
      | some b => s.shareRead t p r b
      | none => s
    -- what these lanes have read from counts for the acquire that the last lane performs (17 R419)
    let got := match before, s.party? r.party with
      | some b, some a => a.acqP.take (a.acqP.length - b.acqP.length)
      | _, _ => []
    let left := { r with acc := r.acc.filter fun a => !lanes.getLsbD a.lane, rels := if r.late then got ++ r.rels else r.rels }
    let s := s.updThread who fun t =>
      ({ t with pend := t.pend.map fun (q : Pend) => if q.id == p.id then { q with kind := .mem left } else q }).fillPend p.id o.vals o.poison
    s.reqTraps who p.spl p.pc p.word p.later r o

/-- The greatest value that CLKS has held and that is no greater than a number: it advances by INC, which is more than one below the nominal
frequency (12 R336, R337). -/
def Die.clksHeld (d : Die) (n : Nat) : Nat :=
  match d.clksAt.find? fun x => decide (x.1 / 2 ^ 16 ≤ n) with
  | some (v, inc) => (v + ((n + 1) * 2 ^ 16 - 1 - v) / inc * inc) / 2 ^ 16
  | none => n

/-- A counter sampled at an instant between its issue and now, in the order of the split's reads of it (06 R138). -/
def State.arriveCounter (s : State) (who : Who) (p : Pend) (v : SysVal) (lo : Nat) (hi : Option Nat) : State :=
  let now := s.counterNow who v
  let (i, s) := takeChoice s (min (hi.getD now) now - lo + 1)
  let n := if v == .clks then ((s.die? (s.dieOf who)).map fun d => d.clksHeld (lo + i)).getD lo else lo + i
  s.updThread who fun t =>
    ({ t with pend := t.pend.map fun (q : Pend) =>
        match q.kind with
        | .counter w l h =>
          if w != v || q.spl != p.spl then q
          else if p.id < q.id then { q with kind := .counter w (max l n) h }
          else { q with kind := .counter w l (some (min (h.getD n) n)) }
        | _ => q }).fillPend p.id ((lanesOf p.lanes).map fun l => (l, [wordOf n])) []

/-- Values of a reservation that were computed at issue; the flags of an instruction are raised when its last value has arrived (04 R85,
R87). -/
def State.arriveValue (s : State) (who : Who) (p : Pend) (vals : List (Nat × List Word)) (flags : List (Nat × BitVec 5)) (bad : List Nat)
    (lanes : Mask) : State :=
  let here := lanes &&& p.lanes
  let raised := p.raised ++ flags.filter fun f => here.getLsbD f.1
  let s := s.updThread who fun t =>
    ({ t with pend := t.pend.map fun (q : Pend) => if q.id == p.id then { q with raised := raised } else q }).fillPend p.id
      (vals.filter fun v => here.getLsbD v.1) bad
  if p.lanes &&& ~~~here == 0 then s.raiseFlags who p.spl p.pc p.word p.later raised else s

/-- The acquire of a granted `acq`, performed before its status arrives (07 R198). -/
def State.arriveAcquired (s : State) (t : Warp) (p : Pend) (sc : Scope) (clk : Clock) : State :=
  let (die, core) := s.placeOfWho t.who
  let s := (t.heirs p).foldl (fun s x => s.joinClk x clk) s
  (s.dropLines die core sc).updThread t.who fun t => t.fillPend p.id ((lanesOf p.lanes).map fun l => (l, [0])) []

-- DEDUCED (log 5, safe): see notes/assumptions/5.md.
/-- LONG_LATENCY_VALUE_ARRIVAL: values of a reservation arrive in some lanes. A counter and a lock's status arrive in all of them. -/
def execLongLatencyValueArrival (who : Who) (id : Nat) (lanes : Mask) (s : State) : Host.Outcome State Fault Refusal :=
  .next (match s.thread? who with
    | none => s
    | some t =>
      match (if s.stalled (s.dieOf who) then none else t.pend.find? fun p => p.id == id) with
      | none => s
      | some p =>
        match p.kind with
        | .mem r => s.arriveMem t p r lanes
        | .value vals flags bad => s.arriveValue who p vals flags bad lanes
        | .counter v lo hi => s.arriveCounter who p v lo hi
        | .acquired sc clk => s.arriveAcquired t p sc clk)

/-! ## The record of a barrier that has reached its limit (18 R453, R454) -/

/-- A missing entry of the record: the split or parked group of a warp with the lanes that have not arrived. -/
structure Missing where
  team : Nat
  spl : Nat
  warp : Nat
  pc : Pc
  parked : Bool
  kind : Option Nat
  mask : Mask
  deriving DecidableEq, Repr

/-- The missing entries of a warp, whose arrived lanes are given. -/
def State.missingOf (s : State) (tm : Team) (t : Warp) (arrived : Mask) : List Missing :=
  let w := t.who.warpNo
  let edge (k : Nat) : Option Nat := (s.edges.find? fun e => e.ctxh == tm.ctxh && e.warp == w && e.spl == k).map Edge.kind
  (t.live.map fun (k, sp) => { team := tm.rank, spl := k, warp := w, pc := sp.pc, parked := false, kind := edge k, mask := sp.mask &&& ~~~arrived }) ++
    (t.wps.filter fun x => x.parked != 0).map fun x =>
      { team := tm.rank, spl := 0, warp := w, pc := x.parkedPc, parked := true, kind := none, mask := x.parked &&& ~~~arrived }

/-- The missing entries of a team at a barrier; `key` numbers a warp's arrivals there. -/
def State.missingIn (s : State) (tm : Team) (b : Bar) (key : Nat → Nat) : List Missing :=
  ((s.warpsOf tm.ctxh).filter fun t => t.alive != 0 && !b.has (key t.who.warpNo) t.alive).flatMap fun t =>
    s.missingOf tm t (((b.arrived.find? fun a => a.1 == key t.who.warpNo).map Prod.snd).getD 0)

def Missing.words (m : Missing) : List Word :=
  let b (x : Bool) (n : Nat) : Nat := if x then 2 ^ n else 0
  [wordOf (2 ^ 63 + m.team % 8 * 2 ^ 60 + m.spl * 2 ^ 58 + m.warp * 2 ^ 51 + m.pc.toNat),
   wordOf (b m.parked 39 + b m.kind.isSome 38 + m.kind.getD 0 * 2 ^ 35 + m.mask.toNat)]

/-- TDETAIL of cause 0x31 and its words 16 to 47: generation, arrived, expected and missing entries at a barrier. -/
def State.bartoRecord (s : State) (tm : Team) (bid : Option Nat) : Nat × List Word :=
  match bid with
  | some i =>
    let b := tm.bars.getD i Bar.zero
    let alive := s.aliveWarps tm.ctxh
    let ms := s.missingIn tm b fun w => w
    let arr := s.barArrived tm.ctxh b
    let exp := if b.expect = 0 then alive.length else b.expect
    (b.gen % 2 ^ 32 * 2 ^ 32 + arr % 256 * 2 ^ 24 + exp % 256 * 2 ^ 16 + min 255 ms.length * 2 ^ 8 + i, (ms.take 16).flatMap Missing.words)
  | none =>
    match s.cluster? tm.cluster with
    | none => (2 ^ 4, [])
    | some c =>
      let ts := s.teamsOf tm.cluster
      let ms := (ts.filter fun t => !s.teamArrived c t).flatMap fun t => s.missingIn t c.bar fun w => t.rank * 128 + w
      let arr := (ts.filter (s.teamArrived c)).length + (c.exited.filter fun r => !ts.any fun t => t.rank == r).length
      (c.bar.gen % 2 ^ 32 * 2 ^ 32 + arr % 256 * 2 ^ 24 + s.nteam tm % 256 * 2 ^ 16 + min 255 ms.length * 2 ^ 8 + 2 ^ 4,
       (ms.take 16).flatMap Missing.words)

-- DEDUCED (log 44, unsafe): Of a generation that has completed before the stop has, every party counts as arrived.
/-- The record as it is written when the stop is complete: the missing entries of cause 0x31 are those that then stand, with the PCs and masks of the
team's own splits at its stop (18 R454). -/
def State.recordNow (s : State) (t : Team) (r : StopRec) : StopRec :=
  if r.cause != 0x31 then r
  else
    let d := r.tdetail.toNat
    let bid : Option Nat := if fieldOf d 4 1 = 1 then none else some (fieldOf d 0 4)
    let gen := match bid with
      | some b => (t.bars.getD b Bar.zero).gen
      | none => ((s.cluster? t.cluster).map fun c => c.bar.gen).getD 0
    let (d, ws) := if gen % 2 ^ 32 = fieldOf d 32 32 then s.bartoRecord t bid
      else (fieldOf d 32 32 * 2 ^ 32 + fieldOf d 16 8 * (2 ^ 24 + 2 ^ 16) + fieldOf d 0 5, [])
    { r with tdetail := wordOf d, words := ws }

/-! ## Handler services (15 R372, R377, R378, R383, R384) -/

/-- Whether a reservation still waits for something but lanes that are held for replay. -/
def Pend.outstanding (p : Pend) : Bool :=
  match p.kind with
  | .mem r => r.acc.any fun a => p.lanes.getLsbD a.lane
  | _ => true

/-- Whether a stop is complete: no entry of the team is pending, but for the lanes held for replay. -/
def State.stopDone (s : State) (h : Nat) : Bool := (s.threadsOf h).all fun t => !t.pend.any Pend.outstanding

/-- The stop of a team completed: its item list is written and performed at device scope, its record is fixed, and but for a supervisor's
halt it is queued for the handler. -/
def State.completeStop (s : State) (t : Team) (r : StopRec) : State :=
  let h := t.ctxh
  let (party, s) := s.partParty h []
  match s.listItems party h 0 t.items with
  | (false, s) => s.loseContext t.asid 0x74 h 0
  | (true, s) =>
    let clk := s.clkOf party
    -- a team that stops again with the same record keeps its words (15 R385)
    let snap := if r.snap.isEmpty then s.snapTeam h r else r.snap
    let halted := r.cause == 0x61
    let r := s.recordNow t r
    let s := s.updTeam h fun t => { t with
      status := if halted then .halted else .stopped, stop := some { r with snap := snap }, exitClk := clkJoin t.exitClk clk, progress := false }
    { s with freeCtr := s.freeCtr + 129, handlerQ := if halted then s.handlerQ else s.handlerQ ++ [h] }

/-- The handler slot that a stopped team is queued for: core and partition. -/
def State.slotFor (s : State) (h : Nat) : Option (Nat × Nat) :=
  match s.team? h with
  | none => none
  | some t => t.stop.map fun r =>
    (coreId t.die t.core, if r.guide then 0 else ((s.thread? (.warp h r.warp)).map Warp.part).getD 0)

-- DEDUCED (log 60, safe and in part unsafe): What happens before a handler's first instruction is the item list's writes, what the team had released, and what every handler has released at its tret.
/-- A service begins: one warp of 32 lanes at the supervisor entry, and the team is served. -/
def State.startService (s : State) (t : Team) (r : StopRec) (core part : Nat) : State :=
  let now := s.cycles t.die
  let clk := clkJoin t.exitClk s.svcClk
  let (party, s) := s.newParty (.user t.ctxh t.cluster) clk []
  let v : Service := { core := core, part := part, ctxh := t.ctxh, hwsel := if r.guide then 0 else BitVec.ofNat 7 r.warp, start := now }
  ({ s with
    services := s.services ++ [v]
    handlerQ := s.handlerQ.filter fun x => x != t.ctxh
    threads := s.threads ++ [newThread (.handler core part) part 0 s.svEntry allLanes 16 0 party now clk] }).updTeam t.ctxh fun t =>
      { t with status := .served }

/-- The service of a stopped team, once its slot is free and it is the first of those that wait for it. -/
def State.tryService (s : State) (h : Nat) : State :=
  match s.team? h, s.slotFor h with
  | some t, some (core, part) =>
    let busy := s.services.any fun v => v.core == core && v.part == part
    let first := (s.handlerQ.find? fun x => s.slotFor x == some (core, part)) == some h
    match t.status, t.stop with
    | .stopped, some r => if busy || !first then s else s.startService t r core part
    | _, _ => s
  | _, _ => s

/-- HANDLER_DISPATCH: a stopping team whose entries have all been filled is recorded, and a recorded one is served when its slot is free. -/
def execHandlerDispatch (ctxh : Nat) (s : State) : Host.Outcome State Fault Refusal :=
  .next (match s.team? ctxh with
    | none => s
    | some t => s.whileRuns t.die (
      match t.status, t.stop with
      | .stopping, some r => if s.stopDone ctxh then (s.completeStop t r).tryService ctxh else s
      | .stopped, _ => s.tryService ctxh
      | _, _ => s))

/-- HANDLER_TIMEOUT: a service that has not ended after 2^26 cycles ends as cause 0x65. -/
def execHandlerTimeout (core part : Nat) (s : State) : Host.Outcome State Fault Refusal :=
  .next (s.whileRuns (core / 16) (match s.services.find? fun v => v.core == core && v.part == part with
    | none => s
    | some v =>
      if s.cycles (core / 16) ≥ v.start + 2 ^ 26 then (s.endService core part).loseContext (v.ctxh / 2 ^ 22) 0x65 v.ctxh 0 else s))

/-! ## Barriers that reach their limit (18 R452 to R454) -/

/-- The barrier that a wait names: none for the cluster barrier. -/
def barOfWait : Option Wait → Option (Option Nat)
  | some (.bar b _) => some (some b)
  | some (.cbar _) => some none
  | _ => none

/-- Cycles that a split's barrier wait has counted; a stop begun in this very cycle does not hide them. -/
def State.barCount (s : State) (tm : Team) (sp : Split) : Option Nat :=
  match barOfWait sp.wait with
  | none => none
  | some _ =>
    let now := s.cycles tm.die
    match tm.status with
    | .running => some (sp.waited + (now - sp.waitFrom))
    | .stopping => if now == sp.waitFrom then some sp.waited else none
    | _ => none

-- DEDUCED (log 44, unsafe): Of several waits that have reached BARTO the lowest warp and split times out first.
/-- The waits of a team that have reached BARTO, by ascending warp and split index (15 R373). -/
def State.barsDue (s : State) (tm : Team) : List (Nat × Nat) :=
  (sortBy (fun a b => decide (a.who.warpNo ≤ b.who.warpNo)) (s.warpsOf tm.ctxh)).flatMap fun t => (t.live.filter fun x =>
    !s.waitOver t x.1 x.2 && ((s.barCount tm x.2).map fun n => decide (n ≥ tm.barto.toNat)).getD false).map fun x => (t.who.warpNo, x.1)

-- DEDUCED (log 44, unsafe): see notes/assumptions/44.md.
/-- BARRIER_TIMEOUT: the lowest wait of its team that has reached BARTO raises cause 0x31. Its edge goes and its count restarts; the arrival of
a meet stands. -/
def execBarrierTimeout (ctxh w k : Nat) (s : State) : Host.Outcome State Fault Refusal :=
  let who : Who := .warp ctxh w
  .next (match s.team? ctxh, (s.thread? who).bind fun t => t.split? k with
    | some tm, some sp =>
      match barOfWait sp.wait with
      | some bid =>
        if s.stalled tm.die || (s.barsDue tm).head? != some (w, k) then s
        else
          let rec_ := s.bartoRecord tm bid
          let again : Bool := match sp.wait with
            | some (.bar _ m) | some (.cbar m) => !m
            | _ => false
          let now := s.cycles tm.die
          let word := s.wordAt who tm sp.party sp.pc
          let s := (s.dropEdges who k false).updSplit who k fun sp =>
            { sp with waited := 0, waitFrom := now, wait := if again then none else sp.wait }
          s.raise who k { cause := 0x31, prec := true, tpc := sp.pc, word := word, lanes := sp.mask, addr := 0, detail := rec_.1, words := rec_.2 } none
      | none => s
    | _, _ => s)

/-! ## Limits in cycles (02 R48, R50, 06 R170, 11 R305) -/

/-- Whether a reservation is a load whose home does not stand beside a compute die. -/
def Pend.remote (p : Pend) (die : Nat) : Bool :=
  match p.kind with
  | .mem r => !r.op.isAtomic && (r.acc.any fun a => p.lanes.getLsbD a.lane && a.keys.any fun k => isDeviceKey k && mdieOf k / 2 != die)
  | _ => false

/-- The load that a split waits for, past its lookahead window or held for its reserved entries (03 R74, R75), outstanding for 1,024 cycles
(02 R48). -/
def State.remoteLoad (s : State) (tm : Team) (t : Warp) (sp : Split) : Option Pend :=
  let now := s.cycles tm.die
  t.pend.find? fun p => (sp.windows.any fun w => w.1 == p.id && (w.2 == 0 || sp.wait == some .entries)) && p.remote tm.die &&
    decide (now ≥ p.from_ + 1024)

/-- REMOTE_LOAD_BLOCKING: the split stands at a blocking point. -/
def execRemoteLoadBlocking (ctxh w k : Nat) (s : State) : Host.Outcome State Fault Refusal :=
  let who : Who := .warp ctxh w
  .next (match s.team? ctxh, (s.thread? who).bind fun t => (t.split? k).map fun sp => (t, sp) with
    | some tm, some (t, sp) =>
      let free := match sp.wait with
        | none | some .entries => true
        -- the load it stood at has arrived, and it waits for another
        | some (.remote id) => !t.pend.any fun p => p.id == id
        | _ => false
      if !free || tm.status != .running || s.stalled tm.die then s
      else match s.remoteLoad tm t sp with
        | some p => s.updSplit who k fun sp => { sp with wait := some (.remote p.id) }
        | none => s
    | _, _ => s)

/-- YIELD_EXPIRY: the cycles of a yield have passed; the split is ready since they did (02 R50). -/
def execYieldExpiry (who : Who) (k : Nat) (s : State) : Host.Outcome State Fault Refusal :=
  let now := s.clkFor who
  .next (s.whileRuns (s.dieOf who) (s.updSplit who k fun sp =>
    match sp.wait with
    | some (.yield _ till) => if till ≤ now then { sp with wait := none } else sp
    | _ => sp))

/-- Whether a split waits for a value past its lookahead window (03 R74). -/
def Warp.waitsValue (t : Warp) (sp : Split) : Bool := sp.windows.any fun w => w.2 == 0 && t.pend.any fun p => p.id == w.1

/-- A split that has been ready for some counted cycles without issuing rises to a promotion; those in which its partition's handler slot issued
do not count (02 R50, 11 R305). -/
def State.promote (s : State) (ctxh w k cycles level : Nat) : State :=
  let now := s.clkFor (.warp ctxh w)
  let running := ((s.team? ctxh).map fun t => t.status == .running).getD false
  if !running || s.stalled (s.dieOf (.warp ctxh w)) then s
  else s.updThread (.warp ctxh w) fun t => t.updSplit k fun sp => if sp.up && decide (now ≥ sp.readyFrom + sp.skips + cycles) then { sp with promoted := max sp.promoted level } else sp

/-- STARVATION_PROMOTION: 1,024 counted cycles. -/
def execStarvationPromotion (ctxh w k : Nat) (s : State) : Host.Outcome State Fault Refusal := .next (s.promote ctxh w k 1024 1)

/-- OVERDUE: 1,984 counted cycles. -/
def execOverdue (ctxh w k : Nat) (s : State) : Host.Outcome State Fault Refusal := .next (s.promote ctxh w k 1984 2)

/-! ## Monitors, caches, translations -/

-- DEDUCED (log 34, safe): see notes/assumptions/34.md.
/-- MONITOR_WAKE: a write at a monitor point makes the part read the monitored locations again. The wake-up waits where the thread's die takes no
messages (12 R334, R337). -/
def execMonitorWake (who : Who) (k : Nat) (s : State) : Host.Outcome State Fault Refusal :=
  .next (if s.stalled (s.dieOf who) then s else s.monWake who k)

-- DEDUCED (log 41, safe): see notes/assumptions/41.md.
/-- STALE_NOTICE: a home's notice to a die, which marks the line of its L2 or waits in the die's queue; a home may send one for any line (09 R260, 17
R428). -/
def execStaleNotice (die line : Nat) (s : State) : Host.Outcome State Fault Refusal := .next (s.sendNotice line die)

/-- Whether a cache acts: that of a compute die while the die runs, a home's while its core clock does (12 R337, 20 R496). -/
def State.cacheRuns (s : State) (lvl : CacheLevel) (owner : Nat) : Bool :=
  match lvl with
  | .l1 => !s.stalled (owner / 16)
  | .l2 => !s.stalled owner
  | .home => !s.plat.clockStop

/-- CACHE_EVICTION: a level evicts a line, writing back its dirty bytes. -/
def execCacheEviction (lvl : CacheLevel) (owner line : Nat) (s : State) : Host.Outcome State Fault Refusal :=
  .next (if s.cacheRuns lvl owner then s.evictLine lvl owner line else s)

/-- ZERO_REQUEST: a walk of an address of a process, which zeroes a page with ZP and clears the bit (09 R250); a poisoned entry loses the context (17
R432). -/
def execZeroRequest (asid va : Nat) (s : State) : Host.Outcome State Fault Refusal :=
  .next (match s.leafFor 0 [] asid va with
    | (.ok _, s) => s
    | (.error .poisoned, s) => s.loseContext asid 0x74 (asid * 2 ^ 22) 0
    | (.error _, s) => s)

/-! ## Engine commands (08 R204) -/

-- DEDUCED (log 6, safe): see notes/assumptions/6.md.
-- DEDUCED (log 59, unsafe): see notes/assumptions/59.md.
/-- ENGINE_COMMAND_START: a command at its queue's head whose guard, chain and tag conditions are met. -/
def execEngineCommandStart (core id : Nat) (s : State) : Host.Outcome State Fault Refusal :=
  .next (if !s.stalled (core / 16) && s.cmds.any fun c => c.id == id && c.core == core then s.tryStart id else s)

-- DEDUCED (log 6, safe): A command reads and writes at its completion event; tgather reads its indices at its start, and a shape record and the operands at issue.
/-- ENGINE_COMMAND_COMPLETE: a started command completes; `err` names the tile access that met an uncorrectable error, 0 none. -/
def execEngineCommandComplete (core id err : Nat) (s : State) : Host.Outcome State Fault Refusal :=
  .next (match s.cmds.find? fun c => c.id == id && c.core == core && c.started with
    | none => s
    | some c =>
      if s.stalled (core / 16) then s
      else
        let s := s.completeCmd id err
        if s.cmds.any fun x => x.id == id then s else s.recount c)

/-! ## The exit of a team (07 R168, 02 R30, 19 R471) -/

/-- Why an exited team's command has not started: 3 a guard that is unresolved, 2 a successor with no release pending, 4 a tile tag
(19 R471). -/
def Cmd.leftWhy (c : Cmd) : Nat := if c.guard.isSome then 3 else if c.aft then 2 else 4

/-- Unstarted commands that a team leaves behind: each discarded and entered in firmware's log against the context, and the grid fails with cause
0x52. -/
def State.leftBehind (s : State) (t : Team) : State :=
  let gone := s.unstarted t.ctxh
  if gone.isEmpty then s
  else
    let s := { s with plat := { s.plat with ctxLog := gone.map (fun (c : Cmd) => (t.ctxh, c.id, c.leftWhy)) ++ s.plat.ctxLog } }
    (gone.foldl (fun s _ => s.bump 0x52) (s.discardUnstarted t.ctxh)).failGrid t.grid 0x52 t.ctxh

-- DEDUCED (log 45, safe): see notes/assumptions/45.md.
/-- Whether an unstarted command would go on at its queue's head: start, or be discarded by its guard. -/
def State.canMove (s : State) (c : Cmd) : Bool :=
  let s' := s.tryStart c.id
  s'.closed || match s'.cmds.find? fun x => x.id == c.id with
  | none => true
  | some x => x.started

/-- A killed team ends: what has failed since stands in its item list (15 R386). -/
def State.killedEnds (s : State) (t : Team) : State :=
  if (t.late.filterMap Prod.fst).isEmpty then s.teamEnds t.ctxh
  else
    match s.appendLate t with
    | (true, s) => s.teamEnds t.ctxh
    | (false, s) => (s.teamEnds t.ctxh).loseContext t.asid 0x74 t.ctxh 0

-- DEDUCED (log 45, safe): An exited team waits for its commands that can still start and discards those that cannot.
/-- TEAM_EXIT_SIGNAL: every access and command of an ended team has been performed. Where the other teams of its cluster are all saved, these may be
ready by themselves from now on (19 R476). -/
def execTeamExitSignal (ctxh : Nat) (s : State) : Host.Outcome State Fault Refusal :=
  .next (match s.team? ctxh with
    | none => s
    | some t =>
      let quiet := !s.stalled t.die && (s.threadsOf ctxh).all (fun w => w.pend.isEmpty) && !s.hasStarted ctxh && !(s.unstarted ctxh).any s.canMove
      match t.status with
      | .running => if s.allExited ctxh && quiet then ((s.leftBehind t).teamEnds ctxh).readySaved t.cluster else s
      | .killed => if quiet then (s.killedEnds t).readySaved t.cluster else s
      | _ => s)

end Sys2Proof.Machine
end

