-- ==== Sys2Proof/Machine/Host.lean ====
section
/-!
DEFINITION. The host interface: BAR0 and BAR2 (12 R316 to R321, 20 R479, R489), boot and reset (12 R326 to R329, 20 R483, R484, R498), the
mailbox and its commands (12 R322 to R325, 20 R482), firmware update (12 R333, 20 R485, R486) and attestation (12 R330).
-/
namespace Sys2Proof.Machine

/-! ## What answers -/

def bitIf (b : Bool) (n : Nat) : Nat := if b then 2 ^ n else 0

/-- Whether a function of the part exists: the PF, and the virtual functions that the driver has enabled (12 R316). -/
def State.fnExists (s : State) (fn : Nat) : Bool := s.plat.powered && (fn == 0 || decide (fn ≤ s.plat.numVfs))

def phaseCode : Phase → Nat
  | .await => 1
  | .verify => 2
  | .release => 3
  | .fwStart => 4
  | .ready => 5
  | .failed => 15

/-- DEVSTAT (12 R320). -/
def devstat (p : Plat) : Nat :=
  bitIf (p.phase == .ready) 0 + bitIf p.encAvail 1 + bitIf p.bank 2 + bitIf p.fwsw 3 + phaseCode p.phase * 2 ^ 4

/-- BOOTSTS (20 R483). -/
def bootsts (p : Plat) : Nat := p.reason % 16 + p.bootDie % 16 * 2 ^ 4 + min 255 p.tries * 2 ^ 8

/-- Device level: hardware or firmware logs the cause, and PHASE becomes 0xF (20 R485, R497); ERR_FATAL is signalled only when it becomes so
(R489). -/
def State.deviceFail (s : State) (cause source : Nat) (detail : Word) : State :=
  let s := s.logEvent cause 5 source 0 detail
  { s with plat := { s.plat with phase := .failed, aer := if s.plat.phase == .failed then s.plat.aer else 3 :: s.plat.aer } }

/-! ## The mailbox as registers (12 R322) -/

def Mailbox.empty (fn : Nat) : Mailbox := { fn := fn, req := [], resp := [], seq := 0, code := 0, busy := false, done := false, opc := 0 }

def State.mbox (s : State) (fn : Nat) : Mailbox := (s.plat.mboxes.find? fun m => m.fn == fn).getD (.empty fn)

def State.putMbox (s : State) (m : Mailbox) : State :=
  { s with plat := { s.plat with mboxes := m :: s.plat.mboxes.filter fun x => x.fn != m.fn } }

def mbsts (m : Mailbox) : Nat := bitIf m.done 0 + bitIf m.busy 1 + m.code * 2 ^ 2 + m.seq % 256 * 2 ^ 16

/-- A field of a request body. -/
def Mailbox.num (m : Mailbox) (off n : Nat) : Nat := leNum ((List.range n).map fun i => (assoc? m.req (off + i)).getD 0)

/-- Every byte of a body outside the listed ranges, pairs of first byte and length, is zero. -/
def Mailbox.only (m : Mailbox) (ranges : List (Nat × Nat)) : Bool :=
  m.req.all fun x => x.2 == 0 || ranges.any fun r => decide (r.1 ≤ x.1 ∧ x.1 < r.1 + r.2)

/-- A request complete: DONE, CODE, the response body, and what the reader of DONE acquires. -/
def State.finishMb (s : State) (fn code : Nat) (resp : List (Nat × Byte)) : State :=
  let m := s.mbox fn
  s.putMbox { m with busy := false, done := true, code := code, resp := resp, clk := clkJoin m.clk s.feClk }

/-- A request complete, whose effects include what a clock names. -/
def State.finishMbWith (s : State) (fn : Nat) (clk : Clock) : State :=
  let m := s.mbox fn
  (s.putMbox { m with clk := clkJoin m.clk clk }).finishMb fn 0 []

/-! ## Ethernet and Ronou ports as registers (12 R341, R345, R347) -/

def State.port? (s : State) (n : Nat) : Option EthPort := s.plat.eth.find? fun p => p.num == n

def State.updPort (s : State) (n : Nat) (f : EthPort → EthPort) : State :=
  { s with plat := { s.plat with eth := updFirst (fun p => p.num == n) f s.plat.eth } }

def State.ronou? (s : State) (n : Nat) : Option RonouPort := s.plat.ronou.find? fun p => p.num == n

def State.updRonou (s : State) (n : Nat) (f : RonouPort → RonouPort) : State :=
  { s with plat := { s.plat with ronou := updFirst (fun p => p.num == n) f s.plat.ronou } }

/-- Where the PHC wraps: 2^48 seconds in units of 2^-16 ns. -/
def phcTop : Nat := 2 ^ 48 * 10 ^ 9 * 2 ^ 16

-- DEDUCED (log 51, unsafe): The frequency adjustment accrues exactly, the fraction of 2^-16 ns being carried to the next reading.
/-- The PHC brought up to a REF: it advances by the elapsed ticks, adjusted in ppb (12 R341). -/
def EthPort.sync (p : EthPort) (ref : Nat) : EthPort :=
  let u : Int := ((ref - p.phcRef) * 2 ^ 16 : Nat)
  let extra : Int := u * p.adj + p.adjFrac
  { p with phc := (((p.phc : Int) + u + extra / 10 ^ 9) % phcTop).toNat, adjFrac := extra % 10 ^ 9, phcRef := ref }

def EthPort.seconds (p : EthPort) : Nat := p.phc / (10 ^ 9 * 2 ^ 16)

/-- PHCNS as a reading gives it: nanoseconds and 16 fraction bits. -/
def EthPort.nsWord (p : EthPort) : Word :=
  wordOf (p.phc / 2 ^ 16 % 10 ^ 9 + p.phc % 2 ^ 16 * 2 ^ 32)

/-- A read of PHCSEC: the PHC's seconds, and the nanoseconds latched into PHCNS. -/
def State.readPhcsec (s : State) (n : Nat) : Word × State :=
  match s.port? n with
  | none => (0, s)
  | some p =>
    let p := p.sync s.ref
    (wordOf p.seconds, s.updPort n fun _ => { p with phcns := p.nsWord })

/-- A write of PHCSTEP: the step is added to the PHC at once; one outside its range is ignored. -/
def State.stepPhc (s : State) (n : Nat) (v : Word) : State :=
  let d := v.toInt
  if d < -(2 ^ 47 : Int) ∨ d > (2 ^ 47 : Int) then s
  else s.updPort n fun p =>
    let p := p.sync s.ref
    { p with phc := (((p.phc : Int) + d * 2 ^ 16) % phcTop).toNat }

def EthPort.stream (p : EthPort) (n : Nat) : Stream :=
  (p.streams.find? fun x => x.num == n).getD
    { num := n, ring := 0, slots := 16, jring := 0, jslots := 0, enable := false, next := 1, jnext := 0, gap := false, held := [], dropo := 0,
      dropj := 0, drops := 0, rxoff := 0 }

def EthPort.putStream (p : EthPort) (x : Stream) : EthPort := { p with streams := x :: p.streams.filter fun y => y.num != x.num }

/-- A register of an Ethernet port's region but PHCSEC. -/
def EthPort.word (p : EthPort) (off : Nat) : Word :=
  if off = 0 then wordOf (bitIf p.dflt 0)
  else if off = 8 then wordOf (bitIf p.link 0 + bitIf p.lock 1)
  else if off = 0x108 then p.phcns
  else if off = 0x110 then wordOf (BitVec.ofInt 32 p.adj).toNat
  else if off = 0x120 then wordOf (Config.rxLat p.num)
  else if off = 0x128 then wordOf (Config.txLat p.num)
  else if 0x1000 ≤ off ∧ off < 0x1028 then
    wordOf ([p.rxbad, p.rxnomatch, p.txbad, p.txdown, p.linkdown].getD ((off - 0x1000) / 8) 0)
  else if 0x2000 ≤ off ∧ off < 0x4000 then
    let x := p.stream ((off - 0x2000) / 32)
    wordOf ([x.dropo, x.dropj, x.drops, x.rxoff].getD (off % 32 / 8) 0)
  else 0

/-- A counter of the region read and cleared. -/
def EthPort.clear (p : EthPort) (off : Nat) : EthPort :=
  if off = 0x1000 then { p with rxbad := 0 }
  else if off = 0x1008 then { p with rxnomatch := 0 }
  else if off = 0x1010 then { p with txbad := 0 }
  else if off = 0x1018 then { p with txdown := 0 }
  else if off = 0x1020 then { p with linkdown := 0 }
  else if 0x2000 ≤ off ∧ off < 0x4000 then
    let x := p.stream ((off - 0x2000) / 32)
    p.putStream (if off % 32 = 0 then { x with dropo := 0 } else if off % 32 = 8 then { x with dropj := 0 }
      else if off % 32 = 16 then { x with drops := 0 } else { x with rxoff := 0 })
  else p

/-- PCTL and PHCADJ written. -/
def EthPort.put (p : EthPort) (ref off : Nat) (v : Word) : EthPort :=
  if off = 0 then { p with dflt := v.getLsbD 0 }
  else if off = 0x110 then
    let a := (v.setWidth 32).toInt
    if a < -1000000 ∨ a > 1000000 then p else { p.sync ref with adj := a }
  else p

/-- A port that stops carrying traffic: what it has carried since its counters were read is still to be counted (12 R347). -/
def RonouPort.stop (p : RonouPort) : RonouPort := { p with up := false, txDue := p.txDue || p.up, rxDue := p.rxDue || p.up }

-- DESIGN CHOICE (log 22, safe): They read zero until the port has been up, and each later read gives a free value that is not less than the last one read, since R346 does not give the flits of an access.
/-- A register of a Ronou port's region; the flit counters rise by a free amount over the time in which the port has been up (log 22). -/
def State.ronouWord (s : State) (p : RonouPort) (off : Nat) : Word × State :=
  if off = 0 then (wordOf (bitIf p.up 0 + bitIf p.half 1 + bitIf p.down 2 + p.nbr * 2 ^ 16), s)
  else if off = 8 then (wordOf (bitIf p.enable 0), s)
  else if off = 0x10 then (wordOf p.retry, s)
  else if off = 0x18 then (wordOf p.retrain, s)
  else if off = 0x20 then (wordOf p.refused, s)
  else if off = 0x28 ∨ off = 0x30 then
    if p.up || (if off = 0x28 then p.txDue else p.rxDue) then
      let (w, s) := takeFree s
      let more (n : Nat) : Nat := min (n + w.toNat) (2 ^ 64 - 1)
      let p := if off = 0x28 then { p with tx := more p.tx, txDue := p.up } else { p with rx := more p.rx, rxDue := p.up }
      (wordOf (if off = 0x28 then p.tx else p.rx), s.updRonou p.num fun _ => p)
    else (wordOf (if off = 0x28 then p.tx else p.rx), s)
  else (0, s)

def RonouPort.clear (p : RonouPort) (off : Nat) : RonouPort :=
  if off = 0x10 then { p with retry := 0 } else if off = 0x18 then { p with retrain := 0 } else if off = 0x20 then { p with refused := 0 } else p

/-- RCTL.ENABLE := 0: the port is held down and leaves every route mask (12 R347). -/
def State.disableRonou (s : State) (n : Nat) : State :=
  s.updRonou n fun p => { p.stop with enable := false, downAt := s.ref }

-- DEDUCED (log 54, safe and in part unsafe): see notes/assumptions/54.md.
/-- RCTL.ENABLE := 1: the port retrains, so that DOWN reads 0 until that training fails; its result is an event of its own. -/
def State.enableRonou (s : State) (n : Nat) : State :=
  s.updRonou n fun p => { p.stop with enable := true, down := false, retrain := p.retrain + 1 }

/-! ## BAR0 (12 R317 to R319, 20 R479) -/

/-- A word of the event ring. -/
def ringWord (l : EvLog) (off : Nat) : Word :=
  match (l.ring.filter fun e => e.n % 512 == off / 32).getLast? with
  | none => 0
  | some e =>
    if off % 32 = 0 then wordOf e.n
    else if off % 32 = 8 then wordOf (e.cause + e.level * 2 ^ 8 + e.source * 2 ^ 16 + e.ctxh % 2 ^ 32 * 2 ^ 32)
    else if off % 32 = 16 then e.detail
    else e.ref

/-- A word of a die's time region (12 R338). -/
def timeWord (d : Die) (off : Nat) : Word :=
  if off = 0 then wordOf d.clk
  else if off = 8 then wordOf (d.clks / 2 ^ 16)
  else if off = 0x10 then wordOf d.ref
  else if off = 0x18 then BitVec.ofInt 64 d.refoff
  else if off = 0x20 then (if d.num < 4 then wordOf d.fhidx else 0)
  else if 0x40 ≤ off ∧ off < 0xC0 then
    match d.fhist[(d.fhidx + 8 - (off - 0x40) / 16) % 8]? with
    | some h => if off % 16 = 0 then wordOf h.ref else wordOf (h.mhz + h.inc * 2 ^ 16)
    | none => 0
  else 0

/-- Eight bytes of a mailbox area. -/
def areaWord (l : List (Nat × Byte)) (off : Nat) : Word := wordOf (leNum ((List.range 8).map fun i => (assoc? l (off + i)).getD 0))

/-- A control register of a function. -/
def State.ctrlWord (s : State) (fn off : Nat) : Word :=
  let l := s.evLog fn
  if off = 0 then wordOf (0x0960 * 2 ^ 48 + Config.serial % 2 ^ 48)
  else if off = 8 then wordOf (devstat s.plat)
  else if off = 0x28 then wordOf (mbsts (s.mbox fn))
  else if off = 0x40 then wordOf s.plat.pwrcap
  else if off = 0x48 then wordOf s.plat.pwrnow
  else if off = 0x50 then wordOf s.plat.tempmax -- a read of BAR0 renews it first: `State.bar0Word`
  else if off = 0x58 then wordOf (bootsts s.plat)
  else if off = 0x60 then wordOf l.wr
  else if off = 0x68 then wordOf l.rd
  else if off = 0x70 then wordOf l.lost
  else if 0x8000 ≤ off ∧ off < 0xC000 then ringWord l (off - 0x8000)
  else 0

-- DESIGN CHOICE (log 53, safe): TEMPMAX is a free value at each read, with the bound that a hot die gives it.
/-- The hottest die temperature as it stands now: at least 90 °C while a die is held hot (20 R495). -/
def State.renewTemp (s : State) : State :=
  let (w, s) := takeFree s
  { s with plat := { s.plat with tempmax := (if s.dies.any Die.hot then 900 else 0) + w.toNat / 2 } }

-- DEDUCED (log 46, safe and in part unsafe): Firmware fixes the capability list at step 5 of boot, so that it is a free value before READY, and in PHASE 0xF after a boot that failed at step 4 or 5; in PHASE 0xF after READY it is still read as fixed.
/-- Whether firmware has fixed the capability list (01 R23, 12 R326). -/
def Plat.capsFixed (p : Plat) : Bool := p.phase == .ready || (p.phase == .failed && p.reason == 0)

/-- What a read of eight bytes of BAR0 returns. The capability list's bytes are free until they are fixed (log 46). -/
def State.bar0Word (s : State) (fn off : Nat) : Word × State :=
  if off = 0x50 then let s := s.renewTemp; (s.ctrlWord fn off, s)
  else if off < 0x10000 then (s.ctrlWord fn off, s)
  else if off < 0x20000 then (if s.plat.capsFixed then (wordOf (capAt (off - 0x10000)), s) else takeFree s)
  else if off < 0x21000 then (areaWord (s.mbox fn).req (off - 0x20000), s)
  else if off < 0x22000 then (areaWord (s.mbox fn).resp (off - 0x21000), s)
  else if fn ≠ 0 then (0, s)
  else if 0x30000 ≤ off ∧ off < 0x32000 then ((assoc? s.plat.roots ((off - 0x30000) / 8)).getD 0, s)
  else if 0x40000 ≤ off ∧ off < 0x4D000 then (((s.die? ((off - 0x40000) / 0x1000)).map fun d => timeWord d (off % 0x1000)).getD 0, s)
  else if 0x1000000 ≤ off ∧ off < 0x1400000 then
    (((s.port? ((off - 0x1000000) / 2 ^ 20)).map fun p => p.word (off % 2 ^ 20)).getD 0, s)
  else if 0x2000000 ≤ off ∧ off < 0x2100000 then
    match s.ronou? ((off - 0x2000000) / 2 ^ 16) with
    | some p => s.ronouWord p (off % 2 ^ 16)
    | none => (0, s)
  else (0, s)

/-- What a read of BAR0 changes: RC registers clear, and PHCSEC latches (00 R10). -/
def State.bar0Clear (s : State) (fn off : Nat) : State :=
  if off = 0x70 then s.putEvLog { s.evLog fn with lost := 0 }
  else if fn ≠ 0 then s
  else if 0x1000000 ≤ off ∧ off < 0x1400000 then
    s.updPort ((off - 0x1000000) / 2 ^ 20) fun p => p.clear (off % 2 ^ 20)
  else if 0x2000000 ≤ off ∧ off < 0x2100000 then s.updRonou ((off - 0x2000000) / 2 ^ 16) fun p => p.clear (off % 2 ^ 16)
  else s

-- DESIGN CHOICE (log 15, safe): A BAR2 read that the part answers with Unsupported Request gives no bytes and is marked as such in what the host last read.
/-- What the host last read. -/
def State.hostGets (s : State) (bs : List Byte) (ok ep : Bool) : State :=
  { s with plat := { s.plat with hostRd := bs, hostRdOk := ok, hostRdEp := ep } }

/-- The read of EVWR acquires what the writes of its events have released (20 R481). -/
def State.acquireLog (s : State) (fn : Nat) : State :=
  let (party, s) := s.partyFor (.host fn)
  s.joinClk party (s.evLog fn).clk

/-- The read of MBSTS that sees DONE acquires at system scope what the request did (12 R322). -/
def State.acquireMb (s : State) (fn : Nat) : State :=
  let m := s.mbox fn
  if m.done then
    let (party, s) := s.partyFor (.host fn)
    s.joinClk party m.clk
  else s

/-- A read of a BAR0 register: its value, and the clearing of an RC register. -/
def State.bar0Read (s : State) (fn off : Nat) : State :=
  let off := off / 8 * 8
  if !s.fnExists fn || !s.plat.hostUp then s
  else if off = 0x60 then (s.acquireLog fn).hostGets (bytesOf 8 (s.ctrlWord fn off).toNat) true false
  else if off = 0x28 then (s.acquireMb fn).hostGets (bytesOf 8 (s.ctrlWord fn off).toNat) true false
  else if fn = 0 ∧ 0x1000000 ≤ off ∧ off < 0x1400000 ∧ off % 2 ^ 20 = 0x100 then
    let (w, s) := s.readPhcsec ((off - 0x1000000) / 2 ^ 20)
    s.hostGets (bytesOf 8 w.toNat) true false
  else
    let (w, s) := s.bar0Word fn off
    (s.bar0Clear fn off).hostGets (bytesOf 8 w.toNat) true false

/-- READ_CLEAR_COUNTER: a read of a register of BAR0. -/
def execReadClearCounter (fn off : Nat) (s : State) : Host.Outcome State Fault Refusal := .next (s.bar0Read fn off)

/-- PHCSEC_READ. -/
def execPhcsecRead (port : Nat) (s : State) : Host.Outcome State Fault Refusal := .next (s.bar0Read 0 (0x1000000 + port * 2 ^ 20 + 0x100))

/-- PHCSTEP. -/
def execPhcstep (port : Nat) (v : Word) (s : State) : Host.Outcome State Fault Refusal :=
  .next (if s.plat.powered && s.plat.hostUp then s.stepPhc port v else s)

/-! ## Reset and boot (12 R326 to R329, 20 R483, R484, R498) -/

/-- A device reset: every die but Texis, and boot again from PHASE 0x1. Acts still to come, the count of free values taken, and what lies
outside the part stay. -/
def State.deviceReset (s : State) : State :=
  { State.reset with
    agenda := s.agenda, freeCtr := s.freeCtr
    plat := { Plat.reset with
      powered := s.plat.powered, hostUp := s.plat.hostUp, sent := s.plat.sent, aer := s.plat.aer,
      tempmax := s.plat.tempmax, pwrnow := s.plat.pwrnow } }

/-- DEVCTL_RESET. -/
def execDevctlReset (s : State) : Host.Outcome State Fault Refusal := .next (if s.plat.powered then s.deviceReset else s)

/-- FLR_PF: a Function Level Reset of the PF is a device reset. -/
def execFlrPf (s : State) : Host.Outcome State Fault Refusal := .next (if s.plat.powered then s.deviceReset else s)

/-- POWER_UP: Texis runs its ROM, measures and releases the I/O die; where its own check fails, the module appears absent. -/
def execPowerUp (ok : Bool) (s : State) : Host.Outcome State Fault Refusal :=
  .next (if s.plat.powered || !ok then s
    else { State.reset with agenda := s.agenda, freeCtr := s.freeCtr, plat := { Plat.reset with sent := s.plat.sent } })

/-- SUPPLY_LOSS: all state is lost. -/
def execSupplyLoss (s : State) : Host.Outcome State Fault Refusal :=
  .next { State.reset with
    agenda := s.agenda, freeCtr := s.freeCtr, dies := State.reset.dies.map fun (d : Die) => { d with released := false }
    plat := { Plat.reset with powered := false, hostUp := false, sent := s.plat.sent } }

/-- Bytes written through the boot window, which accepts them in PHASE 0x1: the first 512 KiB go to bank A, the others to bank B. -/
def State.bootWrite (s : State) (off : Nat) (bytes : List Byte) : State :=
  if s.plat.phase != .await || !s.plat.powered then s
  else
    (bytes.zipIdx.map fun (b, i) => (off + i, b)).foldl (fun s (i, b) =>
      if i < 0x80000 then { s with plat := { s.plat with bankA := assocSet s.plat.bankA i b } }
      else if i < 0x100000 then { s with plat := { s.plat with bankB := assocSet s.plat.bankB (i - 0x80000) b } }
      else s) s

/-- BOOT_WINDOW_WRITE. -/
def execBootWindowWrite (off : Nat) (bytes : List Byte) (s : State) : Host.Outcome State Fault Refusal :=
  .next (if s.plat.hostUp then s.bootWrite off bytes else s)

/-- A byte of bank A or B: one that nothing has written is zero once the bank has been zeroed (20 R484), and else a free value (log 3). -/
def Plat.bankAt (p : Plat) (b : Bool) (i : Nat) : Byte :=
  match assoc? (if b then p.bankB else p.bankA) i with
  | some x => x
  | none => if (if b then p.zeroB else p.zeroA) then 0 else Config.bankByte (i + if b then 0x80000 else 0)

/-- Bytes of the staged image (12 R326). -/
def Plat.staged (p : Plat) (off n : Nat) : List Byte :=
  (List.range n).map fun i => if off + i < 0x80000 then p.bankAt false (off + i) else p.bankAt true (off + i - 0x80000)

/-- The bytes of a bank become undefined (20 R486). -/
def Plat.spoilBank (p : Plat) (b : Bool) : Plat := if b then { p with bankB := [], zeroB := false } else { p with bankA := [], zeroA := false }

/-- Offset and length of the code section, and of the configuration section of die `k` (12 R327). -/
def codeOf (get : Nat → Nat → List Byte) : Nat × Nat := (leNum (get 32 4), leNum (get 36 4))
def cfgOf (get : Nat → Nat → List Byte) (k : Nat) : Nat × Nat := (leNum (get (40 + 8 * k) 4), leNum (get (44 + 8 * k) 4))

-- DEDUCED (log 46, safe and in part unsafe): see notes/assumptions/46.md.
/-- The reason for which an image is refused, the lowest that applies (12 R327, R328, 20 R483). `get` reads its bytes. -/
def verifyImage (get : Nat → Nat → List Byte) (update : Bool) : Option Nat :=
  let num (off n : Nat) : Nat := leNum (get off n)
  let slot := num 12 1
  let len := num 20 4
  let pk := get (num 24 4) 1952
  let sigoff := num 28 4
  let inside (x : Nat × Nat) : Bool := decide (x.1 + x.2 ≤ 2 ^ 20)
  let code := codeOf get
  if num 0 4 ≠ 0x4E494158 ∨ (get 14 2 ++ get 136 376).any (· != 0) then some 1
  else if slot > 3 ∨ leNum (Config.shake256 pk 64) ≠ Config.keyHash slot ∨ Config.revoked slot then some 2
  else if num 8 4 < Config.minSvn then some 3
  else if !Config.mldsaVerify pk (Config.shake256 (get 0 len) 64) (get sigoff 3309) then some 4
  else if sigoff ≠ len ∨ !inside (sigoff, 3309) ∨ !inside (num 24 4, 1952) ∨ !inside code ∨ code.1 + code.2 > 0x80000 ∨
      (!update && (List.range 12).any fun k => !inside (cfgOf get k)) then some 5
  else none

-- DEDUCED (log 46, safe and in part unsafe): R483 gives no reason for a HOVER of 0 or an ENTRY beyond bank A; whether such an image is refused, with reason 5, is a free choice.
/-- `verifyImage`, with the choice that a header with HOVER 0 or an ENTRY beyond bank A leaves open (12 R327; log 46). -/
def State.verify (s : State) (get : Nat → Nat → List Byte) (update : Bool) : Option Nat × State :=
  match verifyImage get update with
  | some r => (some r, s)
  | none =>
    let (c, s) := if leNum (get 13 1) = 0 ∨ leNum (get 16 4) ≥ 0x80000 then takeChoice s 2 else (0, s)
    (if c = 1 then some 5 else none, s)

/-- A measurement slot set. -/
def State.measure (s : State) (slot : Nat) (bytes : List Byte) : State :=
  { s with plat := { s.plat with meas := setAt s.plat.meas slot { digest := .of (Config.shake256 bytes 64), count := 0 } } }

/-- The bytes that slots 2 and 3 measure: the header with the public key, and the code section. -/
def measured2 (get : Nat → Nat → List Byte) : List Byte := get 0 512 ++ get (leNum (get 24 4)) 1952
def measured3 (get : Nat → Nat → List Byte) : List Byte := get (codeOf get).1 (codeOf get).2

/-- What the alias certificate of slot 1 binds, signed by Texis (12 R330). -/
def State.signAlias (s : State) : State :=
  let bytes (i : Nat) : List Byte := match (s.plat.meas[i]?).map Meas.digest with
    | some (.of l) => l
    | _ => []
  { s with plat := { s.plat with spdmSlot1 := Config.mldsaSign (bytes 2 ++ bytes 3) } }

/-- An image refused at step 3: both banks are zeroed (20 R484). -/
def State.refuseImage (s : State) (reason : Nat) : State :=
  { s with plat := { s.plat with
      phase := .await
      reason := reason
      tries := min 255 (s.plat.tries + 1)
      bankA := []
      bankB := []
      zeroA := true
      zeroB := true } }

-- PRESUMED (log 49, safe and in part unsafe): The supervisor entry is a free value that is a multiple of 8, chosen at boot.
-- DEDUCED (log 46, safe and in part unsafe): Texis has delivered the link keys when the device becomes READY.
/-- Firmware's first acts: the supervisor entry, which it chooses, the REF offsets, and READY. -/
def State.firmwareReady (s : State) (hover fwver : Nat) : State :=
  let (w, s) := takeFree s
  let io := s.ref
  { s with
    svEntry := w.setWidth 48 &&& ~~~7#48
    dies := s.dies.map fun (d : Die) => { d with refoff := (d.ref : Int) - io }
    plat := { s.plat with phase := .ready, encAvail := true, reason := 0, runHover := hover, fwver := fwver } }

-- DEDUCED (log 46, safe and in part unsafe): Each of steps 3 to 5 is an act of its own, step 4 one for each die; whether a die is released and whether a stack or link trains is a free choice.
/-- The next act of boot after GO (12 R326): step 3, a die of step 4, or steps 5 and 6. In step 5 choice 0 is that all train, and 1 to 13 that
die 0 to 12 does not. -/
def State.bootStep (s : State) : State :=
  let get := s.plat.staged
  let fail (s : State) (reason die : Nat) : State := { s with plat := { s.plat with phase := .failed, reason := reason, bootDie := die } }
  match s.plat.phase with
  | .verify =>
    match s.verify get false with
    | (some r, s) => s.refuseImage r
    | (none, s) =>
      let s := (s.measure 2 (measured2 get)).measure 3 (measured3 get)
      { s with plat := { s.plat with phase := .release } }
  | .release =>
    match (List.range 12).find? fun k => ((s.die? k).map fun d => !d.released).getD false with
    | none => { s with plat := { s.plat with phase := .fwStart, ctl := .start (leNum (get 16 4)) 0 } }
    | some k =>
      let x := cfgOf get k
      let s := s.measure (4 + k) (get x.1 x.2)
      let (c, s) := takeChoice s 2
      if c = 1 then fail s 6 k else s.updDie k fun d => { d with released := true }
  | .fwStart =>
    let (c, s) := takeChoice s 14
    if c = 0 then s.signAlias.firmwareReady (leNum (get 13 1)) (leNum (get 4 4)) else fail s 7 (c - 1)
  | _ => s

/-- DEVCTL.GO: verification of the staged image starts; ignored but in PHASE 0x1 (12 R321). -/
def State.bootGo (s : State) : State :=
  if s.plat.phase == .await then { s with plat := { s.plat with phase := .verify } } else s

/-- DEVCTL_GO. -/
def execDevctlGo (s : State) : Host.Outcome State Fault Refusal := .next (if s.plat.powered then s.bootGo else s)

/-! ## BAR2 (09 R251, 10 R288, 20 R489, R497) -/

-- DESIGN CHOICE (log 23, safe and in part unsafe): Boundaries 0 to 3 join compute die c and c + 1, 4 to 11 a compute die and M0 to M7, 12 to 15 the I/O die and compute die 0 to 3, 16 the I/O die and Texis; a Ronou port n is link 32 + n.
/-- A boundary of the package that has been lost (20 R488). Boundaries 0 to 3 join compute dies c and c + 1, 4 to 11 a compute die and M0 to M7,
12 to 15 the I/O die and compute dies 0 to 3, 16 the I/O die and Texis (log 23). -/
def State.lostLink (s : State) (l : Nat) : Bool := s.plat.planes.any fun p => p.link == l && p.lost

-- DESIGN CHOICE (log 23, safe and in part unsafe): see notes/assumptions/23.md.
/-- Whether a host access can reach a home. -/
def State.homeWorks (s : State) (k : Nat) : Bool :=
  let m := mdieOf k
  s.plat.phase == .ready || (s.plat.phase == .failed && !s.plat.clockStop && ((s.die? (4 + m)).map Die.released).getD false &&
    !s.lostLink (12 + m / 2) && !s.lostLink (4 + m))

-- DEDUCED (log 48, safe and in part unsafe): see notes/assumptions/48.md.
-- DEDUCED (log 74, unsafe): Of several ASIDs bound to one VF its BAR2 uses the one bound last.
/-- The keys of a BAR2 access, which crosses from the I/O die to its homes; none for an Unsupported Request. With PHASE 0xF what the homes and
boundaries that still work can serve is served (20 R497). -/
def State.bar2Keys (s : State) (party fn off n : Nat) (write : Bool) : Option (List Nat) × State :=
  if fn = 0 then
    let ks := keysFrom off n
    if off + n ≤ 2 ^ 43 ∧ ks.all backed ∧ ks.all s.homeWorks then (some ks, s.cross ioDie false ks) else (none, s)
  else
    match s.plat.asids.find? fun a => a.vf == some fn with
    | none => (none, s)
    | some a =>
      if off + n > 2 ^ 37 ∨ (s.plat.phase ≠ .ready ∧ s.plat.phase ≠ .failed) then (none, s)
      else match s.transBytes party (s.clkOf party) a.num { write := write, fetch := false, super := true } off 0 n with
        | (.ok ks, s) =>
          if !ks.all fun k => !isDeviceKey k || s.homeWorks k then (none, s)
          else match (s.cross ioDie false ks).remoteFail ks with
            | (some _, s) => (none, s)
            | (none, s) => (some ks, s)
        | (.error .lost, s) => (none, s.loseContext a.num 0x74 (a.num * 2 ^ 22) 0)
        | (.error _, s) => (none, s)

-- DESIGN CHOICE (log 15, safe): see notes/assumptions/15.md.
/-- HOST_BAR2_READ: read at the home as an acquire at system scope. -/
def execHostBar2Read (fn off n : Nat) (s : State) : Host.Outcome State Fault Refusal :=
  .next (
    if !s.fnExists fn || !s.plat.hostUp then s
    else
      let (party, s) := s.partyFor (.host fn)
      match s.bar2Keys party fn off n false with
      | (none, s) => (s.hostEvent 2 (wordOf off)).hostGets [] false false
      | (some ks, s) =>
        let (bs, ep, s) := s.readChunks party (n + 1) ks
        let s := s.acqFence party .system
        (if ep then s.hostEvent 4 (wordOf off) else s).hostGets bs true ep)

/-- Bytes written at their homes in granules of eight; tells whether every granule was written. -/
def State.storeGranules (s : State) (party : Nat) (rel : Option Scope) (poison : Bool) : Nat → List (Nat × Byte) → Bool × State
  | 0, _ => (true, s)
  | _, [] => (true, s)
  | fuel + 1, (k, b) :: l =>
    let n := 8 - k % 8
    let (ok, s) := s.homeStore party (((k, b) :: l).take n) rel poison
    let (ok', s) := s.storeGranules party rel poison fuel (((k, b) :: l).drop n)
    (ok && ok', s)

/-- HOST_BAR2_WRITE: a release at system scope unless Relaxed Ordering is set; a sealed range discards it. -/
def execHostBar2Write (fn off : Nat) (bytes : List Byte) (relaxed poisoned : Bool) (s : State) : Host.Outcome State Fault Refusal :=
  .next (
    if !s.fnExists fn || !s.plat.hostUp then s
    else
      let (party, s) := s.partyFor (.host fn)
      match s.bar2Keys party fn off bytes.length true with
      | (none, s) => s.hostEvent 2 (wordOf off)
      | (some ks, s) =>
        let (ok, s) := s.storeGranules party (if relaxed then none else some .system) poisoned (bytes.length + 1) (ks.zip bytes)
        let s := if poisoned then s.hostEvent 4 (wordOf off) else s
        if ok then s else s.logEvent 0x27 0 64 0 (wordOf (ks.headD 0)))

/-! ## Mailbox commands (12 R323, R324, 20 R482) -/

/-- The bytes that the homes of a range hold take undefined values (00 R4). A write that a cache still holds dirty stays with that cache, and goes to
its home when the line is written back. -/
def State.undefine (s : State) (r : Nat × Nat) : State :=
  let left (h : Hist) : Hist :=
    let ws := h.ws.filter fun w => s.unpushed w.id
    { h with ws := ws, init := none, at_ := h.at_.filter fun e => e.1 != pointHome && ws.any fun w => w.id == e.2 }
  let dirty := (s.hist.filter fun h => inRange r h.key && h.ws.any fun w => s.unpushed w.id).map left
  let zeroed := s.zeroed.flatMap fun z => cutRange z r
  { s with
    mem := dirty.foldl (fun m h => match h.ws.getLast? with
      | some w => cellSet zeroed m h.key w.val
      | none => m) (s.mem.filter fun c => !inRange r c.1)
    hist := dirty ++ s.hist.filter fun h => !inRange r h.key
    zeroed := zeroed }

def keyRegion : Nat := 2 ^ 21

/-- The key owner of ranges: an ASID, or 0xFFFF for plain (12 R331); the entry set last stands first. -/
def ownerPieces : List (Nat × Nat × Nat) → List (Nat × Nat) → List ((Nat × Nat) × Nat)
  | [], rs => rs.map fun r => (r, 0xFFFF)
  | e :: m, rs =>
    (rs.flatMap fun r => (meetRange r (e.1, e.2.1)).map fun x => (x, e.2.2)) ++ ownerPieces m (cutAll rs [(e.1, e.2.1)])

-- DEDUCED (log 48, safe and in part unsafe): An ASID without a key of its own counts as an owner apart, so that what its regions held reads as free values once it has a key.
/-- The key owner of one place. -/
def keyOwner (m : List (Nat × Nat × Nat)) (k : Nat) : Nat := ((ownerPieces m [(k, 1)]).head?.map Prod.snd).getD 0xFFFF

/-- The key that an owner's regions stand under: plain, an ASID's, or that of an ASID without one. -/
def State.keyOf (s : State) (owner : Nat) : Nat :=
  if owner = 0xFFFF ∨ ((s.asid? owner).map Asid.enc).getD false then owner else 0x10000 + owner

/-- The ranges of a piece whose homes have been written while they stood under their present key, by whole 64-byte lines. -/
def State.writtenIn (s : State) (r : Nat × Nat) : List (Nat × Nat) :=
  ((s.mem.filter fun c => inRange r c.1 && (s.homeByte c.1).isSome).map fun c => (c.1 / 64 * 64, 64)).eraseDups ++ s.zeroed.flatMap fun z => meetRange z r

/-- Bytes stored under former keys that a write to a range has replaced. -/
def State.unstore (s : State) (r : Nat × Nat) : State :=
  { s with hidden := s.hidden.filter fun h => !inRange r h.2.1, hiddenZ := s.hiddenZ.flatMap fun h => (cutRange h.2 r).map fun x => (h.1, x) }

/-- A range taken from one key to another: its stored bytes stay, and are kept under the old key until a line of them is written. A line that
still stands as it was written under the new key is read back; every other byte reads as an undefined value (12 R331). -/
def State.rekey (s : State) (r : Nat × Nat) (old new : Nat) : State :=
  if old = new then s
  else
    let cuts := s.writtenIn r
    let keys := ((s.mem.filter fun c => inRange r c.1).map (fun (c : Host.Cell) => c.1) ++ (s.hist.filter fun h => inRange r h.key).map Hist.key).eraseDups
    let stored := keys.filterMap fun k => (s.homeByte k).map fun b => (old, (k, b))
    let zeros := s.zeroed.flatMap fun z => (meetRange z r).map fun x => (old, x)
    let kept := s.hidden.filter fun h => !(cuts.any fun c => inRange c h.2.1)
    let keptZ := s.hiddenZ.flatMap fun h => (cutAll [h.2] cuts).map fun x => (h.1, x)
    let back (h : Nat × Host.Cell) : Bool := h.1 == new && inRange r h.2.1
    let s := s.undefine r
    let zs := (keptZ.flatMap fun (h : Nat × Nat × Nat) => if h.1 = new then meetRange h.2 r else []) ++ s.zeroed
    let m := s.mem.filter fun c => unlisted zs c.1 != some c.2
    { s with
      zeroed := zs
      mem := (kept.filter back).foldl (fun m (h : Nat × Host.Cell) => cellSet zs m h.2.1 h.2.2) m
      hidden := stored ++ kept.filter fun h => !back h
      hiddenZ := zeros ++ keptZ.flatMap fun (h : Nat × Nat × Nat) => if h.1 = new then (cutRange h.2 r).map (fun x => (h.1, x)) else [h] }

/-- Ranges whose owner is told, rekeyed. -/
def State.rekeyAll (s : State) (ps : List ((Nat × Nat) × Nat)) (new : Nat) : State :=
  ps.foldl (fun s p => s.rekey p.1 (s.keyOf p.2) new) s

/-- The ranges that an ASID owns. -/
def State.ownedBy (s : State) (a : Nat) : List ((Nat × Nat) × Nat) :=
  (ownerPieces s.plat.keyMap [(0, 2 ^ 43)]).filter fun p => p.2 == a

/-- A key destroyed: nothing stored under it can be read again. -/
def State.dropKey (s : State) (key : Nat) : State :=
  { s with hidden := s.hidden.filter fun h => h.1 != key, hiddenZ := s.hiddenZ.filter fun h => h.1 != key }

/-- Whether a function may name an ASID: a VF only the one bound to it. -/
def State.mayName (s : State) (fn asid : Nat) : Bool := fn == 0 || ((s.asid? asid).bind Asid.vf) == some fn

def isPow2 (n : Nat) : Bool := (List.range 32).any fun i => n == 2 ^ i

/-- The descriptor of a QUEUE_CREATE is in range (11 R291). -/
def Mailbox.queueOk (m : Mailbox) : Bool :=
  let f := m.num
  m.only [(0, 2), (8, 13), (22, 18)] && decide (f 0 2 < 1024) && f 8 8 % 4096 == 0 && isPow2 (f 16 4) && decide (64 ≤ f 16 4 ∧ f 16 4 ≤ 2 ^ 20) &&
    (f 20 1 == 3 || f 20 1 == 4) && decide (f 22 2 ≤ 127) && f 24 8 % 8 == 0 && f 32 8 % 8 == 0

/-- An index translates to a writable leaf of this device (11 R292). -/
def State.indexOk (s : State) (party asid va : Nat) : Bool × State :=
  match s.feKeys party asid va 8 true with
  | (.ok ks, s) => (ks.all isDeviceKey, s)
  | (.error .lost, s) => (false, s.loseContext asid 0x74 (asid * 2 ^ 22) 0)
  | (.error _, s) => (false, s)

def State.queueCreate (s : State) (fn : Nat) (m : Mailbox) : State :=
  let f := m.num
  if !m.queueOk then s.finishMb fn 3 []
  else if !s.mayName fn (f 0 2) then s.finishMb fn 2 []
  else if (s.queue? (f 0 2) (f 22 2)).isSome then s.finishMb fn 3 []
  else
    let (party, s) := s.fe
    let (a, s) := s.indexOk party (f 0 2) (f 24 8)
    let (b, s) := s.indexOk party (f 0 2) (f 32 8)
    if !a || !b then s.finishMb fn 3 []
    else
      let q : Queue := { asid := f 0 2, qid := f 22 2, base := f 8 8, size := f 16 4, rev := f 20 1, widx := f 24 8, ridx := f 32 8, rpos := 0,
                         wseen := 0, runs := [], halted := false, stopping := false, owner := fn, clk := [], pollAt := s.ref }
      ({ s with queues := s.queues ++ [q] }).finishMb fn 0 []

/-- A queue that QUEUE_DESTROY or a reset of its function stops, once its started packets have completed, is gone. -/
def State.dropQueue (s : State) (asid qid : Nat) : State :=
  { s with queues := s.queues.filter fun q => !(q.asid == asid && q.qid == qid) }

def State.queueDestroy (s : State) (fn : Nat) (m : Mailbox) : State :=
  let asid := m.num 0 2
  let qid := m.num 2 2
  if !m.only [(0, 4)] || decide (asid ≥ 1024 ∨ qid > 127) then s.finishMb fn 3 []
  else if !s.mayName fn asid then s.finishMb fn 2 []
  else match s.queue? asid qid with
    | none => s.finishMb fn 3 []
    | some q =>
      if q.runs.isEmpty then (s.dropQueue asid qid).finishMbWith fn q.clk
      else s.updQueue asid qid fun q => { q with stopping := true }

/-- The entries of a run list in a body, and whether they are in range (11 R298). -/
def Mailbox.runEnts (m : Mailbox) : List RunEnt × Bool :=
  let f := m.num
  let live := (List.range 64).takeWhile fun k => f (64 * k + 2) 2 != 0
  (live.map fun k => { asid := f (64 * k) 2, nq := f (64 * k + 2) 2, quant := f (64 * k + 4) 4, savepool := f (64 * k + 16) 8,
                       saveslots := f (64 * k + 24) 4 },
   live.all fun k => decide (f (64 * k) 2 < 1024 ∧ f (64 * k + 2) 2 ≤ 128 ∧ f (64 * k + 16) 8 % 2 ^ 23 = 0 ∧ 1 ≤ f (64 * k + 24) 4 ∧
     f (64 * k + 24) 4 ≤ 2 ^ 22) && (List.range 36).all fun i => f (64 * k + 28 + i) 1 == 0)

def State.runlistSet (s : State) (fn : Nat) (m : Mailbox) : State :=
  let (l, ok) := m.runEnts
  if !ok then s.finishMb fn 3 []
  else
    let s := s.finishMb fn 0 []
    if s.plat.runList.isEmpty then
      match l with
      | e :: _ => s.beginTurn l 0 e
      | [] => s
    else { s with plat := { s.plat with nextList := some l } }

-- DEDUCED (log 84, unsafe): an ASID that has a key keeps it when it is bound with ENC = 1 again.
/-- ASID_BIND (12 R324, R331). -/
def State.asidBind (s : State) (fn : Nat) (m : Mailbox) : State :=
  let a := m.num 0 2
  let enc := m.num 2 1
  let vf := m.num 3 1
  if !m.only [(0, 4)] || decide (a ≥ 1024 ∨ enc > 1) || !(decide (1 ≤ vf ∧ vf ≤ 63) || vf == 0xFF) || (enc == 1 && !s.plat.encAvail) then
    s.finishMb fn 3 []
  else
    let old := s.asid? a
    let (party, s) := s.partyFor (.host fn)
    let s := s.tlbRemove (s.clkOf party) (some a) none
    let x : Asid := { num := a, vf := if vf = 0xFF then none else some vf, enc := enc == 1, root := (assoc? s.plat.roots a).getD 0,
                      refused := (old.map Asid.refused).getD false }
    -- a key given or taken away changes what the regions of this ASID read as
    let s := if (old.map Asid.enc).getD false == (enc == 1) then s
      else (s.rekeyAll (s.ownedBy a) (if enc = 1 then a else 0x10000 + a)).dropKey (s.keyOf a)
    ({ s with plat := { s.plat with asids := x :: s.plat.asids.filter fun y => y.num != a } }).finishMb fn 0 []

def State.asidFree (s : State) (fn : Nat) (m : Mailbox) : State :=
  let a := m.num 0 2
  if !m.only [(0, 2)] || decide (a ≥ 1024) then s.finishMb fn 3 []
  else if s.teams.any fun t => t.asid == a && t.status != .retiring then s
  else
    let s := (s.rekeyAll (s.ownedBy a) 0xFFFF).dropKey (s.keyOf a)
    let s := { s with plat := { s.plat with keyMap := s.plat.keyMap.map fun (e : Nat × Nat × Nat) => if e.2.2 = a then (e.1, e.2.1, 0xFFFF) else e } }
    ({ s with plat := { s.plat with asids := s.plat.asids.filter (fun y => y.num != a), ctxLost := s.plat.ctxLost.filter (· != a) } }).finishMb fn 0 []

def State.keymapSet (s : State) (fn : Nat) (m : Mailbox) : State :=
  let base := m.num 0 8
  let len := m.num 8 8
  let a := m.num 16 2
  if !m.only [(0, 18)] || base % keyRegion != 0 || len % keyRegion != 0 || decide (base + len > 2 ^ 43) || !(decide (a < 1024) || a == 0xFFFF) then
    s.finishMb fn 3 []
  else
    let s := s.rekeyAll (ownerPieces s.plat.keyMap [(base, len)]) (s.keyOf a)
    ({ s with plat := { s.plat with keyMap := (base, len, a) :: s.plat.keyMap } }).finishMb fn 0 []

def State.streamSet (s : State) (fn : Nat) (m : Mailbox) : State :=
  let f := m.num
  let slots := f 4 4
  let j := f 24 4
  if !m.only [(0, 1), (2, 27)] || decide (f 0 1 > 3 ∨ f 2 2 > 255) || !isPow2 slots || decide (slots < 16 ∨ slots > 65536) || f 8 8 % 4096 != 0 ||
      f 16 8 % 16384 != 0 || !(j == 0 || (isPow2 j && decide (j ≤ 4096))) || decide (f 28 1 > 3 ∨ f 8 8 ≥ 2 ^ 43 ∨ f 16 8 ≥ 2 ^ 43) then
    s.finishMb fn 3 []
  else
    let enable := fieldOf (f 28 1) 0 1 == 1
    let reseq := fieldOf (f 28 1) 1 1 == 1
    (s.updPort (f 0 1) fun p =>
      let x := p.stream (f 2 2)
      let y := { x with ring := f 8 8, slots := slots, jring := f 16 8, jslots := j, enable := enable,
                        held := x.held }
      p.putStream (if reseq then { y with next := 1, jnext := 0 } else { y with jnext := if j = 0 then x.jnext else x.jnext % j })).finishMb fn 0 []

def State.ruleSet (s : State) (fn : Nat) (m : Mailbox) : State :=
  let f := m.num
  if !m.only [(0, 1), (2, 2), (8, 130)] || decide (f 0 1 > 3 ∨ f 2 2 > 255 ∨ f 137 1 > 1) then s.finishMb fn 3 []
  else
    let bytes (o : Nat) : List Byte := (List.range 64).map fun i => (assoc? m.req (o + i)).getD 0
    let r : EthRule := { idx := f 2 2, val := bytes 8, mask := bytes 72, stream := f 136 1, valid := f 137 1 == 1 }
    (s.updPort (f 0 1) fun p => { p with rules := sortBy (fun a b => decide (a.idx ≤ b.idx)) (r :: p.rules.filter fun x => x.idx != r.idx) }).finishMb
      fn 0 []

def State.txringSet (s : State) (fn : Nat) (m : Mailbox) : State :=
  let f := m.num
  if !m.only [(0, 2), (4, 28)] || decide (f 0 1 > 3 ∨ f 1 1 > 15) || !isPow2 (f 4 4) || decide (f 4 4 < 16 ∨ f 4 4 > 4096) || f 8 8 % 16384 != 0 ||
      f 16 8 % 8 != 0 || f 24 8 % 8 != 0 || decide (f 8 8 ≥ 2 ^ 43 ∨ f 16 8 ≥ 2 ^ 43 ∨ f 24 8 ≥ 2 ^ 43) then s.finishMb fn 3 []
  else
    let r : TxRing := { num := f 1 1, slots := f 4 4, base := f 8 8, txp := f 16 8, txc := f 24 8, sent := 0 }
    (s.updPort (f 0 1) fun p => { p with rings := r :: p.rings.filter fun x => x.num != r.num }).finishMb fn 0 []

/-- Bytes of an image in device memory, as they stand at their homes; a byte with no value is a free value of this one reading of the image,
which nothing writes down (00 R4). -/
def State.imageBytes (s : State) (image : Nat) (off n : Nat) : List Byte :=
  (List.range n).map fun i => (s.homeByte (image + off + i)).getD ((Config.freeWord (s.freeCtr + off + i)).setWidth 8)

/-- An image read once: no later free value is one of this reading. Its offsets and lengths are 32 bits wide. -/
def State.imageRead (s : State) : State := { s with freeCtr := s.freeCtr + 2 ^ 33 }

-- DESIGN CHOICE (log 83, unsafe): two digests of the code section that differ give reason 4 in response byte 0.
/-- Step 1 of an update: the code section copied into the standby bank; then step 2, Texis's verification (12 R333, 20 R486). -/
def State.fwUpdate (s : State) (fn : Nat) (m : Mailbox) : State :=
  let image := m.num 0 8
  let len := m.num 8 4
  let hand := m.num 16 8
  -- after CODE 5 the standby bank holds undefined bytes (20 R486)
  let fail (s : State) (code reason : Nat) : State :=
    ({ s with plat := { s.plat.spoilBank (!s.plat.bank) with upd := none } }).finishMb fn code (if reason = 0 then [] else [(0, BitVec.ofNat 8 reason)])
  match s.plat.upd with
  | some u =>
    if u.fn != fn then s.finishMb fn 1 []
    else if u.stage != 1 then s
    else
      let get := s.imageBytes image
      match s.imageRead.verify get true with
      | (some r, s) => fail s 5 r
      | (none, s) =>
        let there := (List.range (codeOf get).2).map fun i => s.plat.bankAt (!s.plat.bank) ((codeOf get).1 + i)
        if Config.shake256 there 64 != Config.shake256 (measured3 get) 64 then fail s 5 4
        else { s with plat := { s.plat with upd := some { u with stage := 2, meas2 := measured2 get, meas3 := measured3 get } } }
  | none =>
    if !m.only [(0, 12), (16, 8)] || image % 4096 != 0 || hand % 4096 != 0 || decide (image ≥ 2 ^ 43 ∨ hand ≥ 2 ^ 43) || !backed image || !backed hand then
      s.finishMb fn 3 []
    else
      let get := s.imageBytes image
      let s := s.imageRead
      let hover := leNum (get 13 1)
      if !Config.writesHover s.plat.runHover hover then s.finishMb fn 6 []
      else
        let code := codeOf get
        let bytes := (((List.range code.2).map fun i => code.1 + i).zip (get code.1 code.2)).filter fun b => decide (b.1 < 0x80000)
        let laid (old : List (Nat × Byte)) : List (Nat × Byte) := bytes ++ old.filter fun b => !decide (code.1 ≤ b.1 ∧ b.1 < code.1 + code.2)
        let u : FwUpd := { fn := fn, seq := m.seq, image := image, len := len, hand := hand, hover := hover, stage := 1, started := 0, meas2 := [],
                           meas3 := [] }
        { s with plat :=
            if s.plat.bank then { s.plat with bankA := laid s.plat.bankA, upd := some u }
            else { s.plat with bankB := laid s.plat.bankB, upd := some u } }

/-- EVICT: done once every running cluster of the ASID is saved. -/
def State.evictAsid (s : State) (fn : Nat) (m : Mailbox) : State :=
  let a := m.num 0 2
  if !m.only [(0, 2)] || decide (a ≥ 1024) then s.finishMb fn 3 []
  else
    let running := s.clusters.filter fun c => c.status == .running && (s.launchOfCluster c).map Launch.asid == some a
    let saved := (s.teams.filter fun t => t.asid == a).map fun t => s.teamClk t.ctxh
    if running.isEmpty then s.finishMbWith fn (saved.foldl clkJoin []) else running.foldl (fun s c => s.evictCluster c.id) s

def State.fabricSet (s : State) (fn : Nat) (m : Mailbox) : State :=
  if !m.only [(0, 2), (8, 2048)] || decide (m.num 0 2 > 1023) then s.finishMb fn 3 []
  else
    let rs := ((List.range 1024).map fun n => (n, BitVec.ofNat 16 (m.num (8 + 2 * n) 2))).filter fun r => r.2 != 0
    ({ s with plat := { s.plat with ownPeer := m.num 0 2, routes := rs } }).finishMb fn 0 []

/-- Commands that only the PF may give. -/
def pfOnly (opc : Nat) : Bool := decide (3 ≤ opc ∧ opc ≤ 10) || opc == 11 || opc == 12

-- DEDUCED (log 47, unsafe): see notes/assumptions/47.md.
/-- Firmware serves the request of a function: with PHASE 0xF hardware answers CODE 8; before READY, and while it changes banks, requests
wait. -/
def State.serveMb (s : State) (fn : Nat) : State :=
  let m := s.mbox fn
  if !m.busy then s
  else if s.plat.phase == .failed then s.finishMb fn 8 []
  else if s.plat.phase != .ready || s.plat.fwsw then s
  else if m.opc = 0 ∨ m.opc > 12 then s.finishMb fn 4 []
  else if fn ≠ 0 ∧ pfOnly m.opc then s.finishMb fn 2 []
  else match m.opc with
    | 1 => s.queueCreate fn m
    | 2 => s.queueDestroy fn m
    | 3 => s.runlistSet fn m
    | 4 => s.asidBind fn m
    | 5 => s.asidFree fn m
    | 6 => s.keymapSet fn m
    | 7 => s.streamSet fn m
    | 8 => s.ruleSet fn m
    | 9 => s.txringSet fn m
    | 10 => s.fwUpdate fn m
    | 11 => s.evictAsid fn m
    | _ => s.fabricSet fn m

/-- A write of MBCMD: BUSY set and DONE cleared in one step; ignored while BUSY. -/
def State.writeMbcmd (s : State) (fn opc seq : Nat) : State :=
  let m := s.mbox fn
  if m.busy then s
  else (s.putMbox { m with busy := true, done := false, code := 0, clk := [], seq := seq % 256, opc := opc % 65536 }).serveMb fn

-- DEDUCED (log 47, unsafe): The row of a command stands for the write of MBCMD with that command and, while it is busy, for firmware's further service of it.
/-- A mailbox command: its write, and while it is being served its further service. -/
def mailboxEvent (s : State) (fn seq opc : Nat) : Host.Outcome State Fault Refusal :=
  .next (
    if !s.fnExists fn then s
    else
      let m := s.mbox fn
      if m.busy then (if m.opc = opc ∧ m.seq = seq % 256 then s.serveMb fn else s) else s.writeMbcmd fn opc seq)

def execQueueCreate (fn seq : Nat) (s : State) : Host.Outcome State Fault Refusal := mailboxEvent s fn seq 1
def execQueueDestroy (fn seq : Nat) (s : State) : Host.Outcome State Fault Refusal := mailboxEvent s fn seq 2
def execRunlistSet (fn seq : Nat) (s : State) : Host.Outcome State Fault Refusal := mailboxEvent s fn seq 3
def execAsidBind (fn seq : Nat) (s : State) : Host.Outcome State Fault Refusal := mailboxEvent s fn seq 4
def execAsidFree (fn seq : Nat) (s : State) : Host.Outcome State Fault Refusal := mailboxEvent s fn seq 5
def execKeymapSet (fn seq : Nat) (s : State) : Host.Outcome State Fault Refusal := mailboxEvent s fn seq 6
def execStreamSet (fn seq : Nat) (s : State) : Host.Outcome State Fault Refusal := mailboxEvent s fn seq 7
def execRuleSet (fn seq : Nat) (s : State) : Host.Outcome State Fault Refusal := mailboxEvent s fn seq 8
def execTxringSet (fn seq : Nat) (s : State) : Host.Outcome State Fault Refusal := mailboxEvent s fn seq 9
def execFwUpdate (fn seq : Nat) (s : State) : Host.Outcome State Fault Refusal := mailboxEvent s fn seq 10
def execEvict (fn seq : Nat) (s : State) : Host.Outcome State Fault Refusal := mailboxEvent s fn seq 11
def execFabricSet (fn seq : Nat) (s : State) : Host.Outcome State Fault Refusal := mailboxEvent s fn seq 12

/-- NOCMD: an OPC that is no command. -/
def execNocmd (fn seq opc : Nat) (s : State) : Host.Outcome State Fault Refusal :=
  if 1 ≤ opc % 65536 ∧ opc % 65536 ≤ 12 then .next s else mailboxEvent s fn seq (opc % 65536)

/-! ## Functions (12 R316) -/

-- DEDUCED (log 75, unsafe): The queues of a VF are those of the ASIDs bound to it.
/-- FLR_VF: the function's queues stop under QUEUE_DESTROY, and its own registers are as after reset. -/
def execFlrVf (vf : Nat) (s : State) : Host.Outcome State Fault Refusal :=
  let mine (q : Queue) : Bool := ((s.asid? q.asid).bind Asid.vf) == some vf
  .next (
    if vf = 0 ∨ !s.fnExists vf then s
    else { s with
      queues := (s.queues.filter fun q => !(mine q && q.runs.isEmpty)).map fun (q : Queue) => if mine q then { q with stopping := true } else q
      plat := { s.plat with mboxes := s.plat.mboxes.filter (fun m => m.fn != vf), logs := s.plat.logs.filter fun l => l.fn != vf } })

/-- SRIOV_VF_ENABLE: the functions that go away take their mailboxes and logs with them. -/
def execSriovVfEnable (n : Nat) (s : State) : Host.Outcome State Fault Refusal :=
  .next (if s.plat.powered then { s with plat := { s.plat with
      numVfs := min n 63
      mboxes := s.plat.mboxes.filter fun m => decide (m.fn ≤ min n 63)
      logs := s.plat.logs.filter fun l => decide (l.fn ≤ min n 63) } }
    else s)

/-! ## Writes of BAR0 (00 R10, R11, 12 R318 to R325, R345, R347, R349, 20 R479) -/

/-- Eight bytes written into a mailbox's request area. -/
def State.writeReq (s : State) (fn off : Nat) (v : Word) : State :=
  let m := s.mbox fn
  let bytes := (bytesOf 8 v.toNat).zipIdx.map fun (b, i) => (off + i, b)
  s.putMbox { m with req := bytes.foldl (fun r x => assocSet r x.1 x.2) m.req }

-- DEDUCED (log 76, unsafe): Of RESET and GO in one write only the reset takes place.
/-- A control register of the PF alone: DEVCTL, PWRCAP. -/
def State.writePf (s : State) (off : Nat) (v : Word) : State :=
  if off = 0x10 then
    (if v.getLsbD 1 then s.deviceReset else if v.getLsbD 0 then s.bootGo else s)
  else if off = 0x40 then
    let c := fieldOf v.toNat 0 16
    if 800 ≤ c ∧ c ≤ 2400 then { s with plat := { s.plat with pwrcap := c, overFrom := if s.plat.pwrnow > c * 10 then s.plat.overFrom else none } } else s
  else s

-- DEDUCED (log 48, safe and in part unsafe): A virtual function's writes of DEVCTL and PWRCAP are ignored.
-- DEDUCED (log 58, safe and in part unsafe): see notes/assumptions/58.md.
/-- REGISTER_WRITE: eight bytes of BAR0 under their access codes. -/
def execRegisterWrite (fn off : Nat) (v : Word) (s : State) : Host.Outcome State Fault Refusal :=
  let off := off / 8 * 8
  .next (
    if !s.fnExists fn || !s.plat.hostUp then s
    else if off = 0x20 then s.writeMbcmd fn (fieldOf v.toNat 0 16) (fieldOf v.toNat 16 8)
    else if off = 0x68 then
      let l := s.evLog fn
      if v.toNat ≤ l.wr ∧ l.wr ≤ v.toNat + 512 then s.putEvLog { l with rd := v.toNat } else s
    else if 0x20000 ≤ off ∧ off < 0x21000 then s.writeReq fn (off - 0x20000) v
    else if fn ≠ 0 then s
    else if off < 0x10000 then s.writePf off v
    else if 0x30000 ≤ off ∧ off < 0x32000 then
      { s with plat := { s.plat with roots := assocSet s.plat.roots ((off - 0x30000) / 8) (v &&& 0x7FFFFFFF000#64) } }
    else if 0x100000 ≤ off ∧ off < 0x200000 then s.bootWrite (off - 0x100000) (bytesOf 8 v.toNat)
    else if 0x1000000 ≤ off ∧ off < 0x1400000 then
      let n := (off - 0x1000000) / 2 ^ 20
      if off % 2 ^ 20 = 0x118 then s.stepPhc n v else s.updPort n fun p => p.put s.ref (off % 2 ^ 20) v
    else if 0x2000000 ≤ off ∧ off < 0x2100000 ∧ off % 2 ^ 16 = 8 then
      (if v.getLsbD 0 then s.enableRonou ((off - 0x2000000) / 2 ^ 16) else s.disableRonou ((off - 0x2000000) / 2 ^ 16))
    else s)

/-! ## Firmware (12 R332, R333, 20 R485, R486) -/

/-- The old image runs again, from its ENTRY (20 R486). -/
def State.fallBack (s : State) (u : FwUpd) : State :=
  let s := { s with plat := { s.plat with
    fwsw := false, bank := !s.plat.bank, upd := none, ctl := .start s.plat.ctl.oldEntry s.plat.ctl.oldEntry } }
  (s.finishMb u.fn 7 []).logEvent 0x82 0 65 0 0

-- DESIGN CHOICE (log 21, safe and in part unsafe): The record is firmware's own; its 4 KiB page takes undefined values.
/-- FIRMWARE_BANK_SWITCH: with a verified image, the handover record is written and the standby bank takes over; once the new image runs, it
clears FWSW, or faults before it does. The record's bytes are firmware's own; they are taken to fill its 4 KiB page (log 21). -/
def execFirmwareBankSwitch (ok : Bool) (s : State) : Host.Outcome State Fault Refusal :=
  .next (match s.plat.upd with
    | none => s
    | some u =>
      if s.plat.phase != .ready then s
      else if u.stage = 2 then
        let s := (s.undefine (u.hand, 4096)).unstore (u.hand, 4096)
        -- the controller jumps to ENTRY of the new image (12 R327, R333)
        let entry := leNum ((u.meas2.drop 16).take 4)
        { s with plat := { s.plat with
          fwsw := true, bank := !s.plat.bank, upd := some { u with stage := 3, started := s.ref }
          ctl := { s.plat.ctl with pc := BitVec.ofNat 32 entry, entry := entry, oldEntry := s.plat.ctl.entry } } }
      else if u.stage = 3 then
        -- an image that is late has been replaced by then
        if !ok || decide (s.ref ≥ u.started + 1000000) then s.fallBack u
        else
          let count (i : Nat) : Nat := ((s.plat.meas[i]?).map Meas.count).getD 0
          let slot (i : Nat) (bytes : List Byte) : Meas := { digest := .of (Config.shake256 bytes 64), count := count i + 1 }
          let s := { s with plat := { s.plat with
            fwsw := false, upd := none, runHover := u.hover, fwver := leNum ((u.meas2.drop 4).take 4), meas := setAt (setAt s.plat.meas 2 (slot 2 u.meas2)) 3 (slot 3 u.meas3) } }
          s.signAlias.finishMb u.fn 0 []
      else s)

/-- FW_FALLBACK: the new image has not cleared FWSW within 1,000,000 REF ticks of its jump; with PHASE 0xF every request has been answered CODE 8. -/
def execFwFallback (s : State) : Host.Outcome State Fault Refusal :=
  .next (match s.plat.upd with
    | some u => if s.plat.phase = .ready ∧ u.stage = 3 ∧ s.ref ≥ u.started + 1000000 then s.fallBack u else s
    | none => s)

/-- Whether the controller runs firmware: from boot step 5 on, until the device fails (12 R326). -/
def State.firmwareRuns (s : State) : Bool := s.plat.phase == .fwStart || s.plat.phase == .ready

-- PRESUMED (log 77, safe and in part unsafe): The watchdog acts from PHASE 0x4 on, in which the firmware already runs.
/-- WATCHDOG: a missed deadline, a controller trap or an uncorrectable error of the active bank, each of which firmware's own behaviour
decides. -/
def execWatchdog (s : State) : Host.Outcome State Fault Refusal :=
  .next (if s.firmwareRuns then s.deviceFail 0x82 65 0 else s)

/-! ## Attestation (12 R330) -/

/-- Texis answers a request through the PF's DOE mailbox. -/
def spdm (s : State) (r : SpdmResp) : Host.Outcome State Fault Refusal :=
  .next (if s.plat.powered && s.plat.hostUp then { s with plat := { s.plat with spdm := r } } else s)

/-- The chain of a certificate slot: the device identity, or the alias certificate. -/
def State.chainOf (s : State) (slot : Nat) : Option (List Byte) :=
  if slot = 0 then some (Config.certChain 0) else if slot = 1 then some (Config.certChain 1 ++ s.plat.spdmSlot1) else none

def execSpdmGetVersion (s : State) : Host.Outcome State Fault Refusal := spdm s (.version 1 3)
def execSpdmGetCapabilities (s : State) : Host.Outcome State Fault Refusal := spdm s .capabilities
/-- The one algorithm set of the part: ML-DSA-65 and SHA3-384. -/
def execSpdmNegotiateAlgorithms (s : State) : Host.Outcome State Fault Refusal := spdm s .algorithms
def execSpdmGetDigests (s : State) : Host.Outcome State Fault Refusal :=
  spdm s (.digests ([s.chainOf 0, s.chainOf 1].filterMap fun c => c.map Config.sha3))
def execSpdmGetCertificate (slot : Nat) (s : State) : Host.Outcome State Fault Refusal :=
  spdm s (match s.chainOf slot with
    | some c => .certificate slot c
    | none => .error)
def execSpdmChallenge (slot : Nat) (nonce : List Byte) (s : State) : Host.Outcome State Fault Refusal :=
  spdm s (match s.chainOf slot with
    | some c => .challenge slot (Config.mldsaSign (nonce ++ Config.sha3 c))
    | none => .error)

/-- The measurement blocks of SPDM 1.3: operation 0 asks for their number, 0xFF for all of them, 1 to 16 for one, whose slot is one less. -/
def execSpdmGetMeasurements (op : Nat) (nonce : List Byte) (s : State) : Host.Outcome State Fault Refusal :=
  let all := s.plat.meas.zipIdx.map fun (m, i) => (i, m)
  let sign (l : List (Nat × Meas)) : List Byte := Config.mldsaSign (nonce ++ l.flatMap fun x => match x.2.digest with
    | .of b => b
    | .rom => Config.romDigest
    | .ioCfg => Config.ioDigest)
  spdm s (
    if op = 0 then .measurements s.plat.fwver 16 [] (sign [])
    else if op = 0xFF then .measurements s.plat.fwver 16 all (sign all)
    else if 1 ≤ op ∧ op ≤ 16 then .measurements s.plat.fwver 16 (all.filter fun x => x.1 + 1 == op) (sign (all.filter fun x => x.1 + 1 == op))
    else .error)

end Sys2Proof.Machine
end

