-- ==== Sys2Proof/Machine/Controller.lean ====
section
/-!
DEFINITION. The firmware controller of the I/O die: one in-order RV32IMC core that runs from its active bank (12 R332). The spec names the
instruction set and gives nothing of it; what an instruction does is that of the unprivileged RISC-V set (log 77).
-/
namespace Sys2Proof.Machine

/-! ## Words of 32 bits by their fields -/

/-- Field [lo + n - 1 : lo] of a word as a signed number, at a power of two. -/
def sext (v n : Nat) : BitVec 32 := (BitVec.ofNat n v).signExtend 32

def rvR (f7 rs2 rs1 f3 rd op : Nat) : Nat := f7 * 2 ^ 25 + rs2 * 2 ^ 20 + rs1 * 2 ^ 15 + f3 * 2 ^ 12 + rd * 2 ^ 7 + op
def rvI (imm : BitVec 32) (rs1 f3 rd op : Nat) : Nat := fieldOf imm.toNat 0 12 * 2 ^ 20 + rs1 * 2 ^ 15 + f3 * 2 ^ 12 + rd * 2 ^ 7 + op
def rvS (imm : Nat) (rs2 rs1 : Nat) : Nat := fieldOf imm 5 7 * 2 ^ 25 + rs2 * 2 ^ 20 + rs1 * 2 ^ 15 + 2 * 2 ^ 12 + fieldOf imm 0 5 * 2 ^ 7 + 0x23
def rvB (imm : BitVec 32) (rs1 f3 : Nat) : Nat :=
  let i := imm.toNat
  fieldOf i 12 1 * 2 ^ 31 + fieldOf i 5 6 * 2 ^ 25 + rs1 * 2 ^ 15 + f3 * 2 ^ 12 + fieldOf i 1 4 * 2 ^ 8 + fieldOf i 11 1 * 2 ^ 7 + 0x63
def rvJ (imm : BitVec 32) (rd : Nat) : Nat :=
  let i := imm.toNat
  fieldOf i 20 1 * 2 ^ 31 + fieldOf i 1 10 * 2 ^ 21 + fieldOf i 11 1 * 2 ^ 20 + fieldOf i 12 8 * 2 ^ 12 + rd * 2 ^ 7 + 0x6F

/-! ## Compressed instructions -/

/-- A compressed instruction of quadrant 0 as the word it stands for. -/
def rvC0 (c : Nat) : Option Nat :=
  let f := fieldOf c
  let rd := 8 + f 2 3
  let rs1 := 8 + f 7 3
  let off := f 10 3 * 8 + f 6 1 * 4 + f 5 1 * 64
  let wide := f 11 2 * 16 + f 7 4 * 64 + f 6 1 * 4 + f 5 1 * 8
  match f 13 3 with
  | 0 => if wide = 0 then none else some (rvI (BitVec.ofNat 32 wide) 2 0 rd 0x13)
  | 2 => some (rvI (BitVec.ofNat 32 off) rs1 2 rd 0x03)
  | 6 => some (rvS off rd rs1)
  | _ => none

/-- The same of quadrant 1. -/
def rvC1 (c : Nat) : Option Nat :=
  let f := fieldOf c
  let rd := f 7 5
  let r1 := 8 + f 7 3
  let r2 := 8 + f 2 3
  let imm := sext (f 12 1 * 32 + f 2 5) 6
  let jump := sext (f 12 1 * 2048 + f 11 1 * 16 + f 9 2 * 256 + f 8 1 * 1024 + f 7 1 * 64 + f 6 1 * 128 + f 3 3 * 2 + f 2 1 * 32) 12
  let branch := sext (f 12 1 * 256 + f 10 2 * 8 + f 5 2 * 64 + f 3 2 * 2 + f 2 1 * 32) 9
  let stack := sext (f 12 1 * 512 + f 6 1 * 16 + f 5 1 * 64 + f 3 2 * 128 + f 2 1 * 32) 10
  match f 13 3 with
  | 0 => some (rvI imm rd 0 rd 0x13)
  | 1 => some (rvJ jump 1)
  | 2 => some (rvI imm 0 0 rd 0x13)
  | 3 =>
    if rd = 2 then (if stack = 0 then none else some (rvI stack 2 0 2 0x13))
    else if imm = 0 then none else some (fieldOf imm.toNat 0 20 * 2 ^ 12 + rd * 2 ^ 7 + 0x37)
  | 4 => match f 10 2 with
    | 0 => if f 12 1 = 1 then none else some (rvR 0 (f 2 5) r1 5 r1 0x13)
    | 1 => if f 12 1 = 1 then none else some (rvR 32 (f 2 5) r1 5 r1 0x13)
    | 2 => some (rvI imm r1 7 r1 0x13)
    | _ => if f 12 1 = 1 then none else match f 5 2 with
      | 0 => some (rvR 32 r2 r1 0 r1 0x33)
      | 1 => some (rvR 0 r2 r1 4 r1 0x33)
      | 2 => some (rvR 0 r2 r1 6 r1 0x33)
      | _ => some (rvR 0 r2 r1 7 r1 0x33)
  | 5 => some (rvJ jump 0)
  | 6 => some (rvB branch r1 0)
  | _ => some (rvB branch r1 1)

/-- The same of quadrant 2. -/
def rvC2 (c : Nat) : Option Nat :=
  let f := fieldOf c
  let rd := f 7 5
  let rs2 := f 2 5
  match f 13 3 with
  | 0 => if f 12 1 = 1 then none else some (rvR 0 rs2 rd 1 rd 0x13)
  | 2 => if rd = 0 then none else some (rvI (BitVec.ofNat 32 (f 12 1 * 32 + f 4 3 * 4 + f 2 2 * 64)) 2 2 rd 0x03)
  | 4 =>
    if f 12 1 = 0 then
      (if rs2 ≠ 0 then some (rvR 0 rs2 0 0 rd 0x33) else if rd = 0 then none else some (rvI 0 rd 0 0 0x67))
    else if rs2 ≠ 0 then some (rvR 0 rs2 rd 0 rd 0x33) else if rd = 0 then some 0x00100073 else some (rvI 0 rd 0 1 0x67)
  | 6 => some (rvS (f 9 4 * 4 + f 7 2 * 64) rs2 2)
  | _ => none

/-- The word that the first half of an instruction stands for, if it is compressed and legal. -/
def rvExpand (c : Nat) : Option Nat :=
  match fieldOf c 0 2 with
  | 0 => rvC0 c
  | 1 => rvC1 c
  | _ => rvC2 c

/-! ## Arithmetic -/

/-- The result of a register or immediate operation by its function code; `alt` is the bit that tells sub from add and sra from srl. -/
def rvAlu (f3 : Nat) (alt : Bool) (a b : BitVec 32) : BitVec 32 :=
  let sh := fieldOf b.toNat 0 5
  match f3 with
  | 0 => if alt then a - b else a + b
  | 1 => a <<< sh
  | 2 => if a.toInt < b.toInt then 1 else 0
  | 3 => if a.toNat < b.toNat then 1 else 0
  | 4 => a ^^^ b
  | 5 => if alt then a.sshiftRight sh else a >>> sh
  | 6 => a ||| b
  | _ => a &&& b

/-- The result of a multiplication or division. -/
def rvMul (f3 : Nat) (a b : BitVec 32) : BitVec 32 :=
  let high (x : Int) : BitVec 32 := BitVec.ofInt 32 (x / 2 ^ 32)
  match f3 with
  | 0 => a * b
  | 1 => high (a.toInt * b.toInt)
  | 2 => high (a.toInt * b.toNat)
  | 3 => high (a.toNat * b.toNat)
  | 4 => if b = 0 then BitVec.allOnes 32 else BitVec.ofInt 32 (a.toInt.tdiv b.toInt)
  | 5 => if b = 0 then BitVec.allOnes 32 else BitVec.ofNat 32 (a.toNat / b.toNat)
  | 6 => if b = 0 then a else BitVec.ofInt 32 (a.toInt.tmod b.toInt)
  | _ => if b = 0 then a else BitVec.ofNat 32 (a.toNat % b.toNat)

/-- Whether a branch is taken; none where the function code is no branch. -/
def rvTaken (f3 : Nat) (a b : BitVec 32) : Option Bool :=
  match f3 with
  | 0 => some (a == b)
  | 1 => some (a != b)
  | 4 => some (decide (a.toInt < b.toInt))
  | 5 => some (decide (b.toInt ≤ a.toInt))
  | 6 => some (decide (a.toNat < b.toNat))
  | 7 => some (decide (b.toNat ≤ a.toNat))
  | _ => none

/-! ## The core -/

/-- A register of the core; x0 reads zero. -/
def Controller.reg (c : Controller) (r : Nat) : BitVec 32 := if r = 0 then 0 else c.regs.getD (r - 1) 0

/-- A register written; x0 discards it. -/
def Controller.put (c : Controller) (r : Nat) (v : BitVec 32) : Controller := if r = 0 then c else { c with regs := setAt c.regs (r - 1) v }

-- PRESUMED (log 77, safe and in part unsafe): The active bank stands at address 0 of the core, whose other addresses read as free values.
/-- Bytes that the core reads: those of its active bank, or free ones. -/
def State.ctlRead (s : State) (a n : Nat) : Nat × State :=
  if a + n ≤ 0x80000 then (leNum ((List.range n).map fun i => s.plat.bankAt s.plat.bank (a + i)), s)
  else let (bs, s) := s.takeBytes n; (leNum bs, s)

/-- Bytes that the core writes: into its active bank. What a write elsewhere does, the acts of firmware say (12 R332). -/
def State.ctlWrite (s : State) (a n v : Nat) : State :=
  if a + n ≤ 0x80000 then
    let bank := (bytesOf n v).zipIdx.foldl (fun l x => assocSet l (a + x.2) x.1) (if s.plat.bank then s.plat.bankB else s.plat.bankA)
    { s with plat := if s.plat.bank then { s.plat with bankB := bank } else { s.plat with bankA := bank } }
  else s

def State.updCtl (s : State) (f : Controller → Controller) : State := { s with plat := { s.plat with ctl := f s.plat.ctl } }

/-- A trap of the core: the watchdog fires (20 R485), or, in a new image that has not cleared FWSW, the old one runs again (R486). -/
def State.ctlTrap (s : State) : State :=
  match s.plat.upd with
  | some u => if u.stage = 3 then s.fallBack u else s.deviceFail 0x82 65 0
  | none => s.deviceFail 0x82 65 0

/-- One instruction of `len` bytes. -/
def State.ctlExec (s : State) (w len : Nat) : State :=
  let c := s.plat.ctl
  let f := fieldOf w
  let a := c.reg (f 15 5)
  let b := c.reg (f 20 5)
  let rd := f 7 5
  let f3 := f 12 3
  let immI := sext (f 20 12) 12
  let immU : BitVec 32 := BitVec.ofNat 32 (f 12 20 * 2 ^ 12)
  let immB := sext (f 31 1 * 4096 + f 7 1 * 2048 + f 25 6 * 32 + f 8 4 * 2) 13
  let immJ := sext (f 31 1 * 2 ^ 20 + f 12 8 * 4096 + f 20 1 * 2048 + f 21 10 * 2) 21
  let next := c.pc + BitVec.ofNat 32 len
  let goes (v : BitVec 32) : State := s.updCtl fun c => { c.put rd v with pc := next }
  let jumps (t : BitVec 32) : State := s.updCtl fun c => { c.put rd next with pc := t }
  match f 0 7 with
  | 0x37 => goes immU
  | 0x17 => goes (c.pc + immU)
  | 0x6F => jumps (c.pc + immJ)
  | 0x67 => if f3 = 0 then jumps ((a + immI) &&& ~~~1#32) else s.ctlTrap
  | 0x63 => match rvTaken f3 a b with
    | some t => s.updCtl fun c => { c with pc := if t then c.pc + immB else next }
    | none => s.ctlTrap
  | 0x03 =>
    let at_ := (a + immI).toNat
    let load (n : Nat) (ext : Nat → BitVec 32) : State :=
      let (v, s) := s.ctlRead at_ n
      s.updCtl fun c => { c.put rd (ext v) with pc := next }
    match f3 with
    | 0 => load 1 fun v => sext v 8
    | 1 => load 2 fun v => sext v 16
    | 2 => load 4 fun v => BitVec.ofNat 32 v
    | 4 => load 1 fun v => BitVec.ofNat 32 v
    | 5 => load 2 fun v => BitVec.ofNat 32 v
    | _ => s.ctlTrap
  | 0x23 =>
    if f3 ≤ 2 then (s.ctlWrite (a + sext (f 25 7 * 32 + f 7 5) 12).toNat (2 ^ f3) b.toNat).updCtl fun c => { c with pc := next } else s.ctlTrap
  | 0x13 =>
    if f3 = 1 ∧ f 25 7 ≠ 0 then s.ctlTrap
    else if f3 = 5 ∧ f 25 7 ≠ 0 ∧ f 25 7 ≠ 32 then s.ctlTrap
    else goes (rvAlu f3 (f3 == 5 && f 30 1 == 1) a immI)
  | 0x33 =>
    if f 25 7 = 1 then goes (rvMul f3 a b)
    else if f 25 7 = 0 ∨ (f 25 7 = 32 ∧ (f3 = 0 ∨ f3 = 5)) then goes (rvAlu f3 (f 30 1 == 1) a b) else s.ctlTrap
  | 0x0F => if f3 = 0 then s.updCtl fun c => { c with pc := next } else s.ctlTrap
  | _ => s.ctlTrap

-- PRESUMED (log 77, safe and in part unsafe): see notes/assumptions/77.md.
/-- The controller runs its next instruction, fetched from its active bank; a fetch elsewhere, and an instruction outside RV32IMC, is a trap. -/
def State.ctlStep (s : State) : State :=
  if !s.firmwareRuns || !s.plat.powered then s
  else
    let pc := s.plat.ctl.pc.toNat
    if pc + 2 > 0x80000 then s.ctlTrap
    else
      let (c, s) := s.ctlRead pc 2
      if fieldOf c 0 2 ≠ 3 then
        match rvExpand c with
        | some w => s.ctlExec w 2
        | none => s.ctlTrap
      else if pc + 4 > 0x80000 then s.ctlTrap
      else
        let (w, s) := s.ctlRead pc 4
        s.ctlExec w 4

end Sys2Proof.Machine
end

