-- ==== Sys2Proof/Machine/Atomics.lean ====
section
/-!
DEFINITION. The atomic instructions (07 R187 to R191): `atom`, `cas` and `fatom` answer when their value arrives, `red` answers nothing.
-/
namespace Sys2Proof.Machine

def execAtom (h : Hdr) (op : AtomOp) (m : MemF) (s : State) : Host.Outcome State Fault Refusal :=
  memInstr s h false false m (.atom op h.ty) (src2 h) [1] [0, 1] 1

def execCas (h : Hdr) (m : MemF) (s : State) : Host.Outcome State Fault Refusal :=
  memInstr s h false false m (.cas h.ty) (src3 h) [1, 2] [0, 1, 2] 1

def execRed (h : Hdr) (op : AtomOp) (m : MemF) (s : State) : Host.Outcome State Fault Refusal :=
  memInstr s h false false m (.red op h.ty) (src2 h) [1] [0, 1] 0

def execFatom (h : Hdr) (op : FatomOp) (m : MemF) (s : State) : Host.Outcome State Fault Refusal :=
  memInstr s h false false m (.fatom op h.ty) (src2 h) [1] [0, 1] 1

end Sys2Proof.Machine
end

