-- ==== Sys2Proof/Machine/Convert.lean ====
section
/-!
DEFINITION. The conversion, packing and quantising instructions (06 R149 to R153, 16 R401).
-/
namespace Sys2Proof.Machine

def execCvt (h : Hdr) (rm : Rnd) (sat : Bool) (tys : Ty) (s : State) : Host.Outcome State Fault Refusal :=
  fpu s h (src1 h) fun cx v => convert h.ty tys rm sat cx.t.ftz (v.getD 0 0)

/-- A word with element `n` of width `w` replaced. -/
def putElem (a : Word) (w n v : Nat) : Word :=
  let old := fieldOf a.toNat (w * n) w
  wordOf (a.toNat - old * 2 ^ (w * n) + v % 2 ^ w * 2 ^ (w * n))

def execPack (h : Hdr) (rm : Rnd) (sat : Bool) (tys : Ty) (n : BitVec 6) (s : State) : Host.Outcome State Fault Refusal :=
  fpu s h (src2 h) fun cx v =>
    let (r, fl) := convert h.ty tys rm sat cx.t.ftz (v.getD 1 0)
    (putElem (v.getD 0 0) h.ty.width n.toNat (lowBits h.ty.width r), fl)

def execUnpack (h : Hdr) (rm : Rnd) (sat : Bool) (tys : Ty) (n : BitVec 6) (s : State) : Host.Outcome State Fault Refusal :=
  fpu s h (src1 h) fun cx v =>
    convert h.ty tys rm sat cx.t.ftz (wordOf (fieldOf (v.getD 0 0).toNat (tys.width * n.toNat) tys.width))

/-! ## qnt -/

/-- K of a block format (04 R102). -/
def blockK : BlkFmt → Nat
  | .se7 | .mxe4m3 | .mxe5m2 | .mxint8 => 128
  | .se4 | .mxe3m2 | .mxe2m3 | .mxfp4 => 256
  | .se2 => 512

-- DEDUCED (log 61, unsafe): an element's flags are raised by the lane whose quotient it holds.
/-- The words that `qnt` pushes, lane by lane, and the flags that each element raises, with the lane whose quotient it is: `src` names the lane
whose quotient a lane takes (06 R152, 04 R95). -/
def qntWords (f : BlkFmt) (cx : Cx) (os : List Operand) (src : Nat → Nat) : List Word × List (Nat × Flags) :=
  let vals := (List.range 32).map fun l =>
    let q := src l
    if cx.on.getLsbD q then
      let v := valsAt os q
      quotient (decodeF .f32 (lowBits 32 (v.getD 0 0))) (decodeF .f32 (lowBits 32 (v.getD 1 0)))
    else .q false 0 1
  let g := blkLanes f
  let blocks := (List.range (32 / g)).map fun i => quantBlock f ((vals.drop (g * i)).take g)
  let words := (List.range 32).map fun l =>
    let b := blocks.getD (l / g) { ex := 0, mu := 0, elems := [], flags := [] }
    blockWord f (l % g) b.ex b.mu (b.elems.getD (l % g) 0)
  -- the quotient of a switched-off lane is +0 and raises nothing
  (words, (List.range 32).map fun l => (src l, ((blocks.map Block.flags).getD (l / g) []).getD (l % g) 0))

/-- The lanes whose block has a poisoned source among the lanes it takes: their results are poisoned (17 R434). -/
def qntPoison (f : BlkFmt) (cx : Cx) (os : List Operand) (src : Nat → Nat) : List Nat :=
  let g := blkLanes f
  cx.lanes.filter fun l => (List.range g).any fun j =>
    let q := src (l / g * g + j)
    cx.on.getLsbD q && poisonAt os q

/-- `qnt` once its source lanes are known. The flags are raised once for the whole instruction. -/
def State.quantise (s : State) (cx : Cx) (f : BlkFmt) (os : List Operand) (src : Nat → Nat) : State :=
  let (ws, fl) := qntWords f cx os src
  let bad := qntPoison f cx os src
  ((s.finish cx 1 fun l =>
    if cx.on.getLsbD l then [ent (ws.getD l 0) (bad.contains l)] else [offEnt os l]).flagsNow cx fl).consume cx os

def execQnt (h : Hdr) (f : BlkFmt) (s : State) : Host.Outcome State Fault Refusal :=
  run s h (Shape.user (src2 h) true) fun cx s =>
    let (os, s) := s.operands cx (src2 h) true
    s.quantise cx f os fun l => l

/-- The 16-bit entries of a permutation table in the team's own scratchpad, read by a party in program order. -/
def State.tableEntries (s : State) (party serial base : Nat) : Nat → List Nat × State
  | 0 => ([], s)
  | n + 1 =>
    let (ps, s) := s.tableEntries party serial base n
    let (bs, _, s) := s.readNow party none (keysFrom (spKey serial (base + 2 * n)) 2)
    (ps ++ [leNum bs], s)

/-- `qnt` with a permutation table, whose reads wait as an `ld` does (06 R152): the control word of the lowest switched-on lane is checked at stage 5
(16 R401). -/
def execQntPerm (h : Hdr) (f : BlkFmt) (s : State) : Host.Outcome State Fault Refusal :=
  run s h (Shape.user (src3 h) true) fun cx s =>
    if memWait cx false then s.holdEntries cx else
    let s0 := s
    let (os, s) := s.operands cx (src3 h) true
    match cx.lead with
    | none => s.quantise cx f os fun l => l
    | some l0 =>
      let ctl := ((valsAt os l0).getD 2 0).toNat
      let seg := fieldOf ctl 0 10
      let c0 := fieldOf ctl 16 16
      if seg ≥ cx.tm.segs then s.fail cx 0x25 (bitMask l0) 0 (memDetail (.range 3 0 seg) 0 0 0)
      else if fieldOf ctl 10 6 ≠ 0 ∨ ctl ≥ 2 ^ 32 ∨ c0 % 32 ≠ 0 ∨ c0 + 31 ≥ blockK f then s.fail cx 0x42 (bitMask l0) 0 (6 + ctl % 2 ^ 32 * 2 ^ 32)
      else if cx.t.pend.any fun q => q.openAtomic (s0.clkOf cx.sp.party) (keysFrom (spKey cx.tm.serial (segBytes * seg + 2 * c0)) 64) then
        s0.holdEntries cx
      else
        let s1 := s
        let (ps, s) := s.tableEntries cx.sp.party cx.tm.serial (segBytes * seg + 2 * c0) 32
        if ps.any fun p => decide (p < c0 ∨ c0 + 31 < p) then s1.fail cx 0x42 (bitMask l0) 0 (7 + ctl % 2 ^ 32 * 2 ^ 32)
        else s.quantise cx f os fun l => ps.getD l c0 - c0

/-! ## dqnt -/

def execDqnt (h : Hdr) (f : BlkFmt) (s : State) : Host.Outcome State Fault Refusal :=
  fpu s h (src1 h) fun _ v => let (r, fl) := dequant f (v.getD 0 0).toNat none; (BitVec.ofNat 64 r, fl)

def execDqntScaled (h : Hdr) (f : BlkFmt) (s : State) : Host.Outcome State Fault Refusal :=
  fpu s h (src2 h) fun _ v =>
    let (r, fl) := dequant f (v.getD 0 0).toNat (some (lowBits 32 (v.getD 1 0)))
    (BitVec.ofNat 64 r, fl)

end Sys2Proof.Machine
end

