-- ==== Sys2Proof/Machine/Floating.lean ====
section
/-!
DEFINITION. The floating-point and transcendental instructions (06 R145 to R148). Every result is zero-extended (03 R54).
-/
namespace Sys2Proof.Machine

/-- A floating-point result as a pushed word with its flags. -/
def fres (r : Nat × Flags) : Word × Flags := (BitVec.ofNat 64 r.1, r.2)

/-- The n-th source as a value of TY, flushed under FPCTL.FTZ (04 R86). -/
def farg (cx : Cx) (v : List Word) (n : Nat) : FV := readF cx.h.ty cx.t.ftz (v.getD n 0)

/-- A long-latency floating-point entry. -/
def fpuLong (s : State) (h : Hdr) (srcs : List (Nat × Src)) (f : Cx → List Word → Nat × Flags) : Host.Outcome State Fault Refusal :=
  aluLong s h false srcs 1 fun cx _ v => ([BitVec.ofNat 64 (f cx v).1], (f cx v).2)

def execFadd (h : Hdr) (rm : Rnd) (s : State) : Host.Outcome State Fault Refusal :=
  fpu s h (src2 h) fun cx v => fres (fAdd h.ty rm cx.t.ftz (farg cx v 0) (farg cx v 1))

def execFsub (h : Hdr) (rm : Rnd) (s : State) : Host.Outcome State Fault Refusal :=
  fpu s h (src2 h) fun cx v => fres (fAdd h.ty rm cx.t.ftz (farg cx v 0) (farg cx v 1).negate)

def execFmul (h : Hdr) (rm : Rnd) (s : State) : Host.Outcome State Fault Refusal :=
  fpu s h (src2 h) fun cx v => fres (fMul h.ty rm cx.t.ftz (farg cx v 0) (farg cx v 1))

def execFfma (h : Hdr) (rm : Rnd) (s : State) : Host.Outcome State Fault Refusal :=
  fpu s h (src3 h) fun cx v => fres (fFma h.ty rm cx.t.ftz (farg cx v 0) (farg cx v 1) (farg cx v 2))

def execFmin (h : Hdr) (s : State) : Host.Outcome State Fault Refusal :=
  fpu s h (src2 h) fun cx v => fres (fMinMax h.ty cx.t.ftz false (v.getD 0 0) (v.getD 1 0))

def execFmax (h : Hdr) (s : State) : Host.Outcome State Fault Refusal :=
  fpu s h (src2 h) fun cx v => fres (fMinMax h.ty cx.t.ftz true (v.getD 0 0) (v.getD 1 0))

def execFneg (h : Hdr) (s : State) : Host.Outcome State Fault Refusal :=
  fpu s h (src1 h) fun cx v => fres (fSign h.ty cx.t.ftz (fun n => !n) (v.getD 0 0))

def execFabs (h : Hdr) (s : State) : Host.Outcome State Fault Refusal :=
  fpu s h (src1 h) fun cx v => fres (fSign h.ty cx.t.ftz (fun _ => false) (v.getD 0 0))

def execFdiv (h : Hdr) (rm : Rnd) (s : State) : Host.Outcome State Fault Refusal :=
  fpuLong s h (src2 h) fun cx v => fDiv h.ty rm cx.t.ftz (farg cx v 0) (farg cx v 1)

def execFsqrt (h : Hdr) (rm : Rnd) (s : State) : Host.Outcome State Fault Refusal :=
  fpuLong s h (src1 h) fun cx v => fSqrt h.ty rm cx.t.ftz (farg cx v 0)

def execFrnd (h : Hdr) (rm : Rnd) (s : State) : Host.Outcome State Fault Refusal :=
  fpu s h (src1 h) fun cx v => fres (fRound h.ty rm cx.t.ftz (v.getD 0 0))

def execFclass (h : Hdr) (s : State) : Host.Outcome State Fault Refusal :=
  fpu s h (src1 h) fun _ v => (BitVec.ofNat 64 (fClass h.ty (lowBits h.ty.width (v.getD 0 0))), 0)

/-- `fscale`: the second source is an s32 whatever TY is (06 R146). -/
def execFscale (h : Hdr) (rm : Rnd) (s : State) : Host.Outcome State Fault Refusal :=
  fpu s h (src2 h) fun cx v => fres (fScale h.ty rm cx.t.ftz (farg cx v 0) (intOf .s32 (v.getD 1 0)))

def execFrcp (h : Hdr) (s : State) : Host.Outcome State Fault Refusal :=
  fpuLong s h (src1 h) fun cx v => transOp trRcp h.ty cx.t.ftz (v.getD 0 0)

def execFrsq (h : Hdr) (s : State) : Host.Outcome State Fault Refusal :=
  fpuLong s h (src1 h) fun cx v => transOp trRsq h.ty cx.t.ftz (v.getD 0 0)

def execFex2 (h : Hdr) (s : State) : Host.Outcome State Fault Refusal :=
  fpuLong s h (src1 h) fun cx v => transOp trEx2 h.ty cx.t.ftz (v.getD 0 0)

def execFlg2 (h : Hdr) (s : State) : Host.Outcome State Fault Refusal :=
  fpuLong s h (src1 h) fun cx v => transOp trLg2 h.ty cx.t.ftz (v.getD 0 0)

def execFsin (h : Hdr) (s : State) : Host.Outcome State Fault Refusal :=
  fpuLong s h (src1 h) fun cx v => transOp trSin h.ty cx.t.ftz (v.getD 0 0)

def execFcos (h : Hdr) (s : State) : Host.Outcome State Fault Refusal :=
  fpuLong s h (src1 h) fun cx v => transOp trCos h.ty cx.t.ftz (v.getD 0 0)

def execFtanh (h : Hdr) (s : State) : Host.Outcome State Fault Refusal :=
  fpuLong s h (src1 h) fun cx v => transOp trTanh h.ty cx.t.ftz (v.getD 0 0)

end Sys2Proof.Machine
end

