-- ==== Sys2Proof/Machine/Lanes.lean ====
section
/-!
DEFINITION. The lane operations (06 R154 to R158). The word a lane takes from another lane is read as field 3 (16 R395).
-/
namespace Sys2Proof.Machine

/-! ## Reading across lanes -/

/-- What is pending among the lanes that each switched-on lane reads through SA, when LADBG is set. -/
def crossPending (cx : Cx) (reads : Nat → List Nat) : Option (Mask × Nat) :=
  match cx.h.sa with
  | .age n =>
    let bad := cx.lanes.filter fun l => (reads l).any fun q => (cx.t.age q (n.toNat + 1)).pend.isSome
    if bad.isEmpty then none else some (maskOf bad, cx.h.sa.sel + 32 * 3)
  | _ => none

/-- The operand read through SA. -/
def saOf (os : List Operand) : Operand := (os.find? fun o => o.field == 0).getD { field := 0, sel := .zero, vals := [] }

/-- Whether a lane reads its result from a poisoned word of another lane, or from a poisoned operand of its own beside SA. -/
def crossPoison (os : List Operand) (reads : Nat → List Nat) (l : Nat) : Bool :=
  (reads l).any (fun q => ((saOf os).at q).poison) || os.any fun o => o.field != 0 && (o.at l).poison

/-- The stop of a lane operation that consumes poisoned words (17 R434). -/
def State.consumeAcross (s : State) (cx : Cx) (os : List Operand) (reads : Nat → List Nat) : State :=
  let bad := cx.lanes.filter (crossPoison os reads)
  if bad.isEmpty then s
  else
    let own := os.find? fun o => o.field != 0 && bad.any fun l => (o.at l).poison
    let src := bad.any fun l => (reads l).any fun q => ((saOf os).at q).poison
    let d := if src then cx.h.sa.sel + 32 * 3 else (own.map fun o => o.sel.sel + 32 * o.field).getD 0
    s.raise cx.who cx.k (cx.trap 0x71 (maskOf bad) 0 d) none

/-- The lane a computed source stands for: itself where it is a source lane, else the reading lane (06 R154). -/
def sourceLane (cx : Cx) (l q : Nat) : Nat := if q < 32 && cx.mask.getLsbD q then q else l

/-- A word narrowed to TY and widened. -/
def narrow (t : Ty) (v : Word) : Word := widen t (unsOf t v : Nat)

/-! ## shfl and bcast -/

/-- The source lane of `shfl` (06 R156), for segment width w. -/
def shflFrom (mode : ShflMode) (w l d : Nat) : Nat :=
  let b := l - l % w
  match mode with
  | .pick => b + d % w
  | .back => if l < b + d then l else l - d
  | .ahead => if l + d ≥ b + w then l else l + d
  | .mirror => b + (l % w ^^^ d % w)
  | .turn => b + (l % w + d) % w

/-- A distance read before anything else of the instruction. -/
def peekLane (cx : Cx) (x : Src) (l : Nat) : Nat :=
  match x with
  | .age n => (cx.t.age l (n.toNat + 1)).val.toNat
  | .slot n => ((cx.t.fword (cx.sp.fb + n.toNat) l).getD 0).toNat
  | .zero => 0
  | .imm => (cx.h.ext.getD 0).toNat

def execShfl (h : Hdr) (mode : ShflMode) (wc : BitVec 3) (s : State) : Host.Outcome State Fault Refusal :=
  let w := 2 ^ wc.toNat
  let reads (cx : Cx) (d : Nat → Nat) (l : Nat) : List Nat := [sourceLane cx l (shflFrom mode w l (d l % 32))]
  runAcross s h (Shape.user [(4, h.sa), (1, h.sb)] true) (fun cx => crossPending cx (reads cx (peekLane cx h.sb))) fun cx s =>
    let (os, s) := s.operands cx (src2 h) true
    let rd := reads cx fun l => ((valsAt os l).getD 1 0).toNat
    let outs := cx.lanes.map fun l => (l, [narrow h.ty (((saOf os).at ((rd l).headD l)).v)])
    (s.reserve cx 1 cx.on (offEnt os) (.value outs (cx.lanes.map fun l => (l, 0)) (cx.lanes.filter (crossPoison os rd)))).consumeAcross
      cx os rd

/-- A broadcast from a lane; the mark of the source lane passes through (17 R433). -/
def broadcast (s : State) (h : Hdr) (from_ : Cx → Nat) : Host.Outcome State Fault Refusal :=
  runAcross s h (Shape.user [(4, h.sa)] true) (fun cx => crossPending cx fun l => [sourceLane cx l (from_ cx)]) fun cx s =>
    let (os, s) := s.operands cx (src1 h) true
    s.finish cx 1 fun l =>
      if cx.on.getLsbD l then
        let v := (saOf os).at (sourceLane cx l (from_ cx))
        [ent (narrow h.ty v.v) v.poison]
      else [offEnt os l]

def execBcast (h : Hdr) (ln : BitVec 5) (s : State) : Host.Outcome State Fault Refusal := broadcast s h fun _ => ln.toNat

def execBcastFirst (h : Hdr) (s : State) : Host.Outcome State Fault Refusal := broadcast s h fun cx => cx.lead.getD 0

/-! ## vote, elect, lanemask -/

/-- The switched-on lanes in which the voted predicate, inverted when NEG = 1, is true (06 R157). -/
def voted (cx : Cx) (ps : Option Pred) (ng : Bool) : Mask := cx.on &&& (if ng then ~~~(cx.t.pred ps) else cx.t.pred ps)

def vote (s : State) (h : Hdr) (pd : Pred) (f : Cx → Bool) : Host.Outcome State Fault Refusal :=
  act s h (Shape.user [] false) fun cx _ s =>
    s.doneWith cx fun t => t.writePred (some pd) cx.on (if f cx then allLanes else 0)

def execVoteAny (h : Hdr) (ps : Option Pred) (ng : Bool) (pd : Pred) (s : State) : Host.Outcome State Fault Refusal :=
  vote s h pd fun cx => voted cx ps ng != 0

def execVoteAll (h : Hdr) (ps : Option Pred) (ng : Bool) (pd : Pred) (s : State) : Host.Outcome State Fault Refusal :=
  vote s h pd fun cx => voted cx ps ng == cx.on

def execVoteUni (h : Hdr) (ps : Option Pred) (ng : Bool) (pd : Pred) (s : State) : Host.Outcome State Fault Refusal :=
  vote s h pd fun cx => voted cx ps ng == cx.on || voted cx ps ng == 0

/-- An entry that pushes a mask and reads SA in switched-off lanes only (06 R131). -/
def pushMask (s : State) (h : Hdr) (f : Cx → Nat → Nat) : Host.Outcome State Fault Refusal :=
  act s h (Shape.user (srcOff h) true) fun cx os s =>
    s.finish cx 1 fun l => if cx.on.getLsbD l then [ent (wordOf (f cx l)) false] else [offEnt os l]

def execVoteBallot (h : Hdr) (ps : Option Pred) (ng : Bool) (s : State) : Host.Outcome State Fault Refusal :=
  pushMask s h fun cx _ => (voted cx ps ng).toNat

def execElect (h : Hdr) (pd : Pred) (s : State) : Host.Outcome State Fault Refusal :=
  act s h (Shape.user [] false) fun cx _ s =>
    s.doneWith cx fun t => t.writePred (some pd) cx.on ((cx.lead.map bitMask).getD 0)

def laneMaskOf (cx : Cx) (mode : MaskMode) (l : Nat) : Nat :=
  match mode with
  | .split => cx.mask.toNat
  | .on => cx.on.toNat
  | .self => 2 ^ l
  | .under => 2 ^ l - 1
  | .upto => 2 ^ (l + 1) - 1
  | .over => 2 ^ 32 - 2 ^ (l + 1)
  | .from => 2 ^ 32 - 2 ^ l

def execLanemask (h : Hdr) (mode : MaskMode) (s : State) : Host.Outcome State Fault Refusal := pushMask s h fun cx l => laneMaskOf cx mode l

/-! ## redux and scan -/

/-- An exact f32 sum rounded once, with the flags of R158. -/
def sumF32 (ftz : Bool) (vs : List Word) : Word × Flags :=
  let xs := vs.map (readF .f32 ftz)
  let a := xs.foldl Sum.add Sum.zero
  let both := xs.any (· == .inf false) && xs.any (· == .inf true)
  let nv : Flags := if both || xs.any FV.isSig then fNV else 0
  match a.value with
  | .nan _ => (wordOf (canonNaN .f32), nv)
  | .inf n => (wordOf (infBits .f32 n), nv)
  | .fin neg m e => let (b, fl) := roundF .f32 .rn ftz false neg m 1 e; (wordOf b, fl ||| nv)

/-- f32 minimum or maximum of the values combined, in ascending lane order (06 R146). -/
def minMaxF32 (ftz isMax : Bool) : List Word → Word × Flags
  | [] => (0, 0)
  | v :: vs =>
    let first := fMinMax .f32 ftz isMax v v
    let r := vs.foldl (fun (a : Nat × Flags) v =>
      let b := fMinMax .f32 ftz isMax (wordOf a.1) v
      (b.1, a.2 ||| b.2)) first
    (wordOf r.1, r.2)

/-- The integer combination of values (06 R158). -/
def combineInt (op : RedOp) (t : Ty) (vs : List Word) : Word :=
  let is := vs.map (intOf t)
  let us := vs.map (unsOf t)
  match op with
  | .add => widen t is.sum
  | .min => widen t (is.foldl min (is.headD 0))
  | .max => widen t (is.foldl max (is.headD 0))
  | .and => widen t (us.foldl (· &&& ·) (2 ^ t.width - 1) : Nat)
  | .or => widen t (us.foldl (· ||| ·) 0 : Nat)
  | .xor => widen t (us.foldl (· ^^^ ·) 0 : Nat)

/-- The combination of one or more values. -/
def combine (op : RedOp) (t : Ty) (ftz : Bool) (vs : List Word) : Word × Flags :=
  if t == .f32 then
    match op with
    | .min => minMaxF32 ftz false vs
    | .max => minMaxF32 ftz true vs
    | _ => sumF32 ftz vs
  else (combineInt op t vs, 0)

/-- The empty combination (06 R158). -/
def identityOf (op : RedOp) (t : Ty) : Word :=
  if t == .f32 then
    match op with
    | .min => wordOf (infBits .f32 false)
    | .max => wordOf (infBits .f32 true)
    | _ => 0
  else match op with
    | .min => widen t (tyMax t)
    | .max => widen t (tyMin t)
    | .and => widen t (2 ^ t.width - 1 : Nat)
    | _ => 0

/-- A combination over switched-on lanes: `reads` gives the lanes that lane L combines. -/
def reduce (s : State) (h : Hdr) (op : RedOp) (reads : Cx → Nat → List Nat) : Host.Outcome State Fault Refusal :=
  runAcross s h (Shape.user [(4, h.sa)] true) (fun cx => crossPending cx (reads cx)) fun cx s =>
    let (os, s) := s.operands cx (src1 h) true
    let out (l : Nat) : Word × Flags :=
      match reads cx l with
      | [] => (identityOf op h.ty, 0)
      | qs => combine op h.ty cx.t.ftz (qs.map fun q => ((saOf os).at q).v)
    let outs := cx.lanes.map fun l => (l, out l)
    (s.reserve cx 1 cx.on (offEnt os) (.value (outs.map fun o => (o.1, [o.2.1])) (outs.map fun o => (o.1, o.2.2))
      (cx.lanes.filter (crossPoison os (reads cx))))).consumeAcross cx os (reads cx)

def execRedux (h : Hdr) (op : RedOp) (s : State) : Host.Outcome State Fault Refusal := reduce s h op fun cx _ => cx.lanes

def execScan (h : Hdr) (op : RedOp) (excl : Bool) (s : State) : Host.Outcome State Fault Refusal :=
  reduce s h op fun cx l => cx.lanes.filter fun q => decide (q < l) || (q == l && !excl)

end Sys2Proof.Machine
end

