-- ==== Sys2Proof/Machine/Physical.lean ====
section
/-!
DEFINITION. Time, frequency, power and temperature (12 R336 to R338, R349, 20 R495, R496), the links of the package and of the fabric (12
R334, R346, R347, 17 R426, R427, 20 R487, R488, R494), the host link (20 R489), Ethernet frames (09 R264, R265, 12 R342 to R345, 20 R490 to
R493) and soft errors (17 R432, R435, R436).
-/
namespace Sys2Proof.Machine

/-! ## Time (12 R336, R337) -/

/-- INC of a frequency in MHz: round_rne(65,536 * 1,700 / f). -/
def incOf (mhz : Nat) : Nat :=
  let n := 65536 * 1700
  let q := n / mhz
  if 2 * (n % mhz) > mhz ∨ (2 * (n % mhz) = mhz ∧ q % 2 = 1) then q + 1 else q

/-- A die runs for some REF ticks of one nanosecond at its frequency; a stopped die counts REF alone. -/
def Die.run (d : Die) (stop : Bool) (n : Nat) : Die :=
  let c := if stop then 0 else (d.frac + n * d.mhz) / 1000
  { d with ref := d.ref + n, clk := d.clk + c, clks := d.clks + c * d.inc, frac := if stop then d.frac else (d.frac + n * d.mhz) % 1000 }

/-- The end of a relock: the new frequency and INC, and a new newest entry of FHIST. -/
def Die.endRelock (d : Die) : Die :=
  match d.relock with
  | none => d
  | some f => { d with
      mhz := f, inc := incOf f, relock := none, clksAt := (d.clks, incOf f) :: d.clksAt
      fhidx := if d.fhist.isEmpty then 0 else (d.fhidx + 1) % 8
      fhist := ({ ref := d.relockAt, mhz := f, inc := incOf f } :: d.fhist).take 8 }

-- DESIGN CHOICE (log 12, safe): see notes/assumptions/12.md.
/-- REF ticks pass on a die: while it relocks, CLK and CLKS hold. -/
def Die.pass (d : Die) (stop : Bool) (n : Nat) : Die :=
  if !d.released then d
  else if d.relock.isNone then d.run stop n
  else
    let rest := d.relockAt - d.ref
    if n ≤ rest then { d with ref := d.ref + n } else ({ d with ref := d.ref + rest }).endRelock.run stop (n - rest)

-- DESIGN CHOICE (log 12, safe): REF advances by acts of their own, one tick at a time or by the number that the agenda names; CLK and CLKS follow at the die's frequency.
/-- The stale notices that waited for a compute die which takes messages again are delivered (12 R337, 20 R488). -/
def State.takeAllNotices (s : State) : State := [0, 1, 2, 3].foldl State.takeNotices s

/-- REF ticks pass in the package. After a thermal trip the core clocks of every die but the I/O die stand (20 R496). -/
def State.elapse (s : State) (n : Nat) : State :=
  State.takeAllNotices { s with dies := s.dies.map fun (d : Die) => d.pass (s.plat.clockStop && d.num != 12) n }

/-! ## Frequency, power, temperature (12 R349, 20 R495, R496) -/

/-- An event that is logged at most once per second for a key: its log, and the REF of that. -/
def State.logOnce (s : State) (key cause level source : Nat) (detail : Word) : State :=
  match assoc? s.plat.loggedAt key with
  | some r =>
    if s.ref < r + 1000000000 then s
    else
      let s := s.logEvent cause level source 0 detail
      { s with plat := { s.plat with loggedAt := assocSet s.plat.loggedAt key s.ref } }
  | none =>
    let s := s.logEvent cause level source 0 detail
    { s with plat := { s.plat with loggedAt := assocSet s.plat.loggedAt key s.ref } }

/-- A relock begun. -/
def Die.step (d : Die) (mhz : Nat) : Die := { d with relock := some mhz, relockAt := d.ref + 2000 }

def State.computeDies (s : State) : List Die := s.dies.filter fun d => decide (d.num < 4)

/-- Every compute die runs at 0.8 GHz. -/
def State.allSlow (s : State) : Bool := s.computeDies.all fun d => d.mhz == 800 && d.relock.isNone

/-- FREQUENCY_STEP: firmware steps a compute die, to 800 MHz alone while the supply is out of its limits, and none while it changes banks (12
R332). -/
def execFrequencyStep (die mhz : Nat) (s : State) : Host.Outcome State Fault Refusal :=
  let legal := decide (die < 4 ∧ 800 ≤ mhz ∧ mhz ≤ 1800 ∧ mhz % 100 = 0) && s.plat.phase == .ready && !s.plat.fwsw && (!s.plat.supplyHeld || mhz == 800)
  .next (match s.die? die with
    | none => s
    | some d =>
      if legal && d.released && d.relock.isNone && d.mhz != mhz then
        { s.updDie die (fun d => d.step mhz) with plat := { s.plat with overFrom := if mhz = 800 then s.plat.overFrom else none } }
      else s)

/-- RELOCK_END. -/
def execRelockEnd (die : Nat) (s : State) : Host.Outcome State Fault Refusal :=
  .next (s.updDie die fun d => if d.released && decide (d.ref ≥ d.relockAt) then d.endRelock else d).takeAllNotices

-- DESIGN CHOICE (log 53, safe): see notes/assumptions/53.md.
/-- POWER_LIMIT: a reading of PWRNOW, in tenths of a watt. Above the cap for 100 ms with every compute die at 0.8 GHz it is logged. -/
def execPowerLimit (tenths : Nat) (s : State) : Host.Outcome State Fault Refusal :=
  let above := decide (tenths > s.plat.pwrcap * 10) && s.allSlow
  let start := if above then s.plat.overFrom.getD s.ref else 0
  let s' : State := { s with plat := { s.plat with pwrnow := tenths, overFrom := if above then some start else none } }
  .next (
    if !s.plat.powered then s
    else if above && s.plat.phase == .ready && !s.plat.fwsw && decide (s.ref ≥ start + 100000000) then s'.logOnce 0x81 0x81 0 0xFFFF 0 else s')

-- DESIGN CHOICE (log 53, safe): TEMPMAX is a free value with the bound that the event gives it, and PWRNOW is the last reading of the event POWER_LIMIT.
/-- A temperature that is at least some tenths of a degree: which, is free. -/
def State.heat (s : State) (least : Nat) : State :=
  let (w, s) := takeFree s
  { s with plat := { s.plat with tempmax := least + w.toNat / 2 } }

/-- DIE_HOT: a compute die at 95 °C or above while at 0.8 GHz claims no new cluster: an act of firmware, which does none while it changes banks. -/
def execDieHot (die : Nat) (s : State) : Host.Outcome State Fault Refusal :=
  .next (match s.die? die with
    | none => s
    | some d =>
      if decide (die < 4) && d.released && d.mhz == 800 && d.relock.isNone && s.plat.phase == .ready && !s.plat.fwsw then
        ((s.heat 950).updDie die fun d => { d with hot := true }).logEvent 0x81 0 die 0 0
      else s)

/-- DIE_COOLED: below 90 °C. -/
def execDieCooled (die : Nat) (s : State) : Host.Outcome State Fault Refusal :=
  .next (match s.die? die with
    | none => s
    | some d => if d.hot then (s.heat 0).updDie die fun d => { d with hot := false } else s)

/-- SUPPLY_OUT_OF_RANGE: every compute die steps to 0.8 GHz until the input returns: an act of firmware, which does none while it changes banks. -/
def execSupplyOutOfRange (s : State) : Host.Outcome State Fault Refusal :=
  .next (
    if s.plat.phase != .ready || s.plat.fwsw || s.plat.supplyHeld then s
    else
      let s := { s with
        dies := s.dies.map fun (d : Die) =>
          if decide (d.num < 4) && d.released && !((d.relock.getD d.mhz) == 800) then d.step 800 else d
        plat := { s.plat with supplyHeld := true } }
      s.logEvent 0x81 0 0xFFFF 0 0)

/-- SUPPLY_IN_RANGE. -/
def execSupplyInRange (s : State) : Host.Outcome State Fault Refusal := .next { s with plat := { s.plat with supplyHeld := false } }

/-- THERMAL_TRIP: hardware stops the core clocks of every die but the I/O die and Texis. -/
def execThermalTrip (die : Nat) (s : State) : Host.Outcome State Fault Refusal :=
  .next (
    if !s.plat.powered || decide (die > 12) then s
    else
      let s := s.heat 1050
      ({ s with plat := { s.plat with clockStop := true } }).deviceFail 0x81 die 0)

/-! ## The links of the package (20 R487, R488); log 23 numbers them, and a Ronou port n is link 32 + n -/

def State.planeOf (s : State) (link plane : Nat) : Plane :=
  (s.plat.planes.find? fun p => p.link == link && p.plane == plane).getD
    { link := link, plane := plane, half := none, tries := 0, training := false, lost := false }

def State.putPlane (s : State) (p : Plane) : State :=
  { s with plat := { s.plat with planes := p :: s.plat.planes.filter fun x => !(x.link == p.link && x.plane == p.plane) } }

/-- A boundary lost: hardware logs it at device level. -/
def State.loseLink (s : State) (p : Plane) : State := (s.putPlane { p with lost := true, training := false }).deviceFail 0x80 0xFFFF 0

/-- A port's retraining begins. -/
def State.retrainRonou (s : State) (n : Nat) : State :=
  s.updRonou n fun p => { p.stop with retrain := p.retrain + 1 }

-- DESIGN CHOICE (log 22, safe): How many flits follow the one that failed, and are sent again with it, is a free value.
/-- A flit of a port sent again, and every later one of its plane and direction (20 R487). -/
def State.resend (s : State) (n : Nat) : State :=
  let (w, s) := takeFree s
  s.updRonou n fun p => { p with retry := p.retry + 1 + w.toNat }

/-- How a port's training ends; one that fails is down, and that or half width is logged (20 R488, R494). -/
def State.trainRonou (s : State) (n : Nat) (how : Retrain) (nbr : Nat) : State :=
  let s := { s with plat := { s.plat with
    planes := s.plat.planes.map fun (x : Plane) => if x.link == 32 + n then { x with training := false } else x } }
  match how with
  | .failed => (s.updRonou n fun p => { p.stop with down := true, downAt := s.ref }).logEvent 0x80 0 (32 + n) 0 0
  | .full => s.updRonou n fun p => { p with up := true, half := false, down := false, nbr := nbr % 1024 }
  | .half => (s.updRonou n fun p => { p with up := true, half := true, halfAt := s.ref, down := false, nbr := nbr % 1024 }).logEvent 0x80 0 (32 + n) 0 0

/-- FLIT_CRC_ERROR: the flit is sent again. Whether it is the flit that failed last is free; a flit sent eight times without success makes
the plane retrain, and a plane at half width that fails again within a second is lost; a port then is down. -/
def execFlitCrcError (link plane : Nat) (s : State) : Host.Outcome State Fault Refusal :=
  let isRonou := decide (32 ≤ link ∧ link < 48)
  let p := s.planeOf link plane
  let port := s.ronou? (link - 32)
  .next (
    if !s.plat.powered || !(decide (link ≤ 16) || (isRonou && (port.map RonouPort.up).getD false)) || decide (plane > 1) || p.training || p.lost then s
    else
      let (same, s) := if p.tries = 0 then (0, s) else takeChoice s 2
      let n := if same = 1 then p.tries + 1 else 1
      let s := if isRonou then s.resend (link - 32) else s
      if n < 8 then s.putPlane { p with tries := n }
      else
        let p := { p with tries := 0 }
        if isRonou then
          if port.any fun (x : RonouPort) => x.half && decide (s.ref < x.halfAt + 1000000000) then (s.putPlane p).trainRonou (link - 32) .failed 0
          else (s.retrainRonou (link - 32)).putPlane { p with training := true }
        else match p.half with
          | some r => if s.ref < r + 1000000000 then s.loseLink p else s.putPlane { p with training := true }
          | none => s.putPlane { p with training := true })

/-- LINK_RETRAIN_END. -/
def execLinkRetrainEnd (link plane : Nat) (how : Retrain) (s : State) : Host.Outcome State Fault Refusal :=
  let p := s.planeOf link plane
  .next (
    if !p.training then s
    else if link ≥ 32 then
      match s.ronou? (link - 32) with
      | some x => if x.enable then s.trainRonou x.num how x.nbr else s.putPlane { p with training := false }
      | none => s
    else match how with
      | .full => (s.putPlane { p with training := false, half := none }).takeAllNotices
      | .half => ((s.putPlane { p with training := false, half := some s.ref }).logEvent 0x80 0 0xFFFF 0 0).takeAllNotices
      | .failed => s.loseLink p)

/-! ## Ronou ports and peers (12 R346, R347, 20 R494) -/

/-- RONOU_PORT_DOWN: a port fails to retrain. -/
def execRonouPortDown (port : Nat) (s : State) : Host.Outcome State Fault Refusal :=
  .next (match s.ronou? port with
    | none => s
    | some p => if p.down || !p.enable then s else s.trainRonou port .failed 0)

/-- RONOU_PORT_DISABLE: RCTL.ENABLE := 0. -/
def execRonouPortDisable (port : Nat) (s : State) : Host.Outcome State Fault Refusal := .next (s.disableRonou port)

-- DEDUCED (log 54, safe and in part unsafe): RONOU_PORT_RETRAIN is the write of ENABLE = 1, unless the port is training already, together with the result of the training.
/-- RONOU_PORT_RETRAIN: RCTL.ENABLE := 1 retrains the port, unless it is in training, and its training ends. -/
def execRonouPortRetrain (port : Nat) (how : Retrain) (nbr : Nat) (s : State) : Host.Outcome State Fault Refusal :=
  .next (match s.ronou? port with
    | none => s
    | some p => (if p.enable && !p.up && !p.down then s else s.enableRonou port).trainRonou port how nbr)

/-- What a peer last got: bytes, and the version of the range that it read in or asked about. -/
def State.peerGets (s : State) (bs : List Byte) (ver : Nat) : State := { s with plat := { s.plat with peerRd := bs, peerVer := ver } }

/-- The version that a range of this device holds, 0 where it is not sealed (09 R262). -/
def State.versionAt (s : State) (k : Nat) : Nat :=
  ((s.seals.find? fun e => e.peer == none && decide (e.base ≤ k ∧ k < e.base + e.len)).map SealEnt.ver).getD 0

/-- An access of a peer refused back to it. -/
def State.refusePeer (s : State) (port : Nat) : State :=
  (s.updRonou port fun p => { p with refused := p.refused + 1 }).logEvent 0x80 0 (32 + port) 0 0

/-- A peer's atomic as a request of one lane, performed at the home. -/
def peerReq (party n : Nat) (clk : Clock) (op : PeerAtom) (ty : Ty) (pa : Nat) (a b : Word) (ord : Order) : MemReq :=
  { op := match op with
      | .int o => .atom o ty
      | .swap => .cas ty
      | .float o => .fatom o ty
    sp := .global, scope := .system, ord := ord, party := party, clk := clk, stamp := n
    acc := [{ lane := 0, ea := pa, ops := [a, b], keys := keysFrom pa (ty.width / 8), pt := pointHome, poisoned := false }] }

/-- A number that no compute die has. -/
def noDie : Nat := 16

/-- An access of a peer performed at the homes as that peer's party. A read returns the version of its range with the bytes, and a query the version
alone (09 R263). -/
def State.peerPerform (s : State) (party : Nat) : PeerAccess → State
  | .read pa n => let (bs, _, s) := s.readChunks party (n + 1) (keysFrom pa n); s.peerGets bs (s.versionAt pa)
  | .write pa bytes rel =>
    (s.storeGranules party (if rel then some .system else none) false (bytes.length + 1) ((keysFrom pa bytes.length).zip bytes)).2
  | .atomic op ty pa a b ord =>
    let (n, s) := s.tick party
    let r := peerReq party n (s.clkOf party) op ty pa a b ord
    let (o, s) := s.performAtomics noDie 0 0 r [r.acc]
    s.peerGets ((bytesOf 8 (((o.vals.headD (0, [])).2).headD 0).toNat).take (ty.width / 8)) 0
  | .version pa => s.peerGets [] (s.versionAt pa)

/-- The bytes of a peer's access, and whether it writes. -/
def peerSpan : PeerAccess → List Nat × Bool
  | .read pa n => (keysFrom pa n, false)
  | .write pa bytes _ => (keysFrom pa bytes.length, true)
  | .atomic _ ty pa _ _ _ => (keysFrom pa (ty.width / 8), true)
  | .version pa => ([pa], false)

/-- An atomic names an aligned value of a type that its operation takes (07 R187, R188). -/
def peerLegal : PeerAccess → Bool
  | .atomic (.int o) ty pa _ _ _ => (Wf.atomTys o).contains ty && pa % (ty.width / 8) == 0
  | .atomic .swap ty pa _ _ _ => Wf.tWide.contains ty && pa % (ty.width / 8) == 0
  | .atomic (.float _) ty pa _ _ _ => Wf.tHome.contains ty && pa % (ty.width / 8) == 0
  | _ => true

/-- Whether a peer's access is an atomic or a version query, which cross on the narrow plane (12 R334). -/
def peerNarrow : PeerAccess → Bool
  | .atomic .. | .version _ => true
  | _ => false

/-- RONOU_PEER_ACCESS: performed at the homes, or refused and logged where it addresses an unbacked offset or a sealed range. -/
def execRonouPeerAccess (port peer : Nat) (a : PeerAccess) (s : State) : Host.Outcome State Fault Refusal :=
  .next (match s.ronou? port with
    | none => s
    | some p =>
      if !p.up || !p.enable || p.down || !s.plat.powered then s
      else
        let (ks, writes) := peerSpan a
        let s := s.cross ioDie (peerNarrow a) ks
        if !peerLegal a || !(ks.all fun k => isDeviceKey k && backed k && s.homeWorks k) || (writes && ks.any s.sealed) then s.refusePeer port
        else let (party, s) := s.partyFor (.peer (peer % 1024)); s.peerPerform party a)

/-! ## Replies that do not come (17 R426, R427) -/

-- DEDUCED (log 50, safe and in part unsafe): A lane whose load was lost or refused pushes a free value with a poison mark.
/-- The lanes of a request taken out of it, filled with free values that are poisoned. -/
def State.poisonLanes (s : State) (who : Who) (p : Pend) (r : MemReq) (lanes : Mask) : State :=
  let (ws, s) := takeFrees s 64
  let ls := lanesOf lanes
  let left := { r with acc := r.acc.filter fun a => !lanes.getLsbD a.lane }
  s.updThread who fun t =>
    ({ t with pend := t.pend.map fun (q : Pend) => if q.id == p.id then { q with kind := .mem left } else q }).fillPend p.id
      (ls.map fun l => (l, [ws.getD l 0, ws.getD (l + 32) 0])) ls

/-- Cause 0x26: an atomic whose data is lost was, or may have been, applied at its target. -/
def State.noData (s : State) (who : Who) (p : Pend) (r : MemReq) (lanes : Mask) : State :=
  let fs : List LaneFault := (r.acc.filter fun a => lanes.getLsbD a.lane).map fun a =>
    { lane := a.lane, f := { cause := 0x26, reason := 1, tgt := tgtOf a.keys, lvl := 0, rank := 0, seg := 0, off := 0 }, ea := a.ea, size := elemSize r.op a }
  if fs.isEmpty then s else s.raise who p.spl (faultTrap p.pc p.word (p.later == 0) 3 (spCode r.sp) fs) none

/-- The lanes of a mask that still wait and whose accesses meet a condition. -/
def lanesWith (p : Pend) (r : MemReq) (lanes : Mask) (f : LaneAcc → Bool) : Mask :=
  maskOf ((r.acc.filter fun a => (lanes &&& p.lanes).getLsbD a.lane && f a).map LaneAcc.lane)

/-- A completion of the part's own request that the host link does not bring (20 R489). -/
def State.noCompletion (s : State) (r : MemReq) (lanes : Mask) : State :=
  match r.acc.find? fun a => lanes.getLsbD a.lane && a.keys.any isHostKey with
  | some a => s.hostEvent 6 (wordOf (a.keys.headD 0 % 2 ^ 60))
  | none => s

-- DEDUCED (log 66, safe and in part unsafe): A store that waits for no value is named by no reservation; which of those that have left the package it is, the event leaves open.
/-- A store to host or peer memory whose completion times out or arrives corrupt: it is reported as performed, and firmware logs it (17 R427). -/
def State.storeLost (s : State) (who : Who) : State :=
  let far (p : Nat → Bool) : Option Hist := s.hist.find? fun h => p h.key && h.lastAt pointHome != 0
  match far isHostKey, far isPeerKey with
  | some h, _ => s.hostEvent 6 (wordOf (h.key % 2 ^ 60))
  | none, some h => s.logEvent 0x28 0 64 (s.ctxhOf who) (wordOf h.key)
  | none, none => s

-- DEDUCED (log 50, safe and in part unsafe): a red, for which no reservation waits, takes no 0x26.
/-- REMOTE_ACCESS_TIMEOUT: no completion within 10,000,000 REF ticks. A load's lanes are poisoned; an atomic may have been applied; a store, which
no reservation waits for, is logged. -/
def execRemoteAccessTimeout (who : Who) (id : Nat) (lanes : Mask) (s : State) : Host.Outcome State Fault Refusal :=
  .next (match (s.thread? who).bind fun t => t.pend.find? fun p => p.id == id with
    | none => if (s.thread? who).isSome then s.storeLost who else s
    | some p =>
      match p.kind with
      | .mem r =>
        let hit := lanesWith p r lanes fun a => a.keys.any fun k => isHostKey k || isPeerKey k
        if hit == 0 || decide (s.ref < p.ref + 10000000) || s.stalled (s.dieOf who) then s
        else
        let s := s.noCompletion r hit
        if r.op.isAtomic then
          let all := performedWith r hit
          let (c, s) := takeChoice s 2
          let (die, core) := s.placeOfWho who
          let s := if c = 1 then (s.perform die core (s.ctxhOf who) r all).2 else s
          (s.poisonLanes who p r all).noData who p r all
        else
          (s.poisonLanes who p r hit).reqTraps who p.spl p.pc p.word p.later r { ReqOut.nothing with unreach := (lanesOf hit).map fun l => (l, 4) }
      | _ => s)

/-- The granules of a line that hold no dirty byte. -/
def Line.cleanGranules (l : Line) : List Nat :=
  ((List.range 8).filter fun g => !(List.range 8).any fun i => l.dirty.getLsbD (g * 8 + i)).map (l.line * 8 + ·)

/-- Both replies to the fill of a line by an L1 or an L2 lost: the bytes that it brings are poisoned there (17 R426). -/
def State.fillLost (s : State) (lvl : CacheLevel) (owner line : Nat) : State :=
  match s.line? lvl owner line with
  | some l => if lvl == .home || s.stalled (if lvl == .l1 then owner / 16 else owner) then s
    else s.putLine { l with bad := (l.cleanGranules ++ l.bad).eraseDups }
  | none => s

-- DEDUCED (log 50, safe and in part unsafe): a red takes no 0x26 (17 R426); R404's row, which names it beside the atomics, is not followed for it.
/-- REPLY_LOST: a reply with an uncorrectable error. A load, or the fill of a line, is reissued once, and then its lanes, or the line's bytes, are
poisoned; an atomic at a home has been applied. -/
def execReplyLost (who : Who) (id : Nat) (lanes : Mask) (what : LostReply) (s : State) : Host.Outcome State Fault Refusal :=
  .next (match (s.thread? who).bind fun t => t.pend.find? fun p => p.id == id with
    | none => match what with
      | .fill lvl owner line => s.fillLost lvl owner line
      | _ => s
    | some p =>
      if s.stalled (s.dieOf who) then s else
      match p.kind, what with
      | _, .fill lvl owner line => s.fillLost lvl owner line
      | .mem r, .load true =>
        let hit := lanesWith p r lanes fun a => !a.keys.any isSpKey
        if hit == 0 || r.op.isAtomic then s else s.poisonLanes who p r hit
      | .mem r, .atomic =>
        let hit := performedWith r (lanesWith p r lanes fun a => a.pt == pointHome)
        if hit == 0 || !r.op.isAtomic then s
        else
          let (die, core) := s.placeOfWho who
          let (o, s) := s.perform die core (s.ctxhOf who) r hit
          let not := maskOf (o.refused ++ o.unreach.map Prod.fst)
          ((s.poisonLanes who p r hit).reqTraps who p.spl p.pc p.word p.later r o).noData who p r (hit &&& ~~~not)
      | _, _ => s)

/-! ## The host link (20 R489) -/

/-- HOST_LINK_DOWN: the part runs on. -/
def execHostLinkDown (s : State) : Host.Outcome State Fault Refusal :=
  .next (if s.plat.powered && s.plat.hostUp then
    let s := s.hostEvent 5 0
    { s with plat := { s.plat with hostUp := false } }
  else s)

/-- HOST_LINK_UP: BAR0 state and queues are unchanged. -/
def execHostLinkUp (s : State) : Host.Outcome State Fault Refusal :=
  .next (if s.plat.powered then { s with plat := { s.plat with hostUp := true } } else s)

/-- HOST_LINK_ERROR: a correctable error; the link layer replays the TLP. -/
def execHostLinkError (s : State) : Host.Outcome State Fault Refusal := .next (if s.plat.powered && s.plat.hostUp then s.hostEvent 1 0 else s)

/-! ## Ethernet frames -/

/-- A write of a port at the homes, in granules of eight. -/
def State.portWrite (s : State) (party : Nat) (pa : Nat) (bytes : List Byte) (rel : Option Scope) : State :=
  ((s.cross ioDie false (keysFrom pa bytes.length)).storeGranules party rel false (bytes.length + 1) ((keysFrom pa bytes.length).zip bytes)).2

-- DEDUCED (log 51, unsafe): see notes/assumptions/51.md.
/-- The twelve bytes of a stamp: SEC, NS, FNS. -/
def stampBytes (phc : Nat) : List Byte :=
  bytesOf 6 (phc / (10 ^ 9 * 2 ^ 16)) ++ bytesOf 4 (phc / 2 ^ 16 % 10 ^ 9) ++ bytesOf 2 (phc % 2 ^ 16)

/-- The stream that takes a frame (12 R342). -/
def EthPort.classify (p : EthPort) (frame : List Byte) : Option Nat :=
  let hit (r : EthRule) : Bool := (List.range 64).all fun i =>
    (frame.getD i 0 &&& r.mask.getD i 0) == (r.val.getD i 0 &&& r.mask.getD i 0)
  match p.rules.find? fun r => r.valid && hit r with
  | some r => some r.stream
  | none => if p.dflt then some 0 else none

/-- A read of a port at the homes. -/
def State.portRead (s : State) (party n pa : Nat) : List Byte × State :=
  let (bs, _, s) := (s.cross ioDie false (keysFrom pa n)).readChunks party (n + 1) (keysFrom pa n)
  (bs, s)

/-- Slot bytes of a frame: the header from byte 8 to 63 (09 R264, 20 R491). -/
def rxHeader (port : Nat) (x : Stream) (stamp : List Byte) (len : Nat) (jumbo : Option Nat) : List Byte :=
  let flags := (if jumbo.isSome then 1 else 0) + (if x.gap then 2 else 0)
  stamp ++ bytesOf 2 len ++ bytesOf 1 port ++ bytesOf 1 flags ++ bytesOf 4 (jumbo.getD 0) ++ List.replicate 36 0

/-- A numbered frame written to its slot (09 R265, 20 R492). -/
def State.writeFrame (s : State) (port : Nat) (x : Stream) (frame : List Byte) (stamp : List Byte) : State :=
  let n := x.next
  let slot := (n - 1) % x.slots
  let jumbo : Option Nat := if frame.length > 1984 then some x.jnext else none
  let base := x.ring + 2048 * slot
  let place := match jumbo with
    | some j => x.jring + 16384 * j
    | none => base + 64
  let (party, s) := s.partyFor (.port port x.num)
  -- slots whose frames this one overwrites
  let reused (h : Nat × Option Nat) : Bool := jumbo.isSome && h.2 == some place
  let gone := (x.held.filter fun h => h.1 == base || reused h).map Prod.fst
  let s := gone.foldl (fun s i => s.portWrite party i (bytesOf 8 0) none) s
  let s := if gone.isEmpty then s else s.relFence party .device
  let s := s.portWrite party place frame none
  let s := s.portWrite party (base + 8) (rxHeader port x stamp frame.length jumbo) none
  let s := s.portWrite party base (bytesOf 8 n) (some .device)
  s.updPort port fun p => p.putStream { x with
    next := n + 1, gap := false
    held := (base, jumbo.map fun _ => place) :: (x.held.filter fun h => h.1 != base).map fun h => if reused h then (h.1, none) else h
    jnext := if jumbo.isSome then (x.jnext + 1) % x.jslots else x.jnext }

-- DEDUCED (log 52, unsafe): A frame's payload is the whole frame.
/-- Whether a home would refuse a write of the frame: its slot, or its jumbo slot, lies in a sealed range or has no memory. -/
def State.frameSealed (s : State) (x : Stream) (len : Nat) : Bool :=
  let base := x.ring + 2048 * ((x.next - 1) % x.slots)
  let no (k : Nat) : Bool := s.sealed k || !backed k || !isDeviceKey k
  ((keysFrom base 64).any no) ||
    (keysFrom (if len > 1984 then x.jring + 16384 * x.jnext else base + 64) len).any no

-- DEDUCED (log 52, unsafe): see notes/assumptions/52.md.
/-- ETHERNET_FRAME_RECEIVE. `bad` is a frame with a bad FCS, an uncorrectable codeword or a PCS error; `full` that the receive buffer is
full. -/
def execEthernetFrameReceive (port : Nat) (frame : List Byte) (bad full : Bool) (s : State) : Host.Outcome State Fault Refusal :=
  .next (match s.port? port with
    | none => s
    | some p =>
      if !p.link || !s.plat.powered then s
      else if bad || decide (frame.length < 64 ∨ frame.length > 16384) then s.updPort port fun p => { p with rxbad := p.rxbad + 1 }
      else match p.classify frame with
        | none => s.updPort port fun p => { p with rxnomatch := p.rxnomatch + 1 }
        | some k =>
          let x := p.stream k
          let drop (f : Stream → Stream) : State := s.updPort port fun p => p.putStream (f { x with next := x.next + 1, gap := true })
          if !x.enable then s.updPort port fun p => p.putStream { x with rxoff := x.rxoff + 1 }
          else if decide (frame.length > 1984) && x.jslots == 0 then drop fun x => { x with dropj := x.dropj + 1 }
          else if full then drop fun x => { x with dropo := x.dropo + 1 }
          else if s.frameSealed x frame.length then drop fun x => { x with drops := x.drops + 1 }
          else s.writeFrame port x frame (stampBytes (((p.sync s.ref).phc + phcTop - Config.rxLat port % phcTop) % phcTop)))

/-- A ring that is known to hold a slot to send. -/
def State.ringPending (s : State) (r : TxRing) : Bool :=
  let bs := (keysFrom r.txp 8).map s.homeByte
  bs.all Option.isSome && decide (leNum (bs.map fun b => b.getD 0) > r.sent)

/-- Whether a ring is next in the round robin: no ring between the last one served and it is known to hold a slot to send. -/
def State.ringTurn (s : State) (p : EthPort) (ring : Nat) : Bool :=
  let dist (n : Nat) : Nat := (n + 16 - p.lastRing - 1) % 16
  !p.rings.any fun r => decide (dist r.num < dist ring) && s.ringPending r

/-- The next slot of a ring sent, or passed over (12 R344, 20 R493). -/
def State.sendSlot (s : State) (p : EthPort) (r : TxRing) (party : Nat) : State :=
  let slot := r.base + 16384 * (r.sent % r.slots)
  let (hdr, s) := s.portRead party 64 slot
  let len := leNum ((hdr.drop 20).take 2)
  let flags := leNum ((hdr.drop 22).take 1)
  let bad := decide (len < 64 ∨ len > 16320 ∨ flags > 1) || (hdr.drop 23).any fun b => b != 0
  let (frame, s) := if bad || !p.link then ([], s) else s.portRead party len (slot + 64)
  let sent := !bad && p.link
  let s := if sent then { s with plat := { s.plat with sent := s.plat.sent ++ [{ port := p.num, bytes := frame }] } } else s
  let s := s.portWrite party slot (bytesOf 8 (r.sent + 1 + if sent then 0 else 2 ^ 63)) none
  let s := if sent && flags == 1 then
    s.portWrite party (slot + 8) (stampBytes (((p.sync s.ref).phc + Config.txLat p.num) % phcTop)) none else s
  let s := s.portWrite party r.txc (bytesOf 8 (r.sent + 1)) (some .device)
  s.updPort p.num fun p => { p with
    lastRing := r.num
    txbad := if bad then p.txbad + 1 else p.txbad
    txdown := if !bad && !p.link then p.txdown + 1 else p.txdown
    rings := p.rings.map fun (x : TxRing) => if x.num == r.num then { x with sent := x.sent + 1 } else x }

/-- ETHERNET_FRAME_TRANSMIT: the port reads TXP as an acquire at device scope and serves the ring's next slot. -/
def execEthernetFrameTransmit (port ring : Nat) (s : State) : Host.Outcome State Fault Refusal :=
  .next (match s.port? port with
    | none => s
    | some p =>
      match p.rings.find? fun r => r.num == ring with
      | none => s
      | some r =>
        if !s.plat.powered || !s.ringTurn p ring then s
        else
          let (party, s') := s.partyFor (.port port (256 + ring))
          let (bs, _, s') := (s'.cross ioDie false (keysFrom r.txp 8)).readNow party (some .device) (keysFrom r.txp 8)
          if leNum bs ≤ r.sent then s' else s'.sendSlot p r party)

/-- ETHERNET_LINK_CHANGE. -/
def execEthernetLinkChange (port : Nat) (up lock : Bool) (s : State) : Host.Outcome State Fault Refusal :=
  .next (match s.port? port with
    | none => s
    | some p =>
      let s' := s.updPort port fun p => { p with link := up, lock := lock, linkdown := if p.link && !up then p.linkdown + 1 else p.linkdown }
      if p.link == up then s' else s'.logEvent 0x80 0 (16 + port) 0 0)

/-! ## Soft errors (17 R432, R435, R436, 20 R481) -/

/-- The structure number of a place, in the order of R432's table; a granule by where it stands, and the firmware's banks at the end. -/
def eccKind : EccPlace → Nat
  | .queue _ _ _ => 0
  | .frame _ _ _ => 1
  | .granule k => if isSpKey k then 2 else 16
  | .tile _ _ _ => 3
  | .sideRegs _ _ _ => 4
  | .clean n _ => 32 + n
  | .warpState _ _ => 5
  | .guideState _ => 6
  | .teamState _ => 7
  | .accown _ _ => 8
  | .lineTag .l1 _ _ _ => 9
  | .lineTag .l2 _ _ _ => 21
  | .lineTag .home _ _ _ => 22
  | .directory _ => 10
  | .monitor _ => 11
  | .edge _ _ => 12
  | .holder _ _ => 13
  | .pageEntry _ _ => 14
  | .shared _ => 15
  | .cache .l1 _ _ => 17
  | .cache .l2 _ _ => 18
  | .cache .home _ _ => 19
  | .bank _ => 20

/-- The die of a cache. -/
def cacheDie (lvl : CacheLevel) (owner : Nat) : Nat :=
  match lvl with
  | .l1 => owner / 16
  | .l2 => owner
  | .home => 4 + owner

/-- The die of a place. -/
def State.eccDie (s : State) : EccPlace → Nat
  | .queue who _ _ => s.dieOf who
  | .frame who _ _ => s.dieOf who
  | .granule k =>
    if isSpKey k then ((s.teams.find? fun t => t.serial == (k - 2 ^ 62) / 2 ^ 22).map Team.die).getD 0
    else if isDeviceKey k then 4 + mdieOf k else ioDie
  | .cache lvl owner _ => cacheDie lvl owner
  | .tile core _ _ => core / 16
  | .sideRegs core _ _ => core / 16
  | .clean _ die => die
  | .warpState h _ => s.dieOf (.guide h)
  | .guideState h => s.dieOf (.guide h)
  | .teamState h => s.dieOf (.guide h)
  | .accown core _ => core / 16
  | .lineTag lvl owner _ _ => cacheDie lvl owner
  | .directory line => 4 + mdieOf (line * 64)
  | .monitor i => ((s.monitors[i]?).map fun m => s.dieOf m.who).getD 0
  | .edge die _ => die
  | .holder mdie _ => 4 + mdie
  | .pageEntry _ pa => 4 + mdieOf pa
  | .bank _ => ioDie
  | .shared die => die

/-- The location of a place in its structure, as a corrected error is reported with it (17 R432). -/
def eccAt : EccPlace → Nat
  | .queue who lane age => (who.warpNo * 64 + lane) * 32 + age
  | .frame who entry lane => (who.warpNo * 2 ^ 14 + entry) * 64 + lane
  | .granule k => k
  | .cache _ _ k => k
  | .tile core slot i => (core * 128 + slot) * 1024 + i
  | .sideRegs core slot row => (core * 128 + slot) * 64 + row
  | .clean n _ => n
  | .warpState h w => h * 128 + w
  | .guideState h => h
  | .teamState h => h
  | .accown core slot => core * 128 + slot
  | .lineTag _ _ line _ => line
  | .directory line => line
  | .monitor i => i
  | .edge _ i => i
  | .holder _ i => i
  | .pageEntry _ pa => pa
  | .bank active => if active then 1 else 0
  | .shared die => die

/-- A corrected error: reported with its structure and location (17 R432), counted by structure and die, and logged as 0x70 with the count, at most
once per second (20 R481). -/
def State.corrected (s : State) (kind die location : Nat) : State :=
  let key := 0x10000 + kind * 16 + die
  let s := s.bump key
  let s := { s with plat := { s.plat with corrections := (kind, die, location) :: s.plat.corrections } }
  s.logOnce key 0x70 0 die (wordOf ((assoc? s.plat.diag key).getD 0))

def State.correctedAt (s : State) (p : EccPlace) : State := s.corrected (eccKind p) (s.eccDie p) (eccAt p)

/-- A report of a machine check in a team; it is not precise, and no instruction or lane is its own. -/
def machineCheck (cause : Nat) : Trap :=
  { cause := cause, prec := false, tpc := 0, word := 0, lanes := 0, addr := 0, detail := 0, words := [] }

-- PRESUMED (log 49, safe and in part unsafe): see notes/assumptions/49.md.
/-- After a machine check, firmware may take the core out of service (19 R475): a free choice. -/
def State.mayRetire (s : State) (die core : Nat) : State :=
  let (c, s) := takeChoice s 2
  if c = 1 then s.updDie die fun d => { d with coreDown := (core :: d.coreDown).eraseDups } else s

/-- A lost team: cause 0x73. The record of a retiring team holds the count of its children, so its context is recovered (19 R478). -/
def State.loseTeam (s : State) (who : Who) : State :=
  match s.team? (s.ctxhOf who) with
  | none => s
  | some t =>
    if t.status == .retiring then s.loseContext t.asid 0x74 (t.asid * 2 ^ 22) 0
    else (s.raise who 0 (machineCheck 0x73) none).mayRetire t.die t.core

/-- Failed items of a team that stops, or kept for its next stop while it is served (15 R377, R378). -/
def State.addItems (s : State) (h : Nat) (items : List Item) : State :=
  s.updTeam h fun t =>
    if t.status == .stopping then { t with items := t.items ++ items }
    else { t with late := t.late ++ items.map fun i => (some i, StopRec.blank) }

/-- What the replay buffer keeps of a lost warp: its accesses, of which none fills an entry any more (15 R376, R379). -/
def Held.orphaned (x : Held) : Option Held :=
  match x.req with
  | .access _ r => some { x with req := .access none r }
  | .spill _ _ => some x
  | _ => none

/-- A lost warp: its accesses in flight finish, and those that fail are items (15 R376); its locks and holds go, the quartet operations that wait
for it are never started (16 R407), it counts as exited, and its grid fails with cause 0x72. -/
def State.loseWarp (s : State) (h w : Nat) : State :=
  let who : Who := .warp h w
  match s.team? h, s.thread? who with
  | some tm, some t =>
    if t.lost then s
    else
      let (items, s) := s.finishReqs tm.die tm.core t
      let s := s.warpGone who
      let q := (s.quartetOf tm w).map fun x => x.who.warpNo
      let s := s.dropMma (s.mmaWait.filter fun m => m.ctxh == h && q.contains m.warp)
      let s := s.updThread who fun t => { t with lost := true, pend := [], splits := t.splits.map fun _ => none, wps := [] }
      let s := s.updTeam h fun t => { t with held := t.held.filterMap fun x => if x.who == who then x.orphaned else some x }
      let s := ((s.checkBars h).checkCbar tm.cluster).failGrid tm.grid 0x72 h
      ((s.raise who 0 (machineCheck 0x72) none).addItems h items).mayRetire tm.die tm.core
  | _, _ => s

/-- Granules that their home or scratchpad holds, poisoned. -/
def State.poisonGranules (s : State) (gs : List Nat) : State := s.spoil (gs.flatMap granuleKeys)

-- DEDUCED (log 50, safe and in part unsafe): Whether a home cache holds a line dirty is a free choice.
/-- The tag or the dirty mask of a line that a cache holds lost (17 R432). -/
def State.loseTag (s : State) (lvl : CacheLevel) (owner line : Nat) (known : Bool) : State :=
  match s.line? lvl owner line with
  | none => s
  | some l =>
    let (c, s) := if lvl == .home then takeChoice s 2 else (if l.dirty == 0 then 0 else 1, s)
    if c = 0 then s.dropLine lvl owner line
    else if known then (s.dropLine lvl owner line).poisonGranules ((List.range 8).map (line * 8 + ·))
    else s.deviceFail 0x75 (cacheDie lvl owner) 0

/-- An uncorrectable error of a granule that an L1 or an L2 holds: a dirty one is poisoned there, a clean line is fetched again (17 R432). -/
def State.loseGranule (s : State) (lvl : CacheLevel) (owner k : Nat) : State :=
  match s.line? lvl owner (lineOf k) with
  | none => s
  | some l =>
    if l.cleanGranules.contains (k / 8) then s.correctedAt (.cache lvl owner k)
    else s.putLine { l with bad := (k / 8 :: l.bad).eraseDups }

-- DEDUCED (log 50, safe and in part unsafe): Whether a home cache holds a granule dirty is a free choice.
/-- The same at a home, whose dirty granules are those of the point of record. -/
def State.loseHomeGranule (s : State) (owner k : Nat) : State :=
  if (s.line? .home owner (lineOf k)).isNone then s
  else
    let (c, s) := takeChoice s 2
    if c = 1 then s.poisonGranules [k / 8] else s.correctedAt (.cache .home owner k)

-- DESIGN CHOICE (log 83, unsafe): the CODE 5 of a bank error at step 1 has no reason: response byte 0 is zero.
/-- An uncorrectable error of a bank: in the active one the controller stops (20 R485); in the standby one it fails an update that copies into it
(R486). -/
def State.loseBank (s : State) (active : Bool) : State :=
  if active then (if s.firmwareRuns then s.deviceFail 0x82 65 0 else s)
  else match s.plat.upd with
    | some u =>
      if u.stage = 1 && s.plat.phase == .ready then
        ({ s with plat := { s.plat.spoilBank (!s.plat.bank) with upd := none } }).finishMb u.fn 5 []
      else s
    | none => s

/-- An uncorrectable error at a place. -/
def State.uncorrected (s : State) : EccPlace → State
  | .queue who lane age =>
    s.updThread who fun t => t.setLane lane (((t.queue.getD lane []).zipIdx).map fun (e, i) =>
      if i + 1 == age && e.pend.isNone then { e with poison := true } else e)
  | .frame who entry lane =>
    s.updThread who fun t => { t with frame := t.frame.map fun (e : FEnt) => if e.idx == entry then { e with poison := e.poison ||| bitMask lane } else e }
  | .granule k => s.poisonGranules [k / 8]
  | .tile core slot i =>
    let t := s.tile core slot
    s.putTile { t with poison := ((i % 1024) :: t.poison).eraseDups }
  | .sideRegs core slot row =>
    let t := s.tile core slot
    s.putTile { t with poison := ((1024 + row % 64) :: t.poison).eraseDups }
  | .cache .home owner k => s.loseHomeGranule owner k
  | .cache lvl owner k => s.loseGranule lvl owner k
  | .clean n die => s.correctedAt (.clean n die)
  | .warpState h w => s.loseWarp h w
  | .guideState h => if (s.thread? (.guide h)).isSome then s.loseTeam (.guide h) else s
  | .teamState h => s.loseTeam (.warp h 0)
  | .accown core slot =>
    let a := s.accOwn core slot
    if a.val then s.loseTeam (.warp a.ctxh 0) else s
  | .lineTag lvl owner line known => s.loseTag lvl owner line known
  | .directory line => { s with dir := assocSet s.dir line [0, 1, 2, 3] }
  | .monitor i =>
    match s.monitors[i]? with
    | some m => s.monWake m.who m.spl
    | none => s
  | .edge die i =>
    match s.edges.find? fun e => e.die == die && e.idx == i with
    | none => s
    | some e =>
      let s := { s with edges := s.edges.filter fun x => !(x.die == die && x.idx == i) }
      let s := if e.kind == 1 then s.updSplit (.warp e.ctxh e.warp) e.spl fun sp => { sp with soft := none } else s
      s.countOvf die
  | .holder mdie i => { s with objs := s.objs.filter fun o => !(o.mdie == mdie && o.idx == i) }
  | .pageEntry a _ => s.loseContext a 0x74 (a * 2 ^ 22) 0
  | .bank active => s.loseBank active
  | .shared die => s.deviceFail 0x75 die 0

/-- ECC_ERROR: a detected soft error, corrected or not. -/
def execEccError (place : EccPlace) (corrected : Bool) (s : State) : Host.Outcome State Fault Refusal :=
  .next (if !s.plat.powered then s else if corrected then s.correctedAt place else s.uncorrected place)

/-- MEMORY_SCRUB: a base die reads a line of its stack; bit i of `bad` names granule i. A poisoned line is logged with its address. -/
def execMemoryScrub (mdie line : Nat) (corrected : Bool) (bad : BitVec 8) (s : State) : Host.Outcome State Fault Refusal :=
  let pa := mdie % 8 * 2 ^ 40 + line % 0x60000000 * 64
  .next (
    if !s.plat.powered || s.plat.clockStop then s
    else
      let s := if corrected then s.correctedAt (.granule pa) else s
      if bad == 0 then s
      else
        (s.poisonGranules (((List.range 8).filter fun i => bad.getLsbD i).map (pa / 8 + ·))).logEvent 0x71 1 (4 + mdie % 8) 0 (wordOf pa))

end Sys2Proof.Machine
end

