-- ==== Sys2Proof/Machine/Dispatch.lean ====
section
/-!
DEFINITION. The meaning of every instruction and event of the table: one arm per constructor, each one call of its own meaning.
-/
namespace Sys2Proof.Machine

def exec (i : Instr) (s : State) : Host.Outcome State Fault Refusal :=
  match i with
  | .nop h => Sys2Proof.Machine.execNop h s
  | .dup h => Sys2Proof.Machine.execDup h s
  | .save h slot => Sys2Proof.Machine.execSave h slot s
  | .fget h slot => Sys2Proof.Machine.execFget h slot s
  | .fenter h n => Sys2Proof.Machine.execFenter h n s
  | .fleave h => Sys2Proof.Machine.execFleave h s
  | .spill h n => Sys2Proof.Machine.execSpill h n s
  | .fill h n => Sys2Proof.Machine.execFill h n s
  | .sget h v => Sys2Proof.Machine.execSget h v s
  | .add h sat => Sys2Proof.Machine.execAdd h sat s
  | .sub h sat => Sys2Proof.Machine.execSub h sat s
  | .addc h pd => Sys2Proof.Machine.execAddc h pd s
  | .subb h pd => Sys2Proof.Machine.execSubb h pd s
  | .mul h => Sys2Proof.Machine.execMul h s
  | .mulhi h => Sys2Proof.Machine.execMulhi h s
  | .mulw h => Sys2Proof.Machine.execMulw h s
  | .mad h => Sys2Proof.Machine.execMad h s
  | .div h => Sys2Proof.Machine.execDiv h s
  | .rem h => Sys2Proof.Machine.execRem h s
  | .divrem h => Sys2Proof.Machine.execDivrem h s
  | .neg h sat => Sys2Proof.Machine.execNeg h sat s
  | .abs h sat => Sys2Proof.Machine.execAbs h sat s
  | .adiff h => Sys2Proof.Machine.execAdiff h s
  | .min h => Sys2Proof.Machine.execMin h s
  | .max h => Sys2Proof.Machine.execMax h s
  | .clamp h => Sys2Proof.Machine.execClamp h s
  | .and h => Sys2Proof.Machine.execAnd h s
  | .or h => Sys2Proof.Machine.execOr h s
  | .xor h => Sys2Proof.Machine.execXor h s
  | .not h => Sys2Proof.Machine.execNot h s
  | .andn h => Sys2Proof.Machine.execAndn h s
  | .shl h n => Sys2Proof.Machine.execShl h n s
  | .shr h n => Sys2Proof.Machine.execShr h n s
  | .sra h n => Sys2Proof.Machine.execSra h n s
  | .rotl h n => Sys2Proof.Machine.execRotl h n s
  | .rotr h n => Sys2Proof.Machine.execRotr h n s
  | .bfx h pl => Sys2Proof.Machine.execBfx h pl s
  | .bfi h pl => Sys2Proof.Machine.execBfi h pl s
  | .popc h => Sys2Proof.Machine.execPopc h s
  | .clz h => Sys2Proof.Machine.execClz h s
  | .ctz h => Sys2Proof.Machine.execCtz h s
  | .brev h => Sys2Proof.Machine.execBrev h s
  | .sel h ps => Sys2Proof.Machine.execSel h ps s
  | .lea h tys sh => Sys2Proof.Machine.execLea h tys sh s
  | .ext h n => Sys2Proof.Machine.execExt h n s
  | .fadd h rm => Sys2Proof.Machine.execFadd h rm s
  | .fsub h rm => Sys2Proof.Machine.execFsub h rm s
  | .fmul h rm => Sys2Proof.Machine.execFmul h rm s
  | .ffma h rm => Sys2Proof.Machine.execFfma h rm s
  | .fmin h => Sys2Proof.Machine.execFmin h s
  | .fmax h => Sys2Proof.Machine.execFmax h s
  | .fneg h => Sys2Proof.Machine.execFneg h s
  | .fabs h => Sys2Proof.Machine.execFabs h s
  | .fdiv h rm => Sys2Proof.Machine.execFdiv h rm s
  | .fsqrt h rm => Sys2Proof.Machine.execFsqrt h rm s
  | .frcp h => Sys2Proof.Machine.execFrcp h s
  | .frsq h => Sys2Proof.Machine.execFrsq h s
  | .fex2 h => Sys2Proof.Machine.execFex2 h s
  | .flg2 h => Sys2Proof.Machine.execFlg2 h s
  | .fsin h => Sys2Proof.Machine.execFsin h s
  | .fcos h => Sys2Proof.Machine.execFcos h s
  | .ftanh h => Sys2Proof.Machine.execFtanh h s
  | .frnd h rm => Sys2Proof.Machine.execFrnd h rm s
  | .fclass h => Sys2Proof.Machine.execFclass h s
  | .fscale h rm => Sys2Proof.Machine.execFscale h rm s
  | .cvt h rm sat tys => Sys2Proof.Machine.execCvt h rm sat tys s
  | .qnt h f => Sys2Proof.Machine.execQnt h f s
  | .qntPerm h f => Sys2Proof.Machine.execQntPerm h f s
  | .dqnt h f => Sys2Proof.Machine.execDqnt h f s
  | .dqntScaled h f => Sys2Proof.Machine.execDqntScaled h f s
  | .pack h rm sat tys n => Sys2Proof.Machine.execPack h rm sat tys n s
  | .unpack h rm sat tys n => Sys2Proof.Machine.execUnpack h rm sat tys n s
  | .shfl h mode wc => Sys2Proof.Machine.execShfl h mode wc s
  | .voteAny h ps ng pd => Sys2Proof.Machine.execVoteAny h ps ng pd s
  | .voteAll h ps ng pd => Sys2Proof.Machine.execVoteAll h ps ng pd s
  | .voteUni h ps ng pd => Sys2Proof.Machine.execVoteUni h ps ng pd s
  | .voteBallot h ps ng => Sys2Proof.Machine.execVoteBallot h ps ng s
  | .elect h pd => Sys2Proof.Machine.execElect h pd s
  | .redux h op => Sys2Proof.Machine.execRedux h op s
  | .scan h op excl => Sys2Proof.Machine.execScan h op excl s
  | .bcast h ln => Sys2Proof.Machine.execBcast h ln s
  | .bcastFirst h => Sys2Proof.Machine.execBcastFirst h s
  | .lanemask h mode => Sys2Proof.Machine.execLanemask h mode s
  | .cmp h cc bop pd => Sys2Proof.Machine.execCmp h cc bop pd s
  | .fcmp h cc bop pd => Sys2Proof.Machine.execFcmp h cc bop pd s
  | .plog h op pa pb pd => Sys2Proof.Machine.execPlog h op pa pb pd s
  | .pget h => Sys2Proof.Machine.execPget h s
  | .pput h => Sys2Proof.Machine.execPput h s
  | .bra h off => Sys2Proof.Machine.execBra h off s
  | .brx h => Sys2Proof.Machine.execBrx h s
  | .call h n k off => Sys2Proof.Machine.execCall h n k off s
  | .calli h n k m => Sys2Proof.Machine.execCalli h n k m s
  | .ret h m => Sys2Proof.Machine.execRet h m s
  | .fork h k perm off => Sys2Proof.Machine.execFork h k perm off s
  | .rjn h => Sys2Proof.Machine.execRjn h s
  | .exit h => Sys2Proof.Machine.execExit h s
  | .trap h code => Sys2Proof.Machine.execTrap h code s
  | .brk h code => Sys2Proof.Machine.execBrk h code s
  | .yield h n => Sys2Proof.Machine.execYield h n s
  | .loop h off => Sys2Proof.Machine.execLoop h off s
  | .ld h m => Sys2Proof.Machine.execLd h m s
  | .ldPair h m => Sys2Proof.Machine.execLdPair h m s
  | .st h m => Sys2Proof.Machine.execSt h m s
  | .stPair h m => Sys2Proof.Machine.execStPair h m s
  | .prefL1 h m => Sys2Proof.Machine.execPrefL1 h m s
  | .prefL2 h m => Sys2Proof.Machine.execPrefL2 h m s
  | .sptag h => Sys2Proof.Machine.execSptag h s
  | .spsetTag h => Sys2Proof.Machine.execSpsetTag h s
  | .spsetUntag h => Sys2Proof.Machine.execSpsetUntag h s
  | .spmove h => Sys2Proof.Machine.execSpmove h s
  | .spshare h => Sys2Proof.Machine.execSpshare h s
  | .spdrop h => Sys2Proof.Machine.execSpdrop h s
  | .seal h => Sys2Proof.Machine.execSeal h s
  | .ifence h => Sys2Proof.Machine.execIfence h s
  | .stblk h sp f => Sys2Proof.Machine.execStblk h sp f s
  | .ldblk h sp f => Sys2Proof.Machine.execLdblk h sp f s
  | .atom h op m => Sys2Proof.Machine.execAtom h op m s
  | .cas h m => Sys2Proof.Machine.execCas h m s
  | .red h op m => Sys2Proof.Machine.execRed h op m s
  | .fatom h op m => Sys2Proof.Machine.execFatom h op m s
  | .fence h sc => Sys2Proof.Machine.execFence h sc s
  | .fenceAcq h sc => Sys2Proof.Machine.execFenceAcq h sc s
  | .fenceRel h sc => Sys2Proof.Machine.execFenceRel h sc s
  | .barMeet h bid cnt => Sys2Proof.Machine.execBarMeet h bid cnt s
  | .barPost h bid cnt => Sys2Proof.Machine.execBarPost h bid cnt s
  | .barAwait h bid => Sys2Proof.Machine.execBarAwait h bid s
  | .cbarMeet h => Sys2Proof.Machine.execCbarMeet h s
  | .cbarPost h => Sys2Proof.Machine.execCbarPost h s
  | .cbarAwait h => Sys2Proof.Machine.execCbarAwait h s
  | .mwait h sp sc cc => Sys2Proof.Machine.execMwait h sp sc cc s
  | .acq h sp sc => Sys2Proof.Machine.execAcq h sp sc s
  | .acqTry h sp sc => Sys2Proof.Machine.execAcqTry h sp sc s
  | .rel h sp sc => Sys2Proof.Machine.execRel h sp sc s
  | .wregHold h sp => Sys2Proof.Machine.execWregHold h sp s
  | .wregWait h sp => Sys2Proof.Machine.execWregWait h sp s
  | .wdropHold h sp => Sys2Proof.Machine.execWdropHold h sp s
  | .wdropWait h sp => Sys2Proof.Machine.execWdropWait h sp s
  | .mma h tile aseg bfb => Sys2Proof.Machine.execMma h tile aseg bfb s
  | .mmaFree h tile aseg bfb => Sys2Proof.Machine.execMmaFree h tile aseg bfb s
  | .mmas h tile aseg frea freb => Sys2Proof.Machine.execMmas h tile aseg frea freb s
  | .mmsm h stile otile pseg half => Sys2Proof.Machine.execMmsm h stile otile pseg half s
  | .opfence h => Sys2Proof.Machine.execOpfence h s
  | .mmwait h n => Sys2Proof.Machine.execMmwait h n s
  | .acczero h tile => Sys2Proof.Machine.execAcczero h tile s
  | .accrd h tile => Sys2Proof.Machine.execAccrd h tile s
  | .accrdMax h tile => Sys2Proof.Machine.execAccrdMax h tile s
  | .accrdSum h tile => Sys2Proof.Machine.execAccrdSum h tile s
  | .accwr h tile => Sys2Proof.Machine.execAccwr h tile s
  | .accwrMax h tile => Sys2Proof.Machine.execAccwrMax h tile s
  | .accwrSum h tile => Sys2Proof.Machine.execAccwrSum h tile s
  | .accld h tile sp => Sys2Proof.Machine.execAccld h tile sp s
  | .accst h tile sp => Sys2Proof.Machine.execAccst h tile sp s
  | .tcopyG2s h tsr seg => Sys2Proof.Machine.execTcopyG2s h tsr seg s
  | .tcopyS2g h tsr seg free => Sys2Proof.Machine.execTcopyS2g h tsr seg free s
  | .tcopyS2c h tsr seg free => Sys2Proof.Machine.execTcopyS2c h tsr seg free s
  | .tgather h tsr seg => Sys2Proof.Machine.execTgather h tsr seg s
  | .twaitC h n => Sys2Proof.Machine.execTwaitC h n s
  | .twaitM h n => Sys2Proof.Machine.execTwaitM h n s
  | .tfree h => Sys2Proof.Machine.execTfree h s
  | .tset h v c => Sys2Proof.Machine.execTset h v c s
  | .drainSp h => Sys2Proof.Machine.execDrainSp h s
  | .drainAcc h => Sys2Proof.Machine.execDrainAcc h s
  | .drainG h => Sys2Proof.Machine.execDrainG h s
  | .drainRem h => Sys2Proof.Machine.execDrainRem h s
  | .gset h g => Sys2Proof.Machine.execGset h g s
  | .gclr h g => Sys2Proof.Machine.execGclr h g s
  | .glaunch h => Sys2Proof.Machine.execGlaunch h s
  | .sysrd h c => Sys2Proof.Machine.execSysrd h c s
  | .syswr h c => Sys2Proof.Machine.execSyswr h c s
  | .tret h => Sys2Proof.Machine.execTret h s
  | .tretAck h => Sys2Proof.Machine.execTretAck h s
  | .tretKill h => Sys2Proof.Machine.execTretKill h s
  | .accspill h => Sys2Proof.Machine.execAccspill h s
  | .accfill h => Sys2Proof.Machine.execAccfill h s
  | .accfillZero h => Sys2Proof.Machine.execAccfillZero h s
  | .wftrdEdge h => Sys2Proof.Machine.execWftrdEdge h s
  | .wftrdObj h => Sys2Proof.Machine.execWftrdObj h s
  | .tlbinvPage h => Sys2Proof.Machine.execTlbinvPage h s
  | .tlbinvAsid h => Sys2Proof.Machine.execTlbinvAsid h s
  | .tlbinvAll h => Sys2Proof.Machine.execTlbinvAll h s
  | .halt h => Sys2Proof.Machine.execHalt h s
  | .resume h => Sys2Proof.Machine.execResume h s
  | .longLatencyValueArrival who id lanes => Sys2Proof.Machine.execLongLatencyValueArrival who id lanes s
  | .handlerDispatch ctxh => Sys2Proof.Machine.execHandlerDispatch ctxh s
  | .handlerTimeout core part => Sys2Proof.Machine.execHandlerTimeout core part s
  | .barrierTimeout ctxh w sp => Sys2Proof.Machine.execBarrierTimeout ctxh w sp s
  | .remoteLoadBlocking ctxh w sp => Sys2Proof.Machine.execRemoteLoadBlocking ctxh w sp s
  | .yieldExpiry who sp => Sys2Proof.Machine.execYieldExpiry who sp s
  | .starvationPromotion ctxh w sp => Sys2Proof.Machine.execStarvationPromotion ctxh w sp s
  | .overdue ctxh w sp => Sys2Proof.Machine.execOverdue ctxh w sp s
  | .monitorWake who sp => Sys2Proof.Machine.execMonitorWake who sp s
  | .staleNotice die line => Sys2Proof.Machine.execStaleNotice die line s
  | .cacheEviction lvl owner line => Sys2Proof.Machine.execCacheEviction lvl owner line s
  | .zeroRequest asid va => Sys2Proof.Machine.execZeroRequest asid va s
  | .engineCommandStart core id => Sys2Proof.Machine.execEngineCommandStart core id s
  | .engineCommandComplete core id err => Sys2Proof.Machine.execEngineCommandComplete core id err s
  | .teamExitSignal ctxh => Sys2Proof.Machine.execTeamExitSignal ctxh s
  | .childGridComplete grid => Sys2Proof.Machine.execChildGridComplete grid s
  | .queueWidxWake asid qid => Sys2Proof.Machine.execQueueWidxWake asid qid s
  | .widxPoll asid qid => Sys2Proof.Machine.execWidxPoll asid qid s
  | .packetNop asid qid => Sys2Proof.Machine.execPacketNop asid qid s
  | .packetLaunch asid qid => Sys2Proof.Machine.execPacketLaunch asid qid s
  | .packetReplay asid qid => Sys2Proof.Machine.execPacketReplay asid qid s
  | .replayNextLaunch asid qid => Sys2Proof.Machine.execReplayNextLaunch asid qid s
  | .packetWaitValue asid qid => Sys2Proof.Machine.execPacketWaitValue asid qid s
  | .waitValuePoll asid qid => Sys2Proof.Machine.execWaitValuePoll asid qid s
  | .packetWriteValue asid qid => Sys2Proof.Machine.execPacketWriteValue asid qid s
  | .packetCopy asid qid => Sys2Proof.Machine.execPacketCopy asid qid s
  | .packetSeal asid qid => Sys2Proof.Machine.execPacketSeal asid qid s
  | .packetFence asid qid => Sys2Proof.Machine.execPacketFence asid qid s
  | .packetCompletion asid qid unit => Sys2Proof.Machine.execPacketCompletion asid qid unit s
  | .clusterClaim die cluster => Sys2Proof.Machine.execClusterClaim die cluster s
  | .clusterClaimAge cluster => Sys2Proof.Machine.execClusterClaimAge cluster s
  | .quantumEnd => Sys2Proof.Machine.execQuantumEnd s
  | .priorityEviction cluster => Sys2Proof.Machine.execPriorityEviction cluster s
  | .graceExpiry ctxh => Sys2Proof.Machine.execGraceExpiry ctxh s
  | .lockcapExpiry ctxh => Sys2Proof.Machine.execLockcapExpiry ctxh s
  | .teamSave ctxh => Sys2Proof.Machine.execTeamSave ctxh s
  | .teamWake ctxh => Sys2Proof.Machine.execTeamWake ctxh s
  | .clusterResume die cluster => Sys2Proof.Machine.execClusterResume die cluster s
  | .nocore cluster => Sys2Proof.Machine.execNocore cluster s
  | .hostBar2Read fn off n => Sys2Proof.Machine.execHostBar2Read fn off n s
  | .hostBar2Write fn off bytes relaxed poisoned => Sys2Proof.Machine.execHostBar2Write fn off bytes relaxed poisoned s
  | .registerWrite fn off v => Sys2Proof.Machine.execRegisterWrite fn off v s
  | .readClearCounter fn off => Sys2Proof.Machine.execReadClearCounter fn off s
  | .devctlReset => Sys2Proof.Machine.execDevctlReset s
  | .devctlGo => Sys2Proof.Machine.execDevctlGo s
  | .bootWindowWrite off bytes => Sys2Proof.Machine.execBootWindowWrite off bytes s
  | .powerUp ok => Sys2Proof.Machine.execPowerUp ok s
  | .flrPf => Sys2Proof.Machine.execFlrPf s
  | .flrVf vf => Sys2Proof.Machine.execFlrVf vf s
  | .queueCreate fn seq => Sys2Proof.Machine.execQueueCreate fn seq s
  | .queueDestroy fn seq => Sys2Proof.Machine.execQueueDestroy fn seq s
  | .runlistSet fn seq => Sys2Proof.Machine.execRunlistSet fn seq s
  | .asidBind fn seq => Sys2Proof.Machine.execAsidBind fn seq s
  | .asidFree fn seq => Sys2Proof.Machine.execAsidFree fn seq s
  | .keymapSet fn seq => Sys2Proof.Machine.execKeymapSet fn seq s
  | .streamSet fn seq => Sys2Proof.Machine.execStreamSet fn seq s
  | .ruleSet fn seq => Sys2Proof.Machine.execRuleSet fn seq s
  | .txringSet fn seq => Sys2Proof.Machine.execTxringSet fn seq s
  | .fwUpdate fn seq => Sys2Proof.Machine.execFwUpdate fn seq s
  | .evict fn seq => Sys2Proof.Machine.execEvict fn seq s
  | .fabricSet fn seq => Sys2Proof.Machine.execFabricSet fn seq s
  | .nocmd fn seq opc => Sys2Proof.Machine.execNocmd fn seq opc s
  | .firmwareBankSwitch ok => Sys2Proof.Machine.execFirmwareBankSwitch ok s
  | .fwFallback => Sys2Proof.Machine.execFwFallback s
  | .watchdog => Sys2Proof.Machine.execWatchdog s
  | .spdmGetVersion => Sys2Proof.Machine.execSpdmGetVersion s
  | .spdmGetCapabilities => Sys2Proof.Machine.execSpdmGetCapabilities s
  | .spdmNegotiateAlgorithms => Sys2Proof.Machine.execSpdmNegotiateAlgorithms s
  | .spdmGetDigests => Sys2Proof.Machine.execSpdmGetDigests s
  | .spdmGetCertificate slot => Sys2Proof.Machine.execSpdmGetCertificate slot s
  | .spdmChallenge slot nonce => Sys2Proof.Machine.execSpdmChallenge slot nonce s
  | .spdmGetMeasurements op nonce => Sys2Proof.Machine.execSpdmGetMeasurements op nonce s
  | .frequencyStep die mhz => Sys2Proof.Machine.execFrequencyStep die mhz s
  | .relockEnd die => Sys2Proof.Machine.execRelockEnd die s
  | .powerLimit tenths => Sys2Proof.Machine.execPowerLimit tenths s
  | .dieHot die => Sys2Proof.Machine.execDieHot die s
  | .supplyOutOfRange => Sys2Proof.Machine.execSupplyOutOfRange s
  | .thermalTrip die => Sys2Proof.Machine.execThermalTrip die s
  | .supplyLoss => Sys2Proof.Machine.execSupplyLoss s
  | .flitCrcError link plane => Sys2Proof.Machine.execFlitCrcError link plane s
  | .linkRetrainEnd link plane how => Sys2Proof.Machine.execLinkRetrainEnd link plane how s
  | .ronouPortDown port => Sys2Proof.Machine.execRonouPortDown port s
  | .ronouPortDisable port => Sys2Proof.Machine.execRonouPortDisable port s
  | .ronouPortRetrain port how nbr => Sys2Proof.Machine.execRonouPortRetrain port how nbr s
  | .ronouPeerAccess port peer a => Sys2Proof.Machine.execRonouPeerAccess port peer a s
  | .remoteAccessTimeout who id lanes => Sys2Proof.Machine.execRemoteAccessTimeout who id lanes s
  | .replyLost who id lanes what => Sys2Proof.Machine.execReplyLost who id lanes what s
  | .hostLinkDown => Sys2Proof.Machine.execHostLinkDown s
  | .hostLinkError => Sys2Proof.Machine.execHostLinkError s
  | .ethernetFrameReceive port frame bad full => Sys2Proof.Machine.execEthernetFrameReceive port frame bad full s
  | .ethernetFrameTransmit port ring => Sys2Proof.Machine.execEthernetFrameTransmit port ring s
  | .ethernetLinkChange port up lock => Sys2Proof.Machine.execEthernetLinkChange port up lock s
  | .phcsecRead port => Sys2Proof.Machine.execPhcsecRead port s
  | .phcstep port v => Sys2Proof.Machine.execPhcstep port v s
  | .eccError place corrected => Sys2Proof.Machine.execEccError place corrected s
  | .memoryScrub mdie line corrected bad => Sys2Proof.Machine.execMemoryScrub mdie line corrected bad s
  | .dieCooled die => Sys2Proof.Machine.execDieCooled die s
  | .supplyInRange => Sys2Proof.Machine.execSupplyInRange s
  | .hostLinkUp => Sys2Proof.Machine.execHostLinkUp s
  | .sriovVfEnable n => Sys2Proof.Machine.execSriovVfEnable n s

end Sys2Proof.Machine
end

