-- ==== Sys2Proof/Machine/Issue.lean ====
section
/-!
DEFINITION. From what stands next on the agenda to `exec`: which split of a partition issues (11 R305, 15 R371, R384), the fetch and decode of
its instruction (05 R106, 16 R391), what the part settles between two acts (07 R198, 17 R431), and which acts may come next (log 1).
-/
namespace Sys2Proof.Machine

/-- Whether a constructor is an instruction with a word, not an event. -/
def isCode (i : Instr) : Bool := (rawOf i).isSome

/-! ## Fetch and decode -/

/-- An undefined encoding: cause 0x10, with the extension word in TADDR (16 R391). -/
def undefTrap (pc : Pc) (w e : Word) (mask : Mask) (u : Undef) : Trap :=
  { cause := 0x10, prec := true, tpc := pc, word := w, lanes := mask, addr := if xBit w then e.toNat else 0, detail := u.code, words := [] }

/-- A split's turn: its instruction is fetched, decoded and run, or the stage that fails is reported (16 R389). The Bool says whether it was
fetched. -/
def State.issueTry (s : State) (who : Who) (k : Nat) : Bool × Host.Outcome State Fault Refusal :=
  match (s.thread? who).bind fun t => t.split? k, s.team? (s.ctxhOf who) with
  | some sp, some tm =>
    match s.fetchWords who tm sp.party sp.pc.toNat with
    | (.error e, s') => (false, .next (s'.fetchFault who k sp.pc 0 sp.mask tm e))
    | (.ok (w, e), s') => (true, match decodeWords w e with
      | .ok i => exec i { s' with cur := some { who := who, spl := k, pc := sp.pc, word := w, ext := e } }
      | .bad u => .next (s'.raise who k (undefTrap sp.pc w e sp.mask u) none))
  | _, _ => (false, .next s)

/-- One split issues. -/
def State.issueAt (s : State) (who : Who) (k : Nat) : Host.Outcome State Fault Refusal := (s.issueTry who k).2

/-! ## Which splits may issue -/

/-- Whether a compute die issues: it is powered and released, its core clock runs, and it does not relock (12 R337, 20 R496). -/
def State.dieRuns (s : State) (die : Nat) : Bool :=
  s.plat.powered && !s.plat.clockStop && ((s.die? die).map fun d => d.released && d.relock.isNone).getD false

/-- Whether a held instruction would be held again, none of its lanes having acted. -/
def State.heldAgain (s : State) (who : Who) (k : Nat) : Bool :=
  let split (s : State) : Option Split := (s.thread? who).bind fun t => t.split? k
  match s.issueAt who k with
  | .next s' =>
    let wait := (split s').bind Split.wait
    (wait == some .held || wait == some .entries) && (split s').map Split.acted == (split s).map Split.acted
  | _ => false

/-- Whether some boundary, port or die carries no traffic now (12 R337, R346, 20 R488, R494, R496). -/
def State.anyClosed (s : State) : Bool :=
  s.plat.clockStop || (s.dies.any fun d => d.relock.isSome) || (s.plat.planes.any fun p => p.training || p.lost) ||
    (!s.plat.routes.isEmpty && s.plat.ronou.any fun p => !(p.up && p.enable && !p.down))

/-- Whether a split's next instruction, or its fetch, has traffic for a closed boundary or port, so that it waits (log 23). -/
def State.crosses (s : State) (who : Who) (k : Nat) : Bool :=
  s.anyClosed && match s.issueAt who k with
    | .next s' => s'.closed
    | _ => false

-- DEDUCED (log 20, safe): see notes/assumptions/20.md.
/-- Whether a split may issue as far as its own waits go (02 R48, R50, 03 R74, 07 R170). Monitors and locks end by events of their own. -/
def State.splitReady (s : State) (t : Warp) (k : Nat) (sp : Split) : Bool :=
  !t.waitsValue sp && (match sp.wait with
    | some .monitor | some (.lock _) => false
    | some .held | some .entries => !s.heldAgain t.who k
    | _ => s.waitOver t k sp) && !s.crosses t.who k

-- DEDUCED (log 11, safe): While a team is stopping, a warp that has raised no trap of its own may issue up to 12 instructions and the team's handler is dispatched once every reserved entry has been filled; when between these the stop takes hold is a free choice of acts.
/-- Whether a thread of a team may issue: in its skid, a warp that raised no trap of its own issues at most 12 instructions, and a split at a
blocking point stops where it is (15 R371, R373, R378). -/
def State.threadRuns (s : State) (t : Warp) (sp : Split) : Bool :=
  match t.who with
  | .handler _ _ => true
  | _ =>
    match s.team? (s.ctxhOf t.who) with
    | none => false
    | some tm =>
      if t.lost || (tm.saving.isSome && s.plat.phase != .failed) then false
      else match tm.status, tm.stop with
        | .running, _ => true
        | .stopping, some r => !r.again && decide (t.skid < 12) && !(r.faults.any fun f => f.warp == faultNo t.who) && sp.wait.isNone
        | _, _ => false

/-- The core and partition of a thread; a guide has no partition. -/
def State.slotOf (s : State) (t : Warp) : Nat × Nat :=
  match t.who with
  | .handler c p => (c, p)
  | w => (s.coreOf w, t.part)

/-- The issue class of a user split, and its place within it: a lower number goes first (11 R305). -/
def State.issueClass (s : State) (t : Warp) (sp : Split) : Nat :=
  match s.team? (s.ctxhOf t.who) with
  | none => 99
  | some tm =>
    if sp.promoted ≥ 2 then 1
    else if t.locks > 0 then 2
    else if sp.promoted = 1 ∨ s.effPrio tm.ctxh t.who.warpNo > tm.prio then 3
    else (if tm.bg then 12 else 4) + (7 - tm.prio)

/-- The splits of a partition that may issue: thread, split index and class; the handler's class is 0. -/
def State.issuable (s : State) (core part : Nat) : List (Warp × Nat × Split × Nat) :=
  let mine := s.threads.filter fun t => !t.who.isGuide && s.slotOf t == (core, part)
  mine.flatMap fun t => (t.live.filter fun x => s.threadRuns t x.2 && s.splitReady t x.1 x.2).map fun x =>
    (t, x.1, x.2, if t.who.isHandler then 0 else s.issueClass t x.2)

/-- The place of a split in its partition's round robin: by warp slot, then by split index (11 R305). -/
def Warp.place (t : Warp) (k : Nat) : Nat := t.slot * 4 + k

/-- The splits among which a partition's choice falls: those of the highest class that became ready earliest; thread, split index and place. -/
def State.firstReady (l : List (Warp × Nat × Split × Nat)) : List (Who × Nat × Nat) :=
  let cls := (l.map fun x => x.2.2.2).foldl min 99
  let top := l.filter fun x => x.2.2.2 == cls
  let timed := top.map fun x => x.2.2.1.readyFrom
  let first := timed.foldl min (timed.headD 0)
  (top.filter fun x => x.2.2.1.readyFrom == first).map fun x => (x.1.who, x.2.1, x.1.place x.2.1)

-- DEDUCED (log 19, safe and in part unsafe): see notes/assumptions/19.md.
/-- The split that a partition issues from: of equals the next one round after the one that issued there last, whose 32 places stand in a ring
(11 R305); before any has issued there, any of them. -/
def State.pickSplit (s : State) (core part : Nat) : Option (Who × Nat × Nat) × State :=
  let l := State.firstReady (s.issuable core part)
  match s.rr.find? fun r => r.1 == core && r.2.1 == part with
  | some r =>
    let dist (x : Who × Nat × Nat) : Nat := (x.2.2 + 31 - r.2.2) % 32
    (l.find? fun x => l.all fun y => decide (dist x ≤ dist y), s)
  | none =>
    let (i, s) := takeChoice s l.length
    (l[i]?, s)

/-- Whether the instruction of the split that was picked, once fetched, has issued: it is not held (02 R50, 17 R416). -/
def State.didIssue (s : State) (who : Who) (k : Nat) : Bool :=
  match (s.thread? who).bind fun t => t.split? k with
  | some sp => !(sp.wait == some .held || sp.wait == some .entries)
  | none => true

/-- The round robin of a partition moved to the place of the user split that has issued. -/
def State.moveTurn (s : State) (core part place : Nat) : State :=
  { s with rr := (core, part, place) :: s.rr.filter fun r => !(r.1 == core && r.2.1 == part) }

/-- A `yield` of zero cycles ends once another split of its partition has issued (07 R170). -/
def State.endYields (s : State) (core part : Nat) (who : Who) (k : Nat) : State :=
  { s with threads := s.threads.map fun (t : Warp) =>
      if s.slotOf t == (core, part) && !t.who.isGuide then
        { t with splits := t.splits.zipIdx.map fun (o, j) => o.map fun (sp : Split) =>
            match sp.wait with
            | some (.yield 0 _) => if t.who == who && j == k then sp else { sp with wait := none }
            | _ => sp }
      else t }

/-- A cycle in which a partition's handler slot issues does not count for the splits that are ready (02 R50, 11 R305). -/
def State.skipCycle (s : State) (core part : Nat) : State :=
  let now := s.cycles (core / 16)
  { s with threads := s.threads.map fun (t : Warp) =>
      if s.slotOf t == (core, part) && t.who.isUser then
        { t with splits := t.splits.map fun o => o.map fun (sp : Split) =>
            if sp.up && decide (sp.skipAt ≤ now) then { sp with skips := sp.skips + 1, skipAt := now + 1 } else sp }
      else t }

/-- What follows the turn of a split whose instruction was fetched. -/
def afterIssue (core part : Nat) (who : Who) (k place : Nat) : Host.Outcome State Fault Refusal → Host.Outcome State Fault Refusal
  | .next s => .next (
    if s.didIssue who k then
      (if who.isHandler then s.skipCycle core part else s.moveTurn core part place).endYields core part who k
    else s)
  | o => o

/-- A partition issues one instruction, if it has one to issue. -/
def State.issuePart (s : State) (core part : Nat) : Host.Outcome State Fault Refusal :=
  if !s.dieRuns (core / 16) then .next s
  else
    match s.pickSplit core part with
    | (some (who, k, place), s) =>
      match s.issueTry who k with
      | (true, o) => afterIssue core part who k place o
      | (false, o) => o
    | (none, s) => .next s

/-- Whether a guide may issue. -/
def State.guideRuns (s : State) (ctxh : Nat) : Bool :=
  match s.thread? (.guide ctxh) with
  | none => false
  | some t => s.dieRuns (s.dieOf (.guide ctxh)) && match t.split? 0 with
    | some sp => s.threadRuns t sp && s.splitReady t 0 sp
    | none => false

/-- A guide issues one instruction. -/
def State.issueGuide (s : State) (ctxh : Nat) : Host.Outcome State Fault Refusal :=
  if s.guideRuns ctxh then s.issueAt (.guide ctxh) 0 else .next s

/-! ## What the part settles by itself between two acts -/

/-- A refused write-back reported: logged for each of its writers, and the team whose store the line carries last stops with cause 0x27 (17 R431). -/
def State.reportRefusal (s : State) (x : Nat × Nat × Bool) : State :=
  let s := s.logEvent 0x27 0 (4 + mdieOf x.2.1) x.1 (wordOf x.2.1)
  let tr : Trap := { cause := 0x27, prec := false, tpc := 0, word := 0, lanes := 0, addr := x.2.1, detail := 0, words := [] }
  match if x.2.2 then s.threadsOf x.1 else [] with
  | t :: _ => s.raise t.who ((t.live.head?.map Prod.fst).getD 0) tr none
  | [] => s

/-- Queues that a reset of their function stops, and that have nothing left to complete, are gone (12 R316). -/
def State.reapQueues (s : State) : State :=
  let awaited (q : Queue) : Bool := s.plat.mboxes.any fun m => m.busy && m.opc == 2 && m.num 0 2 == q.asid && m.num 2 2 == q.qid
  { s with queues := s.queues.filter fun q => !(q.stopping && q.runs.isEmpty && !awaited q) }

/-- The splits that have become ready, from now on, and those that are ready no more (02 R50). -/
def State.noteReady (s : State) : State :=
  { s with threads := s.threads.map fun (t : Warp) =>
      { t with splits := t.splits.zipIdx.map fun (o, k) => o.map fun (sp : Split) =>
          let r := s.splitReady t k sp
          if r == sp.up then sp else if r then { sp with up := true, readyFrom := s.clkFor t.who, skips := 0 } else { sp with up := false } } }

/-- Refusals reported, free locks granted, edges of engine waits that are over and stopped queues dropped, the splits that are ready noted. -/
def State.settle (s : State) : State :=
  let r := s.refusals
  State.noteReady { (r.foldl State.reportRefusal { s with refusals := [] }).grantAll.dropEngEdges.reapQueues with closed := false }

/-! ## The acts that may come next -/

/-- One act, where nothing is in its way. An event of the agenda is a row of the table that has no word. -/
def State.tryAct (s : State) : Act → Host.Outcome State Fault Refusal
  | .issue core part => s.issuePart core part
  | .issueGuide ctxh => s.issueGuide ctxh
  | .event i => if isCode i then .next s else exec i s
  | .transmit port ring => execEthernetFrameTransmit port ring s
  | .boot => .next (if s.plat.powered then s.bootStep else s)
  | .update falls => if falls then execFwFallback s else execFirmwareBankSwitch true s
  | .controller => .next s.ctlStep
  | .elapse n => .next (s.elapse n)

/-- An act put off where its traffic would cross a boundary, or use a port, that carries none now (log 23). -/
def State.orWaits (s : State) : Host.Outcome State Fault Refusal → Host.Outcome State Fault Refusal
  | .next t => .next (if t.closed then s else t)
  | o => o

/-- One act of the agenda. -/
def State.perform1 (s : State) (a : Act) : Host.Outcome State Fault Refusal := s.orWaits (s.tryAct a)

/-- Acts that the part's own work may bring next: issues, arrivals, engines, handlers, limits, caches, queues, clusters. -/
def State.ownActs (s : State) : List Act :=
  let parts := (s.threads.filter fun t => !t.who.isGuide).map s.slotOf
  let splits : List (Warp × Nat) := s.threads.flatMap fun t => t.live.map fun x => (t, x.1)
  let users : List (Nat × Nat × Nat) := splits.filterMap fun x => match x.1.who with
    | .warp h w => some (h, w, x.2)
    | _ => none
  let dies := [0, 1, 2, 3]
  let cls := s.clusters.map Cluster.id
  let hs := s.teams.map Team.ctxh
  let qs := s.queues.map fun q => (q.asid, q.qid)
  let ev (l : List Instr) : List Act := l.map .event
  (parts.eraseDups.map fun p => .issue p.1 p.2) ++ hs.map .issueGuide ++
  ev (s.threads.flatMap fun t => t.pend.flatMap fun p =>
    .longLatencyValueArrival t.who p.id p.lanes :: (lanesOf p.lanes).map fun l => .longLatencyValueArrival t.who p.id (bitMask l)) ++
  ev (hs.map .handlerDispatch) ++ ev (s.services.map fun v => .handlerTimeout v.core v.part) ++
  ev (users.map fun x => .barrierTimeout x.1 x.2.1 x.2.2) ++ ev (users.map fun x => .remoteLoadBlocking x.1 x.2.1 x.2.2) ++
  ev (splits.map fun x => .yieldExpiry x.1.who x.2) ++ ev (users.map fun x => .starvationPromotion x.1 x.2.1 x.2.2) ++
  ev (users.map fun x => .overdue x.1 x.2.1 x.2.2) ++ ev (splits.map fun x => .monitorWake x.1.who x.2) ++
  ev ((s.lines.filter fun l => l.lvl == .l2).map fun l => .staleNotice l.owner l.line) ++ ev (s.lines.map fun l => .cacheEviction l.lvl l.owner l.line) ++
  ev (s.cmds.map fun c => .engineCommandStart c.core c.id) ++ ev (s.cmds.map fun c => .engineCommandComplete c.core c.id 0) ++
  ev (hs.map .teamExitSignal) ++ ev (s.grids.map fun g => .childGridComplete g.id) ++
  ev (qs.flatMap fun q => [.queueWidxWake q.1 q.2, .widxPoll q.1 q.2, .packetNop q.1 q.2, .packetLaunch q.1 q.2, .packetReplay q.1 q.2,
    .replayNextLaunch q.1 q.2, .packetWaitValue q.1 q.2, .waitValuePoll q.1 q.2, .packetWriteValue q.1 q.2, .packetCopy q.1 q.2,
    .packetSeal q.1 q.2, .packetFence q.1 q.2]) ++
  ev (s.queues.flatMap fun q => q.runs.map fun r => .packetCompletion q.asid q.qid r.unit) ++
  ev (dies.flatMap fun d => cls.map fun c => .clusterClaim d c) ++ ev (cls.map .clusterClaimAge) ++ ev [.quantumEnd] ++
  ev (cls.map .priorityEviction) ++ ev (hs.map .graceExpiry) ++ ev (hs.map .lockcapExpiry) ++ ev (hs.map .teamSave) ++ ev (hs.map .teamWake) ++
  ev (dies.flatMap fun d => cls.map fun c => .clusterResume d c) ++ ev (cls.map .nocore)

/-- Acts of Texis, of firmware and of the ports: boot, requests being served, an update in progress, frames to send. -/
def State.unitActs (s : State) : List Act :=
  let mb (m : Mailbox) : Instr :=
    match m.opc with
    | 1 => .queueCreate m.fn m.seq
    | 2 => .queueDestroy m.fn m.seq
    | 3 => .runlistSet m.fn m.seq
    | 4 => .asidBind m.fn m.seq
    | 5 => .asidFree m.fn m.seq
    | 6 => .keymapSet m.fn m.seq
    | 7 => .streamSet m.fn m.seq
    | 8 => .ruleSet m.fn m.seq
    | 9 => .txringSet m.fn m.seq
    | 10 => .fwUpdate m.fn m.seq
    | 11 => .evict m.fn m.seq
    | 12 => .fabricSet m.fn m.seq
    | n => .nocmd m.fn m.seq n
  let upd : List Act := if s.plat.upd.isSome then [.update false, .update true] else []
  let boot : List Act := match s.plat.phase with
    | .verify | .release | .fwStart => [.boot]
    | _ => []
  let ctl : List Act := if s.firmwareRuns then [.controller] else []
  ((s.plat.mboxes.filter Mailbox.busy).map mb).map .event ++ upd ++ boot ++ ctl ++
    s.plat.eth.flatMap fun (p : EthPort) => p.rings.map fun r => .transmit p.num r.num

/-- Whether an act changes the state. -/
def State.changes (s : State) (a : Act) : Bool :=
  match s.perform1 a with
  | .next s' => decide (s' ≠ s)
  | _ => true

/-- The act that comes next when the agenda names none: any act of the part that changes something, or the passing of a tick; which, is free
(log 1). -/
def State.chooseAct (s : State) : Act × State :=
  let l := (s.ownActs ++ s.unitActs).filter s.changes ++ [.elapse 1]
  let (i, s) := takeChoice s l.length
  (l.getD i (.elapse 1), s)

end Sys2Proof.Machine
end

