-- ==== Sys2Proof/Machine/Loader.lean ====
section
/-!
DEFINITION. The load that `State.withFetchWord` stands for (log 7): one team of one warp, whose code, page tables and run-list entry stand in
device memory, with an instruction at the warp's PC; a system instruction stands before a handler warp that serves the team.
-/
namespace Sys2Proof.Machine

/-- Where the code stands: its virtual address, and its physical one under the 1 GiB leaf. -/
def loadVa : Nat := 0x10000
def loadPa : Nat := 0x40010000

/-- The context that the load makes: slot 0 of ASID 1. -/
def loadCtxh : Nat := 2 ^ 22

/-- Bytes put into memory from outside. -/
def State.loadBytes (s : State) (pa n v : Nat) : State :=
  (cellsOf pa n v).foldl (fun s x => { s with mem := cellSet s.zeroed s.mem x.1 x.2, hist := s.hist.filter fun h => h.key != x.1 }) s

/-- The launch of the team: one role of one warp with 16 frame entries, four tiles and four segments. -/
def loadLaunch : Launch :=
  { rev := 4, asid := 1, gx := 1, gy := 1, gz := 1, teams := 1, prio := 0, bg := false, segs := 4, gentry := 0, hasGuide := false, tickets := 0,
    fpctl := 0, caps := 0, afn := 0, psz := 0x410000, ppool := 0x8000000, pslabs := 1, obj := 0, param := 0, code := 0, data := 0,
    roles := [{ entry := BitVec.ofNat 48 loadVa, warps := 1, frame := 2, tiles := 4, qtet := false }], cmp := false, caddr := 0, cval := 0 }

def loadCluster (id grid : Nat) : Cluster :=
  { id := id, grid := grid, cx := 0, cy := 0, cz := 0, status := .running, bar := Bar.zero, since := [0, 0, 0, 0], aged := [], order := 0,
    resumed := false, exited := [], logged := false, noTurns := 0 }

/-- The stop that a handler warp finds when it is loaded to serve the team: a `trap` of code 0. -/
def loadStop : StopRec :=
  { cause := 0x14, res := 0, level := 0, guide := false, prec := true, rep := 0, warp := 0, spl := 0, tpc := BitVec.ofNat 48 loadVa,
    tlanes := allLanes, taddr := 0, tdetail := 0, tword := 0, tref := 0, words := [], faults := [], snap := [], again := false }

/-- The team and its warp, on compute die 0, core 0, partition 0. -/
def State.loadTeam (s : State) : State :=
  let cl := s.nextId
  let g := s.nextId + 1
  let tm := newTeam (loadCluster cl g) loadLaunch 0 0 0 0 s.nextSerial { core := 0, parts := [0], base := 0 }
  let grid : Grid := { id := g, launch := loadLaunch, depth := 0, owner := .packet 1 0 0, left := 1, fail := none, clk := [], relClk := [], done := false }
  let s := { s with
    nextId := s.nextId + 2, nextSerial := s.nextSerial + 1
    teams := tm :: s.teams.filter fun t => t.ctxh != loadCtxh
    clusters := loadCluster cl g :: s.clusters
    grids := grid :: s.grids
    threads := s.threads.filter fun t => t.who != Who.warp loadCtxh 0 && s.slotOf t != (0, 0)
    services := s.services.filter fun v => !(v.core == 0 && v.part == 0)
    dies := s.dies.map fun (d : Die) => if d.num = 0 then { d with released := true, relock := none } else d
    plat := { s.plat with
      powered := true, clockStop := false, planes := []
      asids := { num := 1, vf := none, enc := false, root := 0x100000, refused := false } :: s.plat.asids.filter fun a => a.num != 1
      runList := { asid := 1, nq := 1, quant := 0, savepool := 0x10000000, saveslots := 16 } :: s.plat.runList.filter fun e => e.asid != 1 } }
  s.addThread (.warp loadCtxh 0) 0 0 0 (BitVec.ofNat 48 loadVa) allLanes 16 0 cl (s.cycles 0) []

/-- A handler warp in the slot of that partition, serving the team. -/
def State.loadHandler (s : State) : State :=
  let now := s.cycles 0
  let (party, s) := s.newParty (.user loadCtxh 0) [] []
  ({ s with
    services := { core := 0, part := 0, ctxh := loadCtxh, hwsel := 0, start := now } :: s.services
    threads := s.threads ++ [newThread (.handler 0 0) 0 0 (BitVec.ofNat 48 loadVa) allLanes 16 0 party now []] }).updTeam loadCtxh fun t =>
      { t with status := .served, stop := some loadStop }

/-- Whether the major opcode of a word is one of the system instructions (08 R234). -/
def isSystemWord (w : Nat) : Bool := fieldOf w 60 4 == 14

-- DESIGN CHOICE (log 7, safe): see notes/assumptions/7.md.
/-- The load of one instruction of up to 16 bytes, whose partition issues next. -/
def State.loadWord (s : State) (v : Nat) : State :=
  let s := s.loadBytes 0x100000 8 0x101001
  let s := s.loadBytes 0x101000 8 0x40000079
  let s := (s.loadBytes loadPa 16 v).loadTeam
  let s := if isSystemWord v then s.loadHandler else s
  { s with tlb := s.tlb.filter fun e => e.asid != 1, agenda := .issue 0 0 :: s.agenda }

end Sys2Proof.Machine
end

