-- ==== Sys2Proof/Machine/Step.lean ====
section
/-!
DEFINITION. One step of the package: the act that stands next on the agenda, or a free choice among the acts the part may take; and the load of
one instruction that the next step fetches.
-/
namespace Sys2Proof.Machine

/-- One step (log 1). -/
def step (s : State) : Host.Outcome State Fault Refusal :=
  match s.agenda with
  | a :: l => State.perform1 (State.settle { s with agenda := l }) a
  | [] => State.perform1 (State.chooseAct (State.settle s)).2 (State.chooseAct (State.settle s)).1

-- DESIGN CHOICE (log 7, safe): From State.reset the device waits in PHASE 0x1: a program runs only after the driver has staged an image and written DEVCTL.GO, boot has ended in READY, an ASID has been bound with page tables, a queue has been created, the run list has been set, and the front end has started a LAUNCH packet and placed its cluster.
/-- `s` with an instruction stored where the next step fetches (log 7). -/
def State.withFetchWord (s : State) (nbits w : Nat) : State := s.loadWord (w % 2 ^ nbits)

end Sys2Proof.Machine
end

