-- ==== Sys2Proof/Safety.lean ====
section
/-!
DEFINITION. What counts as a safe state and a safe run: memory in its one form, the limits that the part keeps on queues and tables, and the
runs that statements speak of.
-/
namespace Sys2Proof.Machine

/-- Memory is in its canonical form. -/
def State.memOk (s : State) : Prop := Memory.wf s.zeroed s.mem = true

/-- Every lane's queue has at most 16 ages, and every table of splits four places (03 R52, R65). -/
def Warp.shapeOk (t : Warp) : Prop := t.queue.length = 32 ∧ (∀ q ∈ t.queue, q.length ≤ 16) ∧ t.splits.length = 4

/-- No instruction is half done, and every thread has its shape. -/
def State.threadsOk (s : State) : Prop := s.cur = none ∧ ∀ t ∈ s.threads, t.shapeOk

/-- A state that a run may stand in between two steps. -/
def State.ok (s : State) : Prop := s.memOk ∧ s.threadsOk

/-! ## The terms in which statements about one instruction are made -/

/-- What the instruction in issue runs with: its thread, split, team and switched-on lanes (05 R111). -/
def State.issuing (s : State) (h : Hdr) : Option Cx :=
  match s.cur with
  | none => none
  | some i =>
    match s.thread? i.who, s.team? (s.ctxhOf i.who) with
    | some t, some tm => (t.split? i.spl).map fun sp =>
        { who := i.who, k := i.spl, pc := i.pc, word := i.word, h := h, t := t, sp := sp, tm := tm, on := sp.mask &&& t.guardMask h.guard }
    | _, _ => none

/-- The stack entries below the window that an instruction's selectors read (03 R59). -/
def belowWindow (cx : Cx) (entries : List Nat) : List Nat :=
  if cx.who.isUser then entries.filter fun i => decide (i < cx.t.win) else []

/-- Stack entries read: the thread and the state afterwards, where every read of an entry below the window has been performed. -/
def State.afterReads (s : State) (cx : Cx) (entries : List Nat) : Option (Cx × State) :=
  match State.eachEntry (fun s i => s.fillEntry cx.tm cx.who cx.sp.party i) s (belowWindow cx entries) with
  | (.error _, _) => none
  | (.ok (), s) =>
    match s.thread? cx.who with
    | some t => if t.split? cx.k = some cx.sp then some ({ cx with t := t }, s) else none
    | none => none

/-- The instruction in issue passes the mode check, the wait of R75, the lookahead check and the check of its near-frame selectors (16 R389,
R392 to R397): what it runs with, and the state in which it takes its effect. `cross` gives the pending values it reads from other lanes. -/
def State.readyAcross (s : State) (h : Hdr) (sh : Shape) (cross : Cx → Option (Mask × Nat)) : Option (Cx × State) :=
  (s.issuing h).bind fun cx =>
    if modeFail cx.who sh cx.word = none ∧ (sh.waits = true → cx.t.pendsOf cx.k = []) ∧ hazards cx sh cross = none ∧
        selectorFail cx.who cx.sp sh = none then
      State.afterReads { s with cur := none } cx (slotEntries cx.sp sh)
    else none

/-- The same for an instruction that reads no other lane. -/
def State.ready (s : State) (h : Hdr) (sh : Shape) : Option (Cx × State) := s.readyAcross h sh fun _ => none

/-- The rights of an instruction's writes of stack entries below the window have passed (03 R59). -/
def State.writable (s : State) (cx : Cx) : List Nat → Option State
  | [] => some s
  | i :: l =>
    if cx.who.isUser = false ∨ cx.t.win ≤ i then s.writable cx l
    else
      match s.transBytes cx.sp.party (s.clkOf cx.sp.party) cx.tm.asid (frameRights true) (privVa cx.tm cx.who (i * 256)) 0 256 with
      | (.error _, _) => none
      | (.ok _, s') =>
        match s'.transBytes cx.sp.party (s.clkOf cx.sp.party) cx.tm.asid (frameRights true) (privVa cx.tm cx.who (0x400000 + i)) 0 1 with
        | (.error _, _) => none
        | (.ok _, s) => s.writable cx l

/-- The stack entries below the window that an instruction has written, encoded again in their private places, the highest first. -/
def State.writeBack (s : State) (cx : Cx) (entries : List Nat) : State :=
  (belowWindow cx entries).reverse.foldl (fun s i => (s.spillEntry cx.tm cx.who cx.sp.party i).2) s

/-- Stack entries written to their private places one after the other and marked clean, where every write passes (06 R136). -/
def State.spills (s : State) (cx : Cx) : List Nat → Option State
  | [] => some s
  | i :: l =>
    match s.spillEntry cx.tm cx.who cx.sp.party i with
    | (.ok (), s) => (s.updThread cx.who fun t => { t with clean := (i :: t.clean).eraseDups }).spills cx l
    | (.error _, _) => none

/-- `exec` of an instruction answers a next state that has a property. -/
def Completes (i : Instr) (s : State) (P : State → Prop) : Prop := ∃ t, exec i s = .next t ∧ P t

/-- The open lookahead windows after one more instruction of the split (03 R74). -/
def Warp.shrunk (t : Warp) (sp : Split) : List (Nat × Nat) := (sp.windows.filter fun w => t.pend.any fun p => p.id == w.1).map fun w => (w.1, w.2 - 1)

/-- The issuing split once its instruction has issued: its waits are over, its windows have shrunk, and `new` has opened one (03 R50, R74). -/
def issuedSplit (cx : Cx) (now : Nat) (new : Option Pend) : Split :=
  { cx.sp with windows := (new.map fun p => (p.id, cx.h.la.toNat)).toList ++ cx.t.shrunk cx.sp, wait := none, waited := 0, readyFrom := now,
               promoted := 0, acted := 0, up := false, skips := 0, issues := cx.sp.issues + 1 }

/-- The instruction of `cx` has taken effect between `s` and `t`: the queue of every lane of its split has changed as `qs` says; its split has
changed as `g` says and goes on at `pc` with `n` pushes counted; its reservation `new`, if it made one, is open; beside that its thread has
changed as `f` says, and nothing else in the package has changed but its team's mark of progress. -/
structure Moves (cx : Cx) (pc : Pc) (n : Nat) (qs : Nat → List QEnt → List QEnt) (new : Option Pend) (f : Warp → Warp) (g : Split → Split)
    (s t : State) : Prop where
  thread : ∃ th, t.thread? cx.who = some th ∧
    (∀ l, th.queue[l]? = (cx.t.queue[l]?).map fun q => if cx.mask.getLsbD l then qs l q else q) ∧
    (∀ j, th.split? j = if j = cx.k then
        some { g (issuedSplit cx (s.clkFor cx.who) new) with pc := pc, p := min 31 ((g (issuedSplit cx (s.clkFor cx.who) new)).p + n) }
      else cx.t.split? j) ∧
    th.pend = new.toList ++ cx.t.pend.map (fun p => if p.spl == cx.k then { p with later := p.later + 1 } else p) ∧
    th = { f cx.t with queue := th.queue, splits := th.splits, pend := th.pend, skid := th.skid }
  others : ∀ w, w ≠ cx.who → t.thread? w = s.thread? w
  team : ∀ h, t.team? h = if h = cx.tm.ctxh ∧ cx.who.isHandler = false then (s.team? h).map (fun x => { x with progress := true }) else s.team? h
  rest : t = { s with threads := t.threads, teams := t.teams, nextPend := t.nextPend }

/-- The same where `res` has been pushed in every lane of the split, oldest first (03 R52). -/
abbrev Steps (cx : Cx) (pc : Pc) (n : Nat) (res : Nat → List QEnt) (new : Option Pend) (f : Warp → Warp) (g : Split → Split) (s t : State) :
    Prop := Moves cx pc n (fun l q => (res l).foldl pushLane q) new f g s t

/-- An instruction that reserves nothing. -/
abbrev Pushes (cx : Cx) (n : Nat) (res : Nat → List QEnt) (s t : State) : Prop := Steps cx cx.nextPc n res none (fun th => th) (fun sp => sp) s t

/-- An instruction that pushes nothing, changes its thread and its split as given, and goes on at an address. -/
abbrev Goes (cx : Cx) (pc : Pc) (f : Warp → Warp) (g : Split → Split) (s t : State) : Prop := Steps cx pc 0 (fun _ => []) none f g s t

/-- An instruction that pushes nothing and changes its thread as given. -/
abbrev Changes (cx : Cx) (f : Warp → Warp) (s t : State) : Prop := Steps cx cx.nextPc 0 (fun _ => []) none f (fun sp => sp) s t

/-- An instruction that makes a reservation of `n` results for the lanes `wait`; with no such lane it pushes what `off` says (03 R73). -/
def Reserves (cx : Cx) (n : Nat) (wait : Mask) (off : Nat → QEnt) (kind : PendKind) (s t : State) : Prop :=
  if wait = 0 then Pushes cx n (fun l => List.replicate n (off l)) { s with nextPend := s.nextPend + 1 } t
  else Steps cx cx.nextPc n
    (fun l => if wait.getLsbD l then (List.range n).map fun i => { val := 0, pend := some (s.nextPend, i), poison := false }
      else List.replicate n (off l))
    (some { id := s.nextPend, spl := cx.k, pc := cx.pc, word := cx.word, lanes := wait, kind := kind, later := 0, from_ := s.clkFor cx.who
            ref := s.ref, raised := [] })
    (fun th => th) (fun sp => sp) { s with nextPend := s.nextPend + 1 } t

/-- A memory request that passes its checks and whose every lane translates: the request, a release's accesses each with its place, and the state
in which it is performed or reserved (16 R389, 17 R414 to R425, 15 R379, 10 R272). -/
def State.granted (s : State) (cx : Cx) (a : Access) : Option (MemReq × State) :=
  let at_ := s.placeOfWho cx.who
  if s.stage5 cx.tm cx.who a.sp a.op a.acc = [] ∧ s.inTransit cx.tm cx.who a.sp a.op a.acc = false ∧ s.replayFull cx = false ∧
      redWait cx a = false then
    let s1 := (s.tick cx.sp.party).2
    match s1.xlateLanes cx.tm cx.who a.sp cx.sp.party (s1.clkOf cx.sp.party) a.op a.acc [] with
    | (ok, [], false, s2) =>
      some (s2.ownParties
        { op := a.op, sp := a.sp, scope := a.scope, ord := a.ord, party := cx.sp.party, clk := s2.clkOf cx.sp.party
          stamp := (s.tick cx.sp.party).1, nc := a.nc
          acc := ok.map fun x => { x with pt := atomPoint at_.1 at_.2 a.scope x.keys (inPriv a.sp x.ea) } })
    | _ => none
  else none

/-- An instruction whose request answers values: it reserves its results for the lanes that make the request, the other active lanes push their SA,
and a lane with a poisoned address a poisoned free value (03 R73, 07 R173, 17 R434). -/
def LoadsLanes (i : Instr) (cx : Cx) (os use : List Operand) (a : Access) (s : State) (u : State) : Prop :=
  ∀ r s2, u.granted cx a = some (r, s2) →
    let free := takeFrees s2 32
    ∃ t, exec i s = .next (t.consume cx use) ∧
      Reserves cx a.n (maskOf (a.acc.map LaneAcc.lane)) (fun l => if a.badAddr.contains l then ent (free.1.getD l 0) true else offEnt os l)
        (.mem r) free.2 t

/-- An instruction whose request answers nothing: it goes on, and its request is performed at once, where its traffic reaches the homes that it
is performed at (12 R334). -/
def StoresLanes (i : Instr) (cx : Cx) (use : List Operand) (a : Access) (s : State) (u : State) : Prop :=
  ∀ r s2, u.granted cx a = some (r, s2) →
    let at_ := s2.placeOfWho cx.who
    ∃ t, Changes cx (fun th => th) (s2.cross at_.1 true r.homeKeys) t ∧
      let done := t.perform at_.1 at_.2 cx.tm.ctxh r (maskOf (r.acc.map LaneAcc.lane))
      exec i s = .next ((done.2.reqTraps cx.who cx.k cx.pc cx.word 0 r done.1).consume cx use)

/-- The entry of a user warp's instruction that a guide may run as well, or not. -/
def Shape.compute (guide : Bool) (srcs : List (Nat × Src)) : Shape := { Shape.user srcs true with guide := guide }

/-- The instruction pushes `n` results at once, computed from its own sources in each switched-on lane; a switched-off lane pushes its SA
(03 R55); a poisoned source poisons the lane's results (17 R433). -/
def PushesLanes (i : Instr) (h : Hdr) (guide : Bool) (srcs : List (Nat × Src)) (n : Nat) (f : Cx → Nat → List Word → List Word) (s : State) : Prop :=
  ∀ cx s1, s.ready h (Shape.compute guide srcs) = some (cx, s1) →
    let os := (s1.operands cx srcs true).1
    ∃ t, exec i s = .next (t.consume cx os) ∧
      Pushes cx n (fun l => if cx.on.getLsbD l then (f cx l (valsAt os l)).map fun v => ent v (poisonAt os l) else List.replicate n (offEnt os l))
        (s1.operands cx srcs true).2 t

/-- The instruction reserves `n` results for its switched-on lanes, which an arrival fills with the values computed at its issue, and raises
the flags given then. -/
def ReservesLanes (i : Instr) (h : Hdr) (guide : Bool) (srcs : List (Nat × Src)) (n : Nat) (f : Cx → Nat → List Word → List Word × Flags)
    (s : State) : Prop :=
  ∀ cx s1, s.ready h (Shape.compute guide srcs) = some (cx, s1) →
    let os := (s1.operands cx srcs true).1
    ∃ t, exec i s = .next (t.consume cx os) ∧
      Reserves cx n cx.on (offEnt os) (.value (cx.lanes.map fun l => (l, (f cx l (valsAt os l)).1))
        (cx.lanes.map fun l => (l, (f cx l (valsAt os l)).2)) (cx.lanes.filter (poisonAt os))) (s1.operands cx srcs true).2 t

/-- The instruction pushes one result at once in each switched-on lane; its flags are then raised, and poisoned sources consumed. -/
def FloatsLanes (i : Instr) (h : Hdr) (srcs : List (Nat × Src)) (f : Cx → List Word → Word × Flags) (s : State) : Prop :=
  ∀ cx s1, s.ready h (Shape.user srcs true) = some (cx, s1) →
    let os := (s1.operands cx srcs true).1
    ∃ t, exec i s = .next ((t.flagsNow cx (cx.lanes.map fun l => (l, (f cx (valsAt os l)).2))).consume cx os) ∧
      Pushes cx 1 (fun l => if cx.on.getLsbD l then [ent (f cx (valsAt os l)).1 (poisonAt os l)] else [offEnt os l])
        (s1.operands cx srcs true).2 t

/-- A command has entered its queue between `s` and `t`, its issuer going on: its counter has risen, a guide's ticket is taken, and a matrix
command's tiles are noted as not shown complete (08 R203 to R205, R221). -/
def Issues (cx : Cx) (matrix : Bool) (op : EngOp) (c : Ctl) (ops : List Word) (poison : Bool) (tiles : List Nat) (s t : State) : Prop :=
  let at_ := s.placeOfWho cx.who
  let cmd : Cmd :=
    { id := s.nextId, core := coreId at_.1 at_.2, matrix := matrix, issuer := cx.who, ctxh := cx.tm.ctxh, spl := cx.k, pc := cx.pc, word := cx.word
      op := op, ctl := cx.h.ext.getD 0, ops := ops, guard := c.guard, held := false, chn := c.chn, aft := c.aft, started := false
      clk := cx.sp.opf, idx := [], poison := poison, accepted := s.nextId, party := cx.sp.party, nth := cx.sp.issues + 1 }
  let notes : List Unseen := tiles.reverse.map fun i =>
    { tile := i, base := 0, span := 0, seq := s.nextId, quartet := false, done := false, spoiled := false, res := op.result }
  Changes cx (fun th => { th with coc := if matrix then th.coc else th.coc + 1, moc := if matrix then th.moc + 1 else th.moc
                                  unseen := notes ++ th.unseen })
    ({ s with nextId := s.nextId + 1, cmds := s.cmds ++ [cmd] }.ticket cx.who matrix (· - 1)) t

/-- What a new party that begins with a clock finds in consecutive locations: bytes that no write is noted for, or that the last write has put there, which
happened before that clock and stands above every other write (10 R278). -/
def State.finds (s : State) (clk : Clock) (k n : Nat) (f : Nat → Byte) : Prop :=
  ∀ i < n, s.byteAt (k + i) = some (f i) ∧ isHostKey (k + i) = false ∧ isPeerKey (k + i) = false ∧
    ∀ h, s.histOf (k + i) = some h → ∃ w ∈ h.ws, w.val = f i ∧ w.party ≠ s.nextParty ∧ w.stamp ≤ clkGet clk w.party ∧
      ∀ x ∈ h.ws, clkGet x.clk s.nextParty = 0 ∧ w.id ∉ x.below ∧ (x ≠ w → x.id ∈ w.below)

/-- An event has been written to the PF's log between two states: as its newest entry, or, with 512 entries unread, counted as lost (20 R481). -/
def Logs (cause level source ctxh : Nat) (detail : Word) (s t : State) : Prop :=
  let l := s.evLog 0
  let m := t.evLog 0
  (l.wr - l.rd = 512 → m = { l with lost := l.lost + 1 }) ∧
  (l.wr - l.rd ≠ 512 → m.wr = l.wr + 1 ∧ m.rd = l.rd ∧
    m.ring.getLast? = some { n := l.wr, cause := cause, level := level, source := source, ctxh := ctxh, detail := detail, ref := wordOf s.ref })

/-- The exponent and the fraction bits of a binary type (04 R77, R80). -/
def expBits : Ty → Nat
  | .f16 | .e5m2 => 5
  | .f64 => 11
  | _ => 8

def fracBits : Ty → Nat
  | .f16 => 10
  | .bf16 => 7
  | .f64 => 52
  | .e5m2 => 2
  | _ => 23

/-- Whether an encoding of a binary type is a number. -/
def finiteBits (ty : Ty) (n : Nat) : Prop := n / 2 ^ fracBits ty % 2 ^ expBits ty ≠ 2 ^ expBits ty - 1

/-- The number that an encoding of a binary type stands for (04 R77, R80). -/
def floatValue (ty : Ty) (n : Nat) : Rat :=
  let e := n / 2 ^ fracBits ty % 2 ^ expBits ty
  let f := n % 2 ^ fracBits ty
  let unit : Int := 1 - (2 ^ (expBits ty - 1) - 1 : Nat) - fracBits ty
  let v : Rat := if e = 0 then f * (2 : Rat) ^ unit else (2 ^ fracBits ty + f : Nat) * (2 : Rat) ^ (unit + e - 1)
  if n / 2 ^ (expBits ty + fracBits ty) % 2 = 1 then -v else v

/-- A result and its flags are an exact number rounded once into a binary type (04 R82, R83): the number of the type that the mode directs, inexact
where it is another; or an infinity where the number lies beyond every number of the type and the mode directs it. -/
def RoundsTo (ty : Ty) (rm : Rnd) (x : Rat) (r : Word × Flags) : Prop :=
  let n := r.1.toNat
  let y := floatValue ty n
  n < 2 ^ ty.width ∧
  (finiteBits ty n →
    (r.2.getLsbD 0 = true ↔ y ≠ x) ∧ (r.2.getLsbD 1 = true → y ≠ x) ∧ r.2.getLsbD 3 = false ∧ r.2.getLsbD 4 = false ∧
    let below : Prop := y ≤ x ∧ ∀ u, finiteBits ty u → floatValue ty u ≤ x → floatValue ty u ≤ y
    let above : Prop := x ≤ y ∧ ∀ u, finiteBits ty u → x ≤ floatValue ty u → y ≤ floatValue ty u
    match rm with
    | .rd => below
    | .ru => above
    | .rz => if 0 ≤ x then below else above
    | .rn => ∀ u, finiteBits ty u → |y - x| ≤ |floatValue ty u - x| ∧ (|y - x| = |floatValue ty u - x| → floatValue ty u = y ∨ n % 2 = 0)) ∧
  (¬ finiteBits ty n →
    n % 2 ^ (expBits ty + fracBits ty) = (2 ^ expBits ty - 1) * 2 ^ fracBits ty ∧ (2 ^ (expBits ty + fracBits ty) ≤ n ↔ x < 0) ∧ r.2 = 5 ∧
    rm ≠ .rz ∧ (rm = .ru → 0 < x) ∧ (rm = .rd → x < 0) ∧ ∀ u, finiteBits ty u → |floatValue ty u| < |x|)

/-- A run: each state answers the next one. -/
def reaches : Nat → State → State → Prop
  | 0, s, t => s = t
  | n + 1, s, t => ∃ u, step s = .next u ∧ reaches n u t

end Sys2Proof.Machine

namespace Sys2Proof
open Sys2Proof.Machine

/-- The instructions that a guide context executes (05 R120); `ld.pair`, `st.pair` are forms that it excludes (16 R392). -/
def Instr.guideLegal : Instr → Bool
  | .add .. | .sub .. | .addc .. | .subb .. | .mul .. | .mulhi .. | .mulw .. | .mad .. | .div .. | .rem .. | .divrem .. | .neg .. | .abs ..
  | .adiff .. | .min .. | .max .. | .clamp .. | .and .. | .or .. | .xor .. | .not .. | .andn .. | .shl .. | .shr .. | .sra .. | .rotl .. | .rotr ..
  | .bfx .. | .bfi .. | .popc .. | .clz .. | .ctz .. | .brev .. | .sel .. | .lea .. | .ext .. => true
  | .bra .. | .brx .. | .call .. | .ret .. | .exit .. | .trap .. | .brk .. | .yield .. | .loop .. => true
  | .save .. | .fget .. | .fenter .. | .fleave .. | .sget .. => true
  | .ld .. | .st .. | .ldPair .. | .stPair .. => true
  | .tcopyG2s .. | .tcopyS2g .. | .tcopyS2c .. | .tgather .. | .twaitC .. | .twaitM .. | .tfree .. | .tset .. => true
  | .drainSp .. | .drainAcc .. | .drainG .. | .drainRem .. | .mmas .. | .mwait .. => true
  | _ => false

/-- The forms of those that a guide executes: of loads and stores SP 1 and 2 without `.pair`, of `mwait` any SP but 0 (16 R392). -/
def Instr.guideForm : Instr → Bool
  | .ld _ m | .st _ m => m.sp == .global || m.sp == .own
  | .ldPair .. | .stPair .. => false
  | .mwait _ sp _ _ => sp != .generic
  | _ => true

/-- How an instruction that works on its own thread alone is issued: its fields, what it reads, and the words that it takes from other lanes. -/
structure Quiet where
  h : Hdr
  shape : Shape
  srcs : List (Nat × Src)
  cross : Cx → Option (Mask × Nat)

/-- An instruction that reads no other lane, with its sources. -/
def quietAs (h : Hdr) (sh : Shape) : Option Quiet := some { h := h, shape := sh, srcs := sh.srcs, cross := fun _ => none }

/-- The instructions that change nothing but their own thread: they push what they compute, write predicates, or reserve what arrives later. -/
def Instr.quiet : Instr → Option Quiet
  | .nop h => quietAs h (Shape.user [] false)
  | .dup h => quietAs h (Shape.user (src1 h) true)
  | .sget h v => quietAs h { Shape.both (if v = .caps then src1 h else srcOff h) true with waits := decide (v = .fpx ∨ v = .fpxc) }
  | .neg h _ | .abs h _ | .not h | .popc h | .clz h | .ctz h | .brev h | .bfx h (some _) => quietAs h (Shape.compute true (src1 h))
  | .add h _ | .sub h _ | .mul h | .mulhi h | .mulw h | .div h | .rem h | .divrem h | .adiff h | .min h | .max h | .and h | .or h | .xor h | .andn h
  | .sel h _ | .lea h _ _ | .bfi h (some _) | .ext h (some _) => quietAs h (Shape.compute true (src2 h))
  | .mad h | .clamp h | .bfx h none | .bfi h none | .ext h none => quietAs h (Shape.compute true (src3 h))
  | .addc h _ | .subb h _ => quietAs h (Shape.both (src3 h) true)
  | .shl h n | .shr h n | .sra h n | .rotl h n | .rotr h n => quietAs h (Shape.compute true (if n.isSome then src1 h else src2 h))
  | .fneg h | .fabs h | .frnd h _ | .fclass h | .cvt h _ _ _ | .unpack h _ _ _ _ | .dqnt h _ => quietAs h (Shape.user (src1 h) true)
  | .fadd h _ | .fsub h _ | .fmul h _ | .fmin h | .fmax h | .fscale h _ | .pack h _ _ _ _ | .dqntScaled h _ | .qnt h _ =>
    quietAs h (Shape.user (src2 h) true)
  | .ffma h _ => quietAs h (Shape.user (src3 h) true)
  | .fdiv h _ => quietAs h (Shape.compute false (src2 h))
  | .fsqrt h _ | .frcp h | .frsq h | .fex2 h | .flg2 h | .fsin h | .fcos h | .ftanh h => quietAs h (Shape.compute false (src1 h))
  | .lanemask h _ | .voteBallot h _ _ | .pget h => quietAs h (Shape.user (srcOff h) true)
  | .voteAny h _ _ _ | .voteAll h _ _ _ | .voteUni h _ _ _ | .elect h _ | .plog h _ _ _ _ => quietAs h (Shape.user [] false)
  | .cmp h _ _ _ | .fcmp h _ _ _ => quietAs h (Shape.user (src2 h) false)
  | .pput h => quietAs h (Shape.user (src1 h) false)
  | .shfl h mode wc => some
      { h := h, shape := Shape.user [(4, h.sa), (1, h.sb)] true, srcs := src2 h
        cross := fun cx => crossPending cx fun l => [sourceLane cx l (shflFrom mode (2 ^ wc.toNat) l (peekLane cx h.sb l % 32))] }
  | .redux h _ => some { h := h, shape := Shape.user [(4, h.sa)] true, srcs := src1 h, cross := fun cx => crossPending cx fun _ => cx.lanes }
  | .scan h _ excl => some
      { h := h, shape := Shape.user [(4, h.sa)] true, srcs := src1 h
        cross := fun cx => crossPending cx fun l => cx.lanes.filter fun q => decide (q < l) || (q == l && !excl) }
  | .bcast h ln => some
      { h := h, shape := Shape.user [(4, h.sa)] true, srcs := src1 h, cross := fun cx => crossPending cx fun l => [sourceLane cx l ln.toNat] }
  | .bcastFirst h => some
      { h := h, shape := Shape.user [(4, h.sa)] true, srcs := src1 h
        cross := fun cx => crossPending cx fun l => [sourceLane cx l (cx.lead.getD 0)] }
  | _ => none

/-- The system instructions, majors 0xE0 to 0xE8 (08 R234). -/
def Instr.isSystem : Instr → Bool
  | .sysrd .. | .syswr .. | .tret .. | .tretAck .. | .tretKill .. | .accspill .. | .accfill .. | .accfillZero .. | .wftrdEdge .. | .wftrdObj ..
  | .tlbinvPage .. | .tlbinvAsid .. | .tlbinvAll .. | .halt .. | .resume .. => true
  | _ => false

end Sys2Proof
end

