-- ==== Sys2Proof/Certificates/Slice0/Obligations.lean ====
section
/-!
DEFINITION. The statements for the provers.
-/
open Sys2Proof Sys2Proof.Machine

/-- R140, R142 to R144 (06): what the short integer and bit instructions push in each switched-on lane, from the exact values `intOf` and `unsOf` of their
sources; nothing else of the package changes but the split's PC and counts. The constant forms read no second source. R140 (06): `addc` and `subb` add
or subtract with the carry-in in bit 0 of the third source, push the low bits, and write the unsigned carry or borrow to their predicate in the
switched-on lanes; a lane with a poisoned source writes false there. -/
def Obligations.IntegerResults : Prop :=
  (∀ (h : Hdr) (s : State),
     let a (v : List Word) : Int := intOf h.ty (arg v 0)
     let b (v : List Word) : Int := intOf h.ty (arg v 1)
     let c (v : List Word) : Int := intOf h.ty (arg v 2)
     let ua (v : List Word) : Nat := unsOf h.ty (arg v 0)
     let ub (v : List Word) : Nat := unsOf h.ty (arg v 1)
     let w : Nat := h.ty.width
     let clip (sat : Bool) (x : Int) : Int := if sat then max (tyMin h.ty) (min (tyMax h.ty) x) else x
     let amount (n : Option (BitVec 6)) (v : List Word) : Nat := match n with
       | some k => k.toNat
       | none => (arg v 1).toNat % 2 ^ 32
     let srcs (n : Option (BitVec 6)) : List (Nat × Src) := if n.isSome then src1 h else src2 h
     (∀ sat, PushesLanes (.add h sat) h true (src2 h) 1 (fun _ _ v => [widen h.ty (clip sat (a v + b v))]) s) ∧
     (∀ sat, PushesLanes (.sub h sat) h true (src2 h) 1 (fun _ _ v => [widen h.ty (clip sat (a v - b v))]) s) ∧
     (∀ sat, PushesLanes (.neg h sat) h true (src1 h) 1 (fun _ _ v => [widen h.ty (clip sat (-a v))]) s) ∧
     (∀ sat, PushesLanes (.abs h sat) h true (src1 h) 1 (fun _ _ v => [widen h.ty (clip sat |a v|)]) s) ∧
     PushesLanes (.mul h) h true (src2 h) 1 (fun _ _ v => [widen h.ty (a v * b v)]) s ∧
     PushesLanes (.mulhi h) h true (src2 h) 1 (fun _ _ v => [widen h.ty (a v * b v / (2 ^ w : Nat))]) s ∧
     PushesLanes (.mulw h) h true (src2 h) 2
       (fun _ _ v => [BitVec.ofNat 64 (a v * b v % (2 ^ w : Nat)).toNat, widen h.ty (a v * b v / (2 ^ w : Nat))]) s ∧
     PushesLanes (.mad h) h true (src3 h) 1 (fun _ _ v => [widen h.ty (a v * b v + c v)]) s ∧
     PushesLanes (.adiff h) h true (src2 h) 1 (fun _ _ v => [BitVec.ofNat 64 (a v - b v).natAbs]) s ∧
     PushesLanes (.min h) h true (src2 h) 1 (fun _ _ v => [widen h.ty (min (a v) (b v))]) s ∧
     PushesLanes (.max h) h true (src2 h) 1 (fun _ _ v => [widen h.ty (max (a v) (b v))]) s ∧
     PushesLanes (.clamp h) h true (src3 h) 1 (fun _ _ v => [widen h.ty (min (max (a v) (b v)) (c v))]) s ∧
     PushesLanes (.and h) h true (src2 h) 1 (fun _ _ v => [widen h.ty ((ua v &&& ub v : Nat) : Int)]) s ∧
     PushesLanes (.or h) h true (src2 h) 1 (fun _ _ v => [widen h.ty ((ua v ||| ub v : Nat) : Int)]) s ∧
     PushesLanes (.xor h) h true (src2 h) 1 (fun _ _ v => [widen h.ty ((ua v ^^^ ub v : Nat) : Int)]) s ∧
     PushesLanes (.not h) h true (src1 h) 1 (fun _ _ v => [widen h.ty ((2 ^ w - 1 - ua v : Nat) : Int)]) s ∧
     PushesLanes (.andn h) h true (src2 h) 1 (fun _ _ v => [widen h.ty ((ua v &&& (2 ^ w - 1 - ub v) : Nat) : Int)]) s ∧
     (∀ n, PushesLanes (.shl h n) h true (srcs n) 1
       (fun _ _ v => [if amount n v ≥ w then widen h.ty 0 else widen h.ty ((ua v * 2 ^ amount n v : Nat) : Int)]) s) ∧
     (∀ n, PushesLanes (.shr h n) h true (srcs n) 1
       (fun _ _ v => [if amount n v ≥ w then widen h.ty 0 else widen h.ty ((ua v / 2 ^ amount n v : Nat) : Int)]) s) ∧
     (∀ n, PushesLanes (.sra h n) h true (srcs n) 1
       (fun _ _ v => [if amount n v ≥ w then widen h.ty (if signedOf w (arg v 0).toNat < 0 then -1 else 0)
         else widen h.ty (signedOf w (arg v 0).toNat / (2 ^ amount n v : Nat))]) s) ∧
     (∀ n, PushesLanes (.rotl h n) h true (srcs n) 1 (fun _ _ v => [rotlRes h.ty (amount n v) v]) s) ∧
     (∀ n, PushesLanes (.rotr h n) h true (srcs n) 1 (fun _ _ v => [rotrRes h.ty (amount n v) v]) s) ∧
     (∀ p l, PushesLanes (.bfx h (some (p, l))) h true (src1 h) 1 (fun _ _ v => [bfxRes h.ty p.toNat l.toNat v]) s) ∧
     PushesLanes (.bfx h none) h true (src3 h) 1 (fun _ _ v => [bfxRes h.ty ((arg v 1).toNat % 2 ^ 8) ((arg v 2).toNat % 2 ^ 8) v]) s ∧
     (∀ p l, PushesLanes (.bfi h (some (p, l))) h true (src2 h) 1 (fun _ _ v => [bfiRes h.ty p.toNat l.toNat v]) s) ∧
     PushesLanes (.bfi h none) h true (src3 h) 1
       (fun _ _ v => [bfiRes h.ty ((arg v 2).toNat % 2 ^ 8) ((arg v 2).toNat / 2 ^ 8 % 2 ^ 8) v]) s ∧
     PushesLanes (.popc h) h true (src1 h) 1 (fun _ _ v => [BitVec.ofNat 64 (popcNat w (ua v))]) s ∧
     PushesLanes (.clz h) h true (src1 h) 1 (fun _ _ v => [BitVec.ofNat 64 (clzNat w (ua v))]) s ∧
     PushesLanes (.ctz h) h true (src1 h) 1 (fun _ _ v => [BitVec.ofNat 64 (ctzNat w (ua v))]) s ∧
     PushesLanes (.brev h) h true (src1 h) 1 (fun _ _ v => [BitVec.ofNat 64 (buildBits w fun i => bitOf (ua v) (w - 1 - i))]) s ∧
     (∀ ps, PushesLanes (.sel h ps) h true (src2 h) 1
       (fun cx l v => [widen h.ty ((if (cx.t.pred ps).getLsbD l then ua v else ub v : Nat) : Int)]) s) ∧
     (∀ tys sh, PushesLanes (.lea h tys sh) h true (src2 h) 1
       (fun _ _ v => [arg v 0 + BitVec.ofInt 64 (intOf tys (arg v 1) * (2 ^ sh.toNat : Nat))]) s) ∧
     (∀ n : BitVec 7, PushesLanes (.ext h (some n)) h true (src2 h) 1
       (fun _ _ v => [widen h.ty (((ub v * 2 ^ w + ua v) / 2 ^ (n.toNat % (2 * w)) : Nat) : Int)]) s) ∧
     PushesLanes (.ext h none) h true (src3 h) 1
       (fun _ _ v => [widen h.ty (((ub v * 2 ^ w + ua v) / 2 ^ ((arg v 2).toNat % 2 ^ 32 % (2 * w)) : Nat) : Int)]) s) ∧
  (∀ (h : Hdr) (pd : Option Pred) (s : State) (cx : Cx) (s1 : State), s.ready h (Shape.both (src3 h) true) = some (cx, s1) →
     let os := (s1.operands cx (src3 h) true).1
     let ua (l : Nat) : Nat := unsOf h.ty (arg (valsAt os l) 0)
     let ub (l : Nat) : Nat := unsOf h.ty (arg (valsAt os l) 1)
     let c (l : Nat) : Nat := (arg (valsAt os l) 2).toNat % 2
     let going (r : Nat → Int) (out : Nat → Bool) (t : State) : Prop :=
       Steps cx cx.nextPc 1 (fun l => if cx.on.getLsbD l then [ent (widen h.ty (r l)) (poisonAt os l)] else [offEnt os l]) none
         (fun th => th.writePred pd cx.on (maskOf (cx.lanes.filter fun l => out l && !poisonAt os l))) (fun sp => sp) (s1.operands cx (src3 h) true).2 t
     (∃ t, exec (.addc h pd) s = .next (t.consume cx os) ∧
       going (fun l => ((ua l + ub l + c l : Nat) : Int)) (fun l => decide (ua l + ub l + c l ≥ 2 ^ h.ty.width)) t) ∧
     (∃ t, exec (.subb h pd) s = .next (t.consume cx os) ∧
       going (fun l => (ua l : Int) - ((ub l + c l : Nat) : Int)) (fun l => decide (ua l < ub l + c l)) t))

/-- R141 (06): the quotient truncated toward zero and the remainder of the sign of the first source, with the two borderline results; the three
instructions reserve their results, and none raises a flag. `divrem` pushes the quotient first. -/
def Obligations.DivisionResults : Prop :=
  ∀ (h : Hdr) (s : State),
    let a (v : List Word) : Int := intOf h.ty (arg v 0)
    let b (v : List Word) : Int := intOf h.ty (arg v 1)
    let quot (v : List Word) : Word :=
      widen h.ty (if b v = 0 then (if h.ty.signed then -1 else ((2 ^ h.ty.width : Nat) : Int) - 1)
      else if h.ty.signed = true ∧ a v = -(2 ^ (h.ty.width - 1) : Nat) ∧ b v = -1 then -(2 ^ (h.ty.width - 1) : Nat) else (a v).tdiv (b v))
    let rest (v : List Word) : Word := widen h.ty (if b v = 0 then a v
      else if h.ty.signed = true ∧ a v = -(2 ^ (h.ty.width - 1) : Nat) ∧ b v = -1 then 0 else (a v).tmod (b v))
    ReservesLanes (.div h) h true (src2 h) 1 (fun _ _ v => ([quot v], 0)) s ∧
    ReservesLanes (.rem h) h true (src2 h) 1 (fun _ _ v => ([rest v], 0)) s ∧
    ReservesLanes (.divrem h) h true (src2 h) 2 (fun _ _ v => ([quot v, rest v], 0)) s

/-- R145 to R147 (06): the short floating-point instructions push the value of their operation under TY, RM and FTZ and raise its flags. R145, R148
(06): division, square root and the transcendental operations reserve one result and raise their flags when it arrives. That those values are the
exact ones rounded once is `FloatRounding`. Where the rules leave a point open, this rests on the model's own choice or reading: log entries 9, 16,
61. -/
def Obligations.FloatResults : Prop :=
  (∀ (h : Hdr) (s : State),
     let x (cx : Cx) (v : List Word) (n : Nat) : FV := readF h.ty cx.t.ftz (arg v n)
     let val (r : Nat × Flags) : Word × Flags := (BitVec.ofNat 64 r.1, r.2)
     (∀ rm, FloatsLanes (.fadd h rm) h (src2 h) (fun cx v => val (fAdd h.ty rm cx.t.ftz (x cx v 0) (x cx v 1))) s) ∧
     (∀ rm, FloatsLanes (.fsub h rm) h (src2 h) (fun cx v => val (fAdd h.ty rm cx.t.ftz (x cx v 0) (x cx v 1).negate)) s) ∧
     (∀ rm, FloatsLanes (.fmul h rm) h (src2 h) (fun cx v => val (fMul h.ty rm cx.t.ftz (x cx v 0) (x cx v 1))) s) ∧
     (∀ rm, FloatsLanes (.ffma h rm) h (src3 h) (fun cx v => val (fFma h.ty rm cx.t.ftz (x cx v 0) (x cx v 1) (x cx v 2))) s) ∧
     FloatsLanes (.fmin h) h (src2 h) (fun cx v => val (fMinMax h.ty cx.t.ftz false (arg v 0) (arg v 1))) s ∧
     FloatsLanes (.fmax h) h (src2 h) (fun cx v => val (fMinMax h.ty cx.t.ftz true (arg v 0) (arg v 1))) s ∧
     FloatsLanes (.fneg h) h (src1 h) (fun cx v => val (fSign h.ty cx.t.ftz (fun n => !n) (arg v 0))) s ∧
     FloatsLanes (.fabs h) h (src1 h) (fun cx v => val (fSign h.ty cx.t.ftz (fun _ => false) (arg v 0))) s ∧
     (∀ rm, FloatsLanes (.frnd h rm) h (src1 h) (fun cx v => val (fRound h.ty rm cx.t.ftz (arg v 0))) s) ∧
     FloatsLanes (.fclass h) h (src1 h) (fun _ v => (BitVec.ofNat 64 (fClass h.ty ((arg v 0).toNat % 2 ^ h.ty.width)), 0)) s ∧
     (∀ rm, FloatsLanes (.fscale h rm) h (src2 h)
       (fun cx v => val (fScale h.ty rm cx.t.ftz (x cx v 0) (signedOf 32 (arg v 1).toNat))) s)) ∧
  (∀ (h : Hdr) (s : State),
     let x (cx : Cx) (v : List Word) (n : Nat) : FV := readF h.ty cx.t.ftz (arg v n)
     let val (r : Nat × Flags) : List Word × Flags := ([BitVec.ofNat 64 r.1], r.2)
     (∀ rm, ReservesLanes (.fdiv h rm) h false (src2 h) 1 (fun cx _ v => val (fDiv h.ty rm cx.t.ftz (x cx v 0) (x cx v 1))) s) ∧
     (∀ rm, ReservesLanes (.fsqrt h rm) h false (src1 h) 1 (fun cx _ v => val (fSqrt h.ty rm cx.t.ftz (x cx v 0))) s) ∧
     ReservesLanes (.frcp h) h false (src1 h) 1 (fun cx _ v => val (transOp trRcp h.ty cx.t.ftz (arg v 0))) s ∧
     ReservesLanes (.frsq h) h false (src1 h) 1 (fun cx _ v => val (transOp trRsq h.ty cx.t.ftz (arg v 0))) s ∧
     ReservesLanes (.fex2 h) h false (src1 h) 1 (fun cx _ v => val (transOp trEx2 h.ty cx.t.ftz (arg v 0))) s ∧
     ReservesLanes (.flg2 h) h false (src1 h) 1 (fun cx _ v => val (transOp trLg2 h.ty cx.t.ftz (arg v 0))) s ∧
     ReservesLanes (.fsin h) h false (src1 h) 1 (fun cx _ v => val (transOp trSin h.ty cx.t.ftz (arg v 0))) s ∧
     ReservesLanes (.fcos h) h false (src1 h) 1 (fun cx _ v => val (transOp trCos h.ty cx.t.ftz (arg v 0))) s ∧
     ReservesLanes (.ftanh h) h false (src1 h) 1 (fun cx _ v => val (transOp trTanh h.ty cx.t.ftz (arg v 0))) s)

/-- R82, R83, R88 (04), R145 (06): with FTZ off and numbers as sources, `fadd`, `fsub`, `fmul`, `ffma`, `fdiv` and the conversions into a binary type
give the exact rational result rounded once under RM: the nearest number of the type, the even one of two, or the nearest one on the side that the mode
names; inexact exactly where it is another number; and beyond the type an infinity with OF and NX, or its largest number, as the mode directs. -/
def Obligations.FloatRounding : Prop :=
  ∀ (h : Hdr) (rm : Rnd) (s : State),
    let bits (ty : Ty) (v : List Word) (n : Nat) : Nat := (arg v n).toNat % 2 ^ ty.width
    let x (v : List Word) (n : Nat) : Rat := floatValue h.ty (bits h.ty v n)
    let numbers (v : List Word) (n : Nat) : Prop := ∀ i < n, finiteBits h.ty (bits h.ty v i)
    let short (i : Instr) (srcs : List (Nat × Src)) (ok : List Word → Prop) (exact : List Word → Rat) : Prop :=
      ∃ f, FloatsLanes i h srcs f s ∧ ∀ cx v, cx.t.fpctl.getLsbD 8 = false → ok v → RoundsTo h.ty rm (exact v) (f cx v)
    (h.ty ∈ [Ty.f16, .bf16, .f32, .f64] →
      short (.fadd h rm) (src2 h) (fun v => numbers v 2) (fun v => x v 0 + x v 1) ∧
      short (.fsub h rm) (src2 h) (fun v => numbers v 2) (fun v => x v 0 - x v 1) ∧
      short (.fmul h rm) (src2 h) (fun v => numbers v 2) (fun v => x v 0 * x v 1) ∧
      short (.ffma h rm) (src3 h) (fun v => numbers v 3) (fun v => x v 0 * x v 1 + x v 2) ∧
      ∃ f : Cx → List Word → Word × Flags,
        ReservesLanes (.fdiv h rm) h false (src2 h) 1 (fun cx _ v => ([(f cx v).1], (f cx v).2)) s ∧
        ∀ cx v, cx.t.fpctl.getLsbD 8 = false → numbers v 2 → x v 1 ≠ 0 → RoundsTo h.ty rm (x v 0 / x v 1) (f cx v)) ∧
    (h.ty ∈ [Ty.f16, .bf16, .f32, .f64, .e5m2] → ∀ tys : Ty,
      (tys ∈ [Ty.f16, .bf16, .f32, .f64, .e5m2] →
        short (.cvt h rm false tys) (src1 h) (fun v => finiteBits tys (bits tys v 0)) (fun v => floatValue tys (bits tys v 0))) ∧
      (tys.isFloat = false → short (.cvt h rm false tys) (src1 h) (fun _ => True) (fun v => (intOf tys (arg v 0) : Rat))))

/-- R149 to R153 (06), R88, R103 (04): conversions, element moves, quantising and dequantising. `qnt` takes each lane's quotient from its own lane; the
form with a table takes it from the lane that the table names, once no earlier acquire and no earlier atomic on the table is open and the control word
and the table pass the checks of R401.
R88 (04): what a conversion gives where its target ends. A NaN becomes the canonical NaN, and raises NV where it signals, and zero in an integer type,
with NV; an infinity becomes one, or the extreme of an integer type, with NV; a number beyond an integer type becomes its extreme; one that overflows
an 8-bit type raises OF and NX and becomes what the mode and `.sat` direct, in e4m3 its NaN or 448, in e5m2 an infinity or 57,344.
Where the rules leave a point open, this rests on the model's own choice or reading: log entries 3, 61. -/
def Obligations.ConversionResults : Prop :=
  (∀ (src dst : Ty) (rm : Rnd) (sat ftz : Bool) (v : Word), src ∈ [Ty.f16, .bf16, .f32, .f64] →
    let n := v.toNat % 2 ^ src.width
    let e := n / 2 ^ fracBits src % 2 ^ expBits src
    let f := n % 2 ^ fracBits src
    let top : Prop := e = 2 ^ expBits src - 1
    let neg : Prop := n / 2 ^ (src.width - 1) = 1
    let x := floatValue src n
    let gives (r : Nat) (fl : Flags) : Prop := convert dst src rm sat ftz v = (BitVec.ofNat 64 r, fl)
    let canon : Nat := match dst with
      | .f64 => 0x7FF8000000000000 | .f16 => 0x7E00 | .bf16 => 0x7FC0 | .e4m3 => 0x7F | .e5m2 => 0x7E | _ => 0x7FC00000
    let up : Prop := rm = .rn ∨ (rm = .ru ∧ 0 < x) ∨ (rm = .rd ∧ x < 0)
    (dst.isFloat = true → top → f ≠ 0 → gives canon (if f < 2 ^ (fracBits src - 1) then 16 else 0)) ∧
    (dst ∈ [Ty.f16, .bf16, .f32, .f64, .e5m2] → top → f = 0 → sat = false →
      ∀ s, (neg → s = 2 ^ (dst.width - 1)) → (¬ neg → s = 0) → gives (s + (2 ^ expBits dst - 1) * 2 ^ fracBits dst) 0) ∧
    (dst = .e4m3 → top → f = 0 → (sat = false → gives 0x7F 0) ∧ (sat = true → (neg → gives 0xFE 0) ∧ (¬ neg → gives 0x7E 0))) ∧
    (dst = .e4m3 → ¬ top → 480 ≤ |x| → (sat = false → up → gives 0x7F 5) ∧
      (sat = true ∨ ¬ up → (x < 0 → gives 0xFE 5) ∧ (0 < x → gives 0x7E 5))) ∧
    (dst = .e5m2 → top → f = 0 → sat = true → (neg → gives 0xFB 0) ∧ (¬ neg → gives 0x7B 0)) ∧
    (dst = .e5m2 → ¬ top → 65536 ≤ |x| → (sat = false → up → (x < 0 → gives 0xFC 5) ∧ (0 < x → gives 0x7C 5)) ∧
      (sat = true ∨ ¬ up → (x < 0 → gives 0xFB 5) ∧ (0 < x → gives 0x7B 5))) ∧
    (dst.isFloat = false →
      (top → f ≠ 0 → convert dst src rm sat ftz v = (widen dst 0, 16)) ∧
      ((top ∧ f = 0 ∧ neg) ∨ (¬ top ∧ x ≤ tyMin dst - 1) → convert dst src rm sat ftz v = (widen dst (tyMin dst), 16)) ∧
      ((top ∧ f = 0 ∧ ¬ neg) ∨ (¬ top ∧ tyMax dst + 1 ≤ x) → convert dst src rm sat ftz v = (widen dst (tyMax dst), 16)))) ∧
  (∀ (src : Ty) (rm : Rnd) (ftz : Bool) (v : Word), src.isFloat = false → 480 ≤ |intOf src v| →
    let pos : Prop := 0 < intOf src v
    let up : Prop := rm = .rn ∨ (rm = .ru ∧ pos) ∨ (rm = .rd ∧ ¬ pos)
    (up → convert .e4m3 src rm false ftz v = (0x7F, 5)) ∧ (¬ up → convert .e4m3 src rm false ftz v = (if pos then 0x7E else 0xFE, 5))) ∧
  ∀ (h : Hdr) (s : State),
    (∀ rm sat tys, FloatsLanes (.cvt h rm sat tys) h (src1 h) (fun cx v => convert h.ty tys rm sat cx.t.ftz (arg v 0)) s) ∧
    (∀ rm sat tys n, FloatsLanes (.pack h rm sat tys n) h (src2 h) (fun cx v =>
      let r := convert h.ty tys rm sat cx.t.ftz (arg v 1)
      (putElem (arg v 0) h.ty.width n.toNat (r.1.toNat % 2 ^ h.ty.width), r.2)) s) ∧
    (∀ rm sat tys n, FloatsLanes (.unpack h rm sat tys n) h (src1 h) (fun cx v =>
      convert h.ty tys rm sat cx.t.ftz (BitVec.ofNat 64 ((arg v 0).toNat / 2 ^ (tys.width * n.toNat) % 2 ^ tys.width))) s) ∧
    (∀ f, FloatsLanes (.dqnt h f) h (src1 h) (fun _ v =>
      let r := dequant f (arg v 0).toNat none
      (BitVec.ofNat 64 r.1, r.2)) s) ∧
    (∀ f, FloatsLanes (.dqntScaled h f) h (src2 h) (fun _ v =>
      let r := dequant f (arg v 0).toNat (some ((arg v 1).toNat % 2 ^ 32))
      (BitVec.ofNat 64 r.1, r.2)) s) ∧
    (let quantised (cx : Cx) (f : BlkFmt) (os : List Operand) (src : Nat → Nat) (u : State) (o : Host.Outcome State Fault Refusal) : Prop :=
      ∃ t, o = .next ((t.flagsNow cx (qntWords f cx os src).2).consume cx os) ∧
        Pushes cx 1 (fun l => if cx.on.getLsbD l then [ent ((qntWords f cx os src).1.getD l 0) ((qntPoison f cx os src).contains l)]
          else [offEnt os l]) u t
     (∀ f cx s1, s.ready h (Shape.user (src2 h) true) = some (cx, s1) →
        quantised cx f (s1.operands cx (src2 h) true).1 (fun l => l) (s1.operands cx (src2 h) true).2 (exec (.qnt h f) s)) ∧
     (∀ f cx s1, s.ready h (Shape.user (src3 h) true) = some (cx, s1) → memWait cx false = false →
        let os := (s1.operands cx (src3 h) true).1
        let s2 := (s1.operands cx (src3 h) true).2
        (cx.lead = none → quantised cx f os (fun l => l) s2 (exec (.qntPerm h f) s)) ∧
        ∀ l0, cx.lead = some l0 →
          let ctl := (arg (valsAt os l0) 2).toNat
          let seg := ctl % 2 ^ 10
          let first := ctl / 2 ^ 16 % 2 ^ 16
          seg < cx.tm.segs → ctl / 2 ^ 10 % 2 ^ 6 = 0 → ctl < 2 ^ 32 → first % 32 = 0 → first + 31 < blockK f →
          (∀ q ∈ cx.t.pend, q.openAtomic (s1.clkOf cx.sp.party) (keysFrom (spKey cx.tm.serial (4096 * seg + 2 * first)) 64) = false) →
          let tab := s2.tableEntries cx.sp.party cx.tm.serial (4096 * seg + 2 * first) 32
          (∀ p ∈ tab.1, first ≤ p ∧ p ≤ first + 31) →
            quantised cx f os (fun l => tab.1.getD l first - first) tab.2 (exec (.qntPerm h f) s)))

/-- R154 to R158 (06): the lane operations. A source lane outside the split's lanes stands for the reading lane; a segment of `shfl` is 2^`wc` lanes wide.
R132, R157, R159 (06): the instructions that write predicates write them in their switched-on lanes and change nothing else of the thread but FPX. A
lane with a poisoned source writes false.
Where the rules leave a point open, this rests on the model's own choice or reading: log entry 3. -/
def Obligations.LaneAndPredicateResults : Prop :=
  (∀ (h : Hdr) (s : State),
     (∀ mode wc cx s1,
       let rd (d : Nat → Nat) (l : Nat) : List Nat := [sourceLane cx l (shflFrom mode (2 ^ BitVec.toNat wc) l (d l % 32))]
       s.readyAcross h (Shape.user [(4, h.sa), (1, h.sb)] true) (fun cx => crossPending cx fun l =>
         [sourceLane cx l (shflFrom mode (2 ^ BitVec.toNat wc) l (peekLane cx h.sb l % 32))]) = some (cx, s1) →
       let os := (s1.operands cx (src2 h) true).1
       let rds := rd fun l => (arg (valsAt os l) 1).toNat
       ∃ t, exec (.shfl h mode wc) s = .next (t.consumeAcross cx os rds) ∧
         Reserves cx 1 cx.on (offEnt os) (.value
           (cx.lanes.map fun l => (l, [widen h.ty ((unsOf h.ty ((saOf os).at (sourceLane cx l
             (shflFrom mode (2 ^ BitVec.toNat wc) l ((arg (valsAt os l) 1).toNat % 32)))).v : Nat) : Int)]))
           (cx.lanes.map fun l => (l, 0)) (cx.lanes.filter (crossPoison os rds))) (s1.operands cx (src2 h) true).2 t) ∧
     (∀ op cx s1 (excl : Option Bool),
       let reads (cx : Cx) (l : Nat) : List Nat := match excl with
         | none => cx.lanes
         | some x => cx.lanes.filter fun q => decide (q < l) || (q == l && !x)
       s.readyAcross h (Shape.user [(4, h.sa)] true) (fun cx => crossPending cx (reads cx)) = some (cx, s1) →
       let os := (s1.operands cx (src1 h) true).1
       let out (l : Nat) : Word × Flags := match reads cx l with
         | [] => (identityOf op h.ty, 0)
         | qs => combine op h.ty cx.t.ftz (qs.map fun q => ((saOf os).at q).v)
       ∃ t, exec (match excl with
           | none => .redux h op
           | some x => .scan h op x) s = .next (t.consumeAcross cx os (reads cx)) ∧
         Reserves cx 1 cx.on (offEnt os) (.value (cx.lanes.map fun l => (l, [(out l).1])) (cx.lanes.map fun l => (l, (out l).2))
           (cx.lanes.filter (crossPoison os (reads cx)))) (s1.operands cx (src1 h) true).2 t) ∧
     (∀ cx s1 (ln : Option (BitVec 5)),
       let from_ (cx : Cx) : Nat := match ln with
         | some n => n.toNat
         | none => cx.lead.getD 0
       s.readyAcross h (Shape.user [(4, h.sa)] true) (fun cx => crossPending cx fun l => [sourceLane cx l (from_ cx)]) = some (cx, s1) →
       let os := (s1.operands cx (src1 h) true).1
       let v (l : Nat) : SVal := (saOf os).at (sourceLane cx l (from_ cx))
       Completes (match ln with
           | some n => .bcast h n
           | none => .bcastFirst h) s (Pushes cx 1 (fun l => if cx.on.getLsbD l then [ent (widen h.ty ((unsOf h.ty (v l).v : Nat) : Int)) (v l).poison]
             else [offEnt os l]) (s1.operands cx (src1 h) true).2)) ∧
     (∀ cx s1, s.ready h (Shape.user (srcOff h) true) = some (cx, s1) →
       let os := (s1.operands cx (srcOff h) true).1
       let pushed (f : Nat → Nat) (t : State) : Prop :=
         Pushes cx 1 (fun l => if cx.on.getLsbD l then [ent (BitVec.ofNat 64 (f l)) false] else [offEnt os l]) (s1.operands cx (srcOff h) true).2 t
       (∀ mode, Completes (.lanemask h mode) s (pushed fun l => match mode with
         | .split => cx.mask.toNat | .on => cx.on.toNat | .self => 2 ^ l | .under => 2 ^ l - 1 | .upto => 2 ^ (l + 1) - 1
         | .over => 2 ^ 32 - 2 ^ (l + 1) | .from => 2 ^ 32 - 2 ^ l)) ∧
       (∀ ps ng, Completes (.voteBallot h ps ng) s (pushed fun _ => (cx.on &&& (if ng then ~~~(cx.t.pred ps) else cx.t.pred ps)).toNat)) ∧
       Completes (.pget h) s (pushed fun l => (if cx.t.p3.getLsbD l then 8 else 0) + (if cx.t.p2.getLsbD l then 4 else 0) +
         (if cx.t.p1.getLsbD l then 2 else 0) + 1))) ∧
  (∀ (h : Hdr) (s : State),
     let write (cx : Cx) (pd : Pred) (m : Mask) (t : Warp) : Warp := t.setPred pd ((t.pred (some pd) &&& ~~~cx.on) ||| (m &&& cx.on))
     let compares (i : Instr) (bop : Bop) (pd : Pred) (f : Cx → List Word → Bool × Flags) : Prop :=
       ∀ cx s1, s.ready h (Shape.user (src2 h) false) = some (cx, s1) →
         let os := (s1.operands cx (src2 h) false).1
         let m := maskOf (cx.lanes.filter fun l => (f cx (valsAt os l)).1)
         let old := cx.t.pred (some pd)
         let new := match bop with
           | .set => m | .and => old &&& m | .or => old ||| m | .xor => old ^^^ m
         ∃ t, exec i s = .next ((t.flagsNow cx (cx.lanes.map fun l => (l, (f cx (valsAt os l)).2))).consume cx os) ∧
           Changes cx (write cx pd (new &&& ~~~(maskOf (cx.lanes.filter (poisonAt os))))) (s1.operands cx (src2 h) false).2 t
     let votes (i : Instr) (pd : Pred) (f : Cx → Bool) : Prop :=
       ∀ cx s1, s.ready h (Shape.user [] false) = some (cx, s1) →
         Completes i s (Changes cx (write cx pd (if f cx then allLanes else 0)) s1)
     let ayes (cx : Cx) (ps : Option Pred) (ng : Bool) : Mask := cx.on &&& (if ng then ~~~(cx.t.pred ps) else cx.t.pred ps)
     (∀ cc bop pd, compares (.cmp h cc bop pd) bop pd fun _ v => (Cond.holds cc (intOf h.ty (arg v 0)) (intOf h.ty (arg v 1)), 0)) ∧
     (∀ cc bop pd, compares (.fcmp h cc bop pd) bop pd fun cx v =>
       let a := readF h.ty cx.t.ftz (arg v 0)
       let b := readF h.ty cx.t.ftz (arg v 1)
       (fCond cc a b, if a.isSig || b.isSig then 16 else 0)) ∧
     (∀ ps ng pd, votes (.voteAny h ps ng pd) pd fun cx => ayes cx ps ng != 0) ∧
     (∀ ps ng pd, votes (.voteAll h ps ng pd) pd fun cx => ayes cx ps ng == cx.on) ∧
     (∀ ps ng pd, votes (.voteUni h ps ng pd) pd fun cx => ayes cx ps ng == cx.on || ayes cx ps ng == 0) ∧
     (∀ pd cx s1, s.ready h (Shape.user [] false) = some (cx, s1) →
       Completes (.elect h pd) s (Changes cx (write cx pd ((cx.lead.map fun l => BitVec.ofNat 32 (2 ^ l)).getD 0)) s1)) ∧
     (∀ op pa pb pd cx s1, s.ready h (Shape.user [] false) = some (cx, s1) →
       let a := cx.t.pred pa
       let b := cx.t.pred pb
       let m := match op with
         | .and => a &&& b | .or => a ||| b | .xor => a ^^^ b | .andn => a &&& ~~~b | .not => ~~~a | .mov => a
       Completes (.plog h op pa pb pd) s (Changes cx (write cx pd m) s1)) ∧
     (∀ cx s1, s.ready h (Shape.user (src1 h) false) = some (cx, s1) →
       let os := (s1.operands cx (src1 h) false).1
       let set (n : Nat) : Mask := maskOf (cx.lanes.filter fun l => (arg (valsAt os l) 0).getLsbD n && !poisonAt os l)
       let put (n : Nat) (old : Mask) : Mask := (old &&& ~~~cx.on) ||| (set n &&& cx.on)
       ∃ t, exec (.pput h) s = .next (t.consume cx os) ∧
         Changes cx (fun th => { th with p1 := put 1 th.p1, p2 := put 2 th.p2, p3 := put 3 th.p3 }) (s1.operands cx (src1 h) false).2 t))

/-- R134 to R136 (06), R56, R59 (03): the queue and frame instructions. A write of a frame slot is decoded and encoded again in its private place
where the slot lies below the window, and FS changes before the window moves; `touchEntries` is R409 for a quartet's B operand. R58 (03): the window
is set to max(0, H - C) and dead entries keep no value. Where nothing has to be moved, nothing else changes; the entries that leave the window are
written to their private places by `spillEntry`, lowest first, but those that `spill` has written before, and those that come back are read by
`fillEntry`. R136 (06): `spill` writes the lowest entries of the window out; `fill` brings the private places and format bytes of the entries just
below it into the L1, and changes no thread, unless a walk meets a poisoned table entry. Where the rules leave a point open, this rests on the model's
own choice or reading: log entry 14. -/
def Obligations.FrameResults : Prop :=
  (∀ (h : Hdr) (s : State),
     (∀ cx s1, s.ready h (Shape.user [] false) = some (cx, s1) →
       Completes (.nop h) s (Changes cx (fun th => th) s1) ∧
       (∀ n, ∃ t, exec (.fill h n) s = .next (if cx.who.isUser then
           ((List.range (cx.t.win - (cx.t.win - n.toNat))).map (cx.t.win - n.toNat + ·)).foldl
             (fun u i => (u.fillPriv cx (i * 256) 256).fillPriv cx (0x400000 + i) 1) t else t) ∧
         Changes cx (fun th => th) s1 t) ∧
       (∀ n, ∃ t, exec (.spill h n) s = .next (if cx.who.isUser then
           t.spillRange cx.tm cx.who cx.k cx.sp.party cx.pc cx.word cx.mask cx.t.win (min (cx.t.win + n.toNat) cx.t.top - cx.t.win) else t) ∧
         Changes cx (fun th => th) s1 t)) ∧
     (∀ cx s1, s.ready h (Shape.user (src1 h) true) = some (cx, s1) →
       let os := (s1.operands cx (src1 h) true).1
       let v (l : Nat) : Word := if h.ty = .b32 then BitVec.ofNat 64 ((arg (valsAt os l) 0).toNat % 2 ^ 32) else arg (valsAt os l) 0
       Completes (.dup h) s (Pushes cx 1 (fun l => [ent (if cx.on.getLsbD l then v l else arg (valsAt os l) 0) (poisonAt os l)])
         (s1.operands cx (src1 h) true).2)) ∧
     (∀ (slot : BitVec 6) cx s1 cx2 s2 s4, s.ready h { Shape.both (src1 h) false with waits := true } = some (cx, s1) →
       slotFail cx.who cx.sp slot.toNat = none → s1.afterReads cx [cx.sp.fb + slot.toNat] = some (cx2, s2) →
       let os := (s2.operands cx (src1 h) false).1
       let i := cx.sp.fb + slot.toNat
       (s2.operands cx (src1 h) false).2.writable cx [i] = some s4 →
       ∃ t, exec (.save h slot) s = .next ((if cx.on = 0 then t else t.touchEntries cx i 1).writeBack cx [i]) ∧
         Changes cx2 (fun th => cx.lanes.foldl (fun th l => th.fwrite i l (arg (valsAt os l) 0) (poisonAt os l)) th) s4 t) ∧
     (∀ (slot : BitVec 6) cx s1 cx2 s2, s.ready h (Shape.both (srcOff h) true) = some (cx, s1) →
       slotFail cx.who cx.sp slot.toNat = none → s1.afterReads cx [cx.sp.fb + slot.toNat] = some (cx2, s2) →
       let os := (s2.operands cx2 (srcOff h) true).1
       let i := cx.sp.fb + slot.toNat
       ∃ (free : Nat → Word) (n : Nat), Completes (.fget h slot) s (Pushes cx2 1 (fun l => if cx.on.getLsbD l then
           [match cx2.t.fword i l with
             | some v => ent v (cx2.t.fpoison i l)
             | none => ent (free l) false] else [offEnt os l])
         { (s2.operands cx2 (srcOff h) true).2 with freeCtr := n })) ∧
     (∀ cx s1, s.ready h (Shape.both [] false) = some (cx, s1) →
       let entered (i : Instr) (n : Nat) : Prop :=
         ∃ t, exec i s = .next ((if n < cx.sp.fs then t.touchEntries cx (cx.sp.fb + n) (cx.sp.fs - n) else t).moveWindow
             cx.tm cx.who cx.k cx.pc cx.word cx.mask) ∧
           Goes cx cx.nextPc (fun th => th) (fun sp => { sp with fs := n }) s1 t
       (∀ n : BitVec 7, cx.sp.fb + n.toNat ≤ 16384 → (cx.who.isUser = true ∨ cx.sp.fb + n.toNat ≤ 16) → entered (.fenter h n) n.toNat) ∧
       entered (.fleave h) 0)) ∧
  (∀ (s : State) (tm : Team) (who : Who) (k : Nat) (pc : Pc) (word : Word) (mask : Mask) (th : Warp), s.thread? who = some th →
     (who.isUser = false → s.moveWindow tm who k pc word mask = s.updThread who Warp.dropDead) ∧
     (who.isUser = true →
       let w := th.top - th.cap
       let party := ((th.split? k).map Split.party).getD ((th.live.head?.map fun x => x.2.party).getD 0)
       let out := ((List.range (w - th.win)).map (th.win + ·)).filter fun i => !th.clean.contains i
       let back := ((List.range (th.win - w)).map (w + ·)).filter fun i => decide (i < th.top)
       let wrote (l : List Nat) : State := l.foldl (fun u i => (u.spillEntry tm who party i).2) s
       let read (l : List Nat) : State := l.foldl (fun u i => (u.fillEntry tm who party i).2) s
       let stands (u : State) : State := u.updThread who fun t => { t with clean := t.clean.filter fun i => decide (w ≤ i), win := w }.dropDead
       (th.win ≤ w → (∀ l i l', out = l ++ i :: l' → ((wrote l).spillEntry tm who party i).1 = .ok ()) →
         s.moveWindow tm who k pc word mask = stands (wrote out)) ∧
       (w ≤ th.win → (∀ l i l', back = l ++ i :: l' → ((read l).fillEntry tm who party i).1 = .ok ()) →
         s.moveWindow tm who k pc word mask = stands (read back)))) ∧
  (∀ (s : State) (cx : Cx) (off n : Nat),
     (s.transBytes cx.sp.party (s.clkOf cx.sp.party) cx.tm.asid (frameRights false) (privVa cx.tm cx.who off) 0 n).1 ≠ .error .lost →
       (s.fillPriv cx off n).threads = s.threads)

/-- R137, R138 (06), R87 (04), R20, R24 to R26 (01), R47 (02): `sget` pushes the value of a system value in each switched-on lane: LANE is the lane, CAPS
a word of the capability list, which holds ten entries and the architecture word; the others are the warp's, its team's, its cluster's and its grid's,
and DIEPOS is the distance on the ring of compute dies from the one next to the cluster's preferred memory die; a counter's value arrives later;
`sget fpxc` clears the flags that it has read. Where the spec gives the handler warp no value, the value is free.
Where the rules leave a point open, this rests on the model's own choice or reading: log entry 32. -/
def Obligations.SystemValues : Prop :=
  (∀ off, capAt off = if off < 88 then
      [0x1002010000, Config.stepping % 256 * 2 ^ 48 + 0x201008040400, 0x1801010001, 0x2001010002, 0x2801010003, 0x3001010004, 0x3801010005, 0x4001010040,
        0x4801010041, 0x5001010042, 0x1010043].getD (off / 8) 0 else 0) ∧
  ∀ (h : Hdr) (v : SysVal) (s : State) (cx : Cx) (s1 : State),
    let srcs := if v = .caps then src1 h else srcOff h
    s.ready h { Shape.both srcs true with waits := decide (v = .fpx ∨ v = .fpxc) } = some (cx, s1) →
      let os := (s1.operands cx srcs true).1
      let s2 := (s1.operands cx srcs true).2
      (v.counter = true → Completes (.sget h v) s (Reserves cx 1 cx.on (offEnt os) (.counter v (s2.counterNow cx.who v) none) s2)) ∧
      (v.counter = false →
        ∃ (w : Word) (n : Nat),
          (let is (x : SysVal) (m : Nat) : Prop := v = x → w = BitVec.ofNat 64 m ∧ n = s2.freeCtr
           let g := cx.who.isGuide
           let part := match cx.who with
             | .handler _ p => p
             | _ => cx.t.part
           (is .core (s2.placeOfWho cx.who).2 ∧ is .part (if g then 0xFF else part) ∧ is .quad (if g then 0xFF else part / 8) ∧
             is .fpctl (if g then 0 else cx.t.fpctl.toNat) ∧ is .fpx (if g then 0 else cx.t.fpx.toNat) ∧ is .fpxc (if g then 0 else cx.t.fpx.toNat)) ∧
           (cx.who.isHandler = false →
             is .warp (if g then 0xFFFF else cx.who.warpNo) ∧ is .team cx.tm.rank ∧ is .role (if g then 0xFF else cx.t.role) ∧
             is .nwarp (cx.tm.roles.map Role.warps).sum ∧ is .prio cx.tm.prio ∧ is .param cx.tm.param.toNat ∧ is .data cx.tm.data.toNat ∧
             is .code cx.tm.code.toNat ∧
             (∀ c, s2.cluster? cx.tm.cluster = some c → is .cx c.cx ∧ is .cy c.cy ∧ is .cz c.cz) ∧
             ∀ x, s2.grid? cx.tm.grid = some x →
               is .gx x.launch.gx ∧ is .gy x.launch.gy ∧ is .gz x.launch.gz ∧ is .depth x.depth ∧ is .nteam x.launch.teams ∧
               (x.launch.afn = 0 → is .diepos 0) ∧
               ∀ c m, s2.cluster? cx.tm.cluster = some c → (affinity x.launch.afn.toNat c.cx c.cy c.cz).1 = some m → m < 8 → cx.tm.die < 4 →
                 let a := (cx.tm.die + 4 - m / 2) % 4
                 is .diepos (Nat.min a ((4 - a) % 4)))) ∧
          ∃ t, exec (.sget h v) s = .next (if v = .caps then t.consume cx os else t) ∧
            Steps cx cx.nextPc 1 (fun l => if cx.on.getLsbD l then [match v with
                | .lane => ent (if cx.who.isGuide then 0 else BitVec.ofNat 64 l) false
                | .caps => ent (BitVec.ofNat 64 (capAt (arg (valsAt os l) 0).toNat)) (poisonAt os l)
                | _ => ent w false] else [offEnt os l]) none
              (fun th => if v = .fpxc ∧ cx.on ≠ 0 then { th with fpx := th.fpx &&& ~~~(w.setWidth 32) } else th) (fun sp => sp)
              { s2 with freeCtr := n } t)

/-- R162 to R164 (07), R66, R67 (03), R398 (16): a branch that every active lane or none takes moves the split's PC; a divergent one sends the taken lanes
away by `divert`, waits while no split entry can be had, and outside a fork region takes 0x18. The leader's group of a `brx` leaves and the other
lanes issue it again; `loop` pushes the count less one. R66, R67 (03): the lanes that leave a split take the first free split entry, with its frame,
push count and open windows; with four splits they are parked in the innermost waypoint, whose frame they take. `fr` is the frame that a call has given
them instead.
Where the rules leave a point open, this rests on the model's own choice or reading: log entry 19. -/
def Obligations.BranchResults : Prop :=
  (∀ (h : Hdr) (s : State) (cx : Cx) (s1 : State),
     let branches (i : Instr) (os : List Operand) (s2 : State) (taken : Mask) (target notTaken : Pc) (n : Nat) (res : Nat → List QEnt) : Prop :=
       let goes (pc : Pc) (t : State) : Prop := Steps cx pc n res none (fun th => th) (fun sp => sp) s2 t
       (taken = 0 → ∃ t, exec i s = .next (t.consume cx os) ∧ goes notTaken t) ∧
       (taken ≠ 0 → taken = cx.mask → ∃ t, exec i s = .next (t.consume cx os) ∧ goes target t) ∧
       (taken ≠ 0 → taken ≠ cx.mask → cx.t.wps ≠ [] → mustWait cx.t = false →
         ∃ t, exec i s = .next ((t.divert cx taken target none).consume cx os) ∧ goes notTaken t) ∧
       (taken ≠ 0 → taken ≠ cx.mask → cx.t.wps ≠ [] → mustWait cx.t = true → exec i s = .next (s2.hold cx)) ∧
       (taken ≠ 0 → taken ≠ cx.mask → cx.t.wps = [] → exec i s = .next (s2.fail cx 0x18 cx.mask 0 1))
     let rel (off : BitVec 25) : Pc := cx.pc + BitVec.ofInt 48 (8 * off.toInt)
     (s.ready h (Shape.both [] false) = some (cx, s1) →
       ∀ off, branches (.bra h off) [] s1 cx.on (rel off) cx.nextPc 0 fun _ => []) ∧
     (s.ready h (Shape.both (src1 h) false) = some (cx, s1) →
       let os := (s1.operands cx (src1 h) false).1
       let target (l : Nat) : Pc := BitVec.ofNat 48 ((arg (valsAt os l) 0).toNat % 2 ^ 48 / 8 * 8)
       let leader := target (cx.lead.getD 0)
       branches (.brx h) os (s1.operands cx (src1 h) false).2 (maskOf (cx.lanes.filter fun l => target l == leader)) leader cx.pc 0 fun _ => []) ∧
     (s.ready h (Shape.both (src1 h) true) = some (cx, s1) →
       let os := (s1.operands cx (src1 h) true).1
       let c (l : Nat) : Word := widen h.ty ((unsOf h.ty (arg (valsAt os l) 0) : Int) - 1)
       ∀ off, branches (.loop h off) os (s1.operands cx (src1 h) true).2 (maskOf (cx.lanes.filter fun l => c l != 0)) (rel off) cx.nextPc 1
         fun l => if cx.on.getLsbD l then [ent (c l) (poisonAt os l)] else [offEnt os l])) ∧
  (∀ (s : State) (cx : Cx) (th : Warp) (sp : Split) (lanes : Mask) (pc : Pc) (fr : Option (Nat × Nat)), s.thread? cx.who = some th →
     th.split? cx.k = some sp →
     ∃ t, (s.divert cx lanes pc fr).thread? cx.who = some t ∧
       t.split? cx.k = some { sp with mask := sp.mask &&& ~~~lanes } ∧
       (∀ i, th.freeSplit = some i →
         (∃ x, t.split? i = some x ∧ x.pc = pc ∧ x.mask = lanes ∧ (x.fb, x.fs) = fr.getD (sp.fb, sp.fs) ∧ x.p = sp.p ∧ x.windows = sp.windows ∧
           x.wait = none) ∧
         (∀ j, j ≠ i → j ≠ cx.k → t.split? j = th.split? j) ∧ t.wps = th.wps) ∧
       (th.freeSplit = none → (∀ j, j ≠ cx.k → t.split? j = th.split? j) ∧
         ∀ w ws, th.wps = w :: ws → ∃ w', t.wps = w' :: ws ∧ w'.parked = lanes ∧ w'.parkedPc = pc ∧ w'.parkedP = sp.p ∧
           (w'.parkedFb, w'.parkedFs) = fr.getD (w.fb, w.fs) ∧ w'.member = w.member ∧ w'.arrived = w.arrived))

/-- R63 (03), R165 (07): a call saves the k youngest entries of every active lane and the link word in the frame entries above the frame, hands the callee
the n youngest, and gives it an empty frame above the record; entries below the window are decoded first and encoded again (R59). R72 (03): a `calli`
whose lanes name one target is such a call; with several targets each target's group calls as a split of its own under one implicit waypoint, as far
as there are split entries, and its other lanes wait at the `calli`. R64, R72 (03), R166 (07): a return reads the link word, the same well-formed one in
every active lane, and goes to its return address with the caller's frame; the callee's m youngest entries are followed by those that the call saved.
Where a `calli` opened a waypoint for it, it arrives there.
Where the rules leave a point open, this rests on the model's own choice or reading: log entries 14, 18. -/
def Obligations.CallsAndReturns : Prop :=
  (∀ (h : Hdr) (n k : BitVec 5) (s : State) (cx cx2 : Cx) (s1 u s4 : State),
     let ft := cx.sp.fb + cx.sp.fs
     let entries := (List.range (k.toNat + 1)).map (ft + ·)
     let top := ft + k.toNat + 1
     let link (depth : Nat) : Word := BitVec.ofNat 64 (cx.nextPc.toNat / 8 * 2 ^ 19 + (cx.sp.fs + k.toNat + 1) * 2 ^ 10 + k.toNat * 2 ^ 5 + depth)
     let save (depth : Nat) (th : Warp) (l : Nat) : Warp :=
       ((List.range k.toNat).foldl (fun th j => th.fwrite (ft + j) l (cx.t.age l (j + 1)).val (cx.t.age l (j + 1)).poison) th).fwrite
         (ft + k.toNat) l (link depth) false
     let callee (q : List QEnt) : List QEnt := (List.range 16).map fun j => if j < n.toNat then q.getD j zeroEnt else zeroEnt
     let calls (target : Pc) (t : State) : Prop :=
       Moves cx2 target 0 (fun _ q => callee q) none (fun th => (lanesOf cx.mask).foldl (save cx.t.wps.length) th)
         (fun sp => { sp with fb := top, fs := 0 }) s4 t
     let after (t : State) : State :=
       ((t.touchEntries cx ft (k.toNat + 1)).moveWindow cx.tm cx.who cx.k cx.pc cx.word cx.mask).writeBack cx entries
     callFail cx k.toNat = none → u.writable cx entries = some s4 →
     (s.ready h { Shape.both [] false with waits := true } = some (cx, s1) → s1.afterReads cx entries = some (cx2, u) →
       ∀ off, ∃ t, exec (.call h n k off) s = .next (after t) ∧ calls (cx.pc + BitVec.ofInt 48 (8 * off.toInt)) t) ∧
     (s.ready h { Shape.user (src1 h) false with waits := true } = some (cx, s1) →
       let os := (s1.operands cx (src1 h) false).1
       let s2 := (s1.operands cx (src1 h) false).2
       let target (l : Nat) : Pc := BitVec.ofNat 48 ((arg (valsAt os l) 0).toNat % 2 ^ 48 / 8 * 8)
       let groups := targetGroups os (lanesOf cx.mask)
       let free := (cx.t.splits.filter Option.isNone).length
       s2.afterReads cx entries = some (cx2, u) → ∀ m : BitVec 4,
         let splits (opens : Bool) (room : Nat) : Prop :=
           let leave := groups.take (min room (groups.length - 1))
           let stay := groups.drop leave.length
           let called : Mask := (if stay.length = 1 then groups else leave).foldl (fun m g => m ||| g.2) 0
           let go (t : State) : State := leave.foldl (fun s g => s.divert cx g.2 g.1 (some (top, 0))) t
           ∃ t, exec (.calli h n k m) s = .next ((after (if stay.length = 1 then
                 (go t).updSplit cx.who cx.k fun sp => { sp with pc := (stay.head?.map Prod.fst).getD cx.pc, fb := top, fs := 0 } else go t)).consume
               cx os) ∧
             Moves cx2 cx.pc 0 (fun l q => if called.getLsbD l then callee q else q) none
               (fun th => (lanesOf called).foldl (save (cx.t.wps.length + if opens then 1 else 0))
                 (if opens then { th with wps := openWp cx cx.nextPc m.toNat 0 true :: th.wps } else th))
               (fun sp => if opens then { sp with p := 0 } else sp) s4 t
         (∀ l0, (∀ l ∈ lanesOf cx.mask, target l = target l0) → l0 ∈ lanesOf cx.mask → (calliWp cx = none ∨ calliWp cx = some 0) →
           ∃ t, exec (.calli h n k m) s = .next ((after t).consume cx os) ∧ calls (target l0) t) ∧
         (groups.length > 1 → calliWp cx = none → cx.t.wps.length < 16 → splits true (free + 1)) ∧
         (groups.length > 1 → calliWp cx = some 0 → cx.t.roomFor ≠ 0 → splits false cx.t.roomFor) ∧
         (groups.length > 1 → calliWp cx = some 0 → cx.t.roomFor = 0 → exec (.calli h n k m) s = .next (s2.hold cx)) ∧
         (∀ j, calliWp cx = some (j + 1) → exec (.calli h n k m) s = .next (s2.hold cx)))) ∧
  (∀ (h : Hdr) (m : BitVec 4) (s : State) (cx cx2 cx3 : Cx) (s1 s2 s3 : State) (w : Word),
     s.ready h { Shape.both [] false with waits := true } = some (cx, s1) → cx.sp.fb ≠ 0 → s1.afterReads cx [cx.sp.fb - 1] = some (cx2, s2) →
     let lanes := lanesOf cx.mask
     let links := s2.frameWords cx cx2.t (lanes.map fun l => (cx.sp.fb - 1, l))
     let l := linkOf w cx.sp.fb
     let base := cx.sp.fb - 1 - l.k
     lanes ≠ [] → (∀ x ∈ links.1, x.2.2.val = w) → l.bad = false → l.wpd = cx.t.wps.length → (∀ i, implicitRet cx l = some i → i.k = m.toNat) →
     links.2.afterReads cx ((List.range l.k).map (base + ·)) = some (cx3, s3) →
       let saved := s3.frameWords cx cx3.t ((List.range l.k).flatMap fun j => lanes.map fun ln => (base + j, ln))
       let word (i ln : Nat) : QEnt := ((saved.1.find? fun x => x.1 == i && x.2.1 == ln).map fun x => x.2.2).getD zeroEnt
       let back (t : State) : State :=
         let t := t.touchEntries cx base (cx.sp.fs + l.k + 1)
         let t := if (implicitRet cx l).isSome then t.arrive cx else t
         (t.moveWindow cx.tm cx.who cx.k cx.pc cx.word cx.mask).walkLeft cx
       let bad := links.1.filter fun x => x.2.2.poison
       ∃ t, exec (.ret h m) s = .next (if bad = [] then back t
           else (back t).raise cx.who cx.k (cx.trap 0x71 (maskOf (bad.map fun x => x.2.1)) 0 0) none) ∧
         Moves cx3 l.rpc 0 (fun ln q => (List.range 16).map fun j =>
             if j < m.toNat then q.getD j zeroEnt else if j < m.toNat + l.k then word (base + (j - m.toNat)) ln else zeroEnt) none
           (fun th => th) (fun sp => { sp with fb := cx.sp.fb - l.fbd, fs := l.fbd - l.k - 1,
                                               p := if (implicitRet cx l).isSome then m.toNat else sp.p }) saved.2 t)

/-- R68 to R71 (03), R167 (07): a fork opens a waypoint at its target with the launch's permutation table, and counts pushes from zero; a rejoin at
that address gives every lane the entries that the row of its push count names, above those that were there before, and arrives. R71, R72 (03): a
split that arrives leaves the split table, where a group parked in the waypoint takes the freed entry (R67); once every member of the innermost
waypoint has arrived, one split of all of them goes on after the rejoin, or at the return address of a `calli`, with the frame that the waypoint
records. -/
def Obligations.ForkRejoin : Prop :=
  (∀ (h : Hdr) (s : State) (cx : Cx) (s1 s2 : State) (r : PermRow), s.ready h { Shape.user [] false with waits := true } = some (cx, s1) →
     (∀ (k : BitVec 5) (perm : BitVec 10) off, s1.permTable cx perm.toNat 16 = (.ok (some r), s2) → r.reserved = false → r.kt = k.toNat →
       cx.t.wps.length < 16 →
       Completes (.fork h k perm off) s (Goes cx cx.nextPc
         (fun th => { th with wps := openWp cx (cx.pc + BitVec.ofInt 48 (8 * off.toInt)) k.toNat perm.toNat false :: th.wps })
         (fun sp => { sp with p := 0 }) s2)) ∧
     (∀ w ws, cx.t.wps = w :: ws → w.implicit = false → w.target = cx.pc → cx.sp.p ≤ 15 →
       s1.permTable cx w.table cx.sp.p = (.ok (some r), s2) → r.rows / 2 ^ cx.sp.p % 2 = 1 →
       (∀ j, r.row.getD j 0 ≤ 16 ∧ (r.kt ≤ j → r.row.getD j 0 = 0)) →
       ∃ t, exec (.rjn h) s = .next (((t.arrive cx).moveWindow cx.tm cx.who cx.k cx.pc cx.word cx.mask).walkLeft cx) ∧
         Moves cx cx.pc 0 (fun _ q => (List.range 16).map fun j =>
             if j < w.k then (if r.row.getD j 0 = 0 then zeroEnt else q.getD (r.row.getD j 0 - 1) zeroEnt)
             else if j + 1 - w.k + cx.sp.p ≤ 16 then q.getD (j - w.k + cx.sp.p) zeroEnt else zeroEnt) none
           (fun th => th) (fun sp => sp) s2 t)) ∧
  (∀ (s : State) (cx : Cx) (th : Warp) (sp : Split) (w : Waypoint) (ws : List Waypoint), s.thread? cx.who = some th →
     th.split? cx.k = some sp → th.wps = w :: ws → sp.mask ≠ 0 →
     (w.parked ≠ 0 → ∃ t i x, (s.arrive cx).thread? cx.who = some t ∧ t.split? i = some x ∧ x.mask = w.parked ∧ x.pc = w.parkedPc ∧
       x.fb = w.parkedFb ∧ x.fs = w.parkedFs ∧ x.p = w.parkedP ∧ x.wait = none) ∧
     (w.member = w.arrived ||| sp.mask → w.parked = 0 →
       ∃ t i x, (s.arrive cx).thread? cx.who = some t ∧ t.split? i = some x ∧ x.mask = w.member ∧
         x.pc = (if w.implicit then w.target else w.target + 8) ∧ x.fb = w.fb ∧ x.fs = w.fs ∧ x.p = min 31 (w.savedP + w.k) ∧ x.wait = none) ∧
     (w.member ≠ w.arrived ||| sp.mask → w.parked = 0 →
       ∃ t w', (s.arrive cx).thread? cx.who = some t ∧ t.split? cx.k = none ∧ t.wps = w' :: ws ∧ w'.arrived = w.arrived ||| sp.mask ∧
         w'.member = w.member ∧ ∀ j, j ≠ cx.k → t.split? j = th.split? j))

/-- R168 to R170 (07): lanes that exit leave their split, its waypoints and its thread's barriers, and a warp's end releases what every split of it
has written (R460); `trap` and an enabled `brk` complete and then stop the team with their code; `yield` makes the split wait, for n cycles counted
from the cycle after its issue. With no lane switched on, `exit`, `trap` and `brk` only go on. Where the rules leave a point open, this rests on the
model's own choice or reading: log entry 32. -/
def Obligations.EndResults : Prop :=
  ∀ (h : Hdr) (s : State) (cx : Cx) (s1 : State),
    (s.ready h { Shape.both [] false with waits := true } = some (cx, s1) →
      let left := cx.mask &&& ~~~cx.on
      let gone (th : Warp) : Warp := { th with
        exited := th.exited ||| cx.on, wps := th.wps.map fun w => { w with member := w.member &&& ~~~cx.on }
        gone := if left = 0 then clkJoin th.gone (s1.clkOf cx.sp.party) else th.gone }
      let after (t : State) : State :=
        let u := (State.settleWps cx.who 18 t).moveWindow cx.tm cx.who cx.k cx.pc cx.word cx.mask
        if cx.who.isUser then
          (if ((u.thread? cx.who).all fun t => t.splits.all Option.isNone && t.wps.isEmpty) then u.warpExited cx
            else ((u.checkBars cx.tm.ctxh).checkCbar cx.tm.cluster).walkLeft cx)
        else u
      (cx.on = 0 → Completes (.exit h) s (Changes cx (fun th => th) s1)) ∧
      (cx.on ≠ 0 → left ≠ 0 → ∃ t, exec (.exit h) s = .next (after t) ∧ Goes cx cx.nextPc gone (fun sp => { sp with mask := left }) s1 t) ∧
      (cx.on ≠ 0 → left = 0 → ∃ t, exec (.exit h) s = .next (after (t.updThread cx.who fun th => th.setSplit cx.k none)) ∧
        Goes cx cx.nextPc gone (fun sp => sp) s1 t)) ∧
    (s.ready h (Shape.both [] false) = some (cx, s1) →
      let stops (i : Instr) (cause code : Nat) : Prop :=
        ∃ t, exec i s = .next (if cx.on = 0 then t else t.raise cx.who cx.k (cx.trap cause cx.on 0 code) none) ∧ Changes cx (fun th => th) s1 t
      (∀ code : BitVec 8, stops (.trap h code) 0x14 code.toNat) ∧
      (∀ code : BitVec 8, cx.tm.brken.getLsbD 0 = true → stops (.brk h code) 0x15 code.toNat) ∧
      (∀ code : BitVec 8, cx.tm.brken.getLsbD 0 = false → Completes (.brk h code) s (Changes cx (fun th => th) s1)) ∧
      (∀ n : BitVec 8, Completes (.yield h n) s (Goes cx cx.nextPc (fun th => th) (fun sp => { sp with
        wait := some (if n = 0 then .yield 0 (s1.clkFor cx.who + 17) else .yield 1 (s1.clkFor cx.who + n.toNat + 1)), waitFrom := s1.clkFor cx.who }) s1)))

/-- R171 to R174, R188 to R190 (07): the loads and the atomics that answer a value reserve it, once their addresses pass and translate; the lanes that
share one location are served by the arrival; a lane whose granule is poisoned, there or in a line that a cache holds, is pushed poisoned (R433).
`accOf` gives every switched-on lane its address and operands. R54 (03), R174 (07), R7 (00): a load of one lane from locations that nothing has
written in this run answers their bytes, lowest first, as its type widens them; where no range is sealed, whose refusals would withdraw the writes of
a line that leaves a cache for it (R431), memory is as it was. Where the rules leave a point open, this rests on the model's own choice or reading:
log entries 4, 5, 24. -/
def Obligations.LoadResults : Prop :=
  (∀ (h : Hdr) (m : MemF) (s : State) (cx : Cx) (s1 : State),
     let answers (i : Instr) (guide form : Bool) (op : MemOp) (srcs : List (Nat × Src)) (fields used : List Nat) (n : Nat) : Prop :=
       s.ready h { Shape.user srcs true with guide := guide, form := form } = some (cx, s1) → memWait cx (isRel m.ord) = false →
         let os := (s1.operands cx srcs true).1
         LoadsLanes i cx os (os.filter fun o => used.contains o.field)
           { op := op, sp := m.sp, scope := m.scope, ord := m.ord, acc := accOf cx os (memOff h srcs m.off) fields, badAddr := badLanes cx os, n := n
             nc := m.ch == .nc }
           s (s1.operands cx srcs true).2
     answers (.ld h m) true (guideSp m.sp) (.load h.ty) (src1 h) [] [0] 1 ∧
     answers (.ldPair h m) true false .loadPair (src1 h) [] [0] 2 ∧
     (∀ op, answers (.atom h op m) false false (.atom op h.ty) (src2 h) [1] [0, 1] 1) ∧
     answers (.cas h m) false false (.cas h.ty) (src3 h) [1, 2] [0, 1, 2] 1 ∧
     (∀ op, answers (.fatom h op m) false false (.fatom op h.ty) (src2 h) [1] [0, 1] 1)) ∧
  (∀ (s : State) (die core : Nat) (r : MemReq) (a : LaneAcc) (ty : Ty) (bs : List Byte), r.op = .load ty →
     (∀ k, s.sealed k = false) → (∀ k ∈ a.keys, s.histOf k = none ∧ isHostKey k = false ∧ isPeerKey k = false) → a.keys.map s.byteAt = bs.map some →
     ∃ u, s.performLoad die core r a = ({ vals := [(a.lane, [widenBits ty (leNum bs)])]
                                          poison := if a.keys.any u.poisonedKey || u.heldBad die core a.keys || a.poisoned then [a.lane] else []
                                          refused := [], unreach := [] }, u) ∧ u.mem = s.mem)

/-- R171 to R175, R190 (07): a store, and a reduction, goes on at once; its lanes' writes are performed at the addresses that `accOf` gives. R7 (00), R175
(07), R270 (10): a store's bytes, lowest first, stand where its lanes' translated addresses name them, unless a later lane of the store names the byte
again; every other byte of memory reads as before, where no range is sealed (R431 withdraws writes there). A host or a peer may not take a store: its
lane is then reported (R427).
Where the rules leave a point open, this rests on the model's own choice or reading: log entries 5, 66. -/
def Obligations.StoreResults : Prop :=
  (∀ (h : Hdr) (m : MemF) (s : State) (cx : Cx) (s1 : State),
     let stores (i : Instr) (guide form : Bool) (op : MemOp) (srcs : List (Nat × Src)) (fields used : List Nat) : Prop :=
       s.ready h { Shape.user srcs false with guide := guide, form := form } = some (cx, s1) → memWait cx (isRel m.ord) = false →
         let os := (s1.operands cx srcs false).1
         StoresLanes i cx (os.filter fun o => used.contains o.field)
           { op := op, sp := m.sp, scope := m.scope, ord := m.ord, acc := accOf cx os (memOff h srcs m.off) fields, badAddr := badLanes cx os, n := 0
             nc := m.ch == .nc }
           s (s1.operands cx srcs false).2
     stores (.st h m) true (guideSp m.sp) (.store h.ty) (src2 h) [1] [0] ∧
     stores (.stPair h m) true false .storePair (src3 h) [1, 2] [0] ∧
     (∀ op, stores (.red h op m) false false (.red op h.ty) (src2 h) [1] [0, 1])) ∧
  (∀ (s : State) (die core ctxh : Nat) (r : MemReq) (acc : List LaneAcc),
     r.op.isStore = true → (∀ k, s.sealed k = false) →
     let out := s.performStores die core ctxh r acc
     (∀ k, (∀ a ∈ acc, k ∉ (storeData a).map Prod.fst) → out.2.byteAt k = s.byteAt k) ∧
     (∀ front a back k b, acc = front ++ a :: back → (storeData a).Pairwise (fun x y => x.1 ≠ y.1) → (k, b) ∈ storeData a →
       (∀ c ∈ back, k ∉ (storeData c).map Prod.fst) → s.memOk →
         out.2.byteAt k = some b ∨ ((∃ x ∈ a.keys, isHostKey x = true ∨ isPeerKey x = true) ∧ ∃ reason, (a.lane, reason) ∈ out.1.unreach)))

/-- R178 (07), R421 (17): a block load reads at the address of the lowest active lane of each lane's group, whose sources are read whether it is
switched on or not (R395); a block store writes every group that is wholly switched on, E and MU before the elements for SE, the scale byte at its own
address for MX. R185 (07): `seal` is a request of every switched-on lane, at system scope. Where the rules leave a point open, this rests on the
model's own choice or reading: log entries 32, 63. -/
def Obligations.BlockResults : Prop :=
  ∀ (h : Hdr) (sp : Space) (f : BlkFmt) (s : State) (cx : Cx) (s1 : State),
    let mx := !Wf.seBlock f
    let at_ (os : List Operand) (n l : Nat) : SVal := (fieldOp os n).at l
    (let srcs := if mx then src2 h else src1 h
     s.ready h { Shape.user srcs true with block := blkLanes f } = some (cx, s1) → memWait cx false = false →
      let os := (s1.operands { cx with on := cx.mask } srcs true).1
      let lead (l : Nat) : Nat := ((groupLanes f l).find? fun q => cx.mask.getLsbD q).getD l
      let bad (l : Nat) : Bool := (at_ os 0 (lead l)).poison || (mx && (at_ os 1 (lead l)).poison)
      LoadsLanes (.ldblk h sp f) cx os (os.map fun o => { o with vals := (List.range 32).map fun l => o.at (lead l) })
        { op := .ldblk f, sp := sp, scope := .team, ord := .plain, n := 1, badAddr := cx.lanes.filter bad
          acc := (cx.lanes.filter fun l => !bad l).map fun l =>
            { lane := l, ea := ((at_ os 0 (lead l)).v + memOff h srcs 0).toNat, ops := [(at_ os 1 (lead l)).v], keys := [], pt := 0, poisoned := false } }
        s (s1.operands { cx with on := cx.mask } srcs true).2) ∧
    (let srcs := if mx then src3 h else src2 h
     s.ready h (Shape.user srcs false) = some (cx, s1) → memWait cx false = false →
      let os := (s1.operands cx srcs false).1
      let leads := ((List.range (32 / blkLanes f)).map (blkLanes f * ·)).filter fun b => (groupLanes f b).all fun l => cx.on.getLsbD l
      let bad (b : Nat) : Bool := (at_ os 0 b).poison || (mx && (at_ os 2 b).poison)
      StoresLanes (.stblk h sp f) cx ((os.filter fun o => o.field != 1).map (onlyLanes leads))
        { op := .stblk f, sp := sp, scope := .team, ord := .plain, n := 0, badAddr := []
          acc := (leads.filter fun b => !bad b).map fun b =>
            { lane := b, ea := ((at_ os 0 b).v + memOff h srcs 0).toNat, keys := [], pt := 0
              ops := blockData f ((groupLanes f b).map fun l => (at_ os 1 l).v) ++ [(at_ os 2 b).v]
              poisoned := (groupLanes f b).any fun l => (at_ os 1 l).poison } }
        s (s1.operands cx srcs false).2) ∧
    (s.ready h (Shape.user (src3 h) false) = some (cx, s1) → memWait cx true = false →
      let os := (s1.operands cx (src3 h) false).1
      (∀ a ∈ accOf cx os 0 [1, 2], a.ea + (a.ops.headD 0).toNat ≤ globalTop ∧ a.ea % 4096 = 0 ∧ (a.ops.headD 0).toNat % 4096 = 0 ∧
        (a.ops.headD 0).toNat ≤ 2 ^ 40) →
      StoresLanes (.seal h) cx os
        { op := .seal, sp := .global, scope := .system, ord := .rel, acc := accOf cx os 0 [1, 2], badAddr := [], n := 0 } s
        (s1.operands cx (src3 h) false).2)

/-- R421 to R423 (17), R389 (16): a lane whose address fails a check keeps the whole instruction from taking effect; an address that is not a multiple of
its element's size takes 0x23 where it lies in a window that can be accessed. R392 (16), R120 (05): for every instruction with a word: a system
instruction of a user warp takes 0x12; one that R120 does not let a guide run takes 0x11 there, and so does an excluded form of one that it does,
TDETAIL bit 8 then being 1: a load, store or monitor wait in another space than global or scratchpad, a pair, and the like. The instruction has no
effect, and the split's lanes, and the opcode, stand in the record.
Where the rules leave a point open, this rests on the model's own choice or reading: log entries 24, 31. -/
def Obligations.AccessAndModeTraps : Prop :=
  ((∀ (s : State) (cx : Cx) (os use : List Operand) (a : Access), s.stage5 cx.tm cx.who a.sp a.op a.acc ≠ [] →
     s.access cx os use a = s.raise cx.who cx.k
       (faultTrap cx.pc cx.word true a.op.kind (spCode a.sp) (s.stage5 cx.tm cx.who a.sp a.op a.acc)) none) ∧
   (∀ (s : State) (tm : Team) (who : Who) (sp : Space) (e : Elem), e.align = true → e.ea % e.size ≠ 0 →
     ∃ f, s.elemFault tm who sp e = some f ∧ f.lane = e.lane ∧ f.ea = e.ea ∧ f.f.cause ≤ 0x23 ∧
       (∀ p, placeOf s tm who sp e.ea e.size = .ok p → f.f.cause = 0x23 ∧ f.f.reason = 1))) ∧
  (∀ (s : State) (x : Issue) (t : Warp) (sp : Split) (tm : Team), s.cur = some x → s.thread? x.who = some t → t.split? x.spl = some sp →
     s.team? (s.ctxhOf x.who) = some tm →
     let opc := x.word.toNat / 2 ^ 56 % 2 ^ 8
     let traps (cause detail : Nat) : Host.Outcome State Fault Refusal :=
       .next ({ s with cur := none }.raise x.who x.spl
         { cause := cause, prec := true, tpc := x.pc, word := x.word, lanes := sp.mask, addr := 0, detail := detail, words := [] } none)
     ∀ i, isCode i = true →
       (x.who.isUser = true → i.isSystem = true → exec i s = traps 0x12 opc) ∧
       (x.who.isGuide = true → i.guideLegal = false → exec i s = traps 0x11 opc) ∧
       (x.who.isGuide = true → i.guideLegal = true → i.guideForm = false → exec i s = traps 0x11 (opc + 256)))

/-- R177, R186 (07), R193 (07), R281 (10): a prefetch changes no value and never faults, unless its walk meets a poisoned table entry (R432); with one
lane switched on, the line that its address translates to is in the die's L2 from then on, for the L1 form in the core's L1. A fence pushes the core's
dirty lines, takes its place in the order of fences, and drops what its acquire drops; `ifence` is both, and its warp's fetches forget what they have
read. -/
def Obligations.OrderResults : Prop :=
  ∀ (h : Hdr) (s : State) (cx : Cx) (s1 : State),
    (∀ m : MemF, s.ready h (Shape.user (src1 h) false) = some (cx, s1) →
      let os := (s1.operands cx (src1 h) false).1
      let s2 := (s1.operands cx (src1 h) false).2
      let at_ := s2.placeOfWho cx.who
      let fetches (i : Instr) (l1 : Bool) : Prop :=
        (accOf cx os (memOff h (src1 h) m.off) [] = [] → Completes i s (Changes cx (fun th => th) s2)) ∧
        ∀ a, accOf cx os (memOff h (src1 h) m.off) [] = [a] →
          (∀ u, s2.prefKey cx m.sp a.ea = (none, u) →
            (∀ p, placeOf s2 cx.tm cx.who m.sp a.ea 1 = .ok p → (s2.keysAt cx.sp.party (s2.clkOf cx.sp.party) cx.tm.asid
              { write := false, fetch := false, super := cx.who.isHandler } p 1).1 ≠ .error .lost) →
            Completes i s (Changes cx (fun th => th) u)) ∧
          ∀ k u, s2.prefKey cx m.sp a.ea = (some k, u) → isSpKey k = false →
            let w := u.cross at_.1 false [k]
            let v := if l1 then w.holdL1 at_.1 at_.2 (lineOf k) else w.holdL2 at_.1 (lineOf k)
            Completes i s (Changes cx (fun th => th) v) ∧
              (if l1 then v.line? .l1 (coreId at_.1 at_.2) (lineOf k) else v.line? .l2 at_.1 (lineOf k)) ≠ none
      fetches (.prefL1 h m) true ∧ fetches (.prefL2 h m) false) ∧
    (s.ready h (Shape.user [] false) = some (cx, s1) → memWait cx true = false →
      let at_ := s1.placeOfWho cx.who
      let push (sc : Scope) : State := s1.pushLines at_.1 at_.2 sc
      let orders (i : Instr) (u : State) : Prop := Completes i s (Changes cx (fun th => th) u)
      (∀ sc, orders (.fence h sc) (((push sc).fullFence cx.sp.party sc).dropLines at_.1 at_.2 sc)) ∧
      (∀ sc, orders (.fenceAcq h sc) ((s1.acqFence cx.sp.party sc).dropLines at_.1 at_.2 sc)) ∧
      (∀ sc, orders (.fenceRel h sc) ((push sc).relFence cx.sp.party sc)) ∧
      Completes (.ifence h) s (Changes cx (fun th => { th with fetched := [] })
        (((push .device).acqFence cx.sp.party .device).dropLines at_.1 at_.2 .device)))

/-- R268 to R270 (10), R52 (03), R434 (17): the frame of the instructions that work on their own thread alone (`Instr.quiet`: all of chapter 06 but the
frame instructions and `qnt` with a table). Where one of them answers a next state, its entries below the window apart, every byte of memory reads as
before, whatever it raises, and so do the threads of other teams; where it reads no poisoned word and no flag traps, every other thread, every table
of the package and every other split of its own thread stand as before, the lanes outside its split keep their queues, and its team is only marked as
having gone on. Operands take free values only. -/
def Obligations.QuietFrame : Prop :=
  (∀ (h : Hdr) (sh : Shape) (cross : Cx → Option (Mask × Nat)) (s : State) (cx : Cx) (s1 : State), s.readyAcross h sh cross = some (cx, s1) →
    belowWindow cx (slotEntries cx.sp sh) = [] → s1 = { s with cur := none }) ∧
  (∀ (s : State) (cx : Cx) (fs : List (Nat × Src)) (p : Bool), ∃ n, (s.operands cx fs p).2 = { s with freeCtr := n }) ∧
  (∀ (i : Instr) (q : Quiet) (s : State) (cx : Cx) (s1 t : State), i.quiet = some q → s.readyAcross q.h q.shape q.cross = some (cx, s1) →
    belowWindow cx (slotEntries cx.sp q.shape) = [] → exec i s = .next t →
    let os := (s1.operands cx q.srcs q.shape.pushes).1
    (cx.who.isHandler = false → (∀ a, t.byteAt a = s.byteAt a) ∧ t.poison = s.poison ∧
      ∀ w, s.ctxhOf w ≠ cx.tm.ctxh → t.thread? w = s.thread? w) ∧
    ((∀ l, poisonAt os l = false) → cx.t.fpctl.toNat % 32 = 0 →
      (∀ a, t.byteAt a = s.byteAt a) ∧ t.poison = s.poison ∧ (∀ w, w ≠ cx.who → t.thread? w = s.thread? w) ∧
      t.tiles = s.tiles ∧ t.accown = s.accown ∧ t.cmds = s.cmds ∧ t.objs = s.objs ∧ t.edges = s.edges ∧ t.lockQ = s.lockQ ∧
      t.monitors = s.monitors ∧ t.lines = s.lines ∧ t.tlb = s.tlb ∧ t.seals = s.seals ∧ t.services = s.services ∧ t.clusters = s.clusters ∧
      t.grids = s.grids ∧ t.queues = s.queues ∧ t.dies = s.dies ∧ t.plat = s.plat ∧
      (∀ x tm, s.team? x = some tm → ∃ p, t.team? x = some { tm with progress := p }) ∧
      ∃ th, t.thread? cx.who = some th ∧ th.frame = cx.t.frame ∧ th.wps = cx.t.wps ∧ th.fpctl = cx.t.fpctl ∧ th.exited = cx.t.exited ∧
        (∀ l, cx.mask.getLsbD l = false → th.queue[l]? = cx.t.queue[l]?) ∧ ∀ j, j ≠ cx.k → th.split? j = cx.t.split? j))

/-- R194 to R196 (07): an arrival is made once the issuing lanes' earlier arrivals at that barrier are over, and a wait that is over is an acquire of
what arrived (`endBar`, `endCbar`); `post` goes on after its arrival, `await` once nothing that it waits for is left, and `meet` does both, and begins
its wait before its arrival is recorded (R440). R194 (07): the first arrival in a generation fixes its expected count; the lanes of an arrival are
recorded for their warp, and the generation is completed, counted and its arrivals consumed once its condition holds. Each lane remembers the
generation it arrived in. A generation keeps the record of its arrivals, from which one can be withdrawn (R443). Where the rules leave a point open,
this rests on the model's own choice or reading: log entries 44, 63. -/
def Obligations.BarrierResults : Prop :=
  (∀ (h : Hdr) (s : State) (cx : Cx) (s1 : State), s.ready h (Shape.user [] false) = some (cx, s1) →
     let completes (i : Instr) (u : State) : Prop := Completes i s (Changes (cx.now u) (fun th => th) u)
     (∀ (bid : BitVec 4) (cnt : BitVec 8),
       let b := bid.toNat
       let blocked (s : State) : Bool := barBlocked (cx.now s).t (cx.now s).tm.bars cx.mask b
       let u := (if cx.sp.wait = some (.bar b false) then s1.endBar cx b else s1).arriveBar cx b cnt.toNat
       (memWait cx true = false → barBlocked cx.t cx.tm.bars cx.mask b = false →
         completes (.barPost h bid cnt) u ∧
         (cx.sp.wait ≠ some (.bar b true) → blocked u = false → completes (.barMeet h bid cnt) (u.endBar (cx.now u) b)) ∧
         (cx.sp.wait ≠ some (.bar b true) → cx.sp.wait ≠ some (.bar b false) → blocked u = true →
           exec (.barMeet h bid cnt) s = .next (s1.beginWait cx 2 b b (.bar b true) fun s => s.arriveBar cx b cnt.toNat))) ∧
       (cx.sp.wait = some (.bar b true) → barBlocked cx.t cx.tm.bars cx.mask b = false →
         completes (.barMeet h bid cnt) (s1.endBar (cx.now s1) b)) ∧
       (barBlocked cx.t cx.tm.bars cx.mask b = false → completes (.barAwait h bid) (s1.endBar cx b)) ∧
       (barBlocked cx.t cx.tm.bars cx.mask b = true → cx.sp.wait ≠ some (.bar b false) →
         exec (.barAwait h bid) s = .next (s1.beginWait cx 2 b b (.bar b false) fun s => s))) ∧
     (let blocked (s : State) : Bool := cbarBlocked (cx.now s).t (s.cbarOf cx) cx.mask
      let u := (if cx.sp.wait = some (.cbar false) then s1.endCbar cx else s1).arriveCbar cx
      (memWait cx true = false → cbarBlocked cx.t (s1.cbarOf cx) cx.mask = false →
         completes (.cbarPost h) u ∧
         (cx.sp.wait ≠ some (.cbar true) → blocked u = false → completes (.cbarMeet h) (u.endCbar (cx.now u))) ∧
         (cx.sp.wait ≠ some (.cbar true) → cx.sp.wait ≠ some (.cbar false) → blocked u = true →
           exec (.cbarMeet h) s = .next (s1.beginWait cx 3 0 0 (.cbar true) fun s => s.arriveCbar cx))) ∧
       (cx.sp.wait = some (.cbar true) → cbarBlocked cx.t (s1.cbarOf cx) cx.mask = false →
         completes (.cbarMeet h) (s1.endCbar (cx.now s1))) ∧
       (cbarBlocked cx.t (s1.cbarOf cx) cx.mask = false → completes (.cbarAwait h) (s1.endCbar cx)) ∧
       (cbarBlocked cx.t (s1.cbarOf cx) cx.mask = true → cx.sp.wait ≠ some (.cbar false) →
         exec (.cbarAwait h) s = .next (s1.beginWait cx 3 0 0 (.cbar false) fun s => s)))) ∧
  (∀ (s : State) (cx : Cx) (th : Warp) (bid cnt : Nat), s.team? cx.tm.ctxh = some cx.tm → s.thread? cx.who = some th → bid < cx.tm.bars.length →
     let b := cx.tm.bars.getD bid Bar.zero
     let old : Mask := ((b.arrived.find? fun a => a.1 == barKey cx.who).map Prod.snd).getD 0
     let b' : Bar := { b with expect := if b.fixed then b.expect else cnt, fixed := true
                              arrived := (barKey cx.who, old ||| cx.mask) :: b.arrived.filter fun a => a.1 != barKey cx.who
                              clk := if b.fixed then clkJoin b.clk (s.clkOf cx.sp.party) else s.clkOf cx.sp.party
                              log := b.log ++ [(barKey cx.who, cx.mask, cnt, s.clkOf cx.sp.party)] }
     ∃ tm t, (s.arriveBar cx bid cnt).team? cx.tm.ctxh = some tm ∧ (s.arriveBar cx bid cnt).thread? cx.who = some t ∧
       tm.bars.getD bid Bar.zero = (if s.barDone cx.tm.ctxh b' then { b' with gen := b'.gen + 1, fixed := false, arrived := [], log := [],
                                                                              done := (b'.gen, b'.clk) :: b'.done } else b') ∧
       ∀ l, l < 32 → cx.mask.getLsbD l = true → (l, bid, b.gen) ∈ t.barArr)

/-- R440, R448 (18), R201 (07): a wait of a user warp begins by registering its edge at a free index and walking from it; where that closes no cycle,
the wait stands from now, the cycles that it has waited before a stop being kept, but for the wait part of a meet, which counts from its own start
(R452). What the walk asks of tables beside other dies crosses to them (12 R334). A guide or handler warp registers none. With no free index
the wait is counted by WFTOVF, or traps where the die is strict. Where the rules leave a point open, this rests on the model's own choice or reading:
log entries 20, 35. -/
def Obligations.WaitBegins : Prop :=
  ∀ (s : State) (cx : Cx) (kind obj key : Nat) (w : Wait),
    let begun (u : State) : State :=
      u.updSplit cx.who cx.k fun sp => { sp with
        wait := some w, waitFrom := u.clkFor cx.who
        waited := match w with
          | .bar _ true | .cbar true => 0
          | _ => sp.waited }
    let u := (s.dropEdges cx.who cx.k true).updSplit cx.who cx.k fun sp => { sp with soft := none }
    (cx.who.isUser = false → s.beginWait cx kind obj key w (fun s => s) = begun s) ∧
    (cx.who.isUser = true → ∀ i, u.freeEdge cx.tm.die = some i →
      let e : Edge := { idx := i, die := cx.tm.die, kind := kind, obj := obj, key := key, ctxh := cx.tm.ctxh, warp := cx.who.warpNo, spl := cx.k }
      let v := { u with edges := e :: u.edges }
      let asked := v.askWalk cx.tm.die (v.walkOf e).asked
      (v.walkFromEdge e = none → s.beginWait cx kind obj key w (fun s => s) = begun asked) ∧
      (∀ path, v.walkFromEdge e = some path →
        s.beginWait cx kind obj key w (fun s => s) = asked.deadlock cx.who cx.k cx.pc cx.word 0 path)) ∧
    (cx.who.isUser = true → u.freeEdge cx.tm.die = none →
      (u.strict cx.tm.die = false → s.beginWait cx kind obj key w (fun s => s) = begun (u.countOvf cx.tm.die)) ∧
      (u.strict cx.tm.die = true → s.beginWait cx kind obj key w (fun s => s) =
        u.fail cx 0x32 cx.mask (if kind = 0 ∨ kind = 1 ∨ kind = 4 then obj else 0) (kind * 16)))

/-- R198, R199 (07), R449, R458 (18): a free lock is taken at its home by the first switched-on lane: the word becomes 1, the holder is recorded, and
status 0 arrives with the acquire; a busy one, or one that others wait for, queues an `acq` and answers 1 to an `acq.try`; a word in a sealed range is
not written, cause 0x27 (R431). With no entry of the home's table free a lock is granted without one and counted, or refused where the die is strict
(R449). Misuse takes 0x34: an `acq` of a lock that the warp holds, a 17th object, a `rel` with no lock held, of another warp's lock, or of a word that
reads 0. What a request crosses on its way to the home must be open. A release pushes the core's lines, sets the word to 0 and gives the holding up.
With no lane switched on nothing is done but the push of R55. Where the rules leave a point open, this rests on the model's own choice or
reading: log entries 23, 35, 59, 63, 67. -/
def Obligations.LockResults : Prop :=
  ∀ (h : Hdr) (sp : Space) (sc : Scope) (s : State) (cx : Cx) (s1 : State),
    (s.ready h (Shape.user (src1 h) true) = some (cx, s1) →
      let os := (s1.operands cx (src1 h) true).1
      let s2 := (s1.operands cx (src1 h) true).2
      let status (n : Nat) (u t : State) : Prop :=
        Reserves cx 1 cx.on (offEnt os) (.value (cx.lanes.map fun l => (l, [BitVec.ofNat 64 n])) [] []) u t
      (cx.sp.wait = some .granted →
        Completes (.acq h sp sc) s (Reserves cx 1 cx.on (offEnt os) (.acquired sc []) s2) ∧
        Completes (.acqTry h sp sc) s (Reserves cx 1 cx.on (offEnt os) (.acquired sc []) s2)) ∧
      (cx.sp.wait = some .aborted → Completes (.acq h sp sc) s (status 2 s2)) ∧
      ((∀ w ∈ cx.sp.wait, w ≠ .granted ∧ w ≠ .aborted ∧ ∀ a, w ≠ .lock a) → memWait cx false = false →
        (cx.lead = none → ∀ i ∈ [Instr.acq h sp sc, .acqTry h sp sc], Completes i s (Pushes cx 1 (fun l => [offEnt os l]) s2)) ∧
        (s2.replayFull cx = false → ∀ l ks s0, cx.lead = some l → ((fieldOp os 0).at l).poison = false →
          let ea := ((fieldOp os 0).at l).v.toNat
          let k := ks.headD 0
          s2.oneLoc cx sp true l ea 8 = (.ok ks, s0) →
          let far := s0.cross cx.tm.die true ks
          let held := s0.heldCount cx
          let own := s0.objs.any fun o => o.lock && o.key == k && names cx.who o.ctxh o.warp
          (own = true → exec (.acq h sp sc) s = .next (far.fail cx 0x34 (bitMask l) ea (1 + 16 * held))) ∧
          (own = false → 16 ≤ held → ∀ i ∈ [Instr.acq h sp sc, .acqTry h sp sc],
            exec i s = .next (far.fail cx 0x34 (bitMask l) ea (2 + 16 * held))) ∧
          ∀ s3, far.remoteFail ks = (none, s3) →
            let s4 := (s3.homeRead ks).2
            (own = true → Completes (.acqTry h sp sc) s (status 1 s3)) ∧
            (own = false → held < 16 →
              ((s3.homeRead ks).1 ≠ 0 ∨ (∃ w ∈ s3.lockQ, w.key = k) →
                Completes (.acqTry h sp sc) s (status 1 s4) ∧
                exec (.acq h sp sc) s = .next (s4.beginWait cx 0 ea k (.lock ea) fun s =>
                  { s with lockQ := s.lockQ ++ [{ addr := ea, key := k, who := cx.who, spl := cx.k, scope := sc, order := s.nextId }]
                           nextId := s.nextId + 1 })) ∧
              ((s3.homeRead ks).1 = 0 → (∀ w ∈ s3.lockQ, w.key ≠ k) →
                (s3.sealed k = true → ∀ i ∈ [Instr.acq h sp sc, .acqTry h sp sc], exec i s = .next (s4.acqFailed cx os sp ks l ea 0x27 0)) ∧
                (s3.sealed k = false →
                  let took (entry : List Obj) (ovf : Nat → Nat) (x : Instr) : Prop := ∃ clk u t th, exec x s = .next t ∧ u.thread? cx.who = some th ∧
                    th = { cx.t with locks := cx.t.locks + 1, heldLocks := (ea, k, sc) :: cx.t.heldLocks } ∧
                    u.objs = entry ++ s4.objs ∧
                    (u.die? cx.tm.die).map Die.wftovf = (s4.die? cx.tm.die).map (fun d => ovf d.wftovf) ∧
                    (s4.memOk → ∀ j < 8, u.byteAt (k + j) = some (if j = 0 then 1 else 0)) ∧
                    Reserves { cx with t := th } 1 cx.on (offEnt os) (.acquired sc clk) u t
                  (∀ i, s3.freeObj (mdieOf k) = some i → ∀ x ∈ [Instr.acq h sp sc, .acqTry h sp sc], took
                    [{ idx := i, mdie := mdieOf k, addr := ea, key := k, lock := true, ctxh := cx.tm.ctxh, warp := cx.who.warpNo }] (fun n => n) x) ∧
                  (s3.freeObj (mdieOf k) = none → ∀ x ∈ [Instr.acq h sp sc, .acqTry h sp sc],
                    (s3.strict cx.tm.die = false → took [] (fun n => min (n + 1) (2 ^ 64 - 1)) x) ∧
                    (s3.strict cx.tm.die = true → exec x s = .next (s3.fail cx 0x32 cx.mask ea (1 + 2 * mdieOf k + 16)))))))))) ∧
    (s.ready h (Shape.user (src1 h) false) = some (cx, s1) → memWait cx true = false →
      let os := (s1.operands cx (src1 h) false).1
      let s2 := (s1.operands cx (src1 h) false).2
      (cx.lead = none → Completes (.rel h sp sc) s (Changes cx (fun th => th) s2)) ∧
      ∀ l ks s0, s2.replayFull cx = false → cx.lead = some l → ((fieldOp os 0).at l).poison = false →
        let ea := ((fieldOp os 0).at l).v.toNat
        let k := ks.headD 0
        s2.oneLoc cx sp true l ea 8 = (.ok ks, s0) →
        let far := s0.cross cx.tm.die true ks
        let entry := s0.objs.find? fun o => o.lock && o.key == k
        let misuse (u : State) (reason : Nat) : Prop := exec (.rel h sp sc) s = .next (u.fail cx 0x34 (bitMask l) ea (reason + 16 * s0.heldCount cx))
        (cx.t.locks = 0 → misuse far 3) ∧
        (cx.t.locks ≠ 0 →
          (∀ o, entry = some o → names cx.who o.ctxh o.warp = false → misuse far 4) ∧
          ((∀ o, entry = some o → names cx.who o.ctxh o.warp = true) → ∀ s3, far.remoteFail ks = (none, s3) →
            (entry ≠ none → (s3.homeRead ks).1 = 0 → misuse s3 4) ∧
            (entry = none ∨ (s3.homeRead ks).1 ≠ 0 →
              let s4 := (s3.homeRead ks).2
              let at_ := s4.placeOfWho cx.who
              let u := (s4.pushLines at_.1 at_.2 sc).unlock cx.sp.party k sc
              Completes (.rel h sp sc) s (Changes cx (fun th =>
                { th with locks := th.locks - 1, heldLocks := th.heldLocks.filter fun x => x.2.1 != k }) u) ∧
              ∀ o ∈ u.objs, ¬ (o.lock = true ∧ o.key = k)))))

/-- R200 (07): `wreg` and `wdrop` of the first switched-on lane's object: a hold enters the object table at a free index, or where there is none
counts in the die's WFTOVF and stands all the same, or takes 0x32 where the die is strict (18 R449, R451); a 17th object takes 0x34 (R458); a wait
registers a software edge, or takes 0x32 where none is free and the die is strict (R448), and a drop removes its warp's own entry. With no lane
switched on they only go on. Where the rules leave a point open, this rests on the model's own choice or reading: log entries 26, 63. -/
def Obligations.SoftwareEdges : Prop :=
  ∀ (h : Hdr) (sp : Space) (s : State) (cx : Cx) (s1 : State), s.ready h (Shape.user (src1 h) false) = some (cx, s1) →
    let os := (s1.operands cx (src1 h) false).1
    let s2 := (s1.operands cx (src1 h) false).2
    (cx.lead = none → ∀ i ∈ [Instr.wregHold h sp, .wregWait h sp, .wdropHold h sp, .wdropWait h sp], Completes i s (Changes cx (fun th => th) s2)) ∧
    ∀ l ks s3, s2.replayFull cx = false → cx.lead = some l → ((fieldOp os 0).at l).poison = false →
      let ea := ((fieldOp os 0).at l).v.toNat
      let k := ks.headD 0
      s2.oneLoc cx sp false l ea 8 = (.ok ks, s3) →
      let mine (o : Obj) : Bool := !o.lock && o.key == k && names cx.who o.ctxh o.warp
      let edge (e : Edge) : Bool := e.kind == 1 && e.key == k && names cx.who e.ctxh e.warp && e.spl == cx.k
      let has : Bool := cx.t.softHolds.contains k || s3.objs.any mine
      (has = true → Completes (.wregHold h sp) s (Changes cx (fun th => th) s3)) ∧
      (has = false → s3.heldCount cx < 16 → cx.who.isUser = false → Completes (.wregHold h sp) s (Changes cx (fun th => th) s3)) ∧
      (has = false → 16 ≤ s3.heldCount cx → exec (.wregHold h sp) s = .next (s3.fail cx 0x34 (bitMask l) ea (2 + 16 * s3.heldCount cx))) ∧
      (has = false → s3.heldCount cx < 16 → cx.who.isUser = true → s3.freeObj (mdieOf k) = none → s3.strict cx.tm.die = true →
        exec (.wregHold h sp) s = .next (s3.fail cx 0x32 cx.mask ea (1 + 2 * mdieOf k))) ∧
      ((s3.dropEdges cx.who cx.k true).freeEdge cx.tm.die = none → s3.strict cx.tm.die = true → cx.who.isUser = true →
        exec (.wregWait h sp) s = .next (s3.fail cx 0x32 cx.mask ea 16)) ∧
      (has = false → s3.heldCount cx < 16 → cx.who.isUser = true → s3.freeObj (mdieOf k) = none → s3.strict cx.tm.die = false →
        Completes (.wregHold h sp) s (Changes cx (fun th => { th with softHolds := k :: th.softHolds }) (s3.countOvf cx.tm.die))) ∧
      (has = false → s3.heldCount cx < 16 → cx.who.isUser = true → ∀ i, s3.freeObj (mdieOf k) = some i →
        Completes (.wregHold h sp) s (Changes cx (fun th => th) { s3 with objs :=
          { idx := i, mdie := mdieOf k, addr := ea, key := k, lock := false, ctxh := cx.tm.ctxh, warp := cx.who.warpNo } :: s3.objs })) ∧
      ((s3.dropEdges cx.who cx.k true).freeEdge cx.tm.die ≠ none ∨ s3.strict cx.tm.die = false ∨ cx.who.isUser = false →
        ∃ t, Changes cx (fun th => th) s3 t ∧
          let r := t.register (cx.now t) 1 ea k cx.nextPc (s3.wordAt cx.who cx.tm cx.sp.party cx.nextPc)
          exec (.wregWait h sp) s = .next (if r.1 = .no then r.2 else r.2.updSplit cx.who cx.k fun sp => { sp with soft := some ea })) ∧
      Completes (.wdropHold h sp) s (Changes cx (fun th => { th with softHolds := th.softHolds.filter fun x => x != k }) { s3 with objs := s3.objs.filter fun o => !mine o }) ∧
      (s3.edges.any edge = false → Completes (.wdropWait h sp) s (Changes cx (fun th => th) { s3 with edges := s3.edges.filter fun e => !edge e })) ∧
      (s3.edges.any edge = true → Completes (.wdropWait h sp) s (Goes cx cx.nextPc (fun th => th) (fun sp => { sp with soft := none })
        { s3 with edges := s3.edges.filter fun e => !edge e }))

/-- R197 (07), R266 (09): `mwait` reads the location of every switched-on lane at its monitor point, which a line held stale there is fetched for
again (R266, R267); where every lane's condition holds it pushes the values read with the acquire of R197, and else its monitors are armed and the
split waits. Where the rules leave a point open, this rests on the model's own choice or reading: log entries 26, 34. -/
def Obligations.MonitorResults : Prop :=
  ∀ (h : Hdr) (sp : Space) (sc : Scope) (cc : Cond) (s : State) (cx : Cx) (s1 : State),
    s.ready h { Shape.user (src2 h) true with guide := true, form := guideSp sp } = some (cx, s1) → memWait cx false = false →
    let os := (s1.operands cx (src2 h) true).1
    let s2 := (s1.operands cx (src2 h) true).2
    s2.replayFull cx = false →
    let s0 := { s2 with monitors := s2.monitors.filter fun m => !(m.who == cx.who && m.spl == cx.k) }.dropEdges cx.who cx.k false
    ∀ ok s3, (∀ l ∈ cx.lanes, ((fieldOp os 0).at l).poison = false) →
      s0.monLanes cx sp (h.ty.width / 8) (cx.lanes.map fun l => (l, ((fieldOp os 0).at l).v.toNat)) = (ok, [], [], false, s3) →
      let eas := (ok.map fun x => x.2.1).eraseDups
      let at_ := s3.placeOfWho cx.who
      let locs := eas.map fun ea => s3.monPoint at_.1 sc (((ok.find? fun x => x.2.1 == ea).map fun x => x.2.2).getD [])
      let rd := (((takeFrees s3 32).2.cross at_.1 false (s3.monFar locs)).armLines locs).monReads cx.sp.party locs
      let seen (ea : Nat) : Nat × Bool := rd.1.vals.getD (eas.findIdx (· == ea)) (0, false)
      let holds (x : Nat × Nat × List Nat) : Bool :=
        Cond.holds cc (intOf h.ty (widenBits h.ty (seen x.2.1).1)) (intOf h.ty ((fieldOp os 1).at x.1).v)
      (ok.all holds = true →
        let u := (rd.2.acquire cx.sp.party sc rd.1.rels).dropLines at_.1 at_.2 sc
        let v := { u with monitors := u.monitors.filter fun x => !(x.who == cx.who && x.spl == cx.k) }.dropEdges cx.who cx.k false
        Completes (.mwait h sp sc cc) s (Steps cx (cx.sp.pc + BitVec.ofNat 48 cx.len) 1 (fun l =>
          match ok.find? fun x => x.1 == l with
          | some x => [ent (widenBits h.ty (seen x.2.1).1) (seen x.2.1).2]
          | none => [if cx.on.getLsbD l then ent 0 false else offEnt os l]) none (fun th => th) (fun sp => sp) v)) ∧
      (ok.all holds = false → rd.2.monFull [] locs = none → ∃ m : Monitor, m.who = cx.who ∧ m.spl = cx.k ∧ m.cc = cc ∧ m.ty = h.ty ∧ m.scope = sc ∧
        m.locs = locs ∧ m.operands = (ok.map fun x => (x.1, eas.findIdx (· == x.2.1), ((fieldOp os 1).at x.1).v)) ∧
        exec (.mwait h sp sc cc) s = .next (rd.2.beginWait cx 4 (eas.headD 0) ((locs.head?.map fun l => l.keys.headD 0).getD 0) .monitor fun s =>
          { s with monitors := m :: s.monitors }))

/-- R203 to R205, R217, R218 (08), R405, R406 (16), R313 (11): a matrix or accumulator queue command of the first switched-on lane, named by fields and a
format word that pass their checks, on tiles that the team owns, enters its queue where the queue, the chain and the tickets let it; with no lane
switched on nothing is issued.
Where the rules leave a point open, this rests on the model's own choice or reading: log entries 55, 56. -/
def Obligations.QueueCommands : Prop :=
  ∀ (h : Hdr) (s : State) (cx : Cx) (s1 : State),
    let enters (i : Instr) (os : List Operand) (u : State) (matrix : Bool) (tiles : List Nat) (op : EngOp) (l : Nat) : Prop :=
      u.ownFail cx tiles = none → u.chainFull cx matrix (ctlOf h) = false → u.queueFull cx matrix 1 = false →
        ∃ t, exec i s = .next (t.consume cx (os.map (onlyLanes [l]))) ∧
          Issues cx matrix op (ctlOf h) (valsAt os l) (poisonAt os l) (if matrix then tiles else []) u t
    (s.ready h (Shape.both (src2 h) false) = some (cx, s1) →
      let os := (s1.operands cx (src2 h) false).1
      let s2 := (s1.operands cx (src2 h) false).2
      ∀ (tile : BitVec 7) (aseg : BitVec 10) (frea freb : Bool), aseg.toNat < cx.tm.segs → tile.toNat < cx.tm.tiles →
        (cx.lead = none → Completes (.mmas h tile aseg frea freb) s (Changes cx (fun th => th) s2)) ∧
        ∀ l, cx.lead = some l →
          let fw := (arg (valsAt os l) 0).toNat % 2 ^ 32
          let bseg := (arg (valsAt os l) 1).toNat % 2 ^ 10
          segFail cx.tm (fmtRuns fw aseg.toNat (some bseg)) = none → fmtBad fw = none →
            enters (.mmas h tile aseg frea freb) os s2 true [tile.toNat] (.mmas fw bseg tile.toNat aseg.toNat frea freb) l) ∧
    (s.ready h (Shape.user (src1 h) false) = some (cx, s1) →
      let os := (s1.operands cx (src1 h) false).1
      let s2 := (s1.operands cx (src1 h) false).2
      (∀ (stile otile : BitVec 7) (pseg : BitVec 10) half, pseg.toNat < cx.tm.segs → stile.toNat < cx.tm.tiles → otile.toNat < cx.tm.tiles →
        (cx.lead = none → Completes (.mmsm h stile otile pseg half) s (Changes cx (fun th => th) s2)) ∧
        ∀ l, cx.lead = some l → enters (.mmsm h stile otile pseg half) os s2 true [stile.toNat, otile.toNat].eraseDups
          (.mmsm ((arg (valsAt os l) 0).toNat % 2 ^ 32) stile.toNat otile.toNat pseg.toNat half) l) ∧
      (∀ (tile : BitVec 7) (sp : Space), tile.toNat < cx.tm.tiles →
        (cx.lead = none → Completes (.accld h tile sp) s (Changes cx (fun th => th) s2) ∧ Completes (.accst h tile sp) s (Changes cx (fun th => th) s2)) ∧
        ∀ l, cx.lead = some l → poisonAt os l = false →
          let a := (arg (valsAt os l) 0).toNat
          a % 64 = 0 → (sp = .own → ∃ p, placeOf s2 cx.tm cx.who .own a 4096 = .ok p) →
            enters (.accld h tile sp) os s2 false [tile.toNat] (.accld tile.toNat (sp == .own) a) l ∧
            enters (.accst h tile sp) os s2 false [tile.toNat] (.accst tile.toNat (sp == .own) a) l)) ∧
    (s.ready h (Shape.user [] false) = some (cx, s1) →
      ∀ tile : BitVec 7, tile.toNat < cx.tm.tiles →
        (cx.lead = none → Completes (.acczero h tile) s (Changes cx (fun th => th) s1)) ∧
        ∀ l, cx.lead = some l → enters (.acczero h tile) [] s1 true [tile.toNat] (.acczero tile.toNat) l)

/-- R223 to R226 (08), R410 (16): a copy command reads its shape record and its coordinates at issue, in its first switched-on lane, and enters the copy
queue.
Where the rules leave a point open, this rests on the model's own choice or reading: log entries 29, 30, 56, 71. -/
def Obligations.CopyCommands : Prop :=
  ∀ (h : Hdr) (tsr seg : BitVec 10) (s : State) (cx : Cx) (s1 : State),
    let os := (s1.operands cx (src3 h) false).1
    let s2 := (s1.operands cx (src3 h) false).2
    let ready (gather : Bool) : Prop :=
      s.readyAcross h (Shape.both (src3 h) false) (fun cx => cx.lead.bind fun l => s.coordHazard cx l tsr.toNat gather) = some (cx, s1)
    let copies (i : Instr) (l : Nat) (gather : Bool) (op : List Word → List Int → Option Nat → EngOp) : Prop :=
      let counter : Option Nat := if h.sc = .zero then none else some (arg (valsAt os l) 2).toNat
      ∀ a ws s3 s4, (∀ c, counter = some c → c % 8 = 0) → s2.objEntry cx.who cx.tm cx.sp.party 32 tsr.toNat = (.ok (some a), s3) →
        s3.objWords cx.who cx.tm cx.sp.party a 11 = (.ok ws, s4) → shapeFail ws (ageOf h.sb) gather = none →
        s4.chainFull cx false (ctlOf h) = false → s4.queueFull cx false 1 = false →
        let cs := s4.coordsOf cx l (ageOf h.sb) (if gather then 1 else shapeRank ws)
        poisonAt os l = false → (∀ c ∈ cs.1, c.1.poison = false) →
          Completes i s (Issues cx false (op ws (cs.1.map Prod.snd) counter) (ctlOf h)
            (arg (valsAt os l) 0 :: cs.1.map (fun c => c.1.v) ++ counter.toList.map (BitVec.ofNat 64)) false [] cs.2)
    seg.toNat < cx.tm.segs →
      (ready false →
        (cx.lead = none → Completes (.tcopyG2s h tsr seg) s (Changes cx (fun th => th) s2) ∧
          (∀ free, Completes (.tcopyS2g h tsr seg free) s (Changes cx (fun th => th) s2) ∧
            Completes (.tcopyS2c h tsr seg free) s (Changes cx (fun th => th) s2))) ∧
        ∀ l, cx.lead = some l →
          let a := (arg (valsAt os l) 0).toNat
          copies (.tcopyG2s h tsr seg) l false (fun ws cs cnt => .tcopy 0 a tsr.toNat seg.toNat cs ws cnt false) ∧
          (∀ free, copies (.tcopyS2g h tsr seg free) l false fun ws cs cnt => .tcopy 1 a tsr.toNat seg.toNat cs ws cnt free) ∧
          (∀ free, a / 2 ^ 10 % 2 ^ 3 < s2.nteam cx.tm →
            a % 2 ^ 10 < ((s2.teamOfRank cx.tm.cluster (a / 2 ^ 10 % 2 ^ 3)).map Team.segs).getD 0 →
            copies (.tcopyS2c h tsr seg free) l false fun ws cs cnt => .tcopy 2 a tsr.toNat seg.toNat cs ws cnt free)) ∧
      (ready true → (ctlOf h).seg2 < cx.tm.segs →
        (cx.lead = none → Completes (.tgather h tsr seg) s (Changes cx (fun th => th) s2)) ∧
        ∀ l, cx.lead = some l → copies (.tgather h tsr seg) l true fun ws cs cnt =>
          .tgather (arg (valsAt os l) 0).toNat tsr.toNat seg.toNat (ctlOf h).seg2 (cs.headD 0) ws cnt)

/-- R213, R214 (08), R406 (16): a member's issue of a quartet operation, once the entries below the window that hold its member's part of the B
operand (R102) have been read, is recorded and counted in MOC, with the words that its next `opfence` would cover; the fourth, with the same words and
a good format word in every lane of every member, makes the command, which takes a place of the matrix queue (R205). A member whose checks of 16 R405 and
R406 fail traps. Where the rules leave a point open, this rests on the model's own choice or
reading: log entries 55, 71, 79. -/
def Obligations.QuartetMma : Prop :=
  ∀ (h : Hdr) (tile : BitVec 7) (aseg : BitVec 10) (bfb : BitVec 6) (free : Bool) (s : State) (cx : Cx) (s1 : State),
    s.ready h (Shape.user (src1 h) false) = some (cx, s1) →
    let os := (s1.operands cx (src1 h) false).1
    let s2 := (s1.operands cx (src1 h) false).2
    let fws := (List.range 32).map fun l => (arg (valsAt os l) 0).toNat % 2 ^ 32
    let fw := fws.getD ((lanesOf cx.mask).headD 0) 0
    let i : Instr := if free then .mmaFree h tile aseg bfb else .mma h tile aseg bfb
    let base := cx.sp.fb + bfb.toNat
    let span := bSpan fw
    let member := (cx.who.warpNo - roleFirst cx.tm.roles (roleOf cx.tm.roles cx.who.warpNo 0)) % 4
    (∀ c m d, s2.mmaFail cx fw tile.toNat aseg.toNat bfb.toNat = some (c, m, d) → exec i s = .next (s2.fail cx c m 0 d)) ∧
    ∀ cx1 s3, s2.mmaFail cx fw tile.toNat aseg.toNat bfb.toNat = none → s2.queueFull cx true 1 = false →
      s2.afterReads cx ((List.range (if (fmtBad fw).isNone then fmtSlots (fmtWord fw).b member else 0)).map (base + ·)) = some (cx1, s3) →
      let mine : MmaIssue :=
        { ctxh := cx.tm.ctxh, warp := cx.who.warpNo, seq := cx.t.mmaSeq, order := s3.nextId, pc := cx.pc, word := cx.word, tile := tile.toNat
          fws := fws, poison := cx.lanes.any (poisonAt os), clk := cx.sp.opf, aseg := aseg.toNat }
      let others := s3.mmaSet cx cx.t.mmaSeq
      let note (th : Warp) : Warp := { th with
        moc := th.moc + 1, mmaSeq := cx.t.mmaSeq + 1
        unseen := { tile := tile.toNat, base := base, span := span, seq := cx.t.mmaSeq, quartet := true, done := false, spoiled := false
                    old := cx.t.recent.filter fun w => decide (base ≤ w.idx ∧ w.idx < base + span) } :: th.unseen }
      (others.length < 3 → ∃ t, exec i s = .next (t.consume cx os) ∧
        Changes cx1 note { s3 with nextId := s3.nextId + 1, mmaWait := s3.mmaWait ++ [mine] } t) ∧
      (¬ others.length < 3 → (∀ m ∈ others, m.word = cx.word ∧ ∀ x ∈ m.fws, x = fw) → (∀ x ∈ fws, x = fw) → fmtBad fw = none →
        ∃ t cmd, exec i s = .next (t.consume cx os) ∧
          Changes cx1 note { s3 with nextId := s3.nextId + 2, cmds := s3.cmds ++ [cmd], mmaWait := s3.mmaWait.filter fun m => !others.contains m } t ∧
          cmd.id = s3.nextId + 1 ∧ cmd.matrix = true ∧ cmd.ctxh = cx.tm.ctxh ∧ cmd.started = false ∧ cmd.guard = none ∧
          cmd.accepted = cmd.id ∧ cmd.bImage = [] ∧
          ∃ ms, cmd.op = .mma fw tile.toNat aseg.toNat bfb.toNat free ms ∧
            ∀ m, m ∈ ms ↔ m = (cx.who.warpNo, cx.t.mmaSeq) ∨ ∃ o ∈ others, m = (o.warp, o.seq))

/-- R206, R209, R228 to R230, R219 (08): `opfence` orders the split's accesses so far before its later commands; tags and guards are set by the first
switched-on lane; a wait on a counter ends once the counter is at or below `n`, and a `drain` once no command that its core accepted before it writes
there; else the split waits.
Where the rules leave a point open, this rests on the model's own choice or reading: log entries 27, 57. -/
def Obligations.EngineWaits : Prop :=
  ∀ (h : Hdr) (s : State) (cx : Cx) (s1 : State),
    let counts (i : Instr) (matrix : Bool) (n : Nat) (shown : Warp → Warp) : Prop :=
      let c := if matrix then cx.t.moc else cx.t.coc
      let w : Wait := .engine (if matrix then 1 else 0) n
      (c ≤ n → Completes i s (Changes cx shown ((s1.seeDone cx cx.t (if matrix then [4] else [0, 1, 2, 3]) s1.nextId).dropEdges cx.who cx.k false))) ∧
      (n < c → cx.sp.wait ≠ some w →
        exec i s = .next (s1.beginWait cx 5 (s1.engObj cx matrix n) n w fun s => s)) ∧
      (n < c → cx.sp.wait = some w → exec i s = .next s1)
    (s.ready h (Shape.user [] false) = some (cx, s1) →
      (∀ n : BitVec 4, counts (.mmwait h n) true n.toNat fun th => { th with unseen := th.unseen.filter fun u => !u.done }) ∧
      (memWait cx true = false → Completes (.opfence h) s
        (Goes cx cx.nextPc (fun th => th.forget cx.mask) (fun sp => { sp with opf := s1.clkOf cx.sp.party }) s1)) ∧
      (∀ g : BitVec 4, (cx.on = 0 → Completes (.gclr h g) s (Changes cx (fun th => th) s1)) ∧
        (cx.on ≠ 0 → Completes (.gclr h g) s (Changes cx (fun th => th) (s1.setGuard cx.tm.ctxh g.toNat .unresolved))))) ∧
    (s.ready h (Shape.both [] false) = some (cx, s1) →
      (∀ n : BitVec 6, counts (.twaitC h n) false n.toNat fun th => th) ∧
      (∀ n : BitVec 6, counts (.twaitM h n) true n.toNat fun th => th) ∧
      ∀ x ∈ [(Instr.drainSp h, 0), (.drainAcc h, 1), (.drainG h, 2), (.drainRem h, 3)], (∀ q n, cx.sp.wait ≠ some (.engine q n)) →
        (s1.drains (s1.coreOf cx.who) x.2 s1.nextId = false → ∃ ps, Completes x.1 s (Changes cx (fun th => th)
          ({ s1 with parties := ps }.dropEdges cx.who cx.k false))) ∧
        (s1.drains (s1.coreOf cx.who) x.2 s1.nextId = true →
          exec x.1 s = .next (s1.beginWait cx 5 0 0 (.engine (8 + x.2) s1.nextId) fun s => s))) ∧
    (s.ready h (Shape.user (src1 h) false) = some (cx, s1) →
      let os := (s1.operands cx (src1 h) false).1
      let s2 := (s1.operands cx (src1 h) false).2
      ∀ g : BitVec 4, (cx.lead = none → Completes (.gset h g) s (Changes cx (fun th => th) s2)) ∧
        ∀ l, cx.lead = some l →
          let u := s2.setGuard cx.tm.ctxh g.toNat (if arg (valsAt os l) 0 = 0 then .no else .yes)
          ∃ t, exec (.gset h g) s = .next (t.consume cx (os.map (onlyLanes [l]))) ∧ Changes (cx.now u) (fun th => th) u t) ∧
    (s.ready h (Shape.both (src1 h) false) = some (cx, s1) →
      let os := (s1.operands cx (src1 h) false).1
      let s2 := (s1.operands cx (src1 h) false).2
      let tags (i : Instr) (v c : Bool) : Prop :=
        (cx.lead = none → Completes i s (Changes cx (fun th => th) s2)) ∧
        ∀ l, cx.lead = some l →
          let seg := (arg (valsAt os l) 0).toNat % 2 ^ 10
          (seg < cx.tm.segs → ∃ t, exec i s = .next (t.consume cx (os.map (onlyLanes [l]))) ∧
            Changes cx (fun th => th) (s2.updTeam cx.tm.ctxh fun tm => { tm with
              tags := setAt tm.tags seg { tm.tags.getD seg emptySeg with v := v, c := c, clk := cx.sp.opf } }) t) ∧
          (cx.tm.segs ≤ seg → exec i s = .next (s2.fail cx 0x25 (bitMask l) 0 (segDetail 0 seg)))
      tags (.tfree h) false true ∧ ∀ v c, tags (.tset h v c) v c)

/-- R180 to R184 (07), R424, R425 (17): the segment instructions act lane by lane in ascending order on the team's tag table: `spset` makes the
segment owned under a tag, the other owners of the tag in the cluster becoming shared, or owned without one; `spdrop` makes it invalid; `sptag`
answers the segment that holds a tag, or all ones; `spmove` and `spshare` issue a copy for each lane under the engine control word, the source in
transit from then on. A lane that names a segment in transit waits. Where the rules leave a point open, this rests on the model's own choice or
reading: log entries 25, 29. -/
def Obligations.SegmentResults : Prop :=
  ∀ (h : Hdr) (s : State) (cx : Cx) (s1 : State),
    let acts (i : Instr) (os : List Operand) (u : State) : Prop :=
      ∃ t, exec i s = .next (t.consume cx os) ∧ Changes (cx.now u) (fun th => th) u t
    let seg (v : List Word) : Nat := (arg v 0).toNat % 2 ^ 10
    let tag (w : Word) : BitVec 36 := BitVec.ofNat 36 (w.toNat / 2 ^ 12 % 2 ^ 36)
    let lanes (os : List Operand) : List (Nat × List Word) :=
      (cx.lanes.filter fun l => !poisonAt os l && !cx.sp.acted.getLsbD l).map fun l => (l, valsAt os l)
    let waits (i : Instr) (os : List Operand) (u : State) : Prop :=
      (∃ x ∈ lanes os, (cx.tm.seg (seg x.2)).st = 3) → exec i s = .next (u.hold cx)
    let free (u : State) (v : List Word) : Prop :=
      (cx.tm.seg (seg v)).st ≠ 3 ∧ seg v < cx.tm.segs ∧ u.segBusy cx.tm (seg v) = false
    (s.ready h (Shape.user (src2 h) false) = some (cx, s1) →
      let os := (s1.operands cx (src2 h) false).1
      let s2 := (s1.operands cx (src2 h) false).2
      waits (.spsetTag h) os s2 ∧
      ((∀ x ∈ lanes os, free s2 x.2 ∧ ∀ t ∈ s2.teams, t.cluster = cx.tm.cluster → ∀ e ∈ t.tags, ¬ (e.st = 3 ∧ e.holds (tag (arg x.2 1)) = true)) →
        acts (.spsetTag h) os ((lanes os).foldl (fun s x => (s.claimTag cx.tm (seg x.2) (tag (arg x.2 1))).updSeg cx.tm.ctxh (seg x.2) fun _ =>
          { tag := tag (arg x.2 1), st := 2, v := false, c := true, ut := false, clk := [] }) s2))) ∧
    (s.ready h (Shape.user (src1 h) false) = some (cx, s1) →
      let os := (s1.operands cx (src1 h) false).1
      let s2 := (s1.operands cx (src1 h) false).2
      waits (.spsetUntag h) os s2 ∧ waits (.spdrop h) os s2 ∧
      ((∀ x ∈ lanes os, free s2 x.2) →
        acts (.spsetUntag h) os ((lanes os).foldl (fun s x => s.updSeg cx.tm.ctxh (seg x.2) fun _ =>
          { tag := 0, st := 2, v := false, c := true, ut := true, clk := [] }) s2) ∧
        acts (.spdrop h) os ((lanes os).foldl (fun s x => s.updSeg cx.tm.ctxh (seg x.2) fun _ =>
          { tag := 0, st := 0, v := false, c := true, ut := false, clk := [] }) s2))) ∧
    (s.ready h (Shape.user (src1 h) true) = some (cx, s1) →
      let os := (s1.operands cx (src1 h) true).1
      let s2 := (s1.operands cx (src1 h) true).2
      (∀ l ∈ cx.lanes, poisonAt os l = false → ∀ e ∈ cx.tm.tags, ¬ (e.st = 3 ∧ e.holds (tag (arg (valsAt os l) 0)) = true)) →
        let found (t : BitVec 36) : Word := match cx.tm.tags.findIdx? fun e => (e.st == 1 || e.st == 2) && e.holds t with
          | some i => BitVec.ofNat 64 i
          | none => BitVec.allOnes 64
        ∃ (free : Nat → Word) (t : State), exec (.sptag h) s = .next (t.consume cx os) ∧
          Reserves cx 1 cx.on (offEnt os) (.value (cx.lanes.map fun l => (l, [if poisonAt os l then free l else found (tag (arg (valsAt os l) 0))]))
            [] (cx.lanes.filter (poisonAt os))) { s2 with freeCtr := s2.freeCtr + 32 } t) ∧
    (s.ready h (Shape.user (src3 h) false) = some (cx, s1) →
      let os := (s1.operands cx (src3 h) false).1
      let s2 := (s1.operands cx (src3 h) false).2
      let hands (i : Instr) (move : Bool) : Prop :=
        waits i os s2 ∧
        ((∀ x ∈ lanes os, (cx.tm.seg (seg x.2)).st ≠ 3) → ((lanes os).map fun x => seg x.2).Nodup →
        s2.queueFull cx false (lanes os).length = false → ((ctlOf h).chn = false ∨ s2.chainHeads cx false + (lanes os).length ≤ 15) →
        (∀ a x b, lanes os = a ++ x :: b → handOver move s2 cx a x.1 x.2 = none) →
          acts i os ((lanes os).foldl (fun s x =>
            let e := cx.tm.seg (seg x.2)
            let v := (s.updSeg cx.tm.ctxh (seg x.2) fun e => { e with st := 3, v := if move then false else e.v }).issueCmd cx false
              (if move then .spmove (seg x.2) ((arg x.2 1).toNat % 2 ^ 3) ((arg x.2 2).toNat % 2 ^ 10)
                else .spshare (seg x.2) ((arg x.2 1).toNat % 2 ^ 3) ((arg x.2 2).toNat % 2 ^ 10)) (ctlOf h) x.2 false
            { v with cmds := v.cmds.map fun c => if c.id == s.nextId then { c with idx := [e.st.toNat, if e.v then 1 else 0] } else c }) s2))
      hands (.spmove h) true ∧ hands (.spshare h) false)

/-- R221 (08), R409 (16), R405: an accumulator element, row maximum or row sum is read into a value that arrives, and written, in each switched-on lane at
its row; the row maximum and sum set the slot's SDV. What a command not shown complete writes or reads there is undefined: of one that has completed,
its result loses its value at once (`undefResult`): the tile, of an `acczero` or `mmsm` the row maxima and sums as well, and of an `mmsm` the bytes of
its P half, and no other byte. -/
def Obligations.AccumulatorResults : Prop :=
  ∀ (h : Hdr) (tile : BitVec 7) (s : State) (cx : Cx) (s1 : State), tile.toNat < cx.tm.tiles →
    (s.ready h (Shape.user (src1 h) true) = some (cx, s1) →
      let os := (s1.operands cx (src1 h) true).1
      let s2 := (s1.operands cx (src1 h) true).2
      let ts := s2.tile (s2.coreOf cx.who) (cx.tm.slot tile.toNat)
      let row (l : Nat) : Nat := (arg (valsAt os l) 0).toNat % 32
      let reads (i : Instr) (fn : Nat) : Prop :=
        (cx.on ≠ 0 → s2.ownFail cx [tile.toNat] = none) →
          ∃ vs n t, exec i s = .next (t.consume cx os) ∧
            Reserves cx 1 cx.on (offEnt os) (.value vs [] (cx.lanes.filter fun l => poisonAt os l || ts.poison.contains (accIdx fn (row l) l)))
              { s2 with freeCtr := n } t ∧
            ((∀ u ∈ cx.t.unseen, u.tile ≠ tile.toNat) → n = s2.freeCtr ∧
              vs = cx.lanes.map fun l => (l, [(if fn = 0 then ts.elems.getD (32 * row l + l) 0 else if fn = 1 then ts.m.getD (row l) 0
                else ts.l.getD (row l) 0).setWidth 64]))
      reads (.accrd h tile) 0 ∧ reads (.accrdMax h tile) 1 ∧ reads (.accrdSum h tile) 2) ∧
    (s.ready h (Shape.user (src2 h) false) = some (cx, s1) →
      let os := (s1.operands cx (src2 h) false).1
      let s2 := (s1.operands cx (src2 h) false).2
      let core := s2.coreOf cx.who
      let slot := cx.tm.slot tile.toNat
      let writes (i : Instr) (fn : Nat) : Prop :=
        (cx.on = 0 → Completes i s (Changes cx (fun th => th) s2)) ∧
        (cx.on ≠ 0 → s2.ownFail cx [tile.toNat] = none →
          ((∀ u ∈ cx.t.unseen, u.tile ≠ tile.toNat) →
            let ts := (cx.lanes.filter fun l => !((fieldOp os 0).at l).poison).foldl (fun ts l =>
              accPut ts fn ((arg (valsAt os l) 0).toNat % 32) l ((arg (valsAt os l) 1).setWidth 32) ((fieldOp os 1).at l).poison) (s2.tile core slot)
            let u := if fn = 0 then s2.putTile ts else (s2.putTile ts).setSdv core slot true
            ∃ t, exec i s = .next (t.consume cx (os.filter fun o => o.field == 0)) ∧ Changes cx (fun th => th) u t) ∧
          let lost := (cx.t.unseen.filter fun x => x.tile == tile.toNat && x.done).foldl
            (fun s x => s.undefResult cx.tm core cx.sp.party tile.toNat x.res) s2
          ∃ u t, u = { lost with tiles := u.tiles, accown := u.accown, freeCtr := u.freeCtr } ∧
            exec i s = .next (t.consume cx (os.filter fun o => o.field == 0)) ∧
            Changes cx (fun th => { th with unseen := th.unseen.map fun x =>
              if x.tile == tile.toNat && !x.done then { x with spoiled := true } else x }) u t)
      writes (.accwr h tile) 0 ∧ writes (.accwrMax h tile) 1 ∧ writes (.accwrSum h tile) 2) ∧
    (∀ (u : State) (tm : Team) (core party tl : Nat),
      (∀ r ∈ [MatResult.tile, .side], ∃ ts n, u.undefResult tm core party tl r = { u with tiles := ts, freeCtr := n }) ∧
      ∀ ot p half, (∀ k, u.sealed k = false) → ∀ k, k ∉ pKeys tm p half → (u.undefResult tm core party tl (.softmax ot p half)).byteAt k = u.byteAt k)

/-- R234 to R238 (08), R10, R11 (00), R411 (16), R380 to R382 (15): `sysrd` pushes a control register in every lane, a read of WFTOVF clearing it. The
registers of the served team, of the warp that HWSEL selects, of the die and of the core read as they stand; the trap record's words are TSTAT field by
field, what the stop recorded, and what its dispatch fixed of the guide and of the selected warp (`snapTeam`): WSTAT field by field, the warp's own
fault, and its splits' stop PCs and masks. `syswr` writes the fields that the register has, leaves a BARTO out of range unwritten, and discards a write
of a register that is read only.
Where the rules leave a point open, this rests on the model's own choice or reading: log entries 12, 13. -/
def Obligations.SystemRegisters : Prop :=
  ∀ (h : Hdr) (c : Crn) (s : State) (cx : Cx) (s1 : State),
    (s.ready h (Shape.sys [] true) = some (cx, s1) →
      let die := s1.dieOf cx.who
      Completes (.sysrd h c) s (Pushes cx 1 (fun _ => [ent (s1.crnRead cx c) false])
        (if c = .wftovf then s1.updDie die fun d => { d with wftovf := 0 } else s1)) ∧
      let v := s1.crnRead cx c
      let sel := ((s1.serviceOf cx.who).map fun x => x.hwsel.toNat).getD 0
      (c = .hctx → v = BitVec.ofNat 64 cx.tm.ctxh) ∧ (c = .asid → v = BitVec.ofNat 64 cx.tm.asid) ∧ (c = .hwsel → v = BitVec.ofNat 64 sel) ∧
      (∀ r, c = .hcause → cx.tm.stop = some r → v = BitVec.ofNat 64 r.cause) ∧
      (∀ t, s1.thread? (.warp cx.tm.ctxh sel) = some t → (c = .fpctl → v = BitVec.ofNat 64 t.fpctl.toNat) ∧ (c = .fpx → v = BitVec.ofNat 64 t.fpx.toNat)) ∧
      (s1.thread? (.warp cx.tm.ctxh sel) = none → c = .fpctl ∨ c = .fpx → v = 0) ∧
      (c = .brken → v = cx.tm.brken) ∧ (c = .barto → v = cx.tm.barto) ∧ (c = .grace → v = cx.tm.grace) ∧ (c = .lockcap → v = cx.tm.lockcap) ∧
      (∀ d, s1.die? die = some d → (c = .wftovf → v = BitVec.ofNat 64 d.wftovf) ∧
        (c = .wftctl → v = BitVec.ofNat 64 ((if d.strict then 2 else 0) + if d.inh then 1 else 0))) ∧
      (∀ i, c = .accown i → let a := s1.accOwn (s1.coreOf cx.who) i.toNat
        v = BitVec.ofNat 64 ((if a.sdv then 2 ^ 33 else 0) + (if a.val then 2 ^ 32 else 0) + a.ctxh % 2 ^ 32)) ∧
      (∀ i r, c = .trec i → cx.tm.stop = some r →
        (i = 0 → r.cause < 256 → r.level < 8 → r.res < 8 → r.rep < 256 → r.spl < 4 → r.warp < 128 →
          let f (lo n : Nat) : Nat := v.toNat / 2 ^ lo % 2 ^ n
          f 56 8 = 1 ∧ f 48 8 = r.cause ∧ f 45 3 = r.level ∧ f 42 3 = r.res ∧ (f 41 1 = 1 ↔ r.guide = true) ∧ (f 40 1 = 1 ↔ r.prec = true) ∧
          f 32 8 = r.rep ∧ f 24 8 = min 127 (r.faults.filter fun x => x.warp != (if r.guide then 128 else r.warp) && decide (x.warp < 128)).length ∧
          f 16 8 = 0 ∧ f 14 2 = r.spl ∧ f 7 7 = (if r.guide then 0 else r.warp) ∧ f 0 7 = 0) ∧
        (i = 1 → v = BitVec.ofNat 64 r.tpc.toNat) ∧ (i = 2 → v = BitVec.ofNat 64 r.tlanes.toNat) ∧ (i = 3 → v = r.taddr) ∧ (i = 4 → v = r.tdetail) ∧
        (i = 5 → v = r.tword) ∧ (i = 6 → v = r.tref) ∧ (i = 7 → v = BitVec.ofNat 64 cx.tm.items.length) ∧
        (∀ w p, assoc? r.snap 128 = some [w, p] → (i = 8 → v = w) ∧ (i = 9 → v = p)) ∧ (assoc? r.snap 128 = none → i = 8 ∨ i = 9 → v = 0) ∧
        (10 ≤ i.toNat → i.toNat < 16 → v = 0) ∧ (16 ≤ i.toNat → i.toNat < 48 → v = r.words.getD (i.toNat - 16) 0) ∧
        (∀ ws, 48 ≤ i.toNat → sel < cx.tm.nwarp → assoc? r.snap sel = some ws → v = ws.getD (i.toNat - 48) 0) ∧
        (48 ≤ i.toNat → cx.tm.nwarp ≤ sel → v = 0))) ∧
    (∀ (u : State) (x : Nat) (r : StopRec), ∀ t ∈ u.threadsOf x, t.splits.length = 4 → (∀ f ∈ r.faults, f.cause < 256) →
      let own := r.faults.find? fun f => f.warp == if t.who.isGuide then 128 else t.who.warpNo
      let prim : Prop := r.guide = t.who.isGuide ∧ r.warp = t.who.warpNo ∧ r.cause ≠ 0x61
      let status (w : Word) : Prop :=
        let f (lo n : Nat) : Nat := w.toNat / 2 ^ lo % 2 ^ n
        f 63 1 = 1 ∧ (f 62 1 = 1 ↔ own ≠ none) ∧ (f 61 1 = 1 ↔ prim) ∧ (f 60 1 = 1 ↔ t.lost = true) ∧ (f 59 1 = 1 ↔ t.exited = allLanes) ∧ f 56 3 = 0 ∧
        f 48 8 = (own.map WarpFault.cause).getD 0 ∧ f 36 12 = 0 ∧ (∀ k < 4, f (32 + k) 1 = 1 ↔ t.split? k ≠ none) ∧ f 15 17 = 0 ∧ f 8 7 ≤ 96 ∧
        (prim → f 8 7 = 0) ∧ f 4 4 = 0 ∧ f 0 4 = min 12 t.skid
      (t.who.isGuide = true → ∃ w p, (128, [w, p]) ∈ u.snapTeam x r ∧ status w ∧ ∀ sp, t.live.head?.map Prod.snd = some sp → p = BitVec.ofNat 64 sp.pc.toNat) ∧
      (t.who.isGuide = false → ∃ ws, (t.who.warpNo, ws) ∈ u.snapTeam x r ∧ ws.length = 16 ∧ (∀ w, ws[0]? = some w → status w) ∧
        ws[1]? = some ((own.map fun f => BitVec.ofNat 64 f.pc.toNat).getD 0) ∧ ws[2]? = some ((own.map fun f => BitVec.ofNat 64 f.addr).getD 0) ∧
        ws[3]? = some ((own.map fun f => BitVec.ofNat 64 f.lanes.toNat).getD 0) ∧
        (∀ k < 4, ws[4 + 2 * k]? = some (((t.split? k).map fun sp => BitVec.ofNat 64 sp.pc.toNat).getD 0) ∧
          ws[5 + 2 * k]? = some (((t.split? k).map fun sp => BitVec.ofNat 64 sp.mask.toNat).getD 0)) ∧ ∀ i, 12 ≤ i → i < 16 → ws[i]? = some 0)) ∧
    (s.ready h (Shape.sys (src1 h) false) = some (cx, s1) →
      let os := (s1.operands cx (src1 h) false).1
      let s2 := (s1.operands cx (src1 h) false).2
      let v : Word := match cx.lead with
        | some l => arg (valsAt os l) 0
        | none => 0
      let sel : Who := .warp cx.tm.ctxh (((s2.serviceOf cx.who).map fun x => x.hwsel.toNat).getD 0)
      let u : State := match c with
        | .hwsel => { s2 with services := s2.services.map fun (x : Service) =>
            if cx.who == .handler x.core x.part then { x with hwsel := v.setWidth 7 } else x }
        | .fpctl => s2.updThread sel fun t => { t with fpctl := v.setWidth 32 &&& 0x11F }
        | .fpx => s2.updThread sel fun t => { t with fpx := t.fpx &&& ~~~(v.setWidth 32 &&& 0x1F) }
        | .brken => s2.updTeam cx.tm.ctxh fun t => { t with brken := v &&& 3 }
        | .barto => if v.toNat < 2 ^ 10 ∨ v.toNat > 2 ^ 40 then s2 else s2.updTeam cx.tm.ctxh fun t => { t with barto := v }
        | .grace => s2.updTeam cx.tm.ctxh fun t => { t with grace := v }
        | .lockcap => s2.updTeam cx.tm.ctxh fun t => { t with lockcap := v }
        | .wftctl => s2.updDie (s2.dieOf cx.who) fun d => { d with strict := v.getLsbD 1, inh := v.getLsbD 0 }
        | .accown i => s2.putAccOwn { core := s2.coreOf cx.who, slot := i.toNat, sdv := v.getLsbD 33, val := v.getLsbD 32
                                      ctxh := v.toNat % 2 ^ 32 }
        | .hctx | .hcause | .asid | .wftovf | .trec _ => s2
      ∃ t, exec (.syswr h c) s = .next (t.consume cx (if cx.lead = none then [] else os.map (onlyLanes cx.lead.toList))) ∧
        Changes cx (fun th => th) u t)

/-- R239, R241 to R243 (08), R286 (10): the handler's table and accumulator instructions. `wftrd` pushes the two words of an entry; `tlbinv` leaves no
cached translation that it covers; an accumulator is written to and read from an area as its side flag says, once no started command names the slot;
`halt` and `resume` act on the team they name, `halt` once, going on when that team's stop is complete.
Where the rules leave a point open, this rests on the model's own choice or reading: log entry 43. -/
def Obligations.SystemResults : Prop :=
  ∀ (h : Hdr) (s : State) (cx : Cx) (s1 : State),
    let use (os : List Operand) : List Operand := if cx.lead = none then [] else os.map (onlyLanes cx.lead.toList)
    let vals (os : List Operand) : List Word := match cx.lead with
      | some l => valsAt os l
      | none => []
    let acts (i : Instr) (os : List Operand) (u : State) : Prop :=
      ∃ t, exec i s = .next (t.consume cx (use os)) ∧ Changes (cx.now u) (fun th => th) u t
    let pushes (i : Instr) (os : List Operand) (ws : List Word) (u : State) : Prop :=
      ∃ t, exec i s = .next (t.consume cx (use os)) ∧ Pushes cx ws.length (fun _ => ws.map fun w => ent w false) u t
    (s.ready h (Shape.sys (src1 h) true) = some (cx, s1) →
      let os := (s1.operands cx (src1 h) true).1
      let s2 := (s1.operands cx (src1 h) true).2
      let n := ((vals os).getD 0 0).toNat
      pushes (.wftrdEdge h) os (s2.edgeEntry (s2.dieOf cx.who) (n % 2 ^ 13)) s2 ∧
      pushes (.wftrdObj h) os (s2.objEntryWords (n / 2 ^ 16 % 2 ^ 3) (n % 2 ^ 12)) s2) ∧
    (s.ready h (Shape.sys (src2 h) true) = some (cx, s1) →
      let os := (s1.operands cx (src2 h) true).1
      let s2 := (s1.operands cx (src2 h) true).2
      let slot := ((vals os).getD 0 0).toNat % 2 ^ 7
      let core := s2.coreOf cx.who
      let sdv := (s2.accOwn core slot).sdv
      s2.slotBusy core slot = false → ∀ ks s3, s2.areaKeys cx ((vals os).getD 1 0).toNat (if sdv then 4352 else 4096) true = (.ok ks, s3) →
        pushes (.accspill h) os [if sdv then 1 else 0]
          (s3.writeSlotWords cx.sp.party ks (slotWords (s3.tile core slot) sdv))) ∧
    (s.ready h (Shape.sys (src3 h) false) = some (cx, s1) →
      let os := (s1.operands cx (src3 h) false).1
      let s2 := (s1.operands cx (src3 h) false).2
      let slot := ((vals os).getD 0 0).toNat % 2 ^ 7
      let core := s2.coreOf cx.who
      let side := (vals os).getD 2 0 != 0
      s2.slotBusy core slot = false →
      ∀ ks s3, s2.areaKeys cx ((vals os).getD 1 0).toNat (if side then 4352 else 4096) false = (.ok ks, s3) →
        let r := s3.readSlotWords cx.sp.party ((if side then 4352 else 4096) / 4) ks
        acts (.accfill h) os ((r.2.putTile (slotFrom core slot r.1)).setSdv core slot side)) ∧
    (s.ready h (Shape.sys (src1 h) false) = some (cx, s1) →
      let os := (s1.operands cx (src1 h) false).1
      let s2 := (s1.operands cx (src1 h) false).2
      let n := ((vals os).getD 0 0).toNat
      let core := s2.coreOf cx.who
      (s2.slotBusy core (n % 2 ^ 7) = false →
        acts (.accfillZero h) os ((s2.putTile (TileSlot.zero core (n % 2 ^ 7))).setSdv core (n % 2 ^ 7) false)) ∧
      (let u := if cx.sp.acted = 0 then s2.haltTeam (n % 2 ^ 32) else s2
       (u.halting (n % 2 ^ 32) = false → acts (.halt h) os u) ∧
       (u.halting (n % 2 ^ 32) = true → exec (.halt h) s =
         .next (((u.hold cx).updSplit cx.who cx.k fun sp => { sp with acted := allLanes }).consume cx (use os)))) ∧
      (let u := s2.resumeTeam (n % 2 ^ 32) (s2.released cx.sp.party)
       u.thread? cx.who = some cx.t → acts (.resume h) os u)) ∧
    (let gone (i : Instr) (os : List Operand) (s2 : State) (asid page : Option Nat) : Prop :=
      ∃ u, acts i os u ∧ u = { s2 with tlb := u.tlb, tlbInv := u.tlbInv } ∧ (∀ e ∈ u.tlb, e ∈ s2.tlb) ∧
        ∀ e ∈ u.tlb, (∃ a, asid = some a ∧ e.asid ≠ a) ∨ ∃ p, page = some p ∧
          (p < e.page ∨ e.page + e.span ≤ p)
     (s.ready h (Shape.sys (src2 h) false) = some (cx, s1) →
        let os := (s1.operands cx (src2 h) false).1
        gone (.tlbinvPage h) os (s1.operands cx (src2 h) false).2 (some (((vals os).getD 1 0).toNat % 2 ^ 10))
          (some (((vals os).getD 0 0).toNat % 2 ^ 48))) ∧
     (s.ready h (Shape.sys [(1, h.sb)] false) = some (cx, s1) →
        let os := (s1.operands cx [(1, h.sb)] false).1
        gone (.tlbinvAsid h) os (s1.operands cx [(1, h.sb)] false).2 (some (((vals os).getD 0 0).toNat % 2 ^ 10)) none) ∧
     (s.ready h (Shape.sys [] false) = some (cx, s1) → gone (.tlbinvAll h) [] s1 none none))

/-- R240 (08), R385 (15), R447 (18): `tret` ends the service, its handler's writes being released at device scope, and the team goes on after its
abort requests have been applied; a record of resume kind A stops again instead, unless its handler acknowledges it or items came late; one of kind X,
and `tret.kill`, end the team. None of this holds of a team that its own resume's record access has killed (R418). R378, R385 (15): a team that goes
on without late items or held requests runs, with no record and no item; one whose items came late stops again with them before any warp issues, its
held requests kept where it is of kind A; a plain `tret` of kind A keeps its record with REP one higher. Where the rules leave a point open, this
rests on the model's own choice or reading: log entries 13, 36. -/
def Obligations.TrapReturns : Prop :=
  (∀ (h : Hdr) (s : State) (core part : Nat) (cx : Cx) (s1 : State) (r : StopRec), s.ready h (Shape.sys [] false) = some (cx, s1) →
     cx.who = .handler core part → cx.tm.stop = some r →
     let at_ := s1.placeOfWho cx.who
     let u := (s1.pushLines at_.1 at_.2 .device).relFence cx.sp.party .device
     let s3 := { u with svcClk := clkJoin u.svcClk (u.clkOf cx.sp.party) }.endService core part
     let x := cx.tm.ctxh
     let s4 := s3.applyAbreq x (u.clkOf cx.sp.party)
     exec (.tretKill h) s = .next (s3.killServed x) ∧
     (r.res = 3 → exec (.tret h) s = .next (s3.killServed x) ∧ exec (.tretAck h) s = .next (s3.killServed x)) ∧
     (r.res ≠ 3 → exec (.tretAck h) s = .next (s4.restart x true)) ∧
     (r.res ≠ 3 → ∀ tm, s4.team? x = some tm →
       (r.res = 2 → tm.late = [] → exec (.tret h) s = .next (s4.stopSame x)) ∧
       (r.res = 2 → tm.late ≠ [] → exec (.tret h) s = .next (s4.restart x false)) ∧
       (r.res ≠ 2 → exec (.tret h) s = .next (s4.restart x true))) ∧
     (∀ v ∈ s3.services, ¬ (v.core = core ∧ v.part = part)) ∧ s3.thread? (.handler core part) = none) ∧
  (∀ (s : State) (x : Nat) (t : Team), s.team? x = some t →
     (∀ b, t.status ≠ .killed → t.status ≠ .retiring → t.held = [] → t.late = [] →
       ∃ u, (s.restart x b).team? x = some u ∧ u.status = .running ∧ u.stop = none ∧ u.items = [] ∧ u.held = []) ∧
     (∀ b, t.status ≠ .killed → t.status ≠ .retiring → (b = true → t.held = []) → ∀ i r l, t.late = (i, r) :: l → ∃ u, (s.restart x b).team? x = some u ∧ u.status = .stopping ∧
       u.items = t.late.filterMap Prod.fst ∧ u.held = t.held ∧
       u.late = [] ∧ ∃ q, u.stop = some q ∧ q.cause = r.cause ∧ q.tpc = r.tpc ∧ q.again = true) ∧
     (∀ r, t.status ≠ .killed → t.status ≠ .retiring → t.stop = some r → ∃ u, (s.stopSame x).team? x = some u ∧ u.status = .stopping ∧
       u.stop = some { r with rep := min 255 (r.rep + 1), again := true } ∧ u.items = t.items))

/-- R371, R373, R378, R380 (15), R369: what taking a trap does. In a running team it becomes the team's record, with the split that took it as the primary
one, and the team stops issuing, a save that waited being given up; in a stopping team it is added to its warp's faults, once, and is the primary one
where it falls in the cycle of the primary and its split comes first, a warp before the guide; in one that has stopped it waits for the next resume. The
cause gives the resume kind, and REP counts a stop with the cause and TPC of the last one and no progress since.
Where the rules leave a point open, this rests on the model's own choice or reading: log entries 11, 31. -/
def Obligations.TakesTrap : Prop :=
  ∀ (s : State) (who : Who) (k : Nat) (tr : Trap) (item : Option Item) (t : Team), who.isHandler = false → s.team? (s.ctxhOf who) = some t →
    let u := s.raise who k tr item
    (t.status = .running → ∃ v r, u.team? (s.ctxhOf who) = some v ∧ v.status = .stopping ∧ v.stop = some r ∧ v.items = t.items ++ item.toList ∧
      v.progress = false ∧ v.saving = none ∧ r.cause = tr.cause ∧ r.tpc = tr.tpc ∧ r.tlanes = tr.lanes ∧ r.taddr = BitVec.ofNat 64 tr.addr ∧
      r.tdetail = BitVec.ofNat 64 tr.detail ∧ r.tword = tr.word ∧ r.words = tr.words ∧ r.prec = tr.prec ∧ r.guide = who.isGuide ∧
      r.warp = who.warpNo ∧ r.spl = k ∧ r.res = resumeKind tr.cause ∧ r.level = causeLevel tr.cause ∧
      (∀ n, t.lastStop = some (tr.cause, tr.tpc, n) → t.progress = false → r.rep = min 255 (n + 1)) ∧
      (t.lastStop = none → r.rep = 0) ∧ (t.progress = true → r.rep = 0)) ∧
    (t.status = .stopping → ∀ r, t.stop = some r → ∃ v q, u.team? (s.ctxhOf who) = some v ∧ v.status = .stopping ∧ v.stop = some q ∧
      v.items = t.items ++ item.toList ∧
      (let no := if who.isGuide then 128 else who.warpNo
       let prim := if r.guide then 128 else r.warp
       let mine : WarpFault := { warp := no, cause := tr.cause, pc := tr.tpc, addr := tr.addr, lanes := tr.lanes }
       let first : Prop := r.cycle = s.cycles t.die ∧ r.cause ≠ 0x61 ∧ tr.cause ≠ 0x61 ∧ (no < prim ∨ no = prim ∧ k < r.spl)
       (first → q.cause = tr.cause ∧ q.tpc = tr.tpc ∧ q.tlanes = tr.lanes ∧ q.warp = who.warpNo ∧ q.spl = k ∧ q.res = resumeKind tr.cause) ∧
       (¬ first → q.cause = r.cause ∧ q.tpc = r.tpc ∧ q.warp = r.warp ∧ q.spl = r.spl ∧
         ((∀ f ∈ r.faults, f.warp ≠ no) → (r.faults.map WarpFault.warp).Nodup → q.faults = r.faults ++ [mine])))) ∧
    ((t.status = .stopped ∨ t.status = .served ∨ t.status = .halted) → ∃ v r, u.team? (s.ctxhOf who) = some v ∧ v.status = t.status ∧
      v.stop = t.stop ∧ v.late = t.late ++ [(item, r)] ∧ r.cause = tr.cause)

/-- R42 to R44 (02), R313 (11), R477 (19): a `glaunch` of a team's first warp, with a descriptor that passes its checks, counts a child of its team,
pushes what its core and die hold dirty, as a release at device scope does, and enters a grid one level deeper, under the priority of its team, with
one cluster for each of its points in the ready queues; the grid begins with what its warp's clock knows. R168 (07), R30, R44 (02), R471 (19), R386
(15): a team ends once every lane of every warp has exited and none of its accesses and commands is left, once its die runs: its threads and, without
children, its record are gone, and with children its handle is free and a retiring record stays until the last of them is complete; a completed child
grid is counted off its parent. Where the rules leave a point open, this rests on the model's own choice or reading: log entries 40, 45. -/
def Obligations.ChildrenAndEnds : Prop :=
  (∀ (h : Hdr) (s : State) (cx : Cx) (s1 : State), s.ready h (Shape.user (src1 h) false) = some (cx, s1) → memWait cx true = false →
     let os := (s1.operands cx (src1 h) false).1
     let s2 := (s1.operands cx (src1 h) false).2
     s2.replayFull cx = false →
     (cx.lead = none → Completes (.glaunch h) s (Changes cx (fun th => th) s2)) ∧
     ∀ l bs s3, cx.lead = some l → ((fieldOp os 0).at l).poison = false → s2.glaunchFail cx l ((fieldOp os 0).at l).v.toNat = none →
       s2.readDesc cx l ((fieldOp os 0).at l).v.toNat 32 = (.ok bs, s3) →
       let rev := ((s3.grid? cx.tm.grid).map fun g => g.launch.rev).getD 4
       (launchFail bs rev = none →
         let u := s3.launchChild cx bs rev
         Completes (.glaunch h) s (Changes (cx.now u) (fun th => th) u) ∧
         (∀ t, s3.team? cx.tm.ctxh = some t → ∃ v, u.team? cx.tm.ctxh = some v ∧ v.child = t.child + 1) ∧
         let l := { launchOf bs rev cx.tm.asid with prio := cx.tm.prio, bg := cx.tm.bg }
         let pushed := s3.pushLines (s3.placeOfWho cx.who).1 (s3.placeOfWho cx.who).2 .device
         u = { pushed with teams := u.teams, grids := u.grids, clusters := u.clusters, nextId := u.nextId } ∧
         ∃ g cls, u.grids = pushed.grids ++ [g] ∧ u.clusters = pushed.clusters ++ cls ∧ g.launch = l ∧ g.owner = .child cx.tm.ctxh ∧
           g.depth = ((pushed.grid? cx.tm.grid).map Grid.depth).getD 0 + 1 ∧ g.clk = pushed.warpClk cx.t ∧ g.left = l.gx * l.gy * l.gz ∧
           cls.length = l.gx * l.gy * l.gz ∧ ∀ c ∈ cls, c.status = .ready ∧ c.resumed = false ∧ c.grid = g.id) ∧
       (∀ n, launchFail bs rev = some n → exec (.glaunch h) s = .next (s3.fail cx 0x54 (bitMask l) 0 (3 + 16 * n)))) ∧
  ((∀ (s : State) (x : Nat) (t : Team), s.team? x = some t →
     let quiet := !s.stalled t.die && (s.threadsOf x).all (fun w => w.pend.isEmpty) && !s.hasStarted x && !(s.unstarted x).any s.canMove
     (quiet = false → exec (.teamExitSignal x) s = .next s) ∧
     (t.status = .running → s.allExited x = false → exec (.teamExitSignal x) s = .next s) ∧
     (quiet = true → (t.status = .running → s.allExited x = true) → (t.status = .running ∨ t.status = .killed) →
       ∃ u, exec (.teamExitSignal x) s = .next u ∧ (∀ w ∈ u.threads, w.who ≠ .guide x ∧ ∀ n, w.who ≠ .warp x n) ∧
         (t.child = 0 → u.team? x = none) ∧ (t.child ≠ 0 → ∃ v ∈ u.teams, v.ctxh = 2 ^ 32 + t.serial ∧ v.status = .retiring))) ∧
   (∀ (s : State) (gid x : Nat) (g : Grid) (t : Team), s.grid? gid = some g → g.owner = .child x → g.done = true →
     let u := (s.completeGrid g 0 0).dropGrid gid
     u.team? x = some t → t.status ≠ .retiring →
       exec (.childGridComplete gid) s = .next (u.updTeam x fun t => { t with child := t.child - 1, exitClk := clkJoin t.exitClk g.relClk })) ∧
   (∀ (s : State) (gid x : Nat) (g : Grid) (t : Team), s.grid? gid = some g → g.owner = .child x → g.done = true →
     ((s.completeGrid g 0 0).dropGrid gid).team? x = some t → t.status = .retiring → t.child = 1 →
       ∃ v, exec (.childGridComplete gid) s = .next v ∧ v.team? x = none))

/-- R73 (03), R85, R87 (04), R137, R138 (06), R176 (07): on a die that does not relock, values that arrive fill the entries reserved for them in the
lanes that they arrive in, and a reservation without lanes left is over. A counter's value is one that the counter held between its issue and now,
CLKS passing over those that it skips (R336), and the split's other reads of it keep its order; an instruction's flags are raised with its last value;
the locks, pushes and drops of an ordered access follow once its last lane has been performed (R419); a load that its way to the homes carries, and
that no earlier atomic of its lanes on its locations is before, is performed then. Where the rules leave a point open, this rests on the model's own
choice or reading: log entries 4, 5. -/
def Obligations.ValuesArrive : Prop :=
  ∀ (who : Who) (id : Nat) (lanes : Mask) (s : State) (t : Warp) (p : Pend), s.thread? who = some t → t.pend.find? (fun p => p.id == id) = some p →
    s.stalled (s.dieOf who) = false →
    let filled (base : State) (vals : Nat → Nat → Word) (bad : Nat → Bool) (here : Mask) (f : Pend → Pend) (u : State) : Prop :=
      ∃ th, u.thread? who = some th ∧ u = { base with threads := u.threads } ∧ (∀ w, w ≠ who → u.thread? w = s.thread? w) ∧
        (∀ l : Nat, th.queue[l]? = (t.queue[l]?).map fun q => q.map fun e => match e.pend with
          | some (i, r) => if i == id && here.getLsbD l then { val := vals l r, pend := none, poison := bad l } else e
          | none => e) ∧
        th.pend = ((t.pend.map fun q => if q.id == id then { f q with lanes := q.lanes &&& ~~~here } else f q).filter fun q => q.lanes != 0)
    let step : Host.Outcome State Fault Refusal := exec (.longLatencyValueArrival who id lanes) s
    (∀ v lo hi, p.kind = .counter v lo hi → ∃ (u : State) (m n c : Nat), step = .next u ∧ lo ≤ m ∧
      m ≤ max lo (min (hi.getD (s.counterNow who v)) (s.counterNow who v)) ∧
      n = (if v = .clks then ((s.die? (s.dieOf who)).map fun d => d.clksHeld m).getD lo else m) ∧
      filled { s with freeCtr := c } (fun _ r => if r = 0 then wordOf n else 0) (fun _ => false) p.lanes (fun q => match q.kind with
        | .counter w l h =>
          if w != v || q.spl != p.spl then q
          else if p.id < q.id then { q with kind := .counter w (max l n) h }
          else { q with kind := .counter w l (some (min (h.getD n) n)) }
        | _ => q) u) ∧
    (∀ vals flags bad, p.kind = .value vals flags bad → (∀ l, p.lanes.getLsbD l = true → ∃ ws, assoc? vals l = some ws) →
      let here := lanes &&& p.lanes
      let raised := p.raised ++ flags.filter fun f => here.getLsbD f.1
      ∃ u, step = .next (if p.lanes &&& ~~~here = 0 then u.raiseFlags who p.spl p.pc p.word p.later raised else u) ∧
        filled s (fun l r => ((assoc? (vals.filter fun v => here.getLsbD v.1) l).getD []).getD r 0) bad.contains here
          (fun q => if q.id == id then { q with raised := raised } else q) u) ∧
    (∀ r, p.kind = .mem r → r.op.isAtomic = false → lanes &&& p.lanes ≠ 0 → (∀ l, (lanes &&& p.lanes).getLsbD l = true → ∃ a ∈ r.acc, a.lane = l) →
      (∀ a ∈ r.acc, a.lane < 32) → (∀ a ∈ r.acc, (∀ k ∈ a.keys, s.reaches (s.dieOf who) false k = true) ∧ t.atomicBefore p r a.keys = false) →
      let here := lanes &&& p.lanes
      let at_ := s.placeOfWho who
      let d := s.perform at_.1 at_.2 (s.ctxhOf who) r here
      ∃ (ps : List Party) (rels : List Rel) (u : State), step = .next (u.reqTraps who p.spl p.pc p.word p.later r d.1) ∧
        (r.late = false → rels = r.rels) ∧ u = ({ d.2 with parties := ps }.updThread who fun t =>
          ({ t with pend := t.pend.map fun (q : Pend) => if q.id == p.id then
              { q with kind := .mem { r with acc := r.acc.filter fun a => !here.getLsbD a.lane, rels := rels } } else q }).fillPend p.id d.1.vals d.1.poison))

/-- R372, R377, R383, R384 (15): a stopping team whose entries have all been filled has its items written and is queued for its handler, but for a
supervisor's halt; a queued one is served once its slot is free and it is the first that waits for it: one warp of 32 lanes at the supervisor's entry.
A service of 2^26 cycles is ended. None of this happens on a die that relocks or whose core clock stands.
Where the rules leave a point open, this rests on the model's own choice or reading: log entries 11, 60. -/
def Obligations.HandlerServices : Prop :=
  ∀ (s : State) (x : Nat) (t : Team) (r : StopRec), s.team? x = some t → t.stop = some r →
    (s.stalled t.die = true → exec (.handlerDispatch x) s = .next s) ∧
    (s.stalled t.die = false → t.status = .stopped → ∀ core part, s.slotFor x = some (core, part) → (∀ v ∈ s.services, ¬ (v.core = core ∧ v.part = part)) →
      s.handlerQ.find? (fun y => s.slotFor y == some (core, part)) = some x →
      ∃ u tm v w, exec (.handlerDispatch x) s = .next u ∧ u.team? x = some tm ∧ tm.status = .served ∧
        u.services = s.services ++ [v] ∧ v.core = core ∧ v.part = part ∧ v.ctxh = t.ctxh ∧ v.start = s.cycles t.die ∧ x ∉ u.handlerQ ∧
        u.threads = s.threads ++ [w] ∧ w.who = .handler core part ∧ ∃ sp, w.live = [(0, sp)] ∧ sp.pc = s.svEntry ∧ sp.mask = allLanes) ∧
    (t.status = .stopping → s.stopDone x = false → exec (.handlerDispatch x) s = .next s) ∧
    (s.stalled t.die = false → t.status = .stopping → s.stopDone x = true →
      let pp := s.partParty t.ctxh []
      (pp.2.recWrites pp.1 t.ctxh (t.items.zipIdx.map fun (i, n) => (0x7B0000 + 16 * n, itemBytes i))).1 = true →
      ∃ u tm, exec (.handlerDispatch x) s = .next u ∧ u.team? x = some tm ∧
        (r.cause = 0x61 → tm.status = .halted) ∧ (r.cause ≠ 0x61 → tm.status = .stopped ∨ tm.status = .served)) ∧
    (∀ core part v, s.services.find? (fun v => v.core == core && v.part == part) = some v →
      (s.stalled (core / 16) = true → exec (.handlerTimeout core part) s = .next s) ∧
      (s.stalled (core / 16) = false → v.start + 2 ^ 26 ≤ s.cycles (core / 16) →
        ∃ u, exec (.handlerTimeout core part) s = .next u ∧ (∀ v ∈ u.services, ¬ (v.core = core ∧ v.part = part))) ∧
      (s.cycles (core / 16) < v.start + 2 ^ 26 → exec (.handlerTimeout core part) s = .next s))

/-- R48, R50 (02), R170 (07), R305 (11), R452, R453 (18): a limit in cycles acts once it has passed. A yield ends, a split that has been ready without
issuing is promoted, the cycles of its partition's handler slot not counted, a load outstanding for 1,024 cycles blocks the split that waits for its
value, also one whose earlier such wait is over, and a barrier wait that has reached BARTO takes 0x31; but not on a die that relocks or whose core
clock stands. Where the rules leave a point open, this rests
on the model's own choice or reading: log entries 12, 44. -/
def Obligations.CycleLimits : Prop :=
  ∀ (s : State) (ctxh w k : Nat) (t : Warp) (sp : Split) (tm : Team), s.team? ctxh = some tm →
    let who : Who := .warp ctxh w
    s.thread? who = some t → t.split? k = some sp →
    let splitIn (u : State) (f : Split) : Prop := ∃ th, u.thread? who = some th ∧ th.split? k = some f
    let promotes (i : Instr) (cycles level : Nat) : Prop :=
      s.stalled tm.die = false → tm.status = .running → sp.up = true → sp.readyFrom + sp.skips + cycles ≤ s.clkFor who →
        ∃ u, exec i s = .next u ∧ splitIn u { sp with promoted := max sp.promoted level }
    promotes (.starvationPromotion ctxh w k) 1024 1 ∧ promotes (.overdue ctxh w k) 1984 2 ∧
    (s.stalled tm.die = true → ∀ i ∈ [Instr.starvationPromotion ctxh w k, .overdue ctxh w k, .yieldExpiry who k, .remoteLoadBlocking ctxh w k,
      .barrierTimeout ctxh w k], exec i s = .next s) ∧
    (∀ n till, s.stalled tm.die = false → sp.wait = some (.yield n till) →
      (till ≤ s.clkFor who → ∃ u, exec (.yieldExpiry who k) s = .next u ∧ splitIn u { sp with wait := none }) ∧
      (s.clkFor who < till → ∃ u, exec (.yieldExpiry who k) s = .next u ∧ splitIn u sp)) ∧
    (∀ p, s.stalled tm.die = false → tm.status = .running → (sp.wait = none ∨ sp.wait = some .entries ∨ ∃ id, sp.wait = some (.remote id) ∧ ∀ q ∈ t.pend, q.id ≠ id) →
      s.remoteLoad tm t sp = some p →
      ∃ u, exec (.remoteLoadBlocking ctxh w k) s = .next u ∧ splitIn u { sp with wait := some (.remote p.id) }) ∧
    (∀ bid, s.stalled tm.die = false → barOfWait sp.wait = some bid → (s.barsDue tm).head? = some (w, k) →
      ∃ u tr sp', exec (.barrierTimeout ctxh w k) s = .next (u.raise who k tr none) ∧ tr.cause = 0x31 ∧ tr.tpc = sp.pc ∧ tr.lanes = sp.mask ∧
        splitIn u sp' ∧ sp'.waited = 0 ∧ sp'.waitFrom = s.cycles tm.die ∧ sp'.mask = sp.mask ∧ sp'.pc = sp.pc ∧
        ∀ e ∈ u.edges, ¬ (e.ctxh = ctxh ∧ e.warp = w ∧ e.spl = k ∧ e.kind ≠ 1))

/-- R197 (07), R266, R250, R258, R260 (09), R429 (17): a monitored location is read again and, once every condition holds, the wait is over and its
monitors are free; an evicted line is gone, an L1's dirty bytes being in the L2 from then on; a stale notice to a die that takes messages marks the
die's line, and where a monitor stands on the line the slice fetches it again and the home's presence bit is set anew; one to a die that takes none
waits in its queue or sets its overflow flag; a walk serves the zero request of the entry it finds, a poisoned entry loses the context, and every byte
of a zeroed page reads as zero but those that a sealed range keeps (R431). On a die that relocks or whose core clock stands no line is evicted. Where
the rules leave a point open, this rests on the model's own choice or reading: log entries 34, 41. -/
def Obligations.CacheEvents : Prop :=
  (∀ (s : State) (who : Who) (k : Nat) (m : Monitor) (sp : Split) (tm : Team), s.monitors.find? (fun m => m.who == who && m.spl == k) = some m →
    (s.thread? who).bind (fun t => t.split? k) = some sp → s.team? (s.ctxhOf who) = some tm → sp.wait = some .monitor →
    (s.stalled (s.dieOf who) = false → tm.status = .running ∨ who.isHandler = true → m.holds (s.monReads sp.party m.locs).1 = true →
      let u := ((s.monReads sp.party m.locs).2.cross tm.die true (m.locs.flatMap fun l => if l.pt = pointHome then l.keys else [])).monDone m
        (s.monReads sp.party m.locs).1
      exec (.monitorWake who k) s = .next u ∧ ∀ x ∈ u.monitors, ¬ (x.who = m.who ∧ x.spl = m.spl)) ∧
    (s.stalled (s.dieOf who) = true ∨ m.holds (s.monReads sp.party m.locs).1 = false → exec (.monitorWake who k) s = .next s)) ∧
  (∀ (s : State) (lvl : CacheLevel) (owner line : Nat), s.cacheRuns lvl owner = false → exec (.cacheEviction lvl owner line) s = .next s) ∧
  (∀ (s : State) (lvl : CacheLevel) (owner line : Nat), s.cacheRuns lvl owner = true →
    ∃ u, exec (.cacheEviction lvl owner line) s = .next u ∧ u.line? lvl owner line = none ∧
    (lvl = .l1 → ∀ l, s.line? .l1 owner line = some l → l.dirty ≠ 0 → ∃ x, u.line? .l2 (owner / 16) line = some x ∧ x.dirty &&& l.dirty = l.dirty ∧
      ∀ w ∈ l.writes, w ∈ x.writes)) ∧
  (∀ (s : State) (die line : Nat) (l : Line) (d : Die), s.line? .l2 die line = some l → s.die? die = some d →
    ∃ u d', exec (.staleNotice die line) s = .next u ∧ u.die? die = some d' ∧
      (s.delivers die line = true → s.monitored die line = false → u.line? .l2 die line = some { l with stale := true }) ∧
      (s.delivers die line = true → s.monitored die line = true → u.line? .l2 die line = some { l with stale := false } ∧
        (isDeviceKey (line * 64) = true → die ∈ (assoc? u.dir line).getD [])) ∧
      (s.delivers die line = false → line ∈ d'.noteQ ∨ mdieOf (line * 64) ∈ d'.ovf)) ∧
  (∀ (s s1 : State) (asid va : Nat),
    (∀ l, s.walk 0 [] asid va = (.ok l, s1) → exec (.zeroRequest asid va) s = .next (s1.zeroRequest (dieOfUnit (s1.unitOf 0)) [] l)) ∧
    (∀ die clk (l : Leaf), l.zp = false → s.zeroRequest die clk l = s) ∧
    (s.walk 0 [] asid va = (.error .poisoned, s1) → exec (.zeroRequest asid va) s = .next (s1.loseContext asid 0x74 (asid * 2 ^ 22) 0)) ∧
    (∀ f, f ≠ .poisoned → s.walk 0 [] asid va = (.error f, s1) → exec (.zeroRequest asid va) s = .next s1)) ∧
  (∀ (s : State) (party : Nat) (clk : Clock) (base size k : Nat), s.memOk → base ≤ k → k < base + size → isDeviceKey k = true →
    (s.sealed k = false → (s.zeroRange party clk base size).byteAt k = some 0) ∧
    (s.sealed k = true → (s.zeroRange party clk base size).byteAt k = s.byteAt k))

/-- R204, R207, R209, R210 (08), R283 (10): on a die that takes messages, a command at its queue's head meets its guard: one that is unresolved holds
it, one that says no discards it, with nothing read or written, and one that says yes lets it go on. A successor then takes the oldest release of its
issuer, or waits for one; and once every tile tag is ready the command is started, what set those tags happening before it. A started command that
completes leaves, the counter of each of its issuers falls by one, and a chain head releases a successor toward the other queue. R216 to R218, R221
(08), R103 (04): what a completed matrix or accumulator command holds: the product of its operands, the softmax step with its P rows, zeros, or the
tile loaded or stored. R183 (07), R225, R226 (08): what a completed copy writes: each element's bytes, zero where it is out of bounds, and the tags of
the segment it fills. Where the rules leave a point open, this rests on the model's own choice or reading: log entries 6, 23, 27, 28, 59, 70. -/
def Obligations.EngineEvents : Prop :=
  (∀ (s : State) (c : Cmd) (tm : Team), c ∈ s.cmds → (∀ x ∈ s.cmds, x.id = c.id → x = c) → s.team? c.ctxh = some tm → s.stalled (c.core / 16) = false →
    let start : Host.Outcome State Fault Refusal := exec (.engineCommandStart c.core c.id) s
    let completes (err : Nat) (P : State → Prop) : Prop := s.writeWaits tm c.op = false →
      ∃ v, exec (.engineCommandComplete c.core c.id err) s = .next (v.recount c) ∧ ((∀ k, tm.status ≠ .saved k) → v.recount c = v) ∧ P v
    let counted (k : Nat) (u : State) : Prop := c.owners.Nodup → ∀ w ∈ c.owners, ∀ th, s.thread? w = some th → ∃ t, u.thread? w = some t ∧
      t.coc = (if c.matrix then th.coc else th.coc - 1) ∧ t.moc = (if c.matrix then th.moc - 1 else th.moc) ∧
      (w = c.issuer → (t.chains c.matrix).length = (th.chains c.matrix).length ∧ (t.chains (!c.matrix)).length = (th.chains (!c.matrix)).length + k)
    -- start
    (c.started = false → (∀ k, tm.status ≠ .saved k) → tm.status ≠ .killed → (c.aft = true → tm.status = .running) →
        (c.quartet = true ∨ s.atHead c = true) →
      let s1 : State := if c.guard = none then s
        else { s with cmds := s.cmds.map fun x => if x.id == c.id then { x with guard := none, held := false } else x }
      let passes : Prop := ∀ g, c.guard = some g → tm.guards.getD g .unresolved = .yes
      let chain : List Clock := ((s.thread? c.issuer).map fun t => t.chains c.matrix).getD []
      (∀ g, c.guard = some g → tm.guards.getD g .unresolved = .unresolved →
        start = .next { s with cmds := s.cmds.map fun x => if x.id == c.id then { x with held := true } else x }) ∧
      (∀ g, c.guard = some g → tm.guards.getD g .unresolved = .no → c.quartet = false → ∃ u, start = .next u ∧ (∀ x ∈ u.cmds, x.id ≠ c.id) ∧ counted 0 u ∧
        (∀ a, u.byteAt a = s.byteAt a) ∧ u.tiles = s.tiles) ∧
      (passes → s.tagWaits tm c.op = none → start = .next s1) ∧
      (passes → c.aft = true → chain = [] → start = .next s1) ∧
      ∀ ws, passes → s.tagWaits tm c.op = some ws → (c.aft = true → chain ≠ []) →
        let took : State := if c.aft = false then s1 else s1.updThread c.issuer fun t => t.setChains c.matrix chain.tail
        let clk : Clock := if c.aft = false then c.clk else clkJoin c.clk (chain.headD [])
        let went (x : Cmd) : Cmd := { x with guard := none, held := if c.guard = none then c.held else false, aft := false, clk := clk }
        let now (g : Cmd → Cmd) : State := { took with cmds := took.cmds.map fun (x : Cmd) => if x.id == c.id then g (went x) else x }
        ((∃ w ∈ ws, s.tagReady w = false) → start = .next (now fun x => x)) ∧
        ((∀ w ∈ ws, s.tagReady w = true) → (∀ b t g i n w k, c.op ≠ .tgather b t g i n w k) → c.quartet = false →
          start = .next (now fun x => { x with started := true, clk := (ws.map fun w => (s.tagEnt w).clk).foldl clkJoin clk, bImage := [] })) ∧
        ((∀ w ∈ ws, s.tagReady w = true) → ∀ fw t a bfb free ms (g : Nat → Nat → Nat → Word), c.op = .mma fw t a bfb free ms →
          let span := fmtSpan (fmtWord fw).b
          (∀ j m, ms[j]? = some m → ∃ th y, s.thread? (.warp c.ctxh m.1) = some th ∧ th.unseen.find? (fun y => y.quartet && y.seq == m.2) = some y ∧
            y.old = [] ∧ th.win ≤ y.base ∧ ∀ i < span, ∀ l < 32, th.fword (y.base + i) l = some (g j i l)) →
          ∃ u x, start = .next u ∧ u.cmds.find? (fun x => x.id == c.id) = some x ∧ x.started = true ∧ x.op = c.op ∧
            x.bImage = (((List.range ms.length).flatMap fun j => (List.range span).flatMap fun i => (List.range 32).map fun l => g j i l).take
              (fmtBytes (fmtWord fw).b / 8)).flatMap fun v => (List.range 8).map fun k => v.toNat / 256 ^ k % 256) ∧
        ((∀ w ∈ ws, s.tagReady w = true) → ∀ b t g i n w k, c.op = .tgather b t g i n w k →
          ∃ u x, start = .next u ∧ u.cmds.find? (fun x => x.id == c.id) = some x ∧ x.started = true ∧ x.op = c.op ∧
            x.idx.length = ((shapeOf w).dims.getD 1 (0, 0, 0)).2.2)) ∧
    -- completion
    (c.started = false → ∀ err, exec (.engineCommandComplete c.core c.id err) s = .next s) ∧
    (c.started = true → c.matrix = true → s.tileWaits c = true → ∀ err, exec (.engineCommandComplete c.core c.id err) s = .next s) ∧
    (c.started = true → s.writeWaits tm c.op = true → ∀ err, exec (.engineCommandComplete c.core c.id err) s = .next s) ∧
    (c.started = true → (c.matrix = true → s.tileWaits c = false) → ∀ err, completes err fun u => ∀ x ∈ u.cmds, x.id ≠ c.id) ∧
    (c.started = true → c.matrix = true → s.tileWaits c = false →
      let clk := clkJoin c.clk (s.tileClks tm c)
      let tile (i : Nat) : TileSlot := s.tile c.core (tm.slot i)
      let makes (op : EngOp) (P : State → Prop) : Prop := c.op = op → s.spoiled c = false → completes 0 P
      let product (u : State) (fw t : Nat) (a b : Nat → Byte) : Prop :=
        let w := fmtWord fw
        (u.tile c.core (tm.slot t)).elems = tileProduct w ((List.range (fmtBytes w.a)).map fun i => (a i).toNat).toArray
          ((List.range (fmtBytes w.b)).map fun i => (b i).toNat).toArray (List.range (fmtK w.a)) (tile t).elems
      completes 0 (counted (if c.chn then 1 else 0)) ∧
      (∀ fw b t a fa fb f g, (fmtWord fw).pen = false → s.finds clk (spKey tm.serial (a * 4096)) (fmtBytes (fmtWord fw).a) f →
        s.finds clk (spKey tm.serial (b * 4096)) (fmtBytes (fmtWord fw).b) g → makes (.mmas fw b t a fa fb) fun u => product u fw t f g) ∧
      (∀ fw t a bfb free ms f (g : Nat → Byte), (fmtWord fw).pen = false →
        s.finds clk (spKey tm.serial (a * 4096)) (fmtBytes (fmtWord fw).a) f →
        c.bImage = (List.range (fmtBytes (fmtWord fw).b)).map (fun n => (g n).toNat) →
        makes (.mma fw t a bfb free ms) fun u => product u fw t f g) ∧
      (∀ sc st ot pseg half, pseg < 2 ^ 10 → s.memOk → makes (.mmsm sc st ot pseg half) fun u =>
        let rows := softmaxRows sc (tile st) (tile ot)
        let out := u.tile c.core (tm.slot ot)
        out.elems = rows.flatMap (fun r => r.o.map fun v => BitVec.ofNat 32 v) ∧ out.m = rows.map (fun r => BitVec.ofNat 32 r.m) ∧
          out.l = rows.map (fun r => BitVec.ofNat 32 r.l) ∧ (u.accOwn c.core (tm.slot ot)).sdv = true ∧
          ∀ i j r v, rows[i]? = some r → r.p[j]? = some v →
            let k := spKey tm.serial (pseg * 4096 + (i * 64 + (if half then 32 else 0) + j) * 2)
            u.byteAt k = some (BitVec.ofNat 8 v) ∧ u.byteAt (k + 1) = some (BitVec.ofNat 8 (v / 256))) ∧
      (∀ t, makes (.acczero t) fun u => u.tile c.core (tm.slot t) = TileSlot.zero c.core (tm.slot t) ∧ (u.accOwn c.core (tm.slot t)).sdv = false)) ∧
    (c.started = true → c.matrix = false →
      let begun := s.newParty (s.cmdKind c) c.clk []
      let end_ (w : EngAcc × State) : State := (w.2.copyTags tm c (w.2.clkOf begun.1)).endCmd c (w.2.writeClasses c) (w.2.clkOf begun.1)
      let through (f : State → Nat → EngAcc → EngAcc × State) (order : List Nat) (s0 : State) : Prop :=
        let w := eachElem f s0 { done := 0, fail := none, refused := none } order
        s.writeWaits tm c.op = false → w.1.fail = none → w.1.refused = none → c.op.counter = none →
          exec (.engineCommandComplete c.core c.id 0) s = .next ((end_ w).recount c)
      let here (seg width n : Nat) : List Nat := segKeys tm seg (width * n) width
      let super := c.issuer.isHandler
      (let w := begun.2.copyWork tm begun.1 c
       w.1.fail = none → w.1.refused = none → (∀ a, c.op.counter = some a → (w.2.countUp tm begun.1 super a).1 = none) →
         completes 0 (counted (if c.chn then 1 else 0))) ∧
      (∀ base tsr seg cs ws cnt free, c.op = .tcopy 0 base tsr seg cs ws cnt free →
        let r := shapeOf ws
        let at_ (n : Nat) : Bool × Nat := (boxElems r base cs).getD n (false, 0)
        through (fun s n a => s.elemIn tm begun.1 super c.poison (at_ n).1 (at_ n).2 r.width (here seg r.width n) a) (List.range r.count) begun.2) ∧
      (∀ base tsr seg cs ws cnt free, c.op = .tcopy 1 base tsr seg cs ws cnt free →
        let r := shapeOf ws
        let at_ (n : Nat) : Bool × Nat := (boxElems r base cs).getD n (false, 0)
        let order := begun.2.boxOrder r.width (boxElems r base cs)
        through (fun s n a => s.elemOut tm begun.1 super c.poison (at_ n).1 (at_ n).2 r.width (here seg r.width n) a) order.1 order.2) ∧
      (∀ base tsr seg iseg start ws cnt, c.op = .tgather base tsr seg iseg start ws cnt →
        let r := shapeOf ws
        let b0 := (r.dims.getD 0 (0, 0, 1)).2.2
        let at_ (n : Nat) : Bool × Nat := elemAddr r base [start + (n % b0 : Nat), c.idx.getD (n / b0) 0]
        through (fun s n a => s.elemIn tm begun.1 super c.poison (at_ n).1 (at_ n).2 r.width (here seg r.width n) a) (List.range r.count) begun.2) ∧
      (∀ seg rank dseg t f, c.op = .spmove seg rank dseg ∨ c.op = .spshare seg rank dseg → s.teamOfRank tm.cluster rank = some t →
        seg < 2 ^ 10 → dseg < 2 ^ 10 → s.memOk → s.finds c.clk (spKey tm.serial (seg * 4096)) 4096 f → completes 0 fun u =>
          (∀ i < 4096, u.byteAt (spKey t.serial (dseg * 4096) + i) = some (f i)) ∧
          (s.team? t.ctxh = some t → dseg < t.tags.length → (t.ctxh ≠ c.ctxh ∨ dseg ≠ seg) → ∃ x, u.team? t.ctxh = some x ∧
            (x.seg dseg).v = true ∧ (x.seg dseg).c = false ∧ (x.seg dseg).tag = (tm.seg seg).tag ∧
            (x.seg dseg).st = if c.op = .spmove seg rank dseg then 2 else 1)) ∧
      (∀ t addr f, c.op = .accld t true addr → addr + 4096 ≤ 2 ^ 22 → s.finds c.clk (spKey tm.serial addr) 4096 f →
        (s.tile c.core (tm.slot t)).elems.length = 1024 → completes 0 fun u => ∀ n < 1024,
          (u.tile c.core (tm.slot t)).elems.getD n 0 = BitVec.ofNat 32 (leNum ((List.range 4).map fun i => f (4 * n + i)))) ∧
      (∀ t addr, c.op = .accst t true addr → addr + 4096 ≤ 2 ^ 22 → s.memOk → completes 0 fun u => ∀ n < 1024, ∀ i < 4,
        u.byteAt (spKey tm.serial addr + 4 * n + i) =
          some (BitVec.ofNat 8 (((s.tile c.core (tm.slot t)).elems.getD n 0).toNat / 256 ^ i))))) ∧
  -- the counts in the record of a saved team
  (∀ (s : State) (c : Cmd) (t : Team), s.team? c.ctxh = some t →
    ((∀ k, t.status ≠ .saved k) → s.recount c = s) ∧
    ∀ k, t.status = .saved k →
      let pp := s.partParty t.ctxh (clkJoin t.exitClk s.svcClk)
      let w := pp.2.recWrites pp.1 t.ctxh ((s.threadsOf t.ctxh).flatMap fun w => if c.owners.contains w.who then countRanges w t else [])
      w.1 = true → (s.recount c).mem = w.2.mem) ∧
  -- one element of a copy
  (∀ (s s1 : State) (tm : Team) (party : Nat) (super poison : Bool) (ga width : Nat) (dst : List Nat) (acc : EngAcc), s.memOk →
    (dst.Nodup → (∀ k ∈ dst, s.sealed k = false) →
      let out := s.elemIn tm party super poison false ga width dst acc
      out.1 = acc.ok ∧ ∀ k ∈ dst, out.2.byteAt k = some 0) ∧
    s.elemOut tm party super poison false ga width dst acc = (acc.ok, s) ∧
    (∀ f, s.engKeys tm party super false ga width = (.error f, s1) → s.elemIn tm party super poison true ga width dst acc = (acc.bad f, s1)) ∧
    (∀ f, s.engKeys tm party super true ga width = (.error f, s1) → s.elemOut tm party super poison true ga width dst acc = (acc.bad f, s1)) ∧
    (∀ ks : List Nat, s.engKeys tm party super false ga width = (.ok ks, s1) → s1.memOk → dst.Nodup → dst.length = ks.length →
      (∀ k ∈ dst, s1.sealed k = false) →
        let out := s.elemIn tm party super poison true ga width dst acc
        out.1 = acc.ok ∧ ∀ (i k : Nat) (b : Byte), dst[i]? = some k → (s1.engRead party ks).1[i]? = some b → out.2.byteAt k = some b) ∧
    (∀ ks : List Nat, s.engKeys tm party super true ga width = (.ok ks, s1) → s1.memOk → ks.Nodup → ks.length = dst.length →
      let out := s.elemOut tm party super poison true ga width dst acc
      ((∀ k ∈ ks, s1.sealed k = false) → out.1 = acc.ok ∧
        ∀ (i k : Nat) (b : Byte), ks[i]? = some k → (s1.engRead party dst).1[i]? = some b → out.2.byteAt k = some b) ∧
      ((∃ k ∈ ks, s1.sealed k = true) → out.1 = { acc.ok with refused := acc.refused.or (some ga) } ∧ ∀ a, out.2.byteAt a = s1.byteAt a)))

/-- R291 to R294, R299 to R301 (11), R457 (18), R472, R474 (19): a packet at its queue's read position that passes its checks is started: its units
stand behind the read index from then on (`startRun`), and it does what its type says. A NOP is complete; a launch puts one cluster for every point of
its grid, CX fastest, in the ready queues; a WRITE_VALUE stores its value as a release at system scope; a COPY and a SEAL are complete once their
ranges have been moved or recorded; a FENCE waits for what has started; a WAIT_VALUE reads its location, and each one that waits is read again at a
poll; a REPLAY with a list that is in range, and in use by no other where it is exclusive, goes through it launch by launch on its parameter block, or
on a copy of it made byte by byte where it is not exclusive; a launch of it that has started completes also where no further one may start (R387).
R292, R293, R297 (11), R472, R473 (19): the write index is read again once it has moved, or at its poll when it lies off device memory; a packet that
fails its checks halts its queue; a packet that is complete leaves its queue and writes its completion value; a launch that is complete writes the
completion fields of its grid. Where the rules leave a point open, this rests on the model's own choice or reading: log entry 38. -/
def Obligations.Packets : Prop :=
  ((∀ (s s' : State) (asid qid : Nat) (q : Queue) (bs : List Byte), s.queue? asid qid = some q →
     let head (t : Nat) : Prop := s.headOf q = (.packet t bs, s')
     let f := bytesAt bs
     let run (t : Nat) (args : List Word) : State := s'.startRun q t bs args
     (head 0 → exec (.packetNop asid qid) s = .next ((run 0 []).completeRun q)) ∧
     (head 1 → exec (.packetLaunch asid qid) s =
       .next ((run 1 []).fe.2.startGrid (launchOf bs q.rev asid) 0 (.packet asid qid q.rpos) ((run 1 []).fe.2.clkOf (run 1 []).fe.1)).2) ∧
     (head 3 → exec (.packetWaitValue asid qid) s =
       .next ((run 3 [0, 0, wordOf (f 24 8), wordOf (f 32 8), wordOf (f 40 1), wordOf (f 41 1), wordOf (f 42 1), 0]).waitValue asid qid q.rpos
         (f 24 8) (f 32 8) (f 40 1) (f 41 1) (f 42 1) false)) ∧
     (head 4 → ∀ ks u, (run 4 []).fe.2.feKeys (run 4 []).fe.1 asid (f 24 8) (if f 40 1 = 1 then 8 else 4) true = (.ok ks, u) →
       exec (.packetWriteValue asid qid) s = .next ((u.homeStore (run 4 []).fe.1
         (ks.zip (leBytes (if f 40 1 = 1 then 8 else 4) (f 32 8))) (some .system) false).2.completeRun q)) ∧
     (head 5 → ∀ u, (run 5 []).fe.2.copyBytes (run 5 []).fe.1 asid (f 24 8) (f 32 8) (f 40 8) false (f 40 8 + 1) = (.ok (), u) →
       exec (.packetCopy asid qid) s = .next ((u.relFence (run 5 []).fe.1 .system).completeRun q)) ∧
     (head 6 → ∀ ps u, ((run 6 []).fe.2.relFence (run 6 []).fe.1 .system).fePages (run 6 []).fe.1 asid (f 24 8) (f 32 8) (f 32 8 / 4096 + 1) = (.ok ps, u) →
       exec (.packetSeal asid qid) s = .next ((u.recordSeal (f 40 4) ps).completeRun q)) ∧
     (head 7 → exec (.packetFence asid qid) s = .next (run 7 (s'.fenceWaits q))) ∧
     (head 2 → ∀ hb u, s'.fe.2.feRead s'.fe.1 asid (f 24 8) 64 = (.ok hb, u) → 1 ≤ (listHdr hb).count → (listHdr hb).count ≤ 4096 →
       (listHdr hb).pbsize % 64 = 0 → (listHdr hb).pbsize ≤ 2 ^ 20 →
       let begins (v : State) (param : Nat) : Prop :=
         ∃ r, exec (.packetReplay asid qid) s = .next { v with replays := v.replays ++ [r] } ∧ r.list = f 24 8 ∧
           r.next = 0 ∧ r.count = (listHdr hb).count ∧ r.param = wordOf param ∧ r.running = true
       ((listHdr hb).excl = true → (∀ r ∈ u.replays, ¬ (r.asid = asid ∧ r.list = f 24 8 ∧ r.running = true)) →
         begins (u.startRun q 2 bs []) (listHdr hb).pblock) ∧
       ((listHdr hb).excl = true → (∃ r ∈ u.replays, r.asid = asid ∧ r.list = f 24 8 ∧ r.running = true) →
         exec (.packetReplay asid qid) s = .next u) ∧
       ((listHdr hb).excl = false → ∀ v, (u.startRun q 2 bs []).copyBytes s'.fe.1 asid (listHdr hb).pblock (f 32 8) (listHdr hb).pbsize true
           ((listHdr hb).pbsize + 1) = (.ok (), v) → begins v (f 32 8)))) ∧
   (∀ (l : Launch) (s : State) (d : Nat) (o : Owner) (c : Clock), ∃ cls, (s.startGrid l d o c).2.clusters = s.clusters ++ cls ∧
     (∀ x ∈ cls, x.status = .ready ∧ x.resumed = false ∧ x.grid = s.nextId) ∧
     ∀ x y z, x < l.gx → y < l.gy → z < l.gz → ∃ k, cls[x + l.gx * (y + l.gy * z)]? = some k ∧ k.cx = x ∧ k.cy = y ∧ k.cz = z)) ∧
  (∀ (s : State) (asid qid : Nat) (q : Queue), s.queue? asid qid = some q →
     (s.turnAsid = some asid → s.widxMoved q = true → exec (.queueWidxWake asid qid) s = .next (s.readWidx q)) ∧
     (s.turnAsid = some asid → s.widxHome q = false → q.pollAt ≤ s.ref →
       ∃ u, exec (.widxPoll asid qid) s = .next u ∧ u = (s.readWidx q).updQueue asid qid fun x => { x with pollAt := s.ref + 65536 }) ∧
     (s.turnAsid ≠ some asid → exec (.queueWidxWake asid qid) s = .next s ∧ exec (.widxPoll asid qid) s = .next s) ∧
     (∀ i t r cmp caddr s', (i, t) ∈ [(Instr.packetNop asid qid, 0), (.packetLaunch asid qid, 1), (.packetReplay asid qid, 2),
         (.packetWaitValue asid qid, 3), (.packetWriteValue asid qid, 4), (.packetCopy asid qid, 5), (.packetSeal asid qid, 6),
         (.packetFence asid qid, 7)] → s.headOf q = (.fails r cmp caddr t, s') →
       exec i s = .next (s'.failPacket asid qid q.rpos r cmp caddr)) ∧
     (∀ unit r, q.runs.find? (fun r => r.unit == unit) = some r →
       (s.runDone asid qid r = false → exec (.packetCompletion asid qid unit) s = .next s) ∧
       (r.complete = true → r.type ≠ 1 → r.type ≠ 7 → exec (.packetCompletion asid qid unit) s =
         .next (if r.cmp then (s.fe.2.dropRun asid qid unit).writeCompletion asid qid unit r.caddr.toNat r.cval.toNat
           else s.fe.2.dropRun asid qid unit)) ∧
       (s.runDone asid qid r = true → r.type = 1 → ∀ g, (s.fe.2.dropRun asid qid unit).grids.find? (fun g => g.owner == .packet asid qid unit) = some g →
         exec (.packetCompletion asid qid unit) s = .next (((s.fe.2.dropRun asid qid unit).completeGrid g qid unit).dropGrid g.id))) ∧
     exec (.waitValuePoll asid qid) s = .next
       ((q.runs.filter fun r => r.type == 3 && !r.complete && (r.args.getD 0 0 == 1 || decide ((r.args.getD 7 0).toNat ≤ s.ref))).foldl
         (fun s r => s.pollRun asid qid r) s) ∧
     (∀ (r : PktRun),
       let a (i : Nat) : Nat := (r.args.getD i 0).toNat
       let u := s.waitValue asid qid r.unit (a 2) (a 3) (a 4) (a 5) (a 6) true
       let waits : Prop := ∃ x, u.queue? asid qid = some x ∧ ∃ y ∈ x.runs, y.unit = r.unit ∧ y.complete = false
       (a 0 ≠ 1 ∨ ¬ waits → s.pollRun asid qid r = u) ∧ (a 0 = 1 → waits → s.pollRun asid qid r = s)) ∧
     (∀ r, s.replays.find? (fun r => r.asid == asid && r.qid == qid && r.running) = some r →
       exec (.replayNextLaunch asid qid) s = .next (s.replayNext r) ∧
       (r.cur = none → r.next < r.count → s.mayStart asid = false → s.replayNext r = s) ∧
       (∀ g x, r.cur = some g → s.grid? g = some x →
         (x.done = false → s.replayNext r = s) ∧
         (x.done = true →
           let u := ((s.completeGrid x r.qid r.unit).dropGrid x.id).updReplay r.asid r.qid r.unit fun y => { y with cur := none }
           r.next < r.count → u.mayStart asid = false → s.replayNext r = u)) ∧
       (r.cur = none → r.count ≤ r.next →
         s.replayNext r = (s.dropReplay r.asid r.qid r.unit).updRun r.asid r.qid r.unit fun x => { x with complete := true })))

/-- R34, R35, R37 (02), R303, R304 (11), R475 (19): a die claims the first cluster that it may claim and that fits it whole. Its teams get cores of
that die, all different, whose partitions hold at most eight warps, every member of a quartet in the quadrant of its number, and a tile base whose
slots are free. No cluster stands before it that the die could have claimed: the higher priority comes first, of one priority those that were saved,
and then the one that has waited longer. A cluster that has never started is placed: each of its teams gets the lowest free save slot and slab, runs
from nothing, and has one split of 32 lanes at its role's entry in every warp, one lane at GENTRY in its guide; ABREQ of every warp and TDIR stand in
its record (18 R446, 11 R311). A saved one is resumed; one that waits ages for a die after 4,096 of its cycles; one that fits no core is reported
once, with the handle of each of its teams, and these are killed after 16 further turns. Where the rules leave a point open, this rests on the model's
own choice or reading: log entries 37, 39, 40, 72. -/
def Obligations.ClusterPlacement : Prop :=
  (∀ (s : State) (die : Nat) (c : Cluster) (fits : List Fit), s.claimNext die = some (c, fits) →
    (c.resumed = false → exec (.clusterClaim die c.id) s = .next (s.placeCluster c fits) ∧ exec (.clusterResume die c.id) s = .next s) ∧
    (c.resumed = true → exec (.clusterClaim die c.id) s = .next s ∧
      ∃ u, exec (.clusterResume die c.id) s = .next (((s.savedTeams c.id).zip fits).foldl (fun u x => u.resumeOn x.1.ctxh x.2) u) ∧
        u.teams = s.teams ∧ u.threads = s.threads ∧ u.mem = s.mem) ∧
    c ∈ s.clusters ∧ c.status = .ready ∧ s.plat.clockStop = false ∧ (∃ d, s.die? die = some d ∧ d.hot = false ∧ d.relock = none) ∧
    (∀ x ∈ s.clusters, x.status = .ready → ∀ l, s.launchOfCluster x = some l → s.turnAsid = some l.asid →
      s.clusterPrio c < s.clusterPrio x ∨ (s.clusterPrio c = s.clusterPrio x ∧
        ((x.resumed = true ∧ c.resumed = false) ∨ (x.resumed = c.resumed ∧ x.order < c.order))) →
      s.mayClaim x l die = true → s.refused l.asid = false → s.fitCluster x die = none) ∧
    ∃ l, s.launchOfCluster c = some l ∧ s.turnAsid = some l.asid ∧ s.mayClaim c l die = true ∧
      (c.resumed = false → fits.length = l.teams) ∧ (fits.map Fit.core).Nodup ∧
      ∀ f ∈ fits, f.core / 16 = die ∧ f.parts.length = (quartetMembers l.roles).length ∧ s.baseFree f.core (tileNeed l.roles) f.base = true ∧
        (∀ w i : Nat, (quartetMembers l.roles)[w]? = some (some i) → ∃ p : Nat, f.parts[w]? = some p ∧ p / 8 = i) ∧
        ∀ p ∈ f.parts, (s.partUse f.core).getD p 8 + f.parts.count p ≤ 8) ∧
  (∀ (s : State) (c : Cluster) (l : Launch), s.launchOfCluster c = some l → c.resumed = false → s.clusterPrio c = l.prio) ∧
  (∀ (s : State) (c : Cluster) (fits : List Fit) (g : Grid) (slots slabs : List Nat), s.grid? c.grid = some g →
    s.freeSlots g.launch.asid g.launch.teams = some slots → s.freeSlabs c g.launch = some slabs → fits.length = g.launch.teams →
    s.plat.phase ≠ .failed → (∀ t ∈ s.teams, t.kept = false) → s.refused g.launch.asid = false →
    let l := g.launch
    let u := s.placeCluster c fits
    slots.length = l.teams ∧ slots.Nodup ∧ slabs.length = l.teams ∧ slabs.Nodup ∧
    (∀ t ∈ s.teams, t.asid = l.asid → t.status ≠ .retiring → t.ctxh % 2 ^ 22 ∉ slots) ∧
    (∀ t ∈ s.teams, t.grid = c.grid → t.status ≠ .retiring → t.slab ∉ slabs) ∧
    (∀ n, n < slots.foldl max 0 → n ∈ slots ∨ ∃ t ∈ s.teams, t.asid = l.asid ∧ t.status ≠ .retiring ∧ t.ctxh % 2 ^ 22 = n) ∧
    (u.refused l.asid = false → ∃ tms ths, u.teams = s.teams ++ tms ∧ tms.length = l.teams ∧ u.threads = s.threads ++ ths ∧
      (∀ x, s.cluster? c.id = some x → ∃ y, u.cluster? c.id = some y ∧ y.status = .running) ∧
      ∀ (r : Nat) (t : Team) (slot slab : Nat) (f : Fit), tms[r]? = some t → slots[r]? = some slot → slabs[r]? = some slab → fits[r]? = some f →
        t.ctxh = l.asid * 2 ^ 22 + slot ∧ t.asid = l.asid ∧ t.rank = r ∧ t.cluster = c.id ∧ t.grid = c.grid ∧ t.die = f.core / 16 ∧
        t.core = f.core % 16 ∧ t.tileBase = f.base ∧ t.slab = slab ∧ t.segs = l.segs ∧ t.tiles = tileNeed l.roles ∧ t.status = .running ∧
        t.stop = none ∧ t.items = [] ∧ t.prio = l.prio ∧ t.tags = List.replicate l.segs emptySeg ∧ t.guards = List.replicate 16 .unresolved ∧
        t.priv = l.ppool + slab * warpNeed l.roles * l.psz ∧ t.tickC = l.tickets ∧ t.tickM = l.tickets ∧
        (∀ (w p : Nat) (ro : Role), f.parts[w]? = some p → l.roles[roleOf l.roles w 0]? = some ro → ∃ th ∈ ths, th.who = .warp t.ctxh w ∧
          th.part = p ∧ th.queue = emptyQueue ∧ th.p1 = 0 ∧ th.p2 = 0 ∧ th.p3 = 0 ∧ th.wps = [] ∧ th.cap = 8 * ro.frame ∧ th.fpctl = l.fpctl ∧
          ∃ sp, th.live = [(0, sp)] ∧ sp.pc = ro.entry ∧ sp.mask = allLanes ∧ sp.fb = 0 ∧ sp.fs = 0) ∧
        (l.hasGuide = true → ∃ th ∈ ths, th.who = .guide t.ctxh ∧ ∃ sp, th.live = [(0, sp)] ∧ sp.pc = l.gentry ∧ sp.mask = 1))) ∧
  (∀ (s : State) (t : Team) (party : Nat) (kss : List (List Nat)) (v : State),
    (∀ w < t.nwarp, (abreqOff w, List.replicate 8 0) ∈ firstRecord t) ∧
    (t.tiles ≠ 0 → (192, (List.range t.tiles).map fun i => BitVec.ofNat 8 (t.slot i)) ∈ firstRecord t) ∧
    (s.recTargets party t.ctxh (firstRecord t) = (some kss, v) → v.memOk → kss.flatten.Nodup →
      (s.recWrites party t.ctxh (firstRecord t)).1 = true ∧ ∀ (i : Nat) (ks : List Nat) (x : Nat × List Byte), kss[i]? = some ks → (firstRecord t)[i]? = some x →
        ∀ (j k : Nat) (b : Byte), ks[j]? = some k → x.2[j]? = some b → (s.recWrites party t.ctxh (firstRecord t)).2.byteAt k = some b)) ∧
  (∀ (s : State) (die cl : Nat), (∀ c fits, s.claimNext die = some (c, fits) → c.id ≠ cl) →
    exec (.clusterClaim die cl) s = .next s ∧ exec (.clusterResume die cl) s = .next s) ∧
  (∀ (s : State) (cl : Nat) (c : Cluster), s.cluster? cl = some c → ∃ u x, exec (.clusterClaimAge cl) s = .next u ∧ u.cluster? cl = some x ∧
    (c.status ≠ .ready → x = c) ∧ (c.status = .ready → ∀ d, d ∈ x.aged ↔ d ∈ c.aged ∨ (d < 4 ∧ c.since.getD d 0 + 4096 ≤ s.cycles d))) ∧
  (∀ (s : State) (cl : Nat) (c : Cluster) (l : Launch), s.waiting.find? (fun c => c.id == cl) = some c → s.launchOfCluster c = some l →
    (s.noCore c = false → exec (.nocore cl) s = .next s) ∧
    let ts := (s.teamsOf cl).filter fun t => t.status != .retiring
    (s.noCore c = true → c.logged = false → exec (.nocore cl) s =
      .next (((if ts = [] then [l.asid * 2 ^ 22] else ts.map Team.ctxh).foldl (fun s h => s.logEvent 0x63 0 0xFFFF h 0) s).updCluster cl fun c =>
        { c with logged := true, noTurns := 0 })) ∧
    (s.noCore c = true → c.logged = true → c.noTurns < 16 → exec (.nocore cl) s = .next s) ∧
    (s.noCore c = true → c.logged = true → 16 ≤ c.noTurns → ts ≠ [] →
      exec (.nocore cl) s = .next (ts.foldl (fun s t => s.killTeam t.ctxh 0x63) s)) ∧
    (s.noCore c = true → c.logged = true → 16 ≤ c.noTurns → ts = [] → exec (.nocore cl) s =
      .next (((s.failGrid c.grid 0x63 (l.asid * 2 ^ 22)).updCluster cl fun c => { c with status := .done }).updGrid c.grid fun g =>
        { g with left := g.left - 1, done := g.left == 1 })))

/-- R307, R308 (11), R461 (18), R469, R476 (19): outside PHASE 0xF a team that has been asked to leave has its further commands held at GRACE, or
where it holds a lock at GRACE plus LOCKCAP; while it runs or is halted, and its die runs, it is saved at a blocking point without a lock, or once
what it has started is over, no hand-over of it being in flight, and its record then stands in memory. A saved team is ready again at its wake event.
A cluster that has waited and fits nowhere displaces the running one of lowest team priority, of those the one placed last; one that is blocked whole
may be displaced by a cluster whose effective priority is no lower than its own. R298 (11): a turn goes on until its quantum ends, and beyond it where
the next entry names the same process; otherwise nothing of the process starts any more, its running clusters are evicted, and once no team of it is
placed the next turn begins, or none where the list is empty. Where the rules leave a point open, this rests on the model's own choice or reading: log
entries 13, 37, 39, 42, 73. -/
def Obligations.EvictionAndTurns : Prop :=
  ((∀ (s : State) (x : Nat) (t : Team), s.team? x = some t →
     (∀ age, s.evictAge t = some age → s.plat.phase ≠ .failed →
       (t.cmdHold = 0 → t.grace.toNat ≤ age → s.holdsLock x = false →
         exec (.graceExpiry x) s = .next (s.updTeam x fun t => { t with cmdHold := 2 })) ∧
       (age < t.grace.toNat ∨ s.holdsLock x = true → exec (.graceExpiry x) s = .next s) ∧
       (t.grace.toNat + t.lockcap.toNat ≤ age → s.holdsLock x = true → t.cmdHold ≠ 3 →
         exec (.lockcapExpiry x) s = .next (s.updTeam x fun t => { t with cmdHold := 3 })) ∧
       (age < t.grace.toNat + t.lockcap.toNat ∨ s.holdsLock x = false → exec (.lockcapExpiry x) s = .next s)) ∧
     (s.plat.phase = .failed → exec (.graceExpiry x) s = .next s ∧ exec (.lockcapExpiry x) s = .next s ∧
       (t.ctxh = x → exec (.teamSave x) s = .next s)) ∧
     (t.evict = none ∨ s.allExited x = true ∨ s.stalled t.die = true → t.ctxh = x → exec (.teamSave x) s = .next s) ∧
     (s.plat.phase ≠ .failed → s.stalled t.die = false →
       t.evict ≠ none → s.allExited x = false → t.ctxh = x → t.saving = none → t.status = .running → s.holdsLock x = false →
       s.atBlockingPoint x = true → (∃ w ∈ s.threadsOf x, w.pend ≠ []) →
       exec (.teamSave x) s = .next (s.updTeam x fun t => { t with saving := some 1 })) ∧
     (t.status ≠ .running → t.status ≠ .halted → exec (.teamSave x) s = .next s) ∧
     (s.plat.phase ≠ .failed → s.stalled t.die = false → t.evict ≠ none → s.allExited x = false → t.ctxh = x → (∀ w ∈ s.threadsOf x, w.pend = []) →
       (∀ c ∈ s.cmds, c.ctxh = x → c.started = true → c.op.hands = none) → (t.status = .running ∨ t.status = .halted) → ∀ why,
       (t.saving = some why ∨ (t.saving = none ∧
         ((s.atBlockingPoint x = true ∧ s.holdsLock x = false ∧ why = 1) ∨
           (¬ (s.atBlockingPoint x = true ∧ s.holdsLock x = false) ∧ (t.cmdHold = 3 ∨ (t.cmdHold = 2 ∧ s.holdsLock x = false)) ∧
             s.hasStarted x = false ∧ why = t.cmdHold)))) →
       let a := (s.releaseAll t).pauseWaits x
       let pp := a.partParty x (clkJoin (a.teamClk x) a.svcClk)
       let gone := pp.2.unstarted x
       let b := (gone.filter fun c => c.op.hands.isSome).foldl State.restoreSource pp.2
       ∀ u v, b.writeRecord pp.1 ((b.team? x).getD t) why = (true, u) → u.team? x = some v →
         ∃ w y, exec (.teamSave x) s = .next w ∧ w.mem = u.mem ∧ w.team? x = some y ∧ y.status = .saved why ∧ y.evict = none ∧ y.cmdHold = 0 ∧
           w.savedCmds = u.savedCmds ++ gone ∧ ∀ c ∈ w.cmds, c.ctxh = x → c.started = true) ∧
     (∀ why, t.status = .saved why → t.wake = false →
       (s.wakes x = true → exec (.teamWake x) s = .next ((s.updTeam x fun t => { t with wake := true }).readySaved t.cluster)) ∧
       (s.wakes x = false → exec (.teamWake x) s = .next s))) ∧
   (∀ (s : State) (cl : Nat) (c : Cluster), s.waiting.find? (fun c => c.id == cl) = some c → s.plat.phase = .ready →
     s.plat.fwsw = false → (∀ d < 4, c.since.getD d 0 + 4096 ≤ s.cycles d ∧ s.fitCluster c d = none) →
     let prio (x : Cluster) : Nat := ((s.launchOfCluster x).map Launch.prio).getD 0
     (∀ v ∈ s.victims c, v.status = .running ∧ (prio v < prio c ∨ (s.allBlocked v = true ∧ s.clusterPrio v ≤ s.clusterPrio c))) ∧
     (s.victims c = [] → exec (.priorityEviction cl) s = .next s) ∧
     (s.victims c ≠ [] → ∃ v ∈ s.victims c, exec (.priorityEviction cl) s = .next (s.evictCluster v.id) ∧
       ∀ w ∈ s.victims c, prio v < prio w ∨ (prio v = prio w ∧ w.order ≤ v.order))) ∧
   (∀ (s : State) (cl : Nat) (t : Team), t ∈ s.teams →
     (t.cluster = cl → t.placed = true → t.evict = none → { t with evict := some (s.cycles t.die) } ∈ (s.evictCluster cl).teams) ∧
     (t.cluster ≠ cl → t ∈ (s.evictCluster cl).teams))) ∧
  (∀ (s : State) (cur : RunEnt), s.plat.phase = .ready → s.plat.fwsw = false → s.nextTurn = none → s.plat.runList[s.plat.turn]? = some cur →
     (s.plat.switching = false → s.ref < s.plat.quantEnd → exec .quantumEnd s = .next s) ∧
     (s.plat.switching = false → s.plat.quantEnd ≤ s.ref → ∃ u, exec .quantumEnd s = .next u ∧ u.plat.switching = true ∧ u.plat.runList = s.plat.runList ∧
       ∀ c ∈ s.clusters, c.status = .running → (s.launchOfCluster c).map Launch.asid = some cur.asid →
         ∀ t ∈ s.teams, t.cluster = c.id → t.placed = true → ∃ v ∈ u.teams, v.ctxh = t.ctxh ∧ v.evict ≠ none) ∧
     (s.plat.switching = true → s.active cur.asid = true → exec .quantumEnd s = .next s) ∧
     (s.plat.switching = true → s.active cur.asid = false → ∃ u, exec .quantumEnd s = .next u ∧ u.turnAsid = none ∧ u.plat.runList = [])) ∧
  (∀ (s : State) (l : List RunEnt) (i : Nat) (e cur : RunEnt), s.plat.phase = .ready → s.plat.fwsw = false → s.nextTurn = some (l, i, e) →
     s.plat.runList[s.plat.turn]? = some cur →
     (s.plat.switching = false → s.ref < s.plat.quantEnd → exec .quantumEnd s = .next s) ∧
     (s.plat.switching = true ∨ s.plat.quantEnd ≤ s.ref → e.asid = cur.asid → exec .quantumEnd s = .next (s.beginTurn l i e)) ∧
     (s.plat.switching = false → s.plat.quantEnd ≤ s.ref → e.asid ≠ cur.asid →
       ∃ u, exec .quantumEnd s = .next u ∧ u.turnAsid = none ∧ u.threads = s.threads ∧ u.mem = s.mem ∧
         ∀ c ∈ s.clusters, c.status = .running → (s.launchOfCluster c).map Launch.asid = some cur.asid →
           ∀ t ∈ s.teams, t.cluster = c.id → t.placed = true → ∃ v ∈ u.teams, v.ctxh = t.ctxh ∧ v.evict ≠ none) ∧
     (s.plat.switching = true → e.asid ≠ cur.asid → s.active cur.asid = true → exec .quantumEnd s = .next s) ∧
     (s.plat.switching = true → e.asid ≠ cur.asid → s.active cur.asid = false → exec .quantumEnd s = .next (s.beginTurn l i e)) ∧
     (s.beginTurn l i e).turnAsid = some e.asid ∧ (s.beginTurn l i e).plat.quantEnd = s.ref + (if e.quant = 0 then 2000 else e.quant) * 1000 ∧
     (s.beginTurn l i e).teams = s.teams)

/-- R288 (10), R316, R318, R319 (12), R479, R489 (20): a read of BAR0 answers the register, and clears EVLOST. A write acts under the register's
access code: PWRCAP and EVRD take values in range alone, a root entry keeps its address bits, the request area takes its bytes, a read-only register
ignores it. A BAR2 access goes by the ASID bound last to its function (log 74). A BAR2 read answers the bytes at the homes, and a write is performed
there, as a release at system scope unless it is relaxed; what cannot be reached is an Unsupported Request. Where the rules leave a point open, this
rests on the model's own choice or reading: log entries 15, 48, 74. -/
def Obligations.HostAccess : Prop :=
  ∀ (s : State) (fn : Nat),
    ((s.fnExists fn = false ∨ s.plat.hostUp = false) → ∀ off v n bytes r e, exec (.readClearCounter fn off) s = .next s ∧
      exec (.registerWrite fn off v) s = .next s ∧ exec (.hostBar2Read fn off n) s = .next s ∧ exec (.hostBar2Write fn off bytes r e) s = .next s) ∧
    (s.fnExists fn = true → s.plat.hostUp = true →
      (∀ off, off % 8 = 0 → off < 0x1000000 → ∃ u, exec (.readClearCounter fn off) s = .next u ∧
        u.plat.hostRd = leBytes 8 (s.bar0Word fn off).1.toNat ∧ u.plat.hostRdOk = true ∧ u.mem = s.mem ∧ u.threads = s.threads ∧
        (off = 0x70 → u.plat.hostRd = leBytes 8 (wordOf (s.evLog fn).lost).toNat ∧ (u.evLog fn).lost = 0)) ∧
      (∀ off v, off ∈ [0, 8, 0x28, 0x48, 0x50, 0x58, 0x60, 0x70] → exec (.registerWrite fn off v) s = .next s) ∧
      (∀ v, (v.toNat ≤ (s.evLog fn).wr → (s.evLog fn).wr ≤ v.toNat + 512 → ∃ u, exec (.registerWrite fn 0x68 v) s = .next u ∧ (u.evLog fn).rd = v.toNat) ∧
        ((s.evLog fn).wr < v.toNat ∨ v.toNat + 512 < (s.evLog fn).wr → exec (.registerWrite fn 0x68 v) s = .next s)) ∧
      (∀ k v, k < 512 → ∃ u, exec (.registerWrite fn (0x20000 + 8 * k) v) s = .next u ∧
        ∀ i < 8, assoc? (u.mbox fn).req (8 * k + i) = some (BitVec.ofNat 8 (v.toNat / 256 ^ i))) ∧
      (fn = 0 → ∀ v,
        (800 ≤ fieldOf v.toNat 0 16 → fieldOf v.toNat 0 16 ≤ 2400 →
          ∃ u, exec (.registerWrite 0 0x40 v) s = .next u ∧ u.plat.pwrcap = fieldOf v.toNat 0 16) ∧
        (fieldOf v.toNat 0 16 < 800 ∨ 2400 < fieldOf v.toNat 0 16 → exec (.registerWrite 0 0x40 v) s = .next s) ∧
        (∀ a < 1024, ∃ u, exec (.registerWrite 0 (0x30000 + 8 * a) v) s = .next u ∧ assoc? u.plat.roots a = some (v &&& 0x7FFFFFFF000#64)) ∧
        exec (.registerWrite 0 0x20 v) s = .next (s.writeMbcmd 0 (fieldOf v.toNat 0 16) (fieldOf v.toNat 16 8))) ∧
      (∀ off n bytes r e,
        let pp := s.partyFor (.host fn)
        (∀ u, pp.2.bar2Keys pp.1 fn off n false = (none, u) →
          exec (.hostBar2Read fn off n) s = .next ((u.hostEvent 2 (wordOf off)).hostGets [] false false)) ∧
        (∀ ks u, pp.2.bar2Keys pp.1 fn off n false = (some ks, u) → ∃ v, exec (.hostBar2Read fn off n) s = .next v ∧ v.mem =
            (u.readChunks pp.1 (n + 1) ks).2.2.mem ∧ v.plat.hostRd = (u.readChunks pp.1 (n + 1) ks).1 ∧ v.plat.hostRdOk = true ∧
            v.plat.hostRdEp = (u.readChunks pp.1 (n + 1) ks).2.1) ∧
        (∀ u, pp.2.bar2Keys pp.1 fn off bytes.length true = (none, u) → exec (.hostBar2Write fn off bytes r e) s = .next (u.hostEvent 2 (wordOf off))) ∧
        (∀ ks u, pp.2.bar2Keys pp.1 fn off bytes.length true = (some ks, u) → ∃ v, exec (.hostBar2Write fn off bytes r e) s = .next v ∧ v.mem =
            (u.storeGranules pp.1 (if r then none else some .system) e (bytes.length + 1) (ks.zip bytes)).2.mem) ∧
        (fn = 0 → s.plat.phase = .ready → off + n ≤ 2 ^ 43 → (∀ k ∈ keysFrom off n, backed k = true) →
          (pp.2.bar2Keys pp.1 fn off n false).1 = some (keysFrom off n))))

/-- R322 to R325 (12), R482 (20): a request of a function is served once MBCMD is written. It ends with BUSY clear, DONE set and its CODE: 2 for a command
of the PF alone on a VF, 3 for a body out of range, 4 for no command, 8 once the device has failed; what the part had done then is there for a reader of
DONE to acquire; while a request is being served another is ignored. Commands in range then do what the clauses for them say: a queue whose indices
translate to device memory is mapped at position 0; a stream, a rule or a transmit ring takes its fields, RESEQ beginning at number 1 and jumbo slot 0;
FW_UPDATE copies the code section into the standby bank, ends with CODE 6 for a HOVER that is not written, with CODE 5 and its reason where the image or
the copy does not verify, and with CODE 1 while another is in progress, the running image staying in place. The reason for a copy whose digest differs is
the model's choice (log 83).
Where the rules leave a point open, this rests on the model's own choice or reading: log entries 46, 47, 83. -/
def Obligations.MailboxCommands : Prop :=
  ∀ (s : State) (fn seq : Nat), s.fnExists fn = true →
    let started (opc : Nat) : State := s.putMbox { s.mbox fn with busy := true, done := false, code := 0, clk := [], seq := seq % 256, opc := opc }
    let events : List (Instr × Nat × (State → Nat → Mailbox → State)) :=
      [(.queueCreate fn seq, 1, State.queueCreate), (.queueDestroy fn seq, 2, State.queueDestroy), (.runlistSet fn seq, 3, State.runlistSet),
       (.asidBind fn seq, 4, State.asidBind), (.asidFree fn seq, 5, State.asidFree), (.keymapSet fn seq, 6, State.keymapSet),
       (.streamSet fn seq, 7, State.streamSet), (.ruleSet fn seq, 8, State.ruleSet), (.txringSet fn seq, 9, State.txringSet),
       (.fwUpdate fn seq, 10, State.fwUpdate), (.evict fn seq, 11, State.evictAsid), (.fabricSet fn seq, 12, State.fabricSet)]
    ((s.mbox fn).busy = false →
      (∀ x ∈ events, let u := started x.2.1
        (s.plat.phase = .ready → s.plat.fwsw = false → (fn = 0 ∨ x.2.1 ≤ 2) → exec x.1 s = .next (x.2.2 u fn (u.mbox fn))) ∧
        (s.plat.phase = .ready → s.plat.fwsw = false → fn ≠ 0 → 3 ≤ x.2.1 → exec x.1 s = .next (u.finishMb fn 2 [])) ∧
        (s.plat.phase = .failed → exec x.1 s = .next (u.finishMb fn 8 [])) ∧
        (s.plat.phase = .ready → s.plat.fwsw = true → exec x.1 s = .next u)) ∧
      (∀ opc, opc < 65536 → opc = 0 ∨ 12 < opc → s.plat.phase = .ready → s.plat.fwsw = false →
        exec (.nocmd fn seq opc) s = .next ((started opc).finishMb fn 4 []))) ∧
    ((s.mbox fn).busy = true → ∀ x ∈ events, (s.mbox fn).opc ≠ x.2.1 → exec x.1 s = .next s) ∧
    (∀ code resp, (s.finishMb fn code resp).mbox fn =
      { s.mbox fn with busy := false, done := true, code := code, resp := resp, clk := clkJoin (s.mbox fn).clk s.feClk }) ∧
    (∀ m : Mailbox,
      (m.queueOk = false → s.queueCreate fn m = s.finishMb fn 3 []) ∧
      (m.queueOk = true → m.num 0 2 < 1024 ∧ m.num 8 8 % 4096 = 0 ∧ 64 ≤ m.num 16 4 ∧ m.num 16 4 ≤ 2 ^ 20 ∧ (∃ i, m.num 16 4 = 2 ^ i) ∧
        (m.num 20 1 = 3 ∨ m.num 20 1 = 4) ∧ m.num 22 2 ≤ 127 ∧ m.num 24 8 % 8 = 0 ∧ m.num 32 8 % 8 = 0) ∧
      (m.queueOk = true → s.mayName fn (m.num 0 2) = false → s.queueCreate fn m = s.finishMb fn 2 []) ∧
      (m.queueOk = true → s.mayName fn (m.num 0 2) = true →
        (s.queue? (m.num 0 2) (m.num 22 2) ≠ none → s.queueCreate fn m = s.finishMb fn 3 []) ∧
        (s.queue? (m.num 0 2) (m.num 22 2) = none → ∀ k1 k2 u v, s.fe.2.feKeys s.fe.1 (m.num 0 2) (m.num 24 8) 8 true = (.ok k1, u) →
          u.feKeys s.fe.1 (m.num 0 2) (m.num 32 8) 8 true = (.ok k2, v) →
          ((∀ k ∈ k1 ++ k2, isDeviceKey k = true) → ∃ q : Queue, s.queueCreate fn m = { v with queues := v.queues ++ [q] }.finishMb fn 0 [] ∧
            q.asid = m.num 0 2 ∧ q.qid = m.num 22 2 ∧ q.base = m.num 8 8 ∧ q.size = m.num 16 4 ∧ q.rev = m.num 20 1 ∧ q.widx = m.num 24 8 ∧
            q.ridx = m.num 32 8 ∧ q.owner = fn ∧ q.rpos = 0 ∧ q.wseen = 0 ∧ q.runs = [] ∧ q.halted = false ∧ q.stopping = false) ∧
          ((∃ k ∈ k1 ++ k2, isDeviceKey k = false) → s.queueCreate fn m = v.finishMb fn 3 []))) ∧
      (∀ i, m.only [(0, 1), (2, 27)] = true → m.num 0 1 ≤ 3 → m.num 2 2 ≤ 255 → m.num 4 4 = 2 ^ i → 4 ≤ i → i ≤ 16 → m.num 8 8 % 4096 = 0 →
        m.num 8 8 < 2 ^ 43 → m.num 16 8 % 16384 = 0 → m.num 16 8 < 2 ^ 43 → (m.num 24 4 = 0 ∨ ∃ j ≤ 12, m.num 24 4 = 2 ^ j) → m.num 28 1 ≤ 3 →
        ∀ p, s.port? (m.num 0 1) = some p → ∃ v, (s.streamSet fn m).port? (m.num 0 1) = some v ∧ ((s.streamSet fn m).mbox fn).code = 0 ∧
          (∀ k, k ≠ m.num 2 2 → v.stream k = p.stream k) ∧
          let x := p.stream (m.num 2 2)
          let again : Prop := 2 ≤ m.num 28 1
          v.stream (m.num 2 2) = { x with
            ring := m.num 8 8, slots := m.num 4 4, jring := m.num 16 8, jslots := m.num 24 4, enable := decide (m.num 28 1 % 2 = 1)
            next := if again then 1 else x.next
            jnext := if again then 0 else if m.num 24 4 = 0 then x.jnext else x.jnext % m.num 24 4 }) ∧
      (m.only [(0, 1), (2, 2), (8, 130)] = true → m.num 0 1 ≤ 3 → m.num 2 2 ≤ 255 → m.num 137 1 ≤ 1 →
        let bytes (o : Nat) : List Byte := (List.range 64).map fun i => (assoc? m.req (o + i)).getD 0
        let rule : EthRule := { idx := m.num 2 2, val := bytes 8, mask := bytes 72, stream := m.num 136 1, valid := decide (m.num 137 1 = 1) }
        ∀ p, s.port? (m.num 0 1) = some p → ∃ v, (s.ruleSet fn m).port? (m.num 0 1) = some v ∧ ((s.ruleSet fn m).mbox fn).code = 0 ∧
          ∀ x, x ∈ v.rules ↔ x = rule ∨ (x ∈ p.rules ∧ x.idx ≠ m.num 2 2)) ∧
      (∀ i, m.only [(0, 2), (4, 28)] = true → m.num 0 1 ≤ 3 → m.num 1 1 ≤ 15 → m.num 4 4 = 2 ^ i → 4 ≤ i → i ≤ 12 → m.num 8 8 % 16384 = 0 →
        m.num 16 8 % 8 = 0 → m.num 24 8 % 8 = 0 → m.num 8 8 < 2 ^ 43 → m.num 16 8 < 2 ^ 43 → m.num 24 8 < 2 ^ 43 →
        ∀ p, s.port? (m.num 0 1) = some p → ∃ v, (s.txringSet fn m).port? (m.num 0 1) = some v ∧ ((s.txringSet fn m).mbox fn).code = 0 ∧
          v.rings = { num := m.num 1 1, slots := m.num 4 4, base := m.num 8 8, txp := m.num 16 8, txc := m.num 24 8, sent := 0 } ::
            p.rings.filter fun x => x.num != m.num 1 1) ∧
      (let image := m.num 0 8
       let get := s.imageBytes image
       let legal : Prop := m.only [(0, 12), (16, 8)] = true ∧ image % 4096 = 0 ∧ m.num 16 8 % 4096 = 0 ∧ image < 2 ^ 43 ∧ m.num 16 8 < 2 ^ 43 ∧
         backed image = true ∧ backed (m.num 16 8) = true
       let u := s.fwUpdate fn m
       let running (v : State) : Prop := v.plat.bank = s.plat.bank ∧ v.plat.fwver = s.plat.fwver ∧ ∀ i, v.plat.bankAt s.plat.bank i = s.plat.bankAt s.plat.bank i
       (s.plat.upd = none →
         (¬ legal → u = s.finishMb fn 3 []) ∧
         (legal → Config.writesHover s.plat.runHover (leNum (get 13 1)) = false → running u ∧ u.plat.upd = none ∧ (u.mbox fn).code = 6) ∧
         (legal → Config.writesHover s.plat.runHover (leNum (get 13 1)) = true → running u ∧ u.mem = s.mem ∧
           (∃ w, u.plat.upd = some w ∧ w.fn = fn ∧ w.image = image ∧ w.hand = m.num 16 8 ∧ w.stage = 1) ∧
           ∀ i < (codeOf get).2, (codeOf get).1 + i < 0x80000 →
             u.plat.bankAt (!s.plat.bank) ((codeOf get).1 + i) = (get (codeOf get).1 (codeOf get).2).getD i 0)) ∧
       (∀ w, s.plat.upd = some w →
         (w.fn ≠ fn → u = s.finishMb fn 1 []) ∧
         (w.fn = fn → w.stage = 1 → running u ∧
           let there := (List.range (codeOf get).2).map fun i => s.plat.bankAt (!s.plat.bank) ((codeOf get).1 + i)
           let fails (r : Nat) : Prop := u.plat.upd = none ∧ (u.mbox fn).code = 5 ∧ (u.mbox fn).resp = [(0, BitVec.ofNat 8 r)]
           (∀ r v, r ≠ 0 → s.imageRead.verify get true = (some r, v) → fails r) ∧
           (∀ v, s.imageRead.verify get true = (none, v) → Config.shake256 there 64 ≠ Config.shake256 (measured3 get) 64 → fails 4) ∧
           (∀ v, s.imageRead.verify get true = (none, v) → Config.shake256 there 64 = Config.shake256 (measured3 get) 64 →
             u.plat.upd = some { w with stage := 2, meas2 := measured2 get, meas3 := measured3 get })))) ∧
      (∀ q, m.only [(0, 4)] = true → m.num 0 2 < 1024 → m.num 2 2 ≤ 127 → s.mayName fn (m.num 0 2) = true → s.queue? (m.num 0 2) (m.num 2 2) = some q →
        (q.runs = [] → s.queueDestroy fn m = (s.dropQueue (m.num 0 2) (m.num 2 2)).finishMbWith fn q.clk ∧
          (s.queueDestroy fn m).queue? (m.num 0 2) (m.num 2 2) = none) ∧
        (q.runs ≠ [] → s.queueDestroy fn m = s.updQueue (m.num 0 2) (m.num 2 2) fun q => { q with stopping := true })) ∧
      (m.runEnts.2 = true → s.plat.runList ≠ [] → (s.runlistSet fn m).plat.nextList = some m.runEnts.1 ∧ (s.runlistSet fn m).plat.runList = s.plat.runList) ∧
      (m.only [(0, 4)] = true → m.num 0 2 < 1024 → m.num 2 1 = 0 → 1 ≤ m.num 3 1 → m.num 3 1 ≤ 63 → ∃ x, (s.asidBind fn m).asid? (m.num 0 2) = some x ∧
        x.vf = some (m.num 3 1) ∧ x.enc = false ∧ x.root = (assoc? s.plat.roots (m.num 0 2)).getD 0 ∧ ((s.asidBind fn m).mbox fn).code = 0) ∧
      (m.only [(0, 4)] = true → m.num 2 1 = 1 → s.plat.encAvail = false → s.asidBind fn m = s.finishMb fn 3 []) ∧
      (m.only [(0, 2)] = true → m.num 0 2 < 1024 →
        ((∃ t ∈ s.teams, t.asid = m.num 0 2 ∧ t.status ≠ .retiring) → s.asidFree fn m = s) ∧
        ((∀ t ∈ s.teams, t.asid = m.num 0 2 → t.status = .retiring) → (s.asidFree fn m).asid? (m.num 0 2) = none) ∧
        ((∀ c ∈ s.clusters, c.status = .running → (s.launchOfCluster c).map Launch.asid ≠ some (m.num 0 2)) → s.evictAsid fn m =
          s.finishMbWith fn (((s.teams.filter fun t => t.asid == m.num 0 2).map fun t => s.teamClk t.ctxh).foldl clkJoin []))) ∧
      (m.only [(0, 18)] = true → m.num 0 8 % 2 ^ 21 = 0 → m.num 8 8 % 2 ^ 21 = 0 → m.num 0 8 + m.num 8 8 ≤ 2 ^ 43 → m.num 16 2 < 1024 →
        ∀ k, m.num 0 8 ≤ k → k < m.num 0 8 + m.num 8 8 → keyOwner (s.keymapSet fn m).plat.keyMap k = m.num 16 2) ∧
      (m.only [(0, 2), (8, 2048)] = true → m.num 0 2 ≤ 1023 → (s.fabricSet fn m).plat.ownPeer = m.num 0 2 ∧
        ∀ n < 1024, (assoc? (s.fabricSet fn m).plat.routes n).getD 0 = BitVec.ofNat 16 (m.num (8 + 2 * n) 2)))

/-- R320, R321 (12): DEVSTAT shows READY, ENC, BANK, FWSW and PHASE at their bits, reserved bits zero, ignores writes and has PHASE 0x1 and all else
zero after reset. A 1 in DEVCTL's RESET alone returns every die but Texis to reset and boot to PHASE 0x1; a 1 in GO starts verification of the staged
image in PHASE 0x1 and is ignored in every other; a 0 does nothing; DEVCTL reads as zero. -/
def Obligations.DeviceRegisters : Prop :=
  ∀ (s : State), s.plat.powered = true → s.plat.hostUp = true →
    (∃ u, exec (.readClearCounter 0 8) s = .next u ∧ u.plat.hostRd = leBytes 8 (devstat s.plat) ∧
      devstat s.plat < 2 ^ 8 ∧ ((devstat s.plat).testBit 0 = true ↔ s.plat.phase = .ready) ∧ (devstat s.plat).testBit 1 = s.plat.encAvail ∧
      (devstat s.plat).testBit 2 = s.plat.bank ∧ (devstat s.plat).testBit 3 = s.plat.fwsw ∧
      devstat s.plat / 2 ^ 4 = (match s.plat.phase with
        | .await => 1 | .verify => 2 | .release => 3 | .fwStart => 4 | .ready => 5 | .failed => 15)) ∧
    devstat State.reset.plat = 0x10 ∧ (∀ v, exec (.registerWrite 0 8 v) s = .next s) ∧
    (∃ u, exec (.readClearCounter 0 0x10) s = .next u ∧ u.plat.hostRd = List.replicate 8 0) ∧
    ∀ v : Word,
      (v.getLsbD 1 = true → v.getLsbD 0 = false → ∃ u, exec (.registerWrite 0 0x10 v) s = .next u ∧ u.plat.phase = .await ∧
        u.dies = (List.range 13).map fun n => { Die.reset n with released := n == 12 }) ∧
      (v.getLsbD 1 = false → v.getLsbD 0 = true → s.plat.phase = .await → ∃ u, exec (.registerWrite 0 0x10 v) s = .next u ∧
        exec .devctlGo s = .next u ∧ u = { s with plat := { s.plat with phase := .verify } }) ∧
      (v.getLsbD 1 = false → v.getLsbD 0 = true → s.plat.phase ≠ .await → exec (.registerWrite 0 0x10 v) s = .next s) ∧
      (v.getLsbD 1 = false → v.getLsbD 0 = false → exec (.registerWrite 0 0x10 v) s = .next s)

/-- R316, R321, R326 to R329 (12), R483, R484, R496, R498 (20): a device reset, by DEVCTL or by a Function Level Reset of the PF, leaves PHASE 0x1,
only the I/O die released, no team, empty logs, undefined banks and nothing known in memory; power-up begins there unless Texis's own check fails; a
loss of supply loses all. The boot window takes bytes in PHASE 0x1 alone. GO begins PHASE 0x2 and does nothing in another phase but 0x1; of RESET and
GO in one write the reset alone takes place, which is the model's choice (log 76). Each act of boot then refuses the image with its reason, zeroes the
banks and returns to PHASE 0x1, or has measured it and goes on to PHASE 0x3; releases the next die, or fails there with reason 6; goes on to PHASE 0x4
once all are released; and ends in READY, or fails with reason 7. A reset of a VF stops the queues of the ASIDs bound to it (log 75); it, and a VF's
removal, leave the others. Where the rules leave a point open, this rests on the model's own choice or reading: log entries 8, 46, 49, 75, 76. -/
def Obligations.ResetAndBoot : Prop :=
  ∀ s : State,
    (s.plat.powered = true → ∀ i ∈ [Instr.devctlReset, .flrPf], ∃ u, exec i s = .next u ∧ u.plat.phase = .await ∧ u.plat.reason = 0 ∧ u.plat.tries = 0 ∧
      (∀ d ∈ u.dies, d.released = true ↔ d.num = 12) ∧ u.teams = [] ∧ u.threads = [] ∧ u.queues = [] ∧ u.plat.logs = [] ∧ u.plat.asids = [] ∧
      u.plat.bankA = [] ∧ u.plat.bankB = [] ∧ u.mem = [] ∧ u.zeroed = []) ∧
    (s.plat.powered = false → exec .devctlReset s = .next s ∧ exec .flrPf s = .next s ∧
      ∃ u, exec (.powerUp true) s = .next u ∧ u.plat.powered = true ∧ u.plat.phase = .await ∧ u.mem = [] ∧ u.teams = []) ∧
    exec (.powerUp false) s = .next s ∧
    (∃ u, exec .supplyLoss s = .next u ∧ u.plat.powered = false ∧ u.mem = [] ∧ u.teams = [] ∧ ∀ d ∈ u.dies, d.released = false) ∧
    (∀ off bytes,
      (s.plat.phase = .await → s.plat.powered = true → s.plat.hostUp = true → off + bytes.length ≤ 0x100000 →
        ∃ u, exec (.bootWindowWrite off bytes) s = .next u ∧ u.plat.staged off bytes.length = bytes ∧
          ∀ i n, i + n ≤ off ∨ off + bytes.length ≤ i → u.plat.staged i n = s.plat.staged i n) ∧
      (s.plat.phase ≠ .await → exec (.bootWindowWrite off bytes) s = .next s)) ∧
    (s.plat.phase ≠ .await → exec .devctlGo s = .next s) ∧
    (s.plat.powered = true → s.plat.phase = .await → exec .devctlGo s = .next { s with plat := { s.plat with phase := .verify } }) ∧
    (s.plat.powered = true → s.plat.hostUp = true → ∀ v : Word, v.getLsbD 0 = true → v.getLsbD 1 = true →
      ∃ u, exec (.registerWrite 0 0x10 v) s = .next u ∧ exec .devctlReset s = .next u) ∧
    (s.plat.powered = true → s.plat.phase = .verify →
      let refused (u : State) (r : Nat) : Prop := u.plat.phase = .await ∧ u.plat.reason = r ∧ u.plat.tries = min 255 (s.plat.tries + 1) ∧
        (∀ i n, u.plat.staged i n = List.replicate n 0) ∧ u.dies = s.dies ∧ u.plat.meas = s.plat.meas
      let meas (bytes : List Byte) : Meas := { digest := .of (Config.shake256 bytes 64), count := 0 }
      let get := s.plat.staged
      (∀ r, verifyImage get false = some r → ∃ u, s.tryAct .boot = .next u ∧ refused u r) ∧
      (verifyImage get false = none → ∃ u, s.tryAct .boot = .next u ∧ u.mem = s.mem ∧ u.dies = s.dies ∧
        ((u.plat.phase = .release ∧ u.plat.meas = setAt (setAt s.plat.meas 2 (meas (measured2 get))) 3 (meas (measured3 get))) ∨
          ((leNum (get 13 1) = 0 ∨ 0x80000 ≤ leNum (get 16 4)) ∧ refused u 5)))) ∧
    (s.plat.powered = true → s.plat.phase = .release →
      let next := (List.range 12).find? fun k => ((s.die? k).map fun d => !d.released).getD false
      (next = none → s.tryAct .boot = .next { s with plat := { s.plat with phase := .fwStart } }) ∧
      ∀ k d, next = some k → s.die? k = some d → ∃ u, s.tryAct .boot = .next u ∧ u.mem = s.mem ∧
        ((u.plat.phase = .release ∧ u.die? k = some { d with released := true }) ∨ (u.plat.phase = .failed ∧ u.plat.reason = 6 ∧ u.plat.bootDie = k))) ∧
    (s.plat.powered = true → s.plat.phase = .fwStart → ∃ u, s.tryAct .boot = .next u ∧ u.mem = s.mem ∧
      ((u.plat.phase = .ready ∧ u.plat.reason = 0 ∧ u.plat.fwver = leNum (s.plat.staged 4 4)) ∨
        (u.plat.phase = .failed ∧ u.plat.reason = 7 ∧ u.plat.bootDie ≤ 12))) ∧
    (∀ vf, vf ≠ 0 → s.fnExists vf = true → ∃ u, exec (.flrVf vf) s = .next u ∧ u.teams = s.teams ∧ u.mem = s.mem ∧ u.mbox vf = .empty vf ∧
      (∀ n, n ≠ vf → u.mbox n = s.mbox n ∧ u.evLog n = s.evLog n) ∧
      (∀ q ∈ u.queues, (s.asid? q.asid).bind Asid.vf = some vf → q.stopping = true ∧ q.runs ≠ []) ∧
      (∀ q ∈ s.queues, (s.asid? q.asid).bind Asid.vf ≠ some vf → q ∈ u.queues)) ∧
    (s.plat.powered = true → ∀ n, ∃ u, exec (.sriovVfEnable n) s = .next u ∧ u.plat.numVfs = min n 63 ∧ u.queues = s.queues ∧
      ∀ m, m ≤ min n 63 → u.mbox m = s.mbox m)

/-- R332, R333 (12), R485, R486, R497 (20): once the image has been verified the standby bank takes over with FWSW set; the new image clears FWSW,
replaces slots 2 and 3 with their counts one higher, and the request ends with CODE 0; a new image that fails, or has not done so within 1,000,000
ticks, falls back with CODE 7 and cause 0x82. Outside READY none of this goes on. The watchdog fails the device. R329, R330 (12): Texis answers
through the PF: version 1.3, its one set of algorithms, the digests of both certificate slots, a chain, a signature over a challenge, and the version
of the firmware with one measurement block for each slot. The numbers of the blocks, one above their slots, are the model's choice (log 10). Where the
rules leave a point open, this rests on the model's own choice or reading: log entries 10, 21. -/
def Obligations.FirmwareAndAttestation : Prop :=
  (∀ s : State,
     (s.plat.upd = none → ∀ ok, exec (.firmwareBankSwitch ok) s = .next s ∧ exec .fwFallback s = .next s) ∧
     (∀ w, s.plat.upd = some w → s.plat.phase = .ready →
       (w.stage = 2 → ∀ ok, ∃ u, exec (.firmwareBankSwitch ok) s = .next u ∧ u.plat.fwsw = true ∧ u.plat.bank = !s.plat.bank ∧
         u.plat.upd = some { w with stage := 3, started := s.ref } ∧ u.plat.meas = s.plat.meas ∧ u.threads = s.threads ∧
         (∀ k, k < w.hand ∨ w.hand + 4096 ≤ k → w.hand % 4096 = 0 → u.byteAt k = s.byteAt k)) ∧
       (w.stage = 3 → (s.ref < w.started + 1000000 → ∃ u, exec (.firmwareBankSwitch true) s = .next u ∧ u.plat.fwsw = false ∧ u.plat.bank = s.plat.bank ∧ u.plat.upd = none ∧
           (u.mbox w.fn).code = 0 ∧ (u.mbox w.fn).done = true ∧ (u.mbox w.fn).busy = false ∧ u.mem = s.mem ∧
           (∀ i < 16, i ≠ 2 → i ≠ 3 → u.plat.meas[i]? = s.plat.meas[i]?) ∧
           (∀ a b, s.plat.meas[2]? = some a → s.plat.meas[3]? = some b →
             u.plat.meas[2]? = some { digest := .of (Config.shake256 w.meas2 64), count := a.count + 1 } ∧
             u.plat.meas[3]? = some { digest := .of (Config.shake256 w.meas3 64), count := b.count + 1 })) ∧
         exec (.firmwareBankSwitch false) s = .next (s.fallBack w) ∧
         (w.started + 1000000 ≤ s.ref → exec (.firmwareBankSwitch true) s = .next (s.fallBack w)) ∧
         (w.started + 1000000 ≤ s.ref → exec .fwFallback s = .next (s.fallBack w)) ∧
         (s.ref < w.started + 1000000 → exec .fwFallback s = .next s))) ∧
     (s.plat.phase ≠ .ready → ∀ ok, exec (.firmwareBankSwitch ok) s = .next s ∧ exec .fwFallback s = .next s) ∧
     (∀ w, (s.fallBack w).plat.fwsw = false ∧ (s.fallBack w).plat.bank = !s.plat.bank ∧ (s.fallBack w).plat.upd = none ∧
       ((s.fallBack w).mbox w.fn).code = 7 ∧ (s.fallBack w).plat.meas = s.plat.meas) ∧
     (s.plat.phase = .ready ∨ s.plat.phase = .fwStart → ∃ u, exec .watchdog s = .next u ∧ u.plat.phase = .failed ∧ u.threads = s.threads ∧ u.mem = s.mem ∧
       (s.vfOf 0 ≠ some 0 → Logs 0x82 5 65 0 0 s u) ∧ ∀ a, u.mayStart a = false) ∧
     (s.plat.phase ≠ .ready → s.plat.phase ≠ .fwStart → exec .watchdog s = .next s)) ∧
  (∀ s : State,
     let answers (i : Instr) (r : SpdmResp) : Prop := exec i s = .next { s with plat := { s.plat with spdm := r } }
     (s.plat.powered = true → s.plat.hostUp = true →
       answers .spdmGetVersion (.version 1 3) ∧ answers .spdmGetCapabilities .capabilities ∧ answers .spdmNegotiateAlgorithms .algorithms ∧
       (let c0 := Config.certChain 0
        let c1 := Config.certChain 1 ++ s.plat.spdmSlot1
        answers .spdmGetDigests (.digests [Config.sha3 c0, Config.sha3 c1]) ∧
        answers (.spdmGetCertificate 0) (.certificate 0 c0) ∧ answers (.spdmGetCertificate 1) (.certificate 1 c1) ∧
        (∀ n, 2 ≤ n → answers (.spdmGetCertificate n) .error ∧ ∀ nonce, answers (.spdmChallenge n nonce) .error) ∧
        ∀ nonce, answers (.spdmChallenge 0 nonce) (.challenge 0 (Config.mldsaSign (nonce ++ Config.sha3 c0))) ∧
          answers (.spdmChallenge 1 nonce) (.challenge 1 (Config.mldsaSign (nonce ++ Config.sha3 c1)))) ∧
       ∀ nonce, ∃ sig : Nat → List Byte, (∀ i, ∃ b, sig i = Config.mldsaSign (nonce ++ b)) ∧
         answers (.spdmGetMeasurements 0xFF nonce) (.measurements s.plat.fwver 16 (s.plat.meas.zipIdx.map fun x => (x.2, x.1)) (sig 0xFF)) ∧
         answers (.spdmGetMeasurements 0 nonce) (.measurements s.plat.fwver 16 [] (sig 0)) ∧
         ∀ n m, n < 16 → s.plat.meas[n]? = some m → answers (.spdmGetMeasurements (n + 1) nonce) (.measurements s.plat.fwver 16 [(n, m)] (sig (n + 1)))) ∧
     ((s.plat.powered = false ∨ s.plat.hostUp = false) → ∀ op nonce, exec .spdmGetVersion s = .next s ∧ exec (.spdmGetMeasurements op nonce) s = .next s))

/-- R336, R337, R349 (12), R495, R496 (20): a compute die steps in hundreds of megahertz through a relock of 2,000 ticks, in which CLK and CLKS hold,
and its new INC then stands in FHIST; while the supply is out of its limits it steps to 800 MHz alone, and while firmware changes banks not at all,
neither for heat nor for the supply. A hot die claims nothing until it has cooled; a reading of the power is kept, and is not logged while it is
within the cap or a compute die runs faster than 800 MHz; a die at its junction limit stops the core clocks and fails the device. Where the rules
leave a point open, this rests on the model's own choice or reading: log entries 8, 12, 49, 53. -/
def Obligations.PowerAndTime : Prop :=
  ∀ (s : State) (die : Nat) (d : Die), s.die? die = some d →
    let legal (mhz : Nat) : Prop := die < 4 ∧ 800 ≤ mhz ∧ mhz ≤ 1800 ∧ mhz % 100 = 0 ∧ s.plat.fwsw = false ∧ (s.plat.supplyHeld = true → mhz = 800)
    let dieIn (u : State) (x : Die) : Prop := u.die? die = some x
    (∀ mhz, s.plat.phase = .ready → d.released = true → d.relock = none → d.mhz ≠ mhz →
      (legal mhz → ∃ u, exec (.frequencyStep die mhz) s = .next u ∧ dieIn u { d with relock := some mhz, relockAt := d.ref + 2000 }) ∧
      (¬ legal mhz → exec (.frequencyStep die mhz) s = .next s)) ∧
    (∀ mhz, d.relock = some mhz → d.released = true →
      (d.relockAt ≤ d.ref → ∃ u x h, exec (.relockEnd die) s = .next u ∧ dieIn u x ∧ x.mhz = mhz ∧ x.inc = incOf mhz ∧ x.relock = none ∧
        x.clk = d.clk ∧ x.clks = d.clks ∧ x.fhist.head? = some h ∧ h.ref = d.relockAt ∧ h.mhz = mhz ∧ h.inc = incOf mhz) ∧
      (d.ref < d.relockAt → ∃ u, exec (.relockEnd die) s = .next u ∧ dieIn u d) ∧
      ∀ n, d.ref + n ≤ d.relockAt → d.pass false n = { d with ref := d.ref + n }) ∧
    (incOf 800 = 0x22000 ∧ incOf 1700 = 0x10000 ∧ incOf 1800 = 0xF1C7) ∧
    (d.released = true → d.relock = none → d.frac = 0 → d.clks % 65536 = 0 →
      (d.mhz = 800 → d.inc = incOf 800 → (d.pass false 1000000).clks / 65536 = d.clks / 65536 + 1700000) ∧
      (d.mhz = 1800 → d.inc = incOf 1800 → (d.pass false 1000000).clks / 65536 = d.clks / 65536 + 1699996)) ∧
    (∀ t, s.plat.powered = true → ∃ u, exec (.powerLimit t) s = .next u ∧ u.plat.pwrnow = t ∧ u.dies = s.dies ∧ u.mem = s.mem ∧
      (t ≤ s.plat.pwrcap * 10 ∨ s.allSlow = false → u.plat.overFrom = none ∧ u.plat.logs = s.plat.logs)) ∧
    (die < 4 → d.released = true → d.mhz = 800 → d.relock = none → s.plat.phase = .ready → s.plat.fwsw = false →
      ∃ u, exec (.dieHot die) s = .next u ∧ dieIn u { d with hot := true } ∧ 950 ≤ u.plat.tempmax ∧ u.claimNext die = none) ∧
    (d.hot = true → ∃ u, exec (.dieCooled die) s = .next u ∧ dieIn u { d with hot := false }) ∧
    (s.plat.fwsw = true → exec (.dieHot die) s = .next s ∧ exec .supplyOutOfRange s = .next s) ∧
    (s.plat.phase = .ready → s.plat.fwsw = false → s.plat.supplyHeld = false → ∃ u x, exec .supplyOutOfRange s = .next u ∧ u.plat.supplyHeld = true ∧ dieIn u x ∧
      (die < 4 → d.released = true → x.relock = some 800 ∨ (x.relock = none ∧ x.mhz = 800)) ∧ (4 ≤ die → x = d)) ∧
    (∃ u, exec .supplyInRange s = .next u ∧ u = { s with plat := { s.plat with supplyHeld := false } }) ∧
    (s.plat.powered = true → die ≤ 12 → ∃ u, exec (.thermalTrip die) s = .next u ∧ u.plat.clockStop = true ∧ u.plat.phase = .failed ∧
      u.dies = s.dies ∧ u.mem = s.mem ∧ ∀ n x, die ≠ 12 → d.released = true → d.relock = none → (u.elapse n).die? die = some x →
        x.clk = d.clk ∧ x.clks = d.clks ∧ x.ref = d.ref + n)

/-- R487, R488, R489, R494 (20), R346, R347 (12): a flit that arrives damaged is sent again; one that has failed less than eight times changes nothing
else. A plane that retrains stands at full or half width, or its boundary is lost and the device fails; a Ronou port that retrains stands at full or
half width, the time of the latter being kept; one that fails to retrain is down, and one that is down or disabled carries nothing. A peer's access is
performed, or, where it is no legal one, leaves device memory, meets a home that does not work or writes to a sealed range, refused back and counted.
The host link goes down and comes up, and the part runs on. R426, R427 (17): a load whose reply is lost, or does not come within 10,000,000 ticks,
pushes poisoned values in its lanes and touches no memory; a timeout is reported as cause 0x28. One of an atomic's request leaves open whether it was
performed. A store whose completion does not come is logged without its values. A lost reply to a cache's fill poisons the line's bytes but the dirty
ones. Nothing of this reaches a die that relocks (R337). The reply of an atomic may be lost after it has been applied. Where the rules leave a point
open, this rests on the model's own choice or reading: log entries 22, 23, 50, 54, 66. -/
def Obligations.LinksAndReplies : Prop :=
  (∀ s : State, s.plat.powered = true →
     (∀ link plane, link ≤ 16 → plane ≤ 1 → (s.planeOf link plane).training = false → (s.planeOf link plane).lost = false →
       ((s.planeOf link plane).tries = 0 → ∃ u, exec (.flitCrcError link plane) s = .next u ∧
         u = s.putPlane { s.planeOf link plane with tries := 1 }) ∧
       ((s.planeOf link plane).tries < 7 → ∃ u, exec (.flitCrcError link plane) s = .next u ∧ u.mem = s.mem ∧ u.plat.phase = s.plat.phase ∧
         (u.planeOf link plane).training = false)) ∧
     (∀ link plane, link ≤ 16 → (s.planeOf link plane).training = true →
       (∃ u, exec (.linkRetrainEnd link plane .full) s = .next u ∧ (u.planeOf link plane).training = false ∧ (u.planeOf link plane).half = none) ∧
       (∃ u, exec (.linkRetrainEnd link plane .half) s = .next u ∧ (u.planeOf link plane).training = false ∧ (u.planeOf link plane).half = some s.ref ∧
         u.plat.phase = s.plat.phase) ∧
       (∃ u, exec (.linkRetrainEnd link plane .failed) s = .next u ∧ u.lostLink link = true ∧ u.plat.phase = .failed)) ∧
     (∀ n p, s.ronou? n = some p →
       (p.down = false → p.enable = true → ∃ u x, exec (.ronouPortDown n) s = .next u ∧ u.ronou? n = some x ∧ x.down = true ∧ x.up = false) ∧
       (∃ u x, exec (.ronouPortDisable n) s = .next u ∧ u.ronou? n = some x ∧ x.enable = false ∧ x.up = false) ∧
       (∀ nbr, ∃ u x, exec (.ronouPortRetrain n .full nbr) s = .next u ∧ u.ronou? n = some x ∧ x.up = true ∧ x.half = false ∧ x.down = false ∧
         x.nbr = nbr % 1024 ∧ (p.up = true → x.retrain = p.retrain + 1)) ∧
       (∀ nbr, ∃ u x, exec (.ronouPortRetrain n .half nbr) s = .next u ∧ u.ronou? n = some x ∧ x.up = true ∧ x.half = true ∧ x.halfAt = s.ref) ∧
       (p.up = true → p.enable = true → p.down = false → ∀ peer a,
         let w := s.cross ioDie (peerNarrow a) (peerSpan a).1
         (peerLegal a = false ∨ ((peerSpan a).2 = true ∧ ∃ k ∈ (peerSpan a).1, s.sealed k = true) ∨
             ¬ (∀ k ∈ (peerSpan a).1, isDeviceKey k = true ∧ backed k = true ∧ s.homeWorks k = true) →
           ∃ u x, exec (.ronouPeerAccess n peer a) s = .next u ∧ u.ronou? n = some x ∧ x.refused = p.refused + 1 ∧ u.mem = s.mem) ∧
         ((∀ k ∈ (peerSpan a).1, isDeviceKey k = true ∧ backed k = true ∧ s.homeWorks k = true ∧ ((peerSpan a).2 = true → s.sealed k = false)) →
           peerLegal a = true →
           exec (.ronouPeerAccess n peer a) s =
             .next ((w.partyFor (.peer (peer % 1024))).2.peerPerform (w.partyFor (.peer (peer % 1024))).1 a))) ∧
       ((p.up = false ∨ p.enable = false ∨ p.down = true) → ∀ peer a, exec (.ronouPeerAccess n peer a) s = .next s)) ∧
     (∀ party pa len, (s.peerPerform party (.read pa len)).plat.peerVer = s.versionAt pa ∧
       (s.peerPerform party (.version pa)).plat.peerVer = s.versionAt pa ∧ (s.peerPerform party (.version pa)).mem = s.mem) ∧
     (∃ u, exec .hostLinkUp s = .next u ∧ u = { s with plat := { s.plat with hostUp := true } }) ∧
     (s.plat.hostUp = true → (∃ u, exec .hostLinkDown s = .next u ∧ u.plat.hostUp = false ∧ u.threads = s.threads ∧ u.mem = s.mem ∧ u.queues = s.queues) ∧
       exec .hostLinkError s = .next (s.hostEvent 1 0))) ∧
  (∀ (s : State) (who : Who) (id : Nat) (t : Warp), s.thread? who = some t → t.pend.find? (fun p => p.id == id) = none →
     (∀ lanes, exec (.remoteAccessTimeout who id lanes) s = .next (s.storeLost who)) ∧
     ∀ lanes lvl owner line,
       (∀ l, s.line? lvl owner line = some l → lvl ≠ .home → s.stalled (if lvl = .l1 then owner / 16 else owner) = false →
         ∃ u y, exec (.replyLost who id lanes (.fill lvl owner line)) s = .next u ∧ u.line? lvl owner line = some y ∧ u.mem = s.mem ∧
           ∀ g, g ∈ y.bad ↔ g ∈ l.bad ∨ (g / 8 = line ∧ ∀ i < 8, l.dirty.getLsbD (g % 8 * 8 + i) = false)) ∧
       (s.line? lvl owner line = none → exec (.replyLost who id lanes (.fill lvl owner line)) s = .next s)) ∧
  (∀ (s : State) (who : Who) (id : Nat) (t : Warp) (p : Pend) (r : MemReq) (lanes : Mask), s.thread? who = some t →
     t.pend.find? (fun p => p.id == id) = some p → p.kind = .mem r →
     (s.stalled (s.dieOf who) = true → exec (.remoteAccessTimeout who id lanes) s = .next s ∧ exec (.replyLost who id lanes (.load true)) s = .next s ∧
       exec (.replyLost who id lanes .atomic) s = .next s) ∧ (s.stalled (s.dieOf who) = false →
     let remote := lanesWith p r lanes fun a => a.keys.any fun k => isHostKey k || isPeerKey k
     let here := lanesWith p r lanes fun a => !a.keys.any isSpKey
     (remote = 0 ∨ s.ref < p.ref + 10000000 → exec (.remoteAccessTimeout who id lanes) s = .next s) ∧
     (remote ≠ 0 → p.ref + 10000000 ≤ s.ref → r.op.isAtomic = false → exec (.remoteAccessTimeout who id lanes) s =
       .next (((s.noCompletion r remote).poisonLanes who p r remote).reqTraps who p.spl p.pc p.word p.later r
         { ReqOut.nothing with unreach := (lanesOf remote).map fun l => (l, 4) })) ∧
     (remote ≠ 0 → p.ref + 10000000 ≤ s.ref → r.op.isAtomic = true →
       let all := performedWith r remote
       let c := takeChoice (s.noCompletion r remote) 2
       let at_ := c.2.placeOfWho who
       let d := if c.1 = 1 then (c.2.perform at_.1 at_.2 (c.2.ctxhOf who) r all).2 else c.2
       exec (.remoteAccessTimeout who id lanes) s = .next ((d.poisonLanes who p r all).noData who p r all)) ∧
     (here ≠ 0 → r.op.isAtomic = false → exec (.replyLost who id lanes (.load true)) s = .next (s.poisonLanes who p r here)) ∧
     (here = 0 ∨ r.op.isAtomic = true → exec (.replyLost who id lanes (.load true)) s = .next s) ∧
     (let hit := performedWith r (lanesWith p r lanes fun a => a.pt == pointHome)
      hit ≠ 0 → r.op.isAtomic = true →
       let at_ := s.placeOfWho who
       let d := s.perform at_.1 at_.2 (s.ctxhOf who) r hit
       exec (.replyLost who id lanes .atomic) s = .next (((d.2.poisonLanes who p r hit).reqTraps who p.spl p.pc p.word p.later r d.1).noData who p r
         (hit &&& ~~~ maskOf (d.1.refused ++ d.1.unreach.map Prod.fst)))) ∧
     (∀ m : Mask, (s.poisonLanes who p r m).mem = s.mem ∧
       ∀ th, (s.poisonLanes who p r m).thread? who = some th → ∀ l q e, m.getLsbD l = true → t.queue[l]? = some q → e ∈ q →
         (∃ k, e.pend = some (p.id, k)) → ∃ q', th.queue[l]? = some q' ∧ ∃ x ∈ q', x.poison = true ∧ x.pend = none)))

/-- R490, R491 (20): a received frame that is not written is dropped under the one counter that says why: RXBAD, RXNOMATCH and RXOFF take no sequence
number; DROPJ, DROPO and DROPS keep the number they took, the next frame takes the one after it, and the first frame written after them bears GAP. No
byte of memory changes. That the payload is the whole frame, and that a frame which meets a sealed range or an unbacked one in part is dropped whole,
is the model's choice (log 52).
Where the rules leave a point open, this rests on the model's own choice or reading: log entry 52. -/
def Obligations.FrameFates : Prop :=
  ∀ (s : State) (n : Nat) (p : EthPort), s.port? n = some p → s.plat.powered = true → p.link = true → ∀ frame full,
    let fate (bad full : Bool) (ok : EthPort → Prop) : Prop :=
      ∃ u v, exec (.ethernetFrameReceive n frame bad full) s = .next u ∧ u.port? n = some v ∧ ok v ∧ u.mem = s.mem
    let long : Prop := 1984 < frame.length
    (frame.length < 64 ∨ 16384 < frame.length → ∀ bad, fate bad full fun v => v = { p with rxbad := p.rxbad + 1 }) ∧
    (fate true full fun v => v = { p with rxbad := p.rxbad + 1 }) ∧
    (64 ≤ frame.length → frame.length ≤ 16384 →
      (p.classify frame = none → fate false full fun v => v = { p with rxnomatch := p.rxnomatch + 1 }) ∧
      ∀ k, p.classify frame = some k →
        let x := p.stream k
        (x.enable = false → fate false full fun v => v.stream k = { x with rxoff := x.rxoff + 1 }) ∧
        (x.enable = true → long → x.jslots = 0 → fate false full fun v =>
          v.stream k = { x with dropj := x.dropj + 1, next := x.next + 1, gap := true }) ∧
        (x.enable = true → (¬ long ∨ x.jslots ≠ 0) → fate false true fun v =>
          v.stream k = { x with dropo := x.dropo + 1, next := x.next + 1, gap := true }) ∧
        (x.enable = true → (¬ long ∨ x.jslots ≠ 0) → s.frameSealed x frame.length = true → fate false false fun v =>
          v.stream k = { x with drops := x.drops + 1, next := x.next + 1, gap := true }))

/-- R264, R265 (09), R341 to R345 (12), R491 to R493 (20): a frame goes to the stream of the first rule that it matches, or to stream 0 by default, and
one that no fate of R490 stops is written: its payload behind the header of its slot, or from byte 0 of the next jumbo slot, the header with the stamp,
the length, the port, JUMBO, GAP and JSLOT, and SEQ, the stream's next number; the next frame takes the number after it. A slot whose index has been
published is sent with the bytes that stand behind its header, its number in TSEQ, with a stamp where it asks for one; one with a bad header, or with
the link down, is passed over with bit 63 of TSEQ set and counted in TXBAD or TXDOWN; either way TXC names one slot more. A change of the link is
counted and logged as 0x80 at level none with the port's source. PHCSEC latches the nanoseconds, and a step in range moves the clock at once. Memory
is stated where no range is sealed, and where the ranges written lie apart.
Where the rules leave a point open, this rests on the model's own choice or reading: log entries 51, 52. -/
def Obligations.EthernetFrames : Prop :=
  ∀ (s : State) (n : Nat) (p : EthPort), s.port? n = some p →
    let portIn (u : State) (x : EthPort) : Prop := u.port? n = some x
    (s.plat.powered = true → p.link = true → ∀ frame k, 64 ≤ frame.length → frame.length ≤ 16384 → p.classify frame = some k →
      let x := p.stream k
      x.enable = true → (frame.length ≤ 1984 ∨ x.jslots ≠ 0) → s.frameSealed x frame.length = false →
        exec (.ethernetFrameReceive n frame false false) s = .next (s.writeFrame n x frame
          (stampBytes (((p.sync s.ref).phc + phcTop - Config.rxLat n % phcTop) % phcTop)))) ∧
    (∀ frame k, p.classify frame = some k →
      (p.dflt = true ∧ k = 0 ∧ ∀ r ∈ p.rules, r.valid = true → ∃ i < 64, frame.getD i 0 &&& r.mask.getD i 0 ≠ r.val.getD i 0 &&& r.mask.getD i 0) ∨
      ∃ r ∈ p.rules, r.valid = true ∧ r.stream = k ∧ ∀ i < 64, frame.getD i 0 &&& r.mask.getD i 0 = r.val.getD i 0 &&& r.mask.getD i 0) ∧
    (∀ ring r, p.rings.find? (fun r => r.num == ring) = some r → s.plat.powered = true → s.ringTurn p ring = true →
      let pp := s.partyFor (.port n (256 + ring))
      let rd := (pp.2.cross ioDie false (keysFrom r.txp 8)).readNow pp.1 (some .device) (keysFrom r.txp 8)
      (leNum rd.1 ≤ r.sent → exec (.ethernetFrameTransmit n ring) s = .next rd.2.2) ∧
      (r.sent < leNum rd.1 → exec (.ethernetFrameTransmit n ring) s = .next (rd.2.2.sendSlot p r pp.1))) ∧
    (∀ (x : Stream) (frame stamp : List Byte), s.memOk → (∀ k, s.sealed k = false) → stamp.length = 12 → x.next < 2 ^ 64 → n < 256 →
      let u := s.writeFrame n x frame stamp
      let jumbo : Prop := 1984 < frame.length
      let base := x.ring + 2048 * ((x.next - 1) % x.slots)
      let place := if jumbo then x.jring + 16384 * x.jnext else base + 64
      let field (off len v : Nat) : Prop := ∀ i < len, u.byteAt (base + off + i) = some (BitVec.ofNat 8 (v / 256 ^ i))
      (place + frame.length ≤ base ∨ base + 64 ≤ place → ∀ i < frame.length, u.byteAt (place + i) = some (frame.getD i 0)) ∧
      field 0 8 x.next ∧ (∀ i < 12, u.byteAt (base + 8 + i) = some (stamp.getD i 0)) ∧ field 20 2 frame.length ∧ field 22 1 n ∧
      field 23 1 ((if jumbo then 1 else 0) + (if x.gap then 2 else 0)) ∧ field 24 4 (if jumbo then x.jnext else 0) ∧ field 28 36 0 ∧
      ∃ v, portIn u v ∧ v.stream x.num = { x with
        next := x.next + 1, gap := false, held := (v.stream x.num).held, jnext := if jumbo then (x.jnext + 1) % x.jslots else x.jnext }) ∧
    (∀ (r : TxRing) (party : Nat), s.memOk → (∀ k, s.sealed k = false) → r.sent + 1 < 2 ^ 63 →
      let slot := r.base + 16384 * (r.sent % r.slots)
      let hd := s.portRead party 64 slot
      let get (off len : Nat) : Nat := leNum ((hd.1.drop off).take len)
      let bad : Prop := get 20 2 < 64 ∨ 16320 < get 20 2 ∨ 1 < get 22 1 ∨ ∃ b ∈ hd.1.drop 23, b ≠ 0
      let frame := (hd.2.portRead party (get 20 2) (slot + 64)).1
      let u := s.sendSlot p r party
      let number (off v : Nat) : Prop := ∀ i < 8, u.byteAt (off + i) = some (BitVec.ofNat 8 (v / 256 ^ i))
      let apart : Prop := r.txc + 8 ≤ slot ∨ slot + 20 ≤ r.txc
      let sent := p.rings.map fun y => if y.num == r.num then { y with sent := y.sent + 1 } else y
      let moves (f : EthPort → EthPort) : Prop := portIn u (f { p with lastRing := r.num, rings := sent })
      number r.txc (r.sent + 1) ∧
      (bad → u.plat.sent = s.plat.sent ∧ (apart → number slot (r.sent + 1 + 2 ^ 63)) ∧ moves fun p => { p with txbad := p.txbad + 1 }) ∧
      (¬ bad → p.link = false →
        u.plat.sent = s.plat.sent ∧ (apart → number slot (r.sent + 1 + 2 ^ 63)) ∧ moves fun p => { p with txdown := p.txdown + 1 }) ∧
      (¬ bad → p.link = true → u.plat.sent = s.plat.sent ++ [{ port := n, bytes := frame }] ∧ (apart → number slot (r.sent + 1)) ∧ (moves fun p => p) ∧
        (get 22 1 = 1 → apart → ∀ i < 12, u.byteAt (slot + 8 + i) =
          some ((stampBytes (((p.sync s.ref).phc + Config.txLat n) % phcTop)).getD i 0)))) ∧
    (∀ up lock, ∃ u, exec (.ethernetLinkChange n up lock) s = .next u ∧
      portIn u { p with link := up, lock := lock, linkdown := if p.link = true ∧ up = false then p.linkdown + 1 else p.linkdown } ∧
      (p.link = up → u.plat.logs = s.plat.logs) ∧ (p.link ≠ up → s.vfOf 0 ≠ some 0 → Logs 0x80 0 (16 + n) 0 0 s u)) ∧
    (s.plat.powered = true → s.plat.hostUp = true →
      (n < 4 → ∃ u x, exec (.phcsecRead n) s = .next u ∧ portIn u x ∧ u.plat.hostRd = leBytes 8 (wordOf (p.sync s.ref).seconds).toNat ∧
        x.phcns = (p.sync s.ref).nsWord ∧ x.phc = (p.sync s.ref).phc) ∧
      ∀ v : Word, (-(2 ^ 47 : Int) ≤ v.toInt → v.toInt ≤ 2 ^ 47 → ∃ u x, exec (.phcstep n v) s = .next u ∧ portIn u x ∧
          x.phc = ((((p.sync s.ref).phc : Int) + v.toInt * 2 ^ 16) % phcTop).toNat) ∧
        (v.toInt < -(2 ^ 47 : Int) ∨ 2 ^ 47 < v.toInt → exec (.phcstep n v) s = .next s))

/-- R428, R432, R435 (17), R481 (20): an error that is corrected is counted, by structure, die and place, and changes no value. One that is not
poisons the lane word, the granule or the value it hits; a clean line is dropped, a cache's granule is dropped where it is clean and poisoned in that
cache where it is not, a clean entry of a table costs nothing, a directory entry names all dies, a holder entry and an edge go; a page table entry
loses its context with cause 0x74; a line whose tags are lost while it is dirty fails the device, or poisons its bytes where its address is known, and
a clean one is dropped; state that all contexts share, and the active firmware bank, fail the device, and the standby bank ends an update with CODE 5.
The scrub poisons what it finds, logs it as 0x71 with its address, corrections counting as such, and rests while the core clocks stand. Where the
rules leave a point open, this rests on the model's own choice or reading: log entries 31, 50. -/
def Obligations.SoftErrors : Prop :=
  ∀ s : State, s.plat.powered = true →
    let bad (p : EccPlace) (u : State) : Prop := exec (.eccError p false) s = .next u
    (∀ p, ∃ u, exec (.eccError p true) s = .next u ∧ u.mem = s.mem ∧ u.threads = s.threads ∧ u.teams = s.teams ∧ u.lines = s.lines ∧ u.poison = s.poison ∧
      u.plat.corrections = (eccKind p, s.eccDie p, eccAt p) :: s.plat.corrections ∧
      assoc? u.plat.diag (0x10000 + eccKind p * 16 + s.eccDie p) = some ((assoc? s.plat.diag (0x10000 + eccKind p * 16 + s.eccDie p)).getD 0 + 1)) ∧
    (∀ who t lane age q e, s.thread? who = some t → t.queue[lane]? = some q → q[age]? = some e → e.pend = none →
      ∃ u th q', bad (.queue who lane (age + 1)) u ∧ u.thread? who = some th ∧ th.queue[lane]? = some q' ∧ q'[age]? = some { e with poison := true } ∧
        ∀ i, i ≠ age → q'[i]? = q[i]?) ∧
    (∀ k, ∃ u, bad (.granule k) u ∧ u.poisonedKey k = true ∧ u.mem = s.mem ∧ ∀ j, j / 8 ≠ k / 8 → u.poisonedKey j = s.poisonedKey j) ∧
    (∀ lvl owner line, s.line? lvl owner line = none → ∀ known, bad (.lineTag lvl owner line known) s) ∧
    (∀ lvl owner line l, s.line? lvl owner line = some l → lvl ≠ .home → l.dirty = 0 → ∀ known, ∃ u, bad (.lineTag lvl owner line known) u ∧
      u.line? lvl owner line = none ∧ u.mem = s.mem ∧ u.plat.phase = s.plat.phase) ∧
    (∀ lvl owner line l, s.line? lvl owner line = some l → lvl ≠ .home → l.dirty ≠ 0 →
      (∃ u, bad (.lineTag lvl owner line false) u ∧ u.plat.phase = .failed) ∧
      ∃ u, bad (.lineTag lvl owner line true) u ∧ u.line? lvl owner line = none ∧ u.plat.phase = s.plat.phase ∧
        ∀ i < 64, u.poisonedKey (line * 64 + i) = true) ∧
    (∀ owner line known, ∃ u, bad (.lineTag .home owner line known) u ∧ u.mem = s.mem ∧ (u.line? .home owner line = none ∨ u.plat.phase = .failed)) ∧
    (∀ lvl owner k l, lvl ≠ .home → s.line? lvl owner (lineOf k) = some l →
      (k / 8 ∈ l.cleanGranules → bad (.cache lvl owner k) (s.correctedAt (.cache lvl owner k))) ∧
      (k / 8 ∉ l.cleanGranules → ∃ u y, bad (.cache lvl owner k) u ∧ u.line? lvl owner (lineOf k) = some y ∧ k / 8 ∈ y.bad ∧ u.mem = s.mem)) ∧
    (∀ n die, bad (.clean n die) (s.correctedAt (.clean n die))) ∧
    (∀ a pa, bad (.pageEntry a pa) (s.loseContext a 0x74 (a * 2 ^ 22) 0)) ∧
    (s.plat.phase = .ready ∨ s.plat.phase = .fwStart → ∃ u, bad (.bank true) u ∧ u.plat.phase = .failed ∧ (s.vfOf 0 ≠ some 0 → Logs 0x82 5 65 0 0 s u)) ∧
    (s.plat.phase = .ready → ∀ w, s.plat.upd = some w → w.stage = 1 →
      ∃ u, bad (.bank false) u ∧ u.plat.upd = none ∧ (u.mbox w.fn).code = 5 ∧ (u.mbox w.fn).done = true ∧ (u.mbox w.fn).busy = false) ∧
    (∀ line, ∃ u, bad (.directory line) u ∧ assoc? u.dir line = some [0, 1, 2, 3]) ∧
    (∀ m i, ∃ u, bad (.holder m i) u ∧ u.mem = s.mem ∧ ∀ o ∈ u.objs, ¬ (o.mdie = m ∧ o.idx = i)) ∧
    (∀ d i, ∃ u, bad (.edge d i) u ∧ ∀ e ∈ u.edges, ¬ (e.die = d ∧ e.idx = i)) ∧
    (∀ die, ∃ u, bad (.shared die) u ∧ u.plat.phase = .failed) ∧
    (s.plat.clockStop = true → ∀ m line good bits, exec (.memoryScrub m line good bits) s = .next s) ∧
    (s.plat.clockStop = false → ∀ m line good bits, ∃ u, exec (.memoryScrub m line good bits) s = .next u ∧ u.mem = s.mem ∧ u.threads = s.threads ∧
      (∀ i < 8, bits.getLsbD i = true → u.poisonedKey (m % 8 * 2 ^ 40 + line % 0x60000000 * 64 + 8 * i) = true) ∧
      (good = false → bits ≠ 0 → s.vfOf 0 ≠ some 0 → Logs 0x71 1 (4 + m % 8) 0 (BitVec.ofNat 64 (m % 8 * 2 ^ 40 + line % 0x60000000 * 64)) s u) ∧
      (good = false → bits = 0 → u = s) ∧
      (good = true → u.plat.corrections = (16, 4 + m % 8, m % 8 * 2 ^ 40 + line % 0x60000000 * 64) :: s.plat.corrections))

/-- R135, R136 (06), R56 (03), R168 to R170, R198 to R200 (07): the queue and frame instructions, the ends of lanes, locks and software edges
complete. `exec` of each answers a next state, whatever the rest of the state, under the conditions that its clause names: that it may issue; for a
slot, that it lies in the frame and its private place may be read and written; for a change of the frame and an exit, that no entry leaves or enters
the window; for `spill`, that the private places may be written; for a lock or an object, that the lead lane's address translates, a replay entry is
free, that what it crosses is open, and that the lock is free, waited for by no one and not sealed, or its holder releases it. But for a split that
exits, the split then goes on at the next address with its lanes. `exit` marks its lanes as exited; `trap` and an enabled `brk` stop a running team
with their cause; `yield` makes the split wait; a lock taken is counted and recorded, and one released is neither; a hold or a wait that is registered
stands, and one that is dropped does not. Where the rules leave a point open, this rests on the model's own choice or reading: log entries 14, 23, 26,
32, 35, 67. -/
def Obligations.FormsComplete : Prop :=
  ∀ (h : Hdr) (s : State) (cx : Cx) (s1 : State),
    let goesOn (i : Instr) (P : State → Warp → Split → Prop) : Prop :=
      ∃ t th x, exec i s = .next t ∧ t.thread? cx.who = some th ∧ th.split? cx.k = some x ∧ x.pc = cx.nextPc ∧ x.mask = cx.mask ∧ P t th x
    let same : State → Warp → Split → Prop := fun _ th _ => th.queue = cx.t.queue ∧ th.frame = cx.t.frame
    (s.ready h (Shape.user [] false) = some (cx, s1) →
      goesOn (.nop h) same ∧ (∀ n, goesOn (.fill h n) same) ∧ (∀ n, cx.who.isUser = false → goesOn (.spill h n) same) ∧
      ∀ n u, cx.who.isUser = true →
        let hi := min (cx.t.win + BitVec.toNat n) cx.t.top
        (s1.done cx).spills cx ((List.range (hi - cx.t.win)).map (cx.t.win + ·)) = some u →
          exec (.spill h n) s = .next u ∧ ∃ th, u.thread? cx.who = some th ∧ ∀ i, cx.t.win ≤ i → i < hi → i ∈ th.clean) ∧
    (s.ready h (Shape.user (src1 h) true) = some (cx, s1) →
      let os := (s1.operands cx (src1 h) true).1
      let s2 := (s1.operands cx (src1 h) true).2
      let v (l : Nat) : Word := if h.ty = .b32 then BitVec.ofNat 64 ((arg (valsAt os l) 0).toNat % 2 ^ 32) else arg (valsAt os l) 0
      goesOn (.dup h) (fun _ th _ => ∀ l, cx.mask.getLsbD l = true →
        th.queue[l]? = (cx.t.queue[l]?).map fun q => pushLane q (ent (if cx.on.getLsbD l then v l else arg (valsAt os l) 0) (poisonAt os l))) ∧
      ∀ sp sc l ks s0 s3 i, (∀ w ∈ cx.sp.wait, w ≠ .granted ∧ w ≠ .aborted ∧ ∀ a, w ≠ .lock a) → memWait cx false = false → s2.replayFull cx = false →
        cx.lead = some l → ((fieldOp os 0).at l).poison = false → s2.oneLoc cx sp true l ((fieldOp os 0).at l).v.toNat 8 = (.ok ks, s0) →
        (s0.cross cx.tm.die true ks).remoteFail ks = (none, s3) → s3.sealed (ks.headD 0) = false → (∀ w ∈ s3.lockQ, w.key ≠ ks.headD 0) → (∀ o ∈ s3.objs, ¬ (o.lock = true ∧ o.key = ks.headD 0 ∧ names cx.who o.ctxh o.warp = true)) →
        s3.heldCount cx < 16 → (s3.homeRead ks).1 = 0 → s3.freeObj (mdieOf (ks.headD 0)) = some i →
          ∀ x ∈ [Instr.acq h sp sc, .acqTry h sp sc], goesOn x fun t th _ => th.locks = cx.t.locks + 1 ∧
            th.heldLocks = (((fieldOp os 0).at l).v.toNat, ks.headD 0, sc) :: cx.t.heldLocks ∧
            { idx := i, mdie := mdieOf (ks.headD 0), addr := ((fieldOp os 0).at l).v.toNat, key := ks.headD 0, lock := true, ctxh := cx.tm.ctxh,
              warp := cx.who.warpNo } ∈ t.objs) ∧
    (s.ready h { Shape.both (src1 h) false with waits := true } = some (cx, s1) → ∀ (slot : BitVec 6) cx2 s2 s4,
      slotFail cx.who cx.sp slot.toNat = none → s1.afterReads cx [cx.sp.fb + slot.toNat] = some (cx2, s2) →
      let os := (s2.operands cx (src1 h) false).1
      (s2.operands cx (src1 h) false).2.writable cx [cx.sp.fb + slot.toNat] = some s4 →
        goesOn (.save h slot) fun _ th _ => ∀ l, th.fword (cx.sp.fb + slot.toNat) l =
          (cx.lanes.foldl (fun th l => th.fwrite (cx.sp.fb + slot.toNat) l (arg (valsAt os l) 0) (poisonAt os l)) cx2.t).fword (cx.sp.fb + slot.toNat) l) ∧
    (s.ready h (Shape.both (srcOff h) true) = some (cx, s1) → ∀ (slot : BitVec 6) cx2 s2,
      slotFail cx.who cx.sp slot.toNat = none → s1.afterReads cx [cx.sp.fb + slot.toNat] = some (cx2, s2) →
        goesOn (.fget h slot) fun _ th _ => ∀ l, cx.on.getLsbD l = true → ∃ e, th.queue[l]? = (cx2.t.queue[l]?).map (fun q => pushLane q e) ∧
          ∀ v, cx2.t.fword (cx.sp.fb + slot.toNat) l = some v → e = ent v (cx2.t.fpoison (cx.sp.fb + slot.toNat) l)) ∧
    (s.ready h (Shape.both [] false) = some (cx, s1) →
      let stays (n : Nat) : Prop := cx.who.isUser = true →
        (cx.t.updSplit cx.k fun x => { x with fs := n }).top - (cx.t.updSplit cx.k fun x => { x with fs := n }).cap = cx.t.win
      (∀ n : BitVec 7, cx.sp.fb + n.toNat ≤ 16384 → (cx.who.isUser = true ∨ cx.sp.fb + n.toNat ≤ 16) → stays n.toNat →
        goesOn (.fenter h n) fun _ th x => x.fs = n.toNat ∧ x.fb = cx.sp.fb ∧ th.queue = cx.t.queue) ∧
      (stays 0 → goesOn (.fleave h) fun _ th x => x.fs = 0 ∧ x.fb = cx.sp.fb ∧ th.queue = cx.t.queue) ∧
      (∀ n : BitVec 8, goesOn (.yield h n) fun _ _ x =>
        x.wait = some (if n = 0 then .yield 0 (s1.clkFor cx.who + 17) else .yield 1 (s1.clkFor cx.who + n.toNat + 1))) ∧
      let stopped (cause code : Nat) : State → Warp → Split → Prop := fun t _ _ => ∃ tm r, t.team? cx.tm.ctxh = some tm ∧ tm.status = .stopping ∧
        tm.stop = some r ∧ r.cause = cause ∧ r.tlanes = cx.on ∧ r.tdetail = BitVec.ofNat 64 code
      (∀ tm, cx.on ≠ 0 → cx.who.isHandler = false → s1.team? cx.tm.ctxh = some tm → tm.status = .running → ∀ code : BitVec 8,
        goesOn (.trap h code) (stopped 0x14 code.toNat) ∧ (cx.tm.brken.getLsbD 0 = true → goesOn (.brk h code) (stopped 0x15 code.toNat))) ∧
      (∀ code : BitVec 8, (cx.on = 0 → goesOn (.trap h code) same) ∧ ((cx.on = 0 ∨ cx.tm.brken.getLsbD 0 = false) → goesOn (.brk h code) same))) ∧
    (s.ready h { Shape.both [] false with waits := true } = some (cx, s1) →
      (cx.on = 0 → goesOn (.exit h) same) ∧
      ((cx.who.isUser = true → cx.t.wps = [] ∧ cx.t.win = 0 ∧ cx.t.top ≤ cx.t.cap) → cx.who.isHandler = false →
        ∃ t th, exec (.exit h) s = .next t ∧ t.thread? cx.who = some th ∧ th.exited = cx.t.exited ||| cx.on)) ∧
    (s.ready h (Shape.user (src1 h) false) = some (cx, s1) →
      let os := (s1.operands cx (src1 h) false).1
      let s2 := (s1.operands cx (src1 h) false).2
      ∀ sp l s3 ks, s2.replayFull cx = false → cx.lead = some l → ((fieldOp os 0).at l).poison = false →
        let ea := ((fieldOp os 0).at l).v.toNat
        let k := ks.headD 0
        (∀ sc s0, memWait cx true = false → s2.oneLoc cx sp true l ea 8 = (.ok ks, s0) → (s0.cross cx.tm.die true ks).remoteFail ks = (none, s3) →
          cx.t.locks ≠ 0 →
          (s3.homeRead ks).1 ≠ 0 → (∀ o, s3.objs.find? (fun o => o.lock && o.key == k) = some o → names cx.who o.ctxh o.warp = true) →
            goesOn (.rel h sp sc) fun t th _ => th.locks = cx.t.locks - 1 ∧ ∀ o ∈ t.objs, ¬ (o.lock = true ∧ o.key = k)) ∧
        (s2.oneLoc cx sp false l ea 8 = (.ok ks, s3) →
          let mine (o : Obj) : Bool := !o.lock && o.key == k && names cx.who o.ctxh o.warp
          let edge (e : Edge) : Bool := e.kind == 1 && e.key == k && names cx.who e.ctxh e.warp && e.spl == cx.k
          (∀ i, cx.who.isUser = true → cx.t.softHolds.contains k = false → s3.objs.any mine = false → s3.heldCount cx < 16 →
            s3.freeObj (mdieOf k) = some i → goesOn (.wregHold h sp) fun t _ _ =>
              { idx := i, mdie := mdieOf k, addr := ea, key := k, lock := false, ctxh := cx.tm.ctxh, warp := cx.who.warpNo } ∈ t.objs) ∧
          (∀ i, cx.who.isUser = true → (s3.dropEdges cx.who cx.k true).freeEdge cx.tm.die = some i →
            goesOn (.wregWait h sp) fun _ _ x => x.soft = some ea) ∧
          goesOn (.wdropHold h sp) (fun t th _ => k ∉ th.softHolds ∧ ∀ o ∈ t.objs, mine o = false) ∧
          goesOn (.wdropWait h sp) fun t _ _ => ∀ e ∈ t.edges, edge e = false))

/-- R106 to R120 (05), with the entries of 06 to 08: for every instruction with a word that is well-formed, decoding its words gives it back, with every
operand, guard, type, lookahead and extension word.
Where the rules leave a point open, this rests on the model's own choice or reading: log entry 30. -/
def Obligations.DecodeEncode : Prop :=
  ∀ i : Instr, isCode i = true → i.wf = true → decodeList (encode i) = .ok i

/-- The worked encodings of chapters 05 to 08 and 13: each word decodes to the statement beside it, and LANE with a lookahead is undefined (R118). -/
def Obligations.DecodeWords : Prop :=
  let h (ty : Ty) : Hdr := { sa := .age 0, sb := .age 0, sc := .age 0, la := 0, guard := .always, ty := ty, ext := none }
  let m : MemF := { sp := .global, scope := .team, ord := .plain, ch := .none, off := 0 }
  decodeWords 0x4000800058800000 0 = .ok (.fadd { h .f32 with sa := .age 1, guard := .pos .p1 } .rz) ∧
  decodeWords 0x1000640028000000 100 = .ok (.add { h .s32 with sb := .imm, ext := some 100 } false) ∧
  decodeWords 0x8000000181FFFFFD 0 = .ok (.bra { h .b32 with guard := .neg .p2 } 0x1FFFFFD) ∧
  decodeWords 0x7000800008010002 0 = .ok (.cmp { h .s32 with sa := .age 1 } .lt .set .p1) ∧
  decodeWords 0x1600800010000000 0 = .ok (.mulw { h .n32 with sa := .age 1 }) ∧
  decodeWords 0x2610000000000003 0 = .ok (.shl (h .b32) (some 3)) ∧
  decodeWords 0x6100800002300005 0 = .ok (.qnt { h .b64 with sa := .age 1 } .se4) ∧
  decodeWords 0x0800000400000031 0 = .ok (.sget { h .b32 with la := 2 } .clks) ∧
  decodeWords 0x0800000400000000 0 = .bad .lookahead ∧
  decodeWords 0x9000000818400010 0 = .ok (.ld { h .f32 with la := 4 } { m with off := 16 }) ∧
  decodeWords 0xA000800410200000 0 = .ok (.atom { h .n32 with sa := .age 1, la := 2 } .add { m with sp := .generic, scope := .device }) ∧
  decodeWords 0xA900000000000003 0 = .ok (.barMeet (h .b32) 3 0) ∧
  decodeWords 0x8400000000000001 0 = .ok (.ret (h .b32) 1) ∧
  decodeWords 0xC0000000000C1020 0 = .ok (.mma (h .b32) 3 16 8) ∧
  decodeWords 0xC200000018102851 0 = .ok (.mmsm (h .f32) 4 5 40 true) ∧
  decodeWords 0xD001830000004038 0 = .ok (.tcopyG2s { h .b32 with sa := .age 3, sc := .zero } 2 7) ∧
  decodeWords 0xD200000000000002 0 = .ok (.twaitC (h .b32) 2) ∧
  decodeWords 0xE100000002000020 0 = .ok (.syswr (h .b64) .wftctl) ∧
  decodeWords 0x9100500098C00000 0 = .ok (.st { h .f32 with sb := .slot 4, guard := .pos .p2 } { m with sp := .cluster }) ∧
  decodeWords 0xAA10000000000000 0 = .ok (.cbarPost (h .b32)) ∧
  decodeWords 0x6B21000018000000 0 = .ok (.redux { h .f32 with sa := .age 2 } .max) ∧
  decodeWords 0x410A580018000000 0 = .ok (.fsub { h .f32 with sa := .slot 4, sb := .slot 6 } .rn) ∧
  decodeWords 0x8B01800011FFFFFC 0 = .ok (.loop { h .n32 with sa := .age 3 } 0x1FFFFFC)

/-- R106 (05), R305 (11), R389, R391 (16): when a partition issues, the split that it picks runs the instruction that its word, and with X = 1 the
word behind it, decode to; a guide issues alike. A word that is no instruction is an undefined encoding, cause 0x10, and an event of the part runs as
the event that it is. An act whose traffic meets a boundary, plane or port that is closed is put off, and nothing of it happens. An instruction that
is held or not fetched has not issued; one that has issued moves the partition's turn and ends other splits' yields, and touches no memory, team,
entry or PC by that. A word at a location that nothing has written in this run is fetched as it stands there. Where the rules leave a point open, this
rests on the model's own choice or reading: log entries 7, 19, 22, 23, 30. -/
def Obligations.StepRunsDecoded : Prop :=
  (∀ (s : State) (l : List Act) (c p k place : Nat) (who : Who) (s1 s2 : State) (sp : Split) (tm : Team) (w e : Word),
    s.agenda = .issue c p :: l →
    let u := { s with agenda := l }.settle
    u.dieRuns (c / 16) = true → u.pickSplit c p = (some (who, k, place), s1) → (s1.thread? who).bind (fun t => t.split? k) = some sp →
    s1.team? (s1.ctxhOf who) = some tm → s1.fetchWords who tm sp.party sp.pc.toNat = (.ok (w, e), s2) →
    (∀ i, decodeWords w e = .ok i →
      step s = u.orWaits (afterIssue c p who k place (exec i { s2 with cur := some { who := who, spl := k, pc := sp.pc, word := w, ext := e } }))) ∧
    (∀ r, decodeWords w e = .bad r → step s = u.orWaits (afterIssue c p who k place (.next (s2.raise who k (undefTrap sp.pc w e sp.mask r) none))))) ∧
  (∀ (s : State) (l : List Act) (x : Nat) (s2 : State) (sp : Split) (tm : Team) (w e : Word) (i : Instr), s.agenda = .issueGuide x :: l →
    let u := { s with agenda := l }.settle
    u.guideRuns x = true → (u.thread? (.guide x)).bind (fun t => t.split? 0) = some sp → u.team? x = some tm →
    u.fetchWords (.guide x) tm sp.party sp.pc.toNat = (.ok (w, e), s2) → decodeWords w e = .ok i →
      step s = u.orWaits (exec i { s2 with cur := some { who := .guide x, spl := 0, pc := sp.pc, word := w, ext := e } })) ∧
  (∀ (s : State) (l : List Act) (i : Instr), s.agenda = .event i :: l → isCode i = false →
    step s = { s with agenda := l }.settle.orWaits (exec i { s with agenda := l }.settle)) ∧
  (∀ (u t : State), (t.closed = false → u.orWaits (.next t) = .next t) ∧ (t.closed = true → u.orWaits (.next t) = .next u)) ∧
  (∀ (c p k place : Nat) (who : Who) (t : State),
    (t.didIssue who k = false → afterIssue c p who k place (.next t) = .next t) ∧
    (t.didIssue who k = true → ∃ v, afterIssue c p who k place (.next t) = .next v ∧ v.mem = t.mem ∧ v.teams = t.teams ∧
      v.threads.map Warp.queue = t.threads.map Warp.queue ∧ v.threads.map Warp.frame = t.threads.map Warp.frame ∧
      v.threads.map (fun w => w.live.map fun x => (x.1, x.2.pc, x.2.mask)) = t.threads.map (fun w => w.live.map fun x => (x.1, x.2.pc, x.2.mask)))) ∧
  (∀ (s s1 : State) (who : Who) (t : Warp) (tm : Team) (party va : Nat) (ks : List Nat) (bs : List Byte),
    s.codeKeys who tm party va 8 = (.ok ks, s1) → s1.thread? who = some t →
    (∀ k ∈ ks, s1.histOf k = none ∧ isHostKey k = false ∧ isPeerKey k = false) → ks.map s1.byteAt = bs.map some → xBit (wordOf (leNum bs)) = false →
      ∃ s2, s.fetchWords who tm party va = (.ok (wordOf (leNum bs), 0), s2) ∧ s2.mem = s1.mem)

/-- R33 (02), R320, R326 (12), R349 (12), R479, R483, R498 (20): after reset the device waits for an image in PHASE 0x1, only the I/O die is released, the
counters stand at zero, PWRCAP is 2,400, no event is logged, no image has been refused, no thread or queue exists, no measurement is held but those of
the boot ROM and the I/O die, and memory, in its canonical form, lists nothing.
Where the rules leave a point open, this rests on the model's own choice or reading: log entries 2, 3, 7, 8. -/
def Obligations.ResetState : Prop :=
  let p := State.reset.plat
  p.phase = .await ∧ p.fwsw = false ∧ p.bank = false ∧ p.encAvail = false ∧ p.pwrcap = 2400 ∧ p.tries = 0 ∧ p.bootDie = 15 ∧ p.reason = 0 ∧
  p.logs = [] ∧ p.mboxes = [] ∧ p.asids = [] ∧ p.upd = none ∧ p.bankA = [] ∧ p.bankB = [] ∧ p.meas.length = 16 ∧
  (p.meas.drop 2).all (fun m => m.digest = .of (List.replicate 64 0) ∧ m.count = 0) = true ∧
  (State.reset.dies.map Die.num = List.range 13) ∧ (∀ d ∈ State.reset.dies, (d.released = true ↔ d.num = 12) ∧ d.clk = 0 ∧ d.clks = 0 ∧ d.ref = 0) ∧
  (p.eth.map EthPort.num = List.range 4) ∧ (∀ e ∈ p.eth, e.dflt = false ∧ e.phc = 0 ∧ e.adj = 0 ∧ e.rxbad = 0 ∧ e.rxnomatch = 0 ∧ e.txbad = 0) ∧
  (p.ronou.map RonouPort.num = List.range 16) ∧ (∀ r ∈ p.ronou, r.enable = true ∧ r.retry = 0 ∧ r.retrain = 0 ∧ r.refused = 0) ∧
  State.reset.threads = [] ∧ State.reset.teams = [] ∧ State.reset.clusters = [] ∧ State.reset.queues = [] ∧ State.reset.mem = [] ∧
  State.reset.memOk ∧ State.reset.threadsOk ∧ ∀ k, isSpKey k = false → State.reset.byteAt k = none

/-- R7 (00), R250 (09): whatever act comes next, a step leaves memory in its canonical form: addresses rising, and no entry that equals what its address
reads as unlisted. This is the form of the model's own data (log 2).
Where the rules leave a point open, this rests on the model's own choice or reading: log entries 1, 2. -/
def Obligations.StepKeepsMemory : Prop :=
  ∀ s t : State, s.memOk → step s = .next t → t.memOk

/-- R52, R65 (03), R106 (05): whatever act comes next, a step leaves every queue of 32 lanes at 16 ages or fewer, every table of splits at its four places,
and no instruction half done. That no instruction is half done between two steps is the model's own form. -/
def Obligations.StepKeepsThreads : Prop :=
  ∀ s t : State, s.threadsOk → step s = .next t → t.threadsOk

/-- R369 (15): no step stops: from every state, step answers a next state, neither a fault nor a refusal.
Where the rules leave a point open, this rests on the model's own choice or reading: log entry 1. -/
def Obligations.EveryStepAnswers : Prop :=
  ∀ s : State, ∃ t, step s = .next t
end

