-- ==== Sys2Proof/Laws/State.lean ====
section
/-!
SUPPORT. What each update of one part of the state leaves: every other field of the state is unchanged.
-/
namespace Sys2Proof.Machine

@[simp] theorem State.updThread_agenda (s : State) (w : Who) (f : Warp → Warp) : (s.updThread w f).agenda = s.agenda := rfl
@[simp] theorem State.updThread_cur (s : State) (w : Who) (f : Warp → Warp) : (s.updThread w f).cur = s.cur := rfl
@[simp] theorem State.updThread_freeCtr (s : State) (w : Who) (f : Warp → Warp) : (s.updThread w f).freeCtr = s.freeCtr := rfl
@[simp] theorem State.updThread_mem (s : State) (w : Who) (f : Warp → Warp) : (s.updThread w f).mem = s.mem := rfl
@[simp] theorem State.updThread_hist (s : State) (w : Who) (f : Warp → Warp) : (s.updThread w f).hist = s.hist := rfl
@[simp] theorem State.updThread_nextWrite (s : State) (w : Who) (f : Warp → Warp) : (s.updThread w f).nextWrite = s.nextWrite := rfl
@[simp] theorem State.updThread_parties (s : State) (w : Who) (f : Warp → Warp) : (s.updThread w f).parties = s.parties := rfl
@[simp] theorem State.updThread_nextParty (s : State) (w : Who) (f : Warp → Warp) : (s.updThread w f).nextParty = s.nextParty := rfl
@[simp] theorem State.updThread_scF (s : State) (w : Who) (f : Warp → Warp) : (s.updThread w f).scF = s.scF := rfl
@[simp] theorem State.updThread_poison (s : State) (w : Who) (f : Warp → Warp) : (s.updThread w f).poison = s.poison := rfl
@[simp] theorem State.updThread_lines (s : State) (w : Who) (f : Warp → Warp) : (s.updThread w f).lines = s.lines := rfl
@[simp] theorem State.updThread_dir (s : State) (w : Who) (f : Warp → Warp) : (s.updThread w f).dir = s.dir := rfl
@[simp] theorem State.updThread_refusals (s : State) (w : Who) (f : Warp → Warp) : (s.updThread w f).refusals = s.refusals := rfl
@[simp] theorem State.updThread_seals (s : State) (w : Who) (f : Warp → Warp) : (s.updThread w f).seals = s.seals := rfl
@[simp] theorem State.updThread_sealUsed (s : State) (w : Who) (f : Warp → Warp) : (s.updThread w f).sealUsed = s.sealUsed := rfl
@[simp] theorem State.updThread_sealCache (s : State) (w : Who) (f : Warp → Warp) : (s.updThread w f).sealCache = s.sealCache := rfl
@[simp] theorem State.updThread_tlb (s : State) (w : Who) (f : Warp → Warp) : (s.updThread w f).tlb = s.tlb := rfl
@[simp] theorem State.updThread_tlbInv (s : State) (w : Who) (f : Warp → Warp) : (s.updThread w f).tlbInv = s.tlbInv := rfl
@[simp] theorem State.updThread_zeroed (s : State) (w : Who) (f : Warp → Warp) : (s.updThread w f).zeroed = s.zeroed := rfl
@[simp] theorem State.updThread_teams (s : State) (w : Who) (f : Warp → Warp) : (s.updThread w f).teams = s.teams := rfl
@[simp] theorem State.updThread_clusters (s : State) (w : Who) (f : Warp → Warp) : (s.updThread w f).clusters = s.clusters := rfl
@[simp] theorem State.updThread_grids (s : State) (w : Who) (f : Warp → Warp) : (s.updThread w f).grids = s.grids := rfl
@[simp] theorem State.updThread_nextId (s : State) (w : Who) (f : Warp → Warp) : (s.updThread w f).nextId = s.nextId := rfl
@[simp] theorem State.updThread_nextSerial (s : State) (w : Who) (f : Warp → Warp) : (s.updThread w f).nextSerial = s.nextSerial := rfl
@[simp] theorem State.updThread_nextPend (s : State) (w : Who) (f : Warp → Warp) : (s.updThread w f).nextPend = s.nextPend := rfl
@[simp] theorem State.updThread_cmds (s : State) (w : Who) (f : Warp → Warp) : (s.updThread w f).cmds = s.cmds := rfl
@[simp] theorem State.updThread_savedCmds (s : State) (w : Who) (f : Warp → Warp) : (s.updThread w f).savedCmds = s.savedCmds := rfl
@[simp] theorem State.updThread_mmaWait (s : State) (w : Who) (f : Warp → Warp) : (s.updThread w f).mmaWait = s.mmaWait := rfl
@[simp] theorem State.updThread_tiles (s : State) (w : Who) (f : Warp → Warp) : (s.updThread w f).tiles = s.tiles := rfl
@[simp] theorem State.updThread_accown (s : State) (w : Who) (f : Warp → Warp) : (s.updThread w f).accown = s.accown := rfl
@[simp] theorem State.updThread_edges (s : State) (w : Who) (f : Warp → Warp) : (s.updThread w f).edges = s.edges := rfl
@[simp] theorem State.updThread_objs (s : State) (w : Who) (f : Warp → Warp) : (s.updThread w f).objs = s.objs := rfl
@[simp] theorem State.updThread_lockQ (s : State) (w : Who) (f : Warp → Warp) : (s.updThread w f).lockQ = s.lockQ := rfl
@[simp] theorem State.updThread_monitors (s : State) (w : Who) (f : Warp → Warp) : (s.updThread w f).monitors = s.monitors := rfl
@[simp] theorem State.updThread_services (s : State) (w : Who) (f : Warp → Warp) : (s.updThread w f).services = s.services := rfl
@[simp] theorem State.updThread_handlerQ (s : State) (w : Who) (f : Warp → Warp) : (s.updThread w f).handlerQ = s.handlerQ := rfl
@[simp] theorem State.updThread_svEntry (s : State) (w : Who) (f : Warp → Warp) : (s.updThread w f).svEntry = s.svEntry := rfl
@[simp] theorem State.updThread_queues (s : State) (w : Who) (f : Warp → Warp) : (s.updThread w f).queues = s.queues := rfl
@[simp] theorem State.updThread_replays (s : State) (w : Who) (f : Warp → Warp) : (s.updThread w f).replays = s.replays := rfl
@[simp] theorem State.updThread_dies (s : State) (w : Who) (f : Warp → Warp) : (s.updThread w f).dies = s.dies := rfl
@[simp] theorem State.updThread_plat (s : State) (w : Who) (f : Warp → Warp) : (s.updThread w f).plat = s.plat := rfl
@[simp] theorem State.updThread_zeroBy (s : State) (w : Who) (f : Warp → Warp) : (s.updThread w f).zeroBy = s.zeroBy := rfl
@[simp] theorem State.updThread_hidden (s : State) (w : Who) (f : Warp → Warp) : (s.updThread w f).hidden = s.hidden := rfl
@[simp] theorem State.updThread_hiddenZ (s : State) (w : Who) (f : Warp → Warp) : (s.updThread w f).hiddenZ = s.hiddenZ := rfl
@[simp] theorem State.updThread_svcClk (s : State) (w : Who) (f : Warp → Warp) : (s.updThread w f).svcClk = s.svcClk := rfl
@[simp] theorem State.updThread_closed (s : State) (w : Who) (f : Warp → Warp) : (s.updThread w f).closed = s.closed := rfl
@[simp] theorem State.updThread_rr (s : State) (w : Who) (f : Warp → Warp) : (s.updThread w f).rr = s.rr := rfl

@[simp] theorem State.updTeam_agenda (s : State) (h : Nat) (f : Team → Team) : (s.updTeam h f).agenda = s.agenda := rfl
@[simp] theorem State.updTeam_cur (s : State) (h : Nat) (f : Team → Team) : (s.updTeam h f).cur = s.cur := rfl
@[simp] theorem State.updTeam_freeCtr (s : State) (h : Nat) (f : Team → Team) : (s.updTeam h f).freeCtr = s.freeCtr := rfl
@[simp] theorem State.updTeam_mem (s : State) (h : Nat) (f : Team → Team) : (s.updTeam h f).mem = s.mem := rfl
@[simp] theorem State.updTeam_hist (s : State) (h : Nat) (f : Team → Team) : (s.updTeam h f).hist = s.hist := rfl
@[simp] theorem State.updTeam_nextWrite (s : State) (h : Nat) (f : Team → Team) : (s.updTeam h f).nextWrite = s.nextWrite := rfl
@[simp] theorem State.updTeam_parties (s : State) (h : Nat) (f : Team → Team) : (s.updTeam h f).parties = s.parties := rfl
@[simp] theorem State.updTeam_nextParty (s : State) (h : Nat) (f : Team → Team) : (s.updTeam h f).nextParty = s.nextParty := rfl
@[simp] theorem State.updTeam_scF (s : State) (h : Nat) (f : Team → Team) : (s.updTeam h f).scF = s.scF := rfl
@[simp] theorem State.updTeam_poison (s : State) (h : Nat) (f : Team → Team) : (s.updTeam h f).poison = s.poison := rfl
@[simp] theorem State.updTeam_lines (s : State) (h : Nat) (f : Team → Team) : (s.updTeam h f).lines = s.lines := rfl
@[simp] theorem State.updTeam_dir (s : State) (h : Nat) (f : Team → Team) : (s.updTeam h f).dir = s.dir := rfl
@[simp] theorem State.updTeam_refusals (s : State) (h : Nat) (f : Team → Team) : (s.updTeam h f).refusals = s.refusals := rfl
@[simp] theorem State.updTeam_seals (s : State) (h : Nat) (f : Team → Team) : (s.updTeam h f).seals = s.seals := rfl
@[simp] theorem State.updTeam_sealUsed (s : State) (h : Nat) (f : Team → Team) : (s.updTeam h f).sealUsed = s.sealUsed := rfl
@[simp] theorem State.updTeam_sealCache (s : State) (h : Nat) (f : Team → Team) : (s.updTeam h f).sealCache = s.sealCache := rfl
@[simp] theorem State.updTeam_tlb (s : State) (h : Nat) (f : Team → Team) : (s.updTeam h f).tlb = s.tlb := rfl
@[simp] theorem State.updTeam_tlbInv (s : State) (h : Nat) (f : Team → Team) : (s.updTeam h f).tlbInv = s.tlbInv := rfl
@[simp] theorem State.updTeam_zeroed (s : State) (h : Nat) (f : Team → Team) : (s.updTeam h f).zeroed = s.zeroed := rfl
@[simp] theorem State.updTeam_threads (s : State) (h : Nat) (f : Team → Team) : (s.updTeam h f).threads = s.threads := rfl
@[simp] theorem State.updTeam_clusters (s : State) (h : Nat) (f : Team → Team) : (s.updTeam h f).clusters = s.clusters := rfl
@[simp] theorem State.updTeam_grids (s : State) (h : Nat) (f : Team → Team) : (s.updTeam h f).grids = s.grids := rfl
@[simp] theorem State.updTeam_nextId (s : State) (h : Nat) (f : Team → Team) : (s.updTeam h f).nextId = s.nextId := rfl
@[simp] theorem State.updTeam_nextSerial (s : State) (h : Nat) (f : Team → Team) : (s.updTeam h f).nextSerial = s.nextSerial := rfl
@[simp] theorem State.updTeam_nextPend (s : State) (h : Nat) (f : Team → Team) : (s.updTeam h f).nextPend = s.nextPend := rfl
@[simp] theorem State.updTeam_cmds (s : State) (h : Nat) (f : Team → Team) : (s.updTeam h f).cmds = s.cmds := rfl
@[simp] theorem State.updTeam_savedCmds (s : State) (h : Nat) (f : Team → Team) : (s.updTeam h f).savedCmds = s.savedCmds := rfl
@[simp] theorem State.updTeam_mmaWait (s : State) (h : Nat) (f : Team → Team) : (s.updTeam h f).mmaWait = s.mmaWait := rfl
@[simp] theorem State.updTeam_tiles (s : State) (h : Nat) (f : Team → Team) : (s.updTeam h f).tiles = s.tiles := rfl
@[simp] theorem State.updTeam_accown (s : State) (h : Nat) (f : Team → Team) : (s.updTeam h f).accown = s.accown := rfl
@[simp] theorem State.updTeam_edges (s : State) (h : Nat) (f : Team → Team) : (s.updTeam h f).edges = s.edges := rfl
@[simp] theorem State.updTeam_objs (s : State) (h : Nat) (f : Team → Team) : (s.updTeam h f).objs = s.objs := rfl
@[simp] theorem State.updTeam_lockQ (s : State) (h : Nat) (f : Team → Team) : (s.updTeam h f).lockQ = s.lockQ := rfl
@[simp] theorem State.updTeam_monitors (s : State) (h : Nat) (f : Team → Team) : (s.updTeam h f).monitors = s.monitors := rfl
@[simp] theorem State.updTeam_services (s : State) (h : Nat) (f : Team → Team) : (s.updTeam h f).services = s.services := rfl
@[simp] theorem State.updTeam_handlerQ (s : State) (h : Nat) (f : Team → Team) : (s.updTeam h f).handlerQ = s.handlerQ := rfl
@[simp] theorem State.updTeam_svEntry (s : State) (h : Nat) (f : Team → Team) : (s.updTeam h f).svEntry = s.svEntry := rfl
@[simp] theorem State.updTeam_queues (s : State) (h : Nat) (f : Team → Team) : (s.updTeam h f).queues = s.queues := rfl
@[simp] theorem State.updTeam_replays (s : State) (h : Nat) (f : Team → Team) : (s.updTeam h f).replays = s.replays := rfl
@[simp] theorem State.updTeam_dies (s : State) (h : Nat) (f : Team → Team) : (s.updTeam h f).dies = s.dies := rfl
@[simp] theorem State.updTeam_plat (s : State) (h : Nat) (f : Team → Team) : (s.updTeam h f).plat = s.plat := rfl
@[simp] theorem State.updTeam_zeroBy (s : State) (h : Nat) (f : Team → Team) : (s.updTeam h f).zeroBy = s.zeroBy := rfl
@[simp] theorem State.updTeam_hidden (s : State) (h : Nat) (f : Team → Team) : (s.updTeam h f).hidden = s.hidden := rfl
@[simp] theorem State.updTeam_hiddenZ (s : State) (h : Nat) (f : Team → Team) : (s.updTeam h f).hiddenZ = s.hiddenZ := rfl
@[simp] theorem State.updTeam_svcClk (s : State) (h : Nat) (f : Team → Team) : (s.updTeam h f).svcClk = s.svcClk := rfl
@[simp] theorem State.updTeam_closed (s : State) (h : Nat) (f : Team → Team) : (s.updTeam h f).closed = s.closed := rfl
@[simp] theorem State.updTeam_rr (s : State) (h : Nat) (f : Team → Team) : (s.updTeam h f).rr = s.rr := rfl

@[simp] theorem State.updCluster_agenda (s : State) (c : Nat) (f : Cluster → Cluster) : (s.updCluster c f).agenda = s.agenda := rfl
@[simp] theorem State.updCluster_cur (s : State) (c : Nat) (f : Cluster → Cluster) : (s.updCluster c f).cur = s.cur := rfl
@[simp] theorem State.updCluster_freeCtr (s : State) (c : Nat) (f : Cluster → Cluster) : (s.updCluster c f).freeCtr = s.freeCtr := rfl
@[simp] theorem State.updCluster_mem (s : State) (c : Nat) (f : Cluster → Cluster) : (s.updCluster c f).mem = s.mem := rfl
@[simp] theorem State.updCluster_hist (s : State) (c : Nat) (f : Cluster → Cluster) : (s.updCluster c f).hist = s.hist := rfl
@[simp] theorem State.updCluster_nextWrite (s : State) (c : Nat) (f : Cluster → Cluster) : (s.updCluster c f).nextWrite = s.nextWrite := rfl
@[simp] theorem State.updCluster_parties (s : State) (c : Nat) (f : Cluster → Cluster) : (s.updCluster c f).parties = s.parties := rfl
@[simp] theorem State.updCluster_nextParty (s : State) (c : Nat) (f : Cluster → Cluster) : (s.updCluster c f).nextParty = s.nextParty := rfl
@[simp] theorem State.updCluster_scF (s : State) (c : Nat) (f : Cluster → Cluster) : (s.updCluster c f).scF = s.scF := rfl
@[simp] theorem State.updCluster_poison (s : State) (c : Nat) (f : Cluster → Cluster) : (s.updCluster c f).poison = s.poison := rfl
@[simp] theorem State.updCluster_lines (s : State) (c : Nat) (f : Cluster → Cluster) : (s.updCluster c f).lines = s.lines := rfl
@[simp] theorem State.updCluster_dir (s : State) (c : Nat) (f : Cluster → Cluster) : (s.updCluster c f).dir = s.dir := rfl
@[simp] theorem State.updCluster_refusals (s : State) (c : Nat) (f : Cluster → Cluster) : (s.updCluster c f).refusals = s.refusals := rfl
@[simp] theorem State.updCluster_seals (s : State) (c : Nat) (f : Cluster → Cluster) : (s.updCluster c f).seals = s.seals := rfl
@[simp] theorem State.updCluster_sealUsed (s : State) (c : Nat) (f : Cluster → Cluster) : (s.updCluster c f).sealUsed = s.sealUsed := rfl
@[simp] theorem State.updCluster_sealCache (s : State) (c : Nat) (f : Cluster → Cluster) : (s.updCluster c f).sealCache = s.sealCache := rfl
@[simp] theorem State.updCluster_tlb (s : State) (c : Nat) (f : Cluster → Cluster) : (s.updCluster c f).tlb = s.tlb := rfl
@[simp] theorem State.updCluster_tlbInv (s : State) (c : Nat) (f : Cluster → Cluster) : (s.updCluster c f).tlbInv = s.tlbInv := rfl
@[simp] theorem State.updCluster_zeroed (s : State) (c : Nat) (f : Cluster → Cluster) : (s.updCluster c f).zeroed = s.zeroed := rfl
@[simp] theorem State.updCluster_threads (s : State) (c : Nat) (f : Cluster → Cluster) : (s.updCluster c f).threads = s.threads := rfl
@[simp] theorem State.updCluster_teams (s : State) (c : Nat) (f : Cluster → Cluster) : (s.updCluster c f).teams = s.teams := rfl
@[simp] theorem State.updCluster_grids (s : State) (c : Nat) (f : Cluster → Cluster) : (s.updCluster c f).grids = s.grids := rfl
@[simp] theorem State.updCluster_nextId (s : State) (c : Nat) (f : Cluster → Cluster) : (s.updCluster c f).nextId = s.nextId := rfl
@[simp] theorem State.updCluster_nextSerial (s : State) (c : Nat) (f : Cluster → Cluster) : (s.updCluster c f).nextSerial = s.nextSerial := rfl
@[simp] theorem State.updCluster_nextPend (s : State) (c : Nat) (f : Cluster → Cluster) : (s.updCluster c f).nextPend = s.nextPend := rfl
@[simp] theorem State.updCluster_cmds (s : State) (c : Nat) (f : Cluster → Cluster) : (s.updCluster c f).cmds = s.cmds := rfl
@[simp] theorem State.updCluster_savedCmds (s : State) (c : Nat) (f : Cluster → Cluster) : (s.updCluster c f).savedCmds = s.savedCmds := rfl
@[simp] theorem State.updCluster_mmaWait (s : State) (c : Nat) (f : Cluster → Cluster) : (s.updCluster c f).mmaWait = s.mmaWait := rfl
@[simp] theorem State.updCluster_tiles (s : State) (c : Nat) (f : Cluster → Cluster) : (s.updCluster c f).tiles = s.tiles := rfl
@[simp] theorem State.updCluster_accown (s : State) (c : Nat) (f : Cluster → Cluster) : (s.updCluster c f).accown = s.accown := rfl
@[simp] theorem State.updCluster_edges (s : State) (c : Nat) (f : Cluster → Cluster) : (s.updCluster c f).edges = s.edges := rfl
@[simp] theorem State.updCluster_objs (s : State) (c : Nat) (f : Cluster → Cluster) : (s.updCluster c f).objs = s.objs := rfl
@[simp] theorem State.updCluster_lockQ (s : State) (c : Nat) (f : Cluster → Cluster) : (s.updCluster c f).lockQ = s.lockQ := rfl
@[simp] theorem State.updCluster_monitors (s : State) (c : Nat) (f : Cluster → Cluster) : (s.updCluster c f).monitors = s.monitors := rfl
@[simp] theorem State.updCluster_services (s : State) (c : Nat) (f : Cluster → Cluster) : (s.updCluster c f).services = s.services := rfl
@[simp] theorem State.updCluster_handlerQ (s : State) (c : Nat) (f : Cluster → Cluster) : (s.updCluster c f).handlerQ = s.handlerQ := rfl
@[simp] theorem State.updCluster_svEntry (s : State) (c : Nat) (f : Cluster → Cluster) : (s.updCluster c f).svEntry = s.svEntry := rfl
@[simp] theorem State.updCluster_queues (s : State) (c : Nat) (f : Cluster → Cluster) : (s.updCluster c f).queues = s.queues := rfl
@[simp] theorem State.updCluster_replays (s : State) (c : Nat) (f : Cluster → Cluster) : (s.updCluster c f).replays = s.replays := rfl
@[simp] theorem State.updCluster_dies (s : State) (c : Nat) (f : Cluster → Cluster) : (s.updCluster c f).dies = s.dies := rfl
@[simp] theorem State.updCluster_plat (s : State) (c : Nat) (f : Cluster → Cluster) : (s.updCluster c f).plat = s.plat := rfl
@[simp] theorem State.updCluster_zeroBy (s : State) (c : Nat) (f : Cluster → Cluster) : (s.updCluster c f).zeroBy = s.zeroBy := rfl
@[simp] theorem State.updCluster_hidden (s : State) (c : Nat) (f : Cluster → Cluster) : (s.updCluster c f).hidden = s.hidden := rfl
@[simp] theorem State.updCluster_hiddenZ (s : State) (c : Nat) (f : Cluster → Cluster) : (s.updCluster c f).hiddenZ = s.hiddenZ := rfl
@[simp] theorem State.updCluster_svcClk (s : State) (c : Nat) (f : Cluster → Cluster) : (s.updCluster c f).svcClk = s.svcClk := rfl
@[simp] theorem State.updCluster_closed (s : State) (c : Nat) (f : Cluster → Cluster) : (s.updCluster c f).closed = s.closed := rfl
@[simp] theorem State.updCluster_rr (s : State) (c : Nat) (f : Cluster → Cluster) : (s.updCluster c f).rr = s.rr := rfl

@[simp] theorem State.updGrid_agenda (s : State) (g : Nat) (f : Grid → Grid) : (s.updGrid g f).agenda = s.agenda := rfl
@[simp] theorem State.updGrid_cur (s : State) (g : Nat) (f : Grid → Grid) : (s.updGrid g f).cur = s.cur := rfl
@[simp] theorem State.updGrid_freeCtr (s : State) (g : Nat) (f : Grid → Grid) : (s.updGrid g f).freeCtr = s.freeCtr := rfl
@[simp] theorem State.updGrid_mem (s : State) (g : Nat) (f : Grid → Grid) : (s.updGrid g f).mem = s.mem := rfl
@[simp] theorem State.updGrid_hist (s : State) (g : Nat) (f : Grid → Grid) : (s.updGrid g f).hist = s.hist := rfl
@[simp] theorem State.updGrid_nextWrite (s : State) (g : Nat) (f : Grid → Grid) : (s.updGrid g f).nextWrite = s.nextWrite := rfl
@[simp] theorem State.updGrid_parties (s : State) (g : Nat) (f : Grid → Grid) : (s.updGrid g f).parties = s.parties := rfl
@[simp] theorem State.updGrid_nextParty (s : State) (g : Nat) (f : Grid → Grid) : (s.updGrid g f).nextParty = s.nextParty := rfl
@[simp] theorem State.updGrid_scF (s : State) (g : Nat) (f : Grid → Grid) : (s.updGrid g f).scF = s.scF := rfl
@[simp] theorem State.updGrid_poison (s : State) (g : Nat) (f : Grid → Grid) : (s.updGrid g f).poison = s.poison := rfl
@[simp] theorem State.updGrid_lines (s : State) (g : Nat) (f : Grid → Grid) : (s.updGrid g f).lines = s.lines := rfl
@[simp] theorem State.updGrid_dir (s : State) (g : Nat) (f : Grid → Grid) : (s.updGrid g f).dir = s.dir := rfl
@[simp] theorem State.updGrid_refusals (s : State) (g : Nat) (f : Grid → Grid) : (s.updGrid g f).refusals = s.refusals := rfl
@[simp] theorem State.updGrid_seals (s : State) (g : Nat) (f : Grid → Grid) : (s.updGrid g f).seals = s.seals := rfl
@[simp] theorem State.updGrid_sealUsed (s : State) (g : Nat) (f : Grid → Grid) : (s.updGrid g f).sealUsed = s.sealUsed := rfl
@[simp] theorem State.updGrid_sealCache (s : State) (g : Nat) (f : Grid → Grid) : (s.updGrid g f).sealCache = s.sealCache := rfl
@[simp] theorem State.updGrid_tlb (s : State) (g : Nat) (f : Grid → Grid) : (s.updGrid g f).tlb = s.tlb := rfl
@[simp] theorem State.updGrid_tlbInv (s : State) (g : Nat) (f : Grid → Grid) : (s.updGrid g f).tlbInv = s.tlbInv := rfl
@[simp] theorem State.updGrid_zeroed (s : State) (g : Nat) (f : Grid → Grid) : (s.updGrid g f).zeroed = s.zeroed := rfl
@[simp] theorem State.updGrid_threads (s : State) (g : Nat) (f : Grid → Grid) : (s.updGrid g f).threads = s.threads := rfl
@[simp] theorem State.updGrid_teams (s : State) (g : Nat) (f : Grid → Grid) : (s.updGrid g f).teams = s.teams := rfl
@[simp] theorem State.updGrid_clusters (s : State) (g : Nat) (f : Grid → Grid) : (s.updGrid g f).clusters = s.clusters := rfl
@[simp] theorem State.updGrid_nextId (s : State) (g : Nat) (f : Grid → Grid) : (s.updGrid g f).nextId = s.nextId := rfl
@[simp] theorem State.updGrid_nextSerial (s : State) (g : Nat) (f : Grid → Grid) : (s.updGrid g f).nextSerial = s.nextSerial := rfl
@[simp] theorem State.updGrid_nextPend (s : State) (g : Nat) (f : Grid → Grid) : (s.updGrid g f).nextPend = s.nextPend := rfl
@[simp] theorem State.updGrid_cmds (s : State) (g : Nat) (f : Grid → Grid) : (s.updGrid g f).cmds = s.cmds := rfl
@[simp] theorem State.updGrid_savedCmds (s : State) (g : Nat) (f : Grid → Grid) : (s.updGrid g f).savedCmds = s.savedCmds := rfl
@[simp] theorem State.updGrid_mmaWait (s : State) (g : Nat) (f : Grid → Grid) : (s.updGrid g f).mmaWait = s.mmaWait := rfl
@[simp] theorem State.updGrid_tiles (s : State) (g : Nat) (f : Grid → Grid) : (s.updGrid g f).tiles = s.tiles := rfl
@[simp] theorem State.updGrid_accown (s : State) (g : Nat) (f : Grid → Grid) : (s.updGrid g f).accown = s.accown := rfl
@[simp] theorem State.updGrid_edges (s : State) (g : Nat) (f : Grid → Grid) : (s.updGrid g f).edges = s.edges := rfl
@[simp] theorem State.updGrid_objs (s : State) (g : Nat) (f : Grid → Grid) : (s.updGrid g f).objs = s.objs := rfl
@[simp] theorem State.updGrid_lockQ (s : State) (g : Nat) (f : Grid → Grid) : (s.updGrid g f).lockQ = s.lockQ := rfl
@[simp] theorem State.updGrid_monitors (s : State) (g : Nat) (f : Grid → Grid) : (s.updGrid g f).monitors = s.monitors := rfl
@[simp] theorem State.updGrid_services (s : State) (g : Nat) (f : Grid → Grid) : (s.updGrid g f).services = s.services := rfl
@[simp] theorem State.updGrid_handlerQ (s : State) (g : Nat) (f : Grid → Grid) : (s.updGrid g f).handlerQ = s.handlerQ := rfl
@[simp] theorem State.updGrid_svEntry (s : State) (g : Nat) (f : Grid → Grid) : (s.updGrid g f).svEntry = s.svEntry := rfl
@[simp] theorem State.updGrid_queues (s : State) (g : Nat) (f : Grid → Grid) : (s.updGrid g f).queues = s.queues := rfl
@[simp] theorem State.updGrid_replays (s : State) (g : Nat) (f : Grid → Grid) : (s.updGrid g f).replays = s.replays := rfl
@[simp] theorem State.updGrid_dies (s : State) (g : Nat) (f : Grid → Grid) : (s.updGrid g f).dies = s.dies := rfl
@[simp] theorem State.updGrid_plat (s : State) (g : Nat) (f : Grid → Grid) : (s.updGrid g f).plat = s.plat := rfl
@[simp] theorem State.updGrid_zeroBy (s : State) (g : Nat) (f : Grid → Grid) : (s.updGrid g f).zeroBy = s.zeroBy := rfl
@[simp] theorem State.updGrid_hidden (s : State) (g : Nat) (f : Grid → Grid) : (s.updGrid g f).hidden = s.hidden := rfl
@[simp] theorem State.updGrid_hiddenZ (s : State) (g : Nat) (f : Grid → Grid) : (s.updGrid g f).hiddenZ = s.hiddenZ := rfl
@[simp] theorem State.updGrid_svcClk (s : State) (g : Nat) (f : Grid → Grid) : (s.updGrid g f).svcClk = s.svcClk := rfl
@[simp] theorem State.updGrid_closed (s : State) (g : Nat) (f : Grid → Grid) : (s.updGrid g f).closed = s.closed := rfl
@[simp] theorem State.updGrid_rr (s : State) (g : Nat) (f : Grid → Grid) : (s.updGrid g f).rr = s.rr := rfl

@[simp] theorem State.updParty_agenda (s : State) (p : Nat) (f : Party → Party) : (s.updParty p f).agenda = s.agenda := rfl
@[simp] theorem State.updParty_cur (s : State) (p : Nat) (f : Party → Party) : (s.updParty p f).cur = s.cur := rfl
@[simp] theorem State.updParty_freeCtr (s : State) (p : Nat) (f : Party → Party) : (s.updParty p f).freeCtr = s.freeCtr := rfl
@[simp] theorem State.updParty_mem (s : State) (p : Nat) (f : Party → Party) : (s.updParty p f).mem = s.mem := rfl
@[simp] theorem State.updParty_hist (s : State) (p : Nat) (f : Party → Party) : (s.updParty p f).hist = s.hist := rfl
@[simp] theorem State.updParty_nextWrite (s : State) (p : Nat) (f : Party → Party) : (s.updParty p f).nextWrite = s.nextWrite := rfl
@[simp] theorem State.updParty_nextParty (s : State) (p : Nat) (f : Party → Party) : (s.updParty p f).nextParty = s.nextParty := rfl
@[simp] theorem State.updParty_scF (s : State) (p : Nat) (f : Party → Party) : (s.updParty p f).scF = s.scF := rfl
@[simp] theorem State.updParty_poison (s : State) (p : Nat) (f : Party → Party) : (s.updParty p f).poison = s.poison := rfl
@[simp] theorem State.updParty_lines (s : State) (p : Nat) (f : Party → Party) : (s.updParty p f).lines = s.lines := rfl
@[simp] theorem State.updParty_dir (s : State) (p : Nat) (f : Party → Party) : (s.updParty p f).dir = s.dir := rfl
@[simp] theorem State.updParty_refusals (s : State) (p : Nat) (f : Party → Party) : (s.updParty p f).refusals = s.refusals := rfl
@[simp] theorem State.updParty_seals (s : State) (p : Nat) (f : Party → Party) : (s.updParty p f).seals = s.seals := rfl
@[simp] theorem State.updParty_sealUsed (s : State) (p : Nat) (f : Party → Party) : (s.updParty p f).sealUsed = s.sealUsed := rfl
@[simp] theorem State.updParty_sealCache (s : State) (p : Nat) (f : Party → Party) : (s.updParty p f).sealCache = s.sealCache := rfl
@[simp] theorem State.updParty_tlb (s : State) (p : Nat) (f : Party → Party) : (s.updParty p f).tlb = s.tlb := rfl
@[simp] theorem State.updParty_tlbInv (s : State) (p : Nat) (f : Party → Party) : (s.updParty p f).tlbInv = s.tlbInv := rfl
@[simp] theorem State.updParty_zeroed (s : State) (p : Nat) (f : Party → Party) : (s.updParty p f).zeroed = s.zeroed := rfl
@[simp] theorem State.updParty_threads (s : State) (p : Nat) (f : Party → Party) : (s.updParty p f).threads = s.threads := rfl
@[simp] theorem State.updParty_teams (s : State) (p : Nat) (f : Party → Party) : (s.updParty p f).teams = s.teams := rfl
@[simp] theorem State.updParty_clusters (s : State) (p : Nat) (f : Party → Party) : (s.updParty p f).clusters = s.clusters := rfl
@[simp] theorem State.updParty_grids (s : State) (p : Nat) (f : Party → Party) : (s.updParty p f).grids = s.grids := rfl
@[simp] theorem State.updParty_nextId (s : State) (p : Nat) (f : Party → Party) : (s.updParty p f).nextId = s.nextId := rfl
@[simp] theorem State.updParty_nextSerial (s : State) (p : Nat) (f : Party → Party) : (s.updParty p f).nextSerial = s.nextSerial := rfl
@[simp] theorem State.updParty_nextPend (s : State) (p : Nat) (f : Party → Party) : (s.updParty p f).nextPend = s.nextPend := rfl
@[simp] theorem State.updParty_cmds (s : State) (p : Nat) (f : Party → Party) : (s.updParty p f).cmds = s.cmds := rfl
@[simp] theorem State.updParty_savedCmds (s : State) (p : Nat) (f : Party → Party) : (s.updParty p f).savedCmds = s.savedCmds := rfl
@[simp] theorem State.updParty_mmaWait (s : State) (p : Nat) (f : Party → Party) : (s.updParty p f).mmaWait = s.mmaWait := rfl
@[simp] theorem State.updParty_tiles (s : State) (p : Nat) (f : Party → Party) : (s.updParty p f).tiles = s.tiles := rfl
@[simp] theorem State.updParty_accown (s : State) (p : Nat) (f : Party → Party) : (s.updParty p f).accown = s.accown := rfl
@[simp] theorem State.updParty_edges (s : State) (p : Nat) (f : Party → Party) : (s.updParty p f).edges = s.edges := rfl
@[simp] theorem State.updParty_objs (s : State) (p : Nat) (f : Party → Party) : (s.updParty p f).objs = s.objs := rfl
@[simp] theorem State.updParty_lockQ (s : State) (p : Nat) (f : Party → Party) : (s.updParty p f).lockQ = s.lockQ := rfl
@[simp] theorem State.updParty_monitors (s : State) (p : Nat) (f : Party → Party) : (s.updParty p f).monitors = s.monitors := rfl
@[simp] theorem State.updParty_services (s : State) (p : Nat) (f : Party → Party) : (s.updParty p f).services = s.services := rfl
@[simp] theorem State.updParty_handlerQ (s : State) (p : Nat) (f : Party → Party) : (s.updParty p f).handlerQ = s.handlerQ := rfl
@[simp] theorem State.updParty_svEntry (s : State) (p : Nat) (f : Party → Party) : (s.updParty p f).svEntry = s.svEntry := rfl
@[simp] theorem State.updParty_queues (s : State) (p : Nat) (f : Party → Party) : (s.updParty p f).queues = s.queues := rfl
@[simp] theorem State.updParty_replays (s : State) (p : Nat) (f : Party → Party) : (s.updParty p f).replays = s.replays := rfl
@[simp] theorem State.updParty_dies (s : State) (p : Nat) (f : Party → Party) : (s.updParty p f).dies = s.dies := rfl
@[simp] theorem State.updParty_plat (s : State) (p : Nat) (f : Party → Party) : (s.updParty p f).plat = s.plat := rfl
@[simp] theorem State.updParty_zeroBy (s : State) (p : Nat) (f : Party → Party) : (s.updParty p f).zeroBy = s.zeroBy := rfl
@[simp] theorem State.updParty_hidden (s : State) (p : Nat) (f : Party → Party) : (s.updParty p f).hidden = s.hidden := rfl
@[simp] theorem State.updParty_hiddenZ (s : State) (p : Nat) (f : Party → Party) : (s.updParty p f).hiddenZ = s.hiddenZ := rfl
@[simp] theorem State.updParty_svcClk (s : State) (p : Nat) (f : Party → Party) : (s.updParty p f).svcClk = s.svcClk := rfl
@[simp] theorem State.updParty_closed (s : State) (p : Nat) (f : Party → Party) : (s.updParty p f).closed = s.closed := rfl
@[simp] theorem State.updParty_rr (s : State) (p : Nat) (f : Party → Party) : (s.updParty p f).rr = s.rr := rfl

@[simp] theorem State.updDie_agenda (s : State) (d : Nat) (f : Die → Die) : (s.updDie d f).agenda = s.agenda := rfl
@[simp] theorem State.updDie_cur (s : State) (d : Nat) (f : Die → Die) : (s.updDie d f).cur = s.cur := rfl
@[simp] theorem State.updDie_freeCtr (s : State) (d : Nat) (f : Die → Die) : (s.updDie d f).freeCtr = s.freeCtr := rfl
@[simp] theorem State.updDie_mem (s : State) (d : Nat) (f : Die → Die) : (s.updDie d f).mem = s.mem := rfl
@[simp] theorem State.updDie_hist (s : State) (d : Nat) (f : Die → Die) : (s.updDie d f).hist = s.hist := rfl
@[simp] theorem State.updDie_nextWrite (s : State) (d : Nat) (f : Die → Die) : (s.updDie d f).nextWrite = s.nextWrite := rfl
@[simp] theorem State.updDie_parties (s : State) (d : Nat) (f : Die → Die) : (s.updDie d f).parties = s.parties := rfl
@[simp] theorem State.updDie_nextParty (s : State) (d : Nat) (f : Die → Die) : (s.updDie d f).nextParty = s.nextParty := rfl
@[simp] theorem State.updDie_scF (s : State) (d : Nat) (f : Die → Die) : (s.updDie d f).scF = s.scF := rfl
@[simp] theorem State.updDie_poison (s : State) (d : Nat) (f : Die → Die) : (s.updDie d f).poison = s.poison := rfl
@[simp] theorem State.updDie_lines (s : State) (d : Nat) (f : Die → Die) : (s.updDie d f).lines = s.lines := rfl
@[simp] theorem State.updDie_dir (s : State) (d : Nat) (f : Die → Die) : (s.updDie d f).dir = s.dir := rfl
@[simp] theorem State.updDie_refusals (s : State) (d : Nat) (f : Die → Die) : (s.updDie d f).refusals = s.refusals := rfl
@[simp] theorem State.updDie_seals (s : State) (d : Nat) (f : Die → Die) : (s.updDie d f).seals = s.seals := rfl
@[simp] theorem State.updDie_sealUsed (s : State) (d : Nat) (f : Die → Die) : (s.updDie d f).sealUsed = s.sealUsed := rfl
@[simp] theorem State.updDie_sealCache (s : State) (d : Nat) (f : Die → Die) : (s.updDie d f).sealCache = s.sealCache := rfl
@[simp] theorem State.updDie_tlb (s : State) (d : Nat) (f : Die → Die) : (s.updDie d f).tlb = s.tlb := rfl
@[simp] theorem State.updDie_tlbInv (s : State) (d : Nat) (f : Die → Die) : (s.updDie d f).tlbInv = s.tlbInv := rfl
@[simp] theorem State.updDie_zeroed (s : State) (d : Nat) (f : Die → Die) : (s.updDie d f).zeroed = s.zeroed := rfl
@[simp] theorem State.updDie_threads (s : State) (d : Nat) (f : Die → Die) : (s.updDie d f).threads = s.threads := rfl
@[simp] theorem State.updDie_teams (s : State) (d : Nat) (f : Die → Die) : (s.updDie d f).teams = s.teams := rfl
@[simp] theorem State.updDie_clusters (s : State) (d : Nat) (f : Die → Die) : (s.updDie d f).clusters = s.clusters := rfl
@[simp] theorem State.updDie_grids (s : State) (d : Nat) (f : Die → Die) : (s.updDie d f).grids = s.grids := rfl
@[simp] theorem State.updDie_nextId (s : State) (d : Nat) (f : Die → Die) : (s.updDie d f).nextId = s.nextId := rfl
@[simp] theorem State.updDie_nextSerial (s : State) (d : Nat) (f : Die → Die) : (s.updDie d f).nextSerial = s.nextSerial := rfl
@[simp] theorem State.updDie_nextPend (s : State) (d : Nat) (f : Die → Die) : (s.updDie d f).nextPend = s.nextPend := rfl
@[simp] theorem State.updDie_cmds (s : State) (d : Nat) (f : Die → Die) : (s.updDie d f).cmds = s.cmds := rfl
@[simp] theorem State.updDie_savedCmds (s : State) (d : Nat) (f : Die → Die) : (s.updDie d f).savedCmds = s.savedCmds := rfl
@[simp] theorem State.updDie_mmaWait (s : State) (d : Nat) (f : Die → Die) : (s.updDie d f).mmaWait = s.mmaWait := rfl
@[simp] theorem State.updDie_tiles (s : State) (d : Nat) (f : Die → Die) : (s.updDie d f).tiles = s.tiles := rfl
@[simp] theorem State.updDie_accown (s : State) (d : Nat) (f : Die → Die) : (s.updDie d f).accown = s.accown := rfl
@[simp] theorem State.updDie_edges (s : State) (d : Nat) (f : Die → Die) : (s.updDie d f).edges = s.edges := rfl
@[simp] theorem State.updDie_objs (s : State) (d : Nat) (f : Die → Die) : (s.updDie d f).objs = s.objs := rfl
@[simp] theorem State.updDie_lockQ (s : State) (d : Nat) (f : Die → Die) : (s.updDie d f).lockQ = s.lockQ := rfl
@[simp] theorem State.updDie_monitors (s : State) (d : Nat) (f : Die → Die) : (s.updDie d f).monitors = s.monitors := rfl
@[simp] theorem State.updDie_services (s : State) (d : Nat) (f : Die → Die) : (s.updDie d f).services = s.services := rfl
@[simp] theorem State.updDie_handlerQ (s : State) (d : Nat) (f : Die → Die) : (s.updDie d f).handlerQ = s.handlerQ := rfl
@[simp] theorem State.updDie_svEntry (s : State) (d : Nat) (f : Die → Die) : (s.updDie d f).svEntry = s.svEntry := rfl
@[simp] theorem State.updDie_queues (s : State) (d : Nat) (f : Die → Die) : (s.updDie d f).queues = s.queues := rfl
@[simp] theorem State.updDie_replays (s : State) (d : Nat) (f : Die → Die) : (s.updDie d f).replays = s.replays := rfl
@[simp] theorem State.updDie_plat (s : State) (d : Nat) (f : Die → Die) : (s.updDie d f).plat = s.plat := rfl
@[simp] theorem State.updDie_zeroBy (s : State) (d : Nat) (f : Die → Die) : (s.updDie d f).zeroBy = s.zeroBy := rfl
@[simp] theorem State.updDie_hidden (s : State) (d : Nat) (f : Die → Die) : (s.updDie d f).hidden = s.hidden := rfl
@[simp] theorem State.updDie_hiddenZ (s : State) (d : Nat) (f : Die → Die) : (s.updDie d f).hiddenZ = s.hiddenZ := rfl
@[simp] theorem State.updDie_svcClk (s : State) (d : Nat) (f : Die → Die) : (s.updDie d f).svcClk = s.svcClk := rfl
@[simp] theorem State.updDie_closed (s : State) (d : Nat) (f : Die → Die) : (s.updDie d f).closed = s.closed := rfl
@[simp] theorem State.updDie_rr (s : State) (d : Nat) (f : Die → Die) : (s.updDie d f).rr = s.rr := rfl

@[simp] theorem State.updSplit_agenda (s : State) (w : Who) (k : Nat) (f : Split → Split) : (s.updSplit w k f).agenda = s.agenda := rfl
@[simp] theorem State.updSplit_cur (s : State) (w : Who) (k : Nat) (f : Split → Split) : (s.updSplit w k f).cur = s.cur := rfl
@[simp] theorem State.updSplit_freeCtr (s : State) (w : Who) (k : Nat) (f : Split → Split) : (s.updSplit w k f).freeCtr = s.freeCtr := rfl
@[simp] theorem State.updSplit_mem (s : State) (w : Who) (k : Nat) (f : Split → Split) : (s.updSplit w k f).mem = s.mem := rfl
@[simp] theorem State.updSplit_hist (s : State) (w : Who) (k : Nat) (f : Split → Split) : (s.updSplit w k f).hist = s.hist := rfl
@[simp] theorem State.updSplit_nextWrite (s : State) (w : Who) (k : Nat) (f : Split → Split) : (s.updSplit w k f).nextWrite = s.nextWrite := rfl
@[simp] theorem State.updSplit_parties (s : State) (w : Who) (k : Nat) (f : Split → Split) : (s.updSplit w k f).parties = s.parties := rfl
@[simp] theorem State.updSplit_nextParty (s : State) (w : Who) (k : Nat) (f : Split → Split) : (s.updSplit w k f).nextParty = s.nextParty := rfl
@[simp] theorem State.updSplit_scF (s : State) (w : Who) (k : Nat) (f : Split → Split) : (s.updSplit w k f).scF = s.scF := rfl
@[simp] theorem State.updSplit_poison (s : State) (w : Who) (k : Nat) (f : Split → Split) : (s.updSplit w k f).poison = s.poison := rfl
@[simp] theorem State.updSplit_lines (s : State) (w : Who) (k : Nat) (f : Split → Split) : (s.updSplit w k f).lines = s.lines := rfl
@[simp] theorem State.updSplit_dir (s : State) (w : Who) (k : Nat) (f : Split → Split) : (s.updSplit w k f).dir = s.dir := rfl
@[simp] theorem State.updSplit_refusals (s : State) (w : Who) (k : Nat) (f : Split → Split) : (s.updSplit w k f).refusals = s.refusals := rfl
@[simp] theorem State.updSplit_seals (s : State) (w : Who) (k : Nat) (f : Split → Split) : (s.updSplit w k f).seals = s.seals := rfl
@[simp] theorem State.updSplit_sealUsed (s : State) (w : Who) (k : Nat) (f : Split → Split) : (s.updSplit w k f).sealUsed = s.sealUsed := rfl
@[simp] theorem State.updSplit_sealCache (s : State) (w : Who) (k : Nat) (f : Split → Split) : (s.updSplit w k f).sealCache = s.sealCache := rfl
@[simp] theorem State.updSplit_tlb (s : State) (w : Who) (k : Nat) (f : Split → Split) : (s.updSplit w k f).tlb = s.tlb := rfl
@[simp] theorem State.updSplit_tlbInv (s : State) (w : Who) (k : Nat) (f : Split → Split) : (s.updSplit w k f).tlbInv = s.tlbInv := rfl
@[simp] theorem State.updSplit_zeroed (s : State) (w : Who) (k : Nat) (f : Split → Split) : (s.updSplit w k f).zeroed = s.zeroed := rfl
@[simp] theorem State.updSplit_teams (s : State) (w : Who) (k : Nat) (f : Split → Split) : (s.updSplit w k f).teams = s.teams := rfl
@[simp] theorem State.updSplit_clusters (s : State) (w : Who) (k : Nat) (f : Split → Split) : (s.updSplit w k f).clusters = s.clusters := rfl
@[simp] theorem State.updSplit_grids (s : State) (w : Who) (k : Nat) (f : Split → Split) : (s.updSplit w k f).grids = s.grids := rfl
@[simp] theorem State.updSplit_nextId (s : State) (w : Who) (k : Nat) (f : Split → Split) : (s.updSplit w k f).nextId = s.nextId := rfl
@[simp] theorem State.updSplit_nextSerial (s : State) (w : Who) (k : Nat) (f : Split → Split) : (s.updSplit w k f).nextSerial = s.nextSerial := rfl
@[simp] theorem State.updSplit_nextPend (s : State) (w : Who) (k : Nat) (f : Split → Split) : (s.updSplit w k f).nextPend = s.nextPend := rfl
@[simp] theorem State.updSplit_cmds (s : State) (w : Who) (k : Nat) (f : Split → Split) : (s.updSplit w k f).cmds = s.cmds := rfl
@[simp] theorem State.updSplit_savedCmds (s : State) (w : Who) (k : Nat) (f : Split → Split) : (s.updSplit w k f).savedCmds = s.savedCmds := rfl
@[simp] theorem State.updSplit_mmaWait (s : State) (w : Who) (k : Nat) (f : Split → Split) : (s.updSplit w k f).mmaWait = s.mmaWait := rfl
@[simp] theorem State.updSplit_tiles (s : State) (w : Who) (k : Nat) (f : Split → Split) : (s.updSplit w k f).tiles = s.tiles := rfl
@[simp] theorem State.updSplit_accown (s : State) (w : Who) (k : Nat) (f : Split → Split) : (s.updSplit w k f).accown = s.accown := rfl
@[simp] theorem State.updSplit_edges (s : State) (w : Who) (k : Nat) (f : Split → Split) : (s.updSplit w k f).edges = s.edges := rfl
@[simp] theorem State.updSplit_objs (s : State) (w : Who) (k : Nat) (f : Split → Split) : (s.updSplit w k f).objs = s.objs := rfl
@[simp] theorem State.updSplit_lockQ (s : State) (w : Who) (k : Nat) (f : Split → Split) : (s.updSplit w k f).lockQ = s.lockQ := rfl
@[simp] theorem State.updSplit_monitors (s : State) (w : Who) (k : Nat) (f : Split → Split) : (s.updSplit w k f).monitors = s.monitors := rfl
@[simp] theorem State.updSplit_services (s : State) (w : Who) (k : Nat) (f : Split → Split) : (s.updSplit w k f).services = s.services := rfl
@[simp] theorem State.updSplit_handlerQ (s : State) (w : Who) (k : Nat) (f : Split → Split) : (s.updSplit w k f).handlerQ = s.handlerQ := rfl
@[simp] theorem State.updSplit_svEntry (s : State) (w : Who) (k : Nat) (f : Split → Split) : (s.updSplit w k f).svEntry = s.svEntry := rfl
@[simp] theorem State.updSplit_queues (s : State) (w : Who) (k : Nat) (f : Split → Split) : (s.updSplit w k f).queues = s.queues := rfl
@[simp] theorem State.updSplit_replays (s : State) (w : Who) (k : Nat) (f : Split → Split) : (s.updSplit w k f).replays = s.replays := rfl
@[simp] theorem State.updSplit_dies (s : State) (w : Who) (k : Nat) (f : Split → Split) : (s.updSplit w k f).dies = s.dies := rfl
@[simp] theorem State.updSplit_plat (s : State) (w : Who) (k : Nat) (f : Split → Split) : (s.updSplit w k f).plat = s.plat := rfl
@[simp] theorem State.updSplit_zeroBy (s : State) (w : Who) (k : Nat) (f : Split → Split) : (s.updSplit w k f).zeroBy = s.zeroBy := rfl
@[simp] theorem State.updSplit_hidden (s : State) (w : Who) (k : Nat) (f : Split → Split) : (s.updSplit w k f).hidden = s.hidden := rfl
@[simp] theorem State.updSplit_hiddenZ (s : State) (w : Who) (k : Nat) (f : Split → Split) : (s.updSplit w k f).hiddenZ = s.hiddenZ := rfl
@[simp] theorem State.updSplit_svcClk (s : State) (w : Who) (k : Nat) (f : Split → Split) : (s.updSplit w k f).svcClk = s.svcClk := rfl
@[simp] theorem State.updSplit_closed (s : State) (w : Who) (k : Nat) (f : Split → Split) : (s.updSplit w k f).closed = s.closed := rfl
@[simp] theorem State.updSplit_rr (s : State) (w : Who) (k : Nat) (f : Split → Split) : (s.updSplit w k f).rr = s.rr := rfl

@[simp] theorem takeFree_agenda (s : State) : (takeFree s).2.agenda = s.agenda := rfl
@[simp] theorem takeFree_cur (s : State) : (takeFree s).2.cur = s.cur := rfl
@[simp] theorem takeFree_freeCtr (s : State) : (takeFree s).2.freeCtr = s.freeCtr + 1 := rfl
@[simp] theorem takeFree_mem (s : State) : (takeFree s).2.mem = s.mem := rfl
@[simp] theorem takeFree_hist (s : State) : (takeFree s).2.hist = s.hist := rfl
@[simp] theorem takeFree_nextWrite (s : State) : (takeFree s).2.nextWrite = s.nextWrite := rfl
@[simp] theorem takeFree_parties (s : State) : (takeFree s).2.parties = s.parties := rfl
@[simp] theorem takeFree_nextParty (s : State) : (takeFree s).2.nextParty = s.nextParty := rfl
@[simp] theorem takeFree_scF (s : State) : (takeFree s).2.scF = s.scF := rfl
@[simp] theorem takeFree_poison (s : State) : (takeFree s).2.poison = s.poison := rfl
@[simp] theorem takeFree_lines (s : State) : (takeFree s).2.lines = s.lines := rfl
@[simp] theorem takeFree_dir (s : State) : (takeFree s).2.dir = s.dir := rfl
@[simp] theorem takeFree_refusals (s : State) : (takeFree s).2.refusals = s.refusals := rfl
@[simp] theorem takeFree_seals (s : State) : (takeFree s).2.seals = s.seals := rfl
@[simp] theorem takeFree_sealUsed (s : State) : (takeFree s).2.sealUsed = s.sealUsed := rfl
@[simp] theorem takeFree_sealCache (s : State) : (takeFree s).2.sealCache = s.sealCache := rfl
@[simp] theorem takeFree_tlb (s : State) : (takeFree s).2.tlb = s.tlb := rfl
@[simp] theorem takeFree_tlbInv (s : State) : (takeFree s).2.tlbInv = s.tlbInv := rfl
@[simp] theorem takeFree_zeroed (s : State) : (takeFree s).2.zeroed = s.zeroed := rfl
@[simp] theorem takeFree_threads (s : State) : (takeFree s).2.threads = s.threads := rfl
@[simp] theorem takeFree_teams (s : State) : (takeFree s).2.teams = s.teams := rfl
@[simp] theorem takeFree_clusters (s : State) : (takeFree s).2.clusters = s.clusters := rfl
@[simp] theorem takeFree_grids (s : State) : (takeFree s).2.grids = s.grids := rfl
@[simp] theorem takeFree_nextId (s : State) : (takeFree s).2.nextId = s.nextId := rfl
@[simp] theorem takeFree_nextSerial (s : State) : (takeFree s).2.nextSerial = s.nextSerial := rfl
@[simp] theorem takeFree_nextPend (s : State) : (takeFree s).2.nextPend = s.nextPend := rfl
@[simp] theorem takeFree_cmds (s : State) : (takeFree s).2.cmds = s.cmds := rfl
@[simp] theorem takeFree_savedCmds (s : State) : (takeFree s).2.savedCmds = s.savedCmds := rfl
@[simp] theorem takeFree_mmaWait (s : State) : (takeFree s).2.mmaWait = s.mmaWait := rfl
@[simp] theorem takeFree_tiles (s : State) : (takeFree s).2.tiles = s.tiles := rfl
@[simp] theorem takeFree_accown (s : State) : (takeFree s).2.accown = s.accown := rfl
@[simp] theorem takeFree_edges (s : State) : (takeFree s).2.edges = s.edges := rfl
@[simp] theorem takeFree_objs (s : State) : (takeFree s).2.objs = s.objs := rfl
@[simp] theorem takeFree_lockQ (s : State) : (takeFree s).2.lockQ = s.lockQ := rfl
@[simp] theorem takeFree_monitors (s : State) : (takeFree s).2.monitors = s.monitors := rfl
@[simp] theorem takeFree_services (s : State) : (takeFree s).2.services = s.services := rfl
@[simp] theorem takeFree_handlerQ (s : State) : (takeFree s).2.handlerQ = s.handlerQ := rfl
@[simp] theorem takeFree_svEntry (s : State) : (takeFree s).2.svEntry = s.svEntry := rfl
@[simp] theorem takeFree_queues (s : State) : (takeFree s).2.queues = s.queues := rfl
@[simp] theorem takeFree_replays (s : State) : (takeFree s).2.replays = s.replays := rfl
@[simp] theorem takeFree_dies (s : State) : (takeFree s).2.dies = s.dies := rfl
@[simp] theorem takeFree_plat (s : State) : (takeFree s).2.plat = s.plat := rfl
@[simp] theorem takeFree_zeroBy (s : State) : (takeFree s).2.zeroBy = s.zeroBy := rfl
@[simp] theorem takeFree_hidden (s : State) : (takeFree s).2.hidden = s.hidden := rfl
@[simp] theorem takeFree_hiddenZ (s : State) : (takeFree s).2.hiddenZ = s.hiddenZ := rfl
@[simp] theorem takeFree_svcClk (s : State) : (takeFree s).2.svcClk = s.svcClk := rfl
@[simp] theorem takeFree_closed (s : State) : (takeFree s).2.closed = s.closed := rfl
@[simp] theorem takeFree_rr (s : State) : (takeFree s).2.rr = s.rr := rfl

@[simp] theorem takeFrees_agenda (s : State) (n : Nat) : (takeFrees s n).2.agenda = s.agenda := rfl
@[simp] theorem takeFrees_cur (s : State) (n : Nat) : (takeFrees s n).2.cur = s.cur := rfl
@[simp] theorem takeFrees_freeCtr (s : State) (n : Nat) : (takeFrees s n).2.freeCtr = s.freeCtr + n := rfl
@[simp] theorem takeFrees_mem (s : State) (n : Nat) : (takeFrees s n).2.mem = s.mem := rfl
@[simp] theorem takeFrees_hist (s : State) (n : Nat) : (takeFrees s n).2.hist = s.hist := rfl
@[simp] theorem takeFrees_nextWrite (s : State) (n : Nat) : (takeFrees s n).2.nextWrite = s.nextWrite := rfl
@[simp] theorem takeFrees_parties (s : State) (n : Nat) : (takeFrees s n).2.parties = s.parties := rfl
@[simp] theorem takeFrees_nextParty (s : State) (n : Nat) : (takeFrees s n).2.nextParty = s.nextParty := rfl
@[simp] theorem takeFrees_scF (s : State) (n : Nat) : (takeFrees s n).2.scF = s.scF := rfl
@[simp] theorem takeFrees_poison (s : State) (n : Nat) : (takeFrees s n).2.poison = s.poison := rfl
@[simp] theorem takeFrees_lines (s : State) (n : Nat) : (takeFrees s n).2.lines = s.lines := rfl
@[simp] theorem takeFrees_dir (s : State) (n : Nat) : (takeFrees s n).2.dir = s.dir := rfl
@[simp] theorem takeFrees_refusals (s : State) (n : Nat) : (takeFrees s n).2.refusals = s.refusals := rfl
@[simp] theorem takeFrees_seals (s : State) (n : Nat) : (takeFrees s n).2.seals = s.seals := rfl
@[simp] theorem takeFrees_sealUsed (s : State) (n : Nat) : (takeFrees s n).2.sealUsed = s.sealUsed := rfl
@[simp] theorem takeFrees_sealCache (s : State) (n : Nat) : (takeFrees s n).2.sealCache = s.sealCache := rfl
@[simp] theorem takeFrees_tlb (s : State) (n : Nat) : (takeFrees s n).2.tlb = s.tlb := rfl
@[simp] theorem takeFrees_tlbInv (s : State) (n : Nat) : (takeFrees s n).2.tlbInv = s.tlbInv := rfl
@[simp] theorem takeFrees_zeroed (s : State) (n : Nat) : (takeFrees s n).2.zeroed = s.zeroed := rfl
@[simp] theorem takeFrees_threads (s : State) (n : Nat) : (takeFrees s n).2.threads = s.threads := rfl
@[simp] theorem takeFrees_teams (s : State) (n : Nat) : (takeFrees s n).2.teams = s.teams := rfl
@[simp] theorem takeFrees_clusters (s : State) (n : Nat) : (takeFrees s n).2.clusters = s.clusters := rfl
@[simp] theorem takeFrees_grids (s : State) (n : Nat) : (takeFrees s n).2.grids = s.grids := rfl
@[simp] theorem takeFrees_nextId (s : State) (n : Nat) : (takeFrees s n).2.nextId = s.nextId := rfl
@[simp] theorem takeFrees_nextSerial (s : State) (n : Nat) : (takeFrees s n).2.nextSerial = s.nextSerial := rfl
@[simp] theorem takeFrees_nextPend (s : State) (n : Nat) : (takeFrees s n).2.nextPend = s.nextPend := rfl
@[simp] theorem takeFrees_cmds (s : State) (n : Nat) : (takeFrees s n).2.cmds = s.cmds := rfl
@[simp] theorem takeFrees_savedCmds (s : State) (n : Nat) : (takeFrees s n).2.savedCmds = s.savedCmds := rfl
@[simp] theorem takeFrees_mmaWait (s : State) (n : Nat) : (takeFrees s n).2.mmaWait = s.mmaWait := rfl
@[simp] theorem takeFrees_tiles (s : State) (n : Nat) : (takeFrees s n).2.tiles = s.tiles := rfl
@[simp] theorem takeFrees_accown (s : State) (n : Nat) : (takeFrees s n).2.accown = s.accown := rfl
@[simp] theorem takeFrees_edges (s : State) (n : Nat) : (takeFrees s n).2.edges = s.edges := rfl
@[simp] theorem takeFrees_objs (s : State) (n : Nat) : (takeFrees s n).2.objs = s.objs := rfl
@[simp] theorem takeFrees_lockQ (s : State) (n : Nat) : (takeFrees s n).2.lockQ = s.lockQ := rfl
@[simp] theorem takeFrees_monitors (s : State) (n : Nat) : (takeFrees s n).2.monitors = s.monitors := rfl
@[simp] theorem takeFrees_services (s : State) (n : Nat) : (takeFrees s n).2.services = s.services := rfl
@[simp] theorem takeFrees_handlerQ (s : State) (n : Nat) : (takeFrees s n).2.handlerQ = s.handlerQ := rfl
@[simp] theorem takeFrees_svEntry (s : State) (n : Nat) : (takeFrees s n).2.svEntry = s.svEntry := rfl
@[simp] theorem takeFrees_queues (s : State) (n : Nat) : (takeFrees s n).2.queues = s.queues := rfl
@[simp] theorem takeFrees_replays (s : State) (n : Nat) : (takeFrees s n).2.replays = s.replays := rfl
@[simp] theorem takeFrees_dies (s : State) (n : Nat) : (takeFrees s n).2.dies = s.dies := rfl
@[simp] theorem takeFrees_plat (s : State) (n : Nat) : (takeFrees s n).2.plat = s.plat := rfl
@[simp] theorem takeFrees_zeroBy (s : State) (n : Nat) : (takeFrees s n).2.zeroBy = s.zeroBy := rfl
@[simp] theorem takeFrees_hidden (s : State) (n : Nat) : (takeFrees s n).2.hidden = s.hidden := rfl
@[simp] theorem takeFrees_hiddenZ (s : State) (n : Nat) : (takeFrees s n).2.hiddenZ = s.hiddenZ := rfl
@[simp] theorem takeFrees_svcClk (s : State) (n : Nat) : (takeFrees s n).2.svcClk = s.svcClk := rfl
@[simp] theorem takeFrees_closed (s : State) (n : Nat) : (takeFrees s n).2.closed = s.closed := rfl
@[simp] theorem takeFrees_rr (s : State) (n : Nat) : (takeFrees s n).2.rr = s.rr := rfl

@[simp] theorem takeChoice_agenda (s : State) (n : Nat) : (takeChoice s n).2.agenda = s.agenda := by
  unfold takeChoice; split <;> rfl
@[simp] theorem takeChoice_cur (s : State) (n : Nat) : (takeChoice s n).2.cur = s.cur := by
  unfold takeChoice; split <;> rfl
@[simp] theorem takeChoice_mem (s : State) (n : Nat) : (takeChoice s n).2.mem = s.mem := by
  unfold takeChoice; split <;> rfl
@[simp] theorem takeChoice_hist (s : State) (n : Nat) : (takeChoice s n).2.hist = s.hist := by
  unfold takeChoice; split <;> rfl
@[simp] theorem takeChoice_nextWrite (s : State) (n : Nat) : (takeChoice s n).2.nextWrite = s.nextWrite := by
  unfold takeChoice; split <;> rfl
@[simp] theorem takeChoice_parties (s : State) (n : Nat) : (takeChoice s n).2.parties = s.parties := by
  unfold takeChoice; split <;> rfl
@[simp] theorem takeChoice_nextParty (s : State) (n : Nat) : (takeChoice s n).2.nextParty = s.nextParty := by
  unfold takeChoice; split <;> rfl
@[simp] theorem takeChoice_scF (s : State) (n : Nat) : (takeChoice s n).2.scF = s.scF := by
  unfold takeChoice; split <;> rfl
@[simp] theorem takeChoice_poison (s : State) (n : Nat) : (takeChoice s n).2.poison = s.poison := by
  unfold takeChoice; split <;> rfl
@[simp] theorem takeChoice_lines (s : State) (n : Nat) : (takeChoice s n).2.lines = s.lines := by
  unfold takeChoice; split <;> rfl
@[simp] theorem takeChoice_dir (s : State) (n : Nat) : (takeChoice s n).2.dir = s.dir := by
  unfold takeChoice; split <;> rfl
@[simp] theorem takeChoice_refusals (s : State) (n : Nat) : (takeChoice s n).2.refusals = s.refusals := by
  unfold takeChoice; split <;> rfl
@[simp] theorem takeChoice_seals (s : State) (n : Nat) : (takeChoice s n).2.seals = s.seals := by
  unfold takeChoice; split <;> rfl
@[simp] theorem takeChoice_sealUsed (s : State) (n : Nat) : (takeChoice s n).2.sealUsed = s.sealUsed := by
  unfold takeChoice; split <;> rfl
@[simp] theorem takeChoice_sealCache (s : State) (n : Nat) : (takeChoice s n).2.sealCache = s.sealCache := by
  unfold takeChoice; split <;> rfl
@[simp] theorem takeChoice_tlb (s : State) (n : Nat) : (takeChoice s n).2.tlb = s.tlb := by
  unfold takeChoice; split <;> rfl
@[simp] theorem takeChoice_tlbInv (s : State) (n : Nat) : (takeChoice s n).2.tlbInv = s.tlbInv := by
  unfold takeChoice; split <;> rfl
@[simp] theorem takeChoice_zeroed (s : State) (n : Nat) : (takeChoice s n).2.zeroed = s.zeroed := by
  unfold takeChoice; split <;> rfl
@[simp] theorem takeChoice_threads (s : State) (n : Nat) : (takeChoice s n).2.threads = s.threads := by
  unfold takeChoice; split <;> rfl
@[simp] theorem takeChoice_teams (s : State) (n : Nat) : (takeChoice s n).2.teams = s.teams := by
  unfold takeChoice; split <;> rfl
@[simp] theorem takeChoice_clusters (s : State) (n : Nat) : (takeChoice s n).2.clusters = s.clusters := by
  unfold takeChoice; split <;> rfl
@[simp] theorem takeChoice_grids (s : State) (n : Nat) : (takeChoice s n).2.grids = s.grids := by
  unfold takeChoice; split <;> rfl
@[simp] theorem takeChoice_nextId (s : State) (n : Nat) : (takeChoice s n).2.nextId = s.nextId := by
  unfold takeChoice; split <;> rfl
@[simp] theorem takeChoice_nextSerial (s : State) (n : Nat) : (takeChoice s n).2.nextSerial = s.nextSerial := by
  unfold takeChoice; split <;> rfl
@[simp] theorem takeChoice_nextPend (s : State) (n : Nat) : (takeChoice s n).2.nextPend = s.nextPend := by
  unfold takeChoice; split <;> rfl
@[simp] theorem takeChoice_cmds (s : State) (n : Nat) : (takeChoice s n).2.cmds = s.cmds := by
  unfold takeChoice; split <;> rfl
@[simp] theorem takeChoice_savedCmds (s : State) (n : Nat) : (takeChoice s n).2.savedCmds = s.savedCmds := by
  unfold takeChoice; split <;> rfl
@[simp] theorem takeChoice_mmaWait (s : State) (n : Nat) : (takeChoice s n).2.mmaWait = s.mmaWait := by
  unfold takeChoice; split <;> rfl
@[simp] theorem takeChoice_tiles (s : State) (n : Nat) : (takeChoice s n).2.tiles = s.tiles := by
  unfold takeChoice; split <;> rfl
@[simp] theorem takeChoice_accown (s : State) (n : Nat) : (takeChoice s n).2.accown = s.accown := by
  unfold takeChoice; split <;> rfl
@[simp] theorem takeChoice_edges (s : State) (n : Nat) : (takeChoice s n).2.edges = s.edges := by
  unfold takeChoice; split <;> rfl
@[simp] theorem takeChoice_objs (s : State) (n : Nat) : (takeChoice s n).2.objs = s.objs := by
  unfold takeChoice; split <;> rfl
@[simp] theorem takeChoice_lockQ (s : State) (n : Nat) : (takeChoice s n).2.lockQ = s.lockQ := by
  unfold takeChoice; split <;> rfl
@[simp] theorem takeChoice_monitors (s : State) (n : Nat) : (takeChoice s n).2.monitors = s.monitors := by
  unfold takeChoice; split <;> rfl
@[simp] theorem takeChoice_services (s : State) (n : Nat) : (takeChoice s n).2.services = s.services := by
  unfold takeChoice; split <;> rfl
@[simp] theorem takeChoice_handlerQ (s : State) (n : Nat) : (takeChoice s n).2.handlerQ = s.handlerQ := by
  unfold takeChoice; split <;> rfl
@[simp] theorem takeChoice_svEntry (s : State) (n : Nat) : (takeChoice s n).2.svEntry = s.svEntry := by
  unfold takeChoice; split <;> rfl
@[simp] theorem takeChoice_queues (s : State) (n : Nat) : (takeChoice s n).2.queues = s.queues := by
  unfold takeChoice; split <;> rfl
@[simp] theorem takeChoice_replays (s : State) (n : Nat) : (takeChoice s n).2.replays = s.replays := by
  unfold takeChoice; split <;> rfl
@[simp] theorem takeChoice_dies (s : State) (n : Nat) : (takeChoice s n).2.dies = s.dies := by
  unfold takeChoice; split <;> rfl
@[simp] theorem takeChoice_plat (s : State) (n : Nat) : (takeChoice s n).2.plat = s.plat := by
  unfold takeChoice; split <;> rfl
@[simp] theorem takeChoice_zeroBy (s : State) (n : Nat) : (takeChoice s n).2.zeroBy = s.zeroBy := by
  unfold takeChoice; split <;> rfl
@[simp] theorem takeChoice_hidden (s : State) (n : Nat) : (takeChoice s n).2.hidden = s.hidden := by
  unfold takeChoice; split <;> rfl
@[simp] theorem takeChoice_hiddenZ (s : State) (n : Nat) : (takeChoice s n).2.hiddenZ = s.hiddenZ := by
  unfold takeChoice; split <;> rfl
@[simp] theorem takeChoice_svcClk (s : State) (n : Nat) : (takeChoice s n).2.svcClk = s.svcClk := by
  unfold takeChoice; split <;> rfl
@[simp] theorem takeChoice_closed (s : State) (n : Nat) : (takeChoice s n).2.closed = s.closed := by
  unfold takeChoice; split <;> rfl
@[simp] theorem takeChoice_rr (s : State) (n : Nat) : (takeChoice s n).2.rr = s.rr := by
  unfold takeChoice; split <;> rfl

end Sys2Proof.Machine
end

