-- ==== Sys2Proof/Laws/Cache.lean ====
section
/-!
SUPPORT. Writes at a home leave the teams alone.
-/
namespace Sys2Proof.Machine

theorem foldl_teams {α : Type} (f : State → α → State) (h : ∀ s x, (f s x).teams = s.teams) (l : List α) (s : State) :
    (l.foldl f s).teams = s.teams := by
  induction l generalizing s with
  | nil => rfl
  | cons x l ih => exact (ih _).trans (h s x)

theorem State.markPoison_teams (s : State) (ks : List Nat) (p : Bool) : (s.markPoison ks p).teams = s.teams := rfl

theorem State.write_teams (s : State) (party : Nat) (data : List (Nat × Byte)) (rel : Option Scope) (pt : Option Nat) (ps : List (Nat × ByteW))
    (p : Bool) : (s.write party data rel pt ps p).teams = s.teams := by
  unfold State.write State.writeAs State.writeFrom
  dsimp only
  rw [State.markPoison_teams]
  refine (foldl_teams _ ?_ data (s.tick party).2).trans rfl
  exact fun _ _ => rfl

theorem State.holdHome_teams (s : State) (line : Nat) : (s.holdHome line).teams = s.teams := by
  unfold State.holdHome
  dsimp only
  split
  · rfl
  · show ((s.makeRoom (fun s _ => s) .home _ line).putLine _).teams = _
    show (s.makeRoom (fun s _ => s) .home _ line).teams = _
    unfold State.makeRoom
    dsimp only
    split
    · rfl
    · split
      · exact takeChoice_teams _ _
      · exact takeChoice_teams _ _

theorem State.markStale_teams (s : State) (lvl : CacheLevel) (owner line : Nat) : (s.markStale lvl owner line).teams = s.teams := by
  unfold State.markStale
  split
  · show (State.dirAdd _ line owner).teams = s.teams
    unfold State.dirAdd
    dsimp only
    split
    · split <;> rfl
    · rfl
  · split <;> rfl

theorem State.sendNotice_teams (s : State) (line die : Nat) : (s.sendNotice line die).teams = s.teams := by
  unfold State.sendNotice
  split
  · exact State.markStale_teams ..
  · rfl

theorem State.notices_teams (s : State) (line : Nat) (w : Option Nat) : (s.notices line w).teams = s.teams := by
  have h := fun l (s : State) => foldl_teams (fun (s : State) d => if some d == w then s else s.sendNotice line d)
    (fun s d => by split <;> first | rfl | exact State.sendNotice_teams ..) l s
  unfold State.notices
  dsimp only
  split
  · rfl
  · refine (h _ _).trans ?_
    split <;> rfl

theorem State.landHome_teams (s : State) (w : Option Nat) (keys : List Nat) (wid : Nat) : (s.landHome w keys wid).teams = s.teams := by
  have h : ((linesOf keys).foldl (fun s l => (s.holdHome l).notices l w)
      ((s.landAt pointSp (keys.filter isSpKey) wid).landAt pointHome (keys.filter fun k => !isSpKey k) wid)).teams = s.teams :=
    (foldl_teams _ (fun _ _ => (State.notices_teams ..).trans (State.holdHome_teams ..)) _ _).trans rfl
  unfold State.landHome
  dsimp only
  split
  · exact h
  · exact h

theorem State.writeHome_teams (s : State) (party : Nat) (data : List (Nat × Byte)) (p : Bool) (w : Option Nat) :
    (s.writeHome party data p w).teams = s.teams :=
  (State.landHome_teams ..).trans (State.write_teams ..)

/-- What a record's writes leave: the teams of the state in which its keys have been found, which stands where they can be. -/
theorem State.recWrites_spec (s : State) (party h : Nat) (l : List (Nat × List Byte)) :
    (s.recWrites party h l).1 = (s.recTargets party h l).1.isSome ∧
      (s.recWrites party h l).2.teams = (s.recTargets party h l).2.teams := by
  unfold State.recWrites
  split
  · rename_i e; simp [e]
  · rename_i e; exact ⟨by simp [e], by rw [e]; exact foldl_teams _ (fun _ _ => State.writeHome_teams ..) _ _⟩

end Sys2Proof.Machine
end

