-- ==== Sys2Proof/Laws/Issue.lean ====
section
/-!
SUPPORT. The operations that every instruction shares: what `runAcross` answers when its instruction is ready, what reading operands
changes, and everything that completion, a reservation and a trap do.
-/
namespace Sys2Proof.Machine

/-! ## Tables -/

section Tables
variable {α : Type}

theorem find?_updFirst_self (p : α → Bool) (f : α → α) (hf : ∀ x, p x = true → p (f x) = true) (l : List α) :
    (updFirst p f l).find? p = (l.find? p).map f := by
  induction l with
  | nil => rfl
  | cons x l ih =>
    by_cases hx : p x = true
    · simp [updFirst, hx, hf x hx]
    · simp [updFirst, hx, ih]

theorem find?_updFirst_other (p q : α → Bool) (f : α → α) (hf : ∀ x, p x = true → q x = false ∧ q (f x) = false) (l : List α) :
    (updFirst p f l).find? q = l.find? q := by
  induction l with
  | nil => rfl
  | cons x l ih =>
    by_cases hx : p x = true
    · simp [updFirst, hx, hf x hx]
    · by_cases hq : q x = true <;> simp [updFirst, List.find?_cons, hx, ih, hq]

theorem getElem?_setAt (l : List α) (n : Nat) (a : α) (i : Nat) : (setAt l n a)[i]? = if i = n ∧ i < l.length then some a else l[i]? := by
  induction l generalizing n i with
  | nil => simp [setAt]
  | cons x l ih =>
    cases n with
    | zero => cases i <;> simp [setAt]
    | succ n => cases i <;> simp [setAt, ih]

end Tables

theorem State.thread?_updThread_self (s : State) (w : Who) (f : Warp → Warp) (hf : ∀ t, t.who = w → (f t).who = w) :
    (s.updThread w f).thread? w = (s.thread? w).map f :=
  find?_updFirst_self _ _ (fun t ht => by simpa using hf t (by simpa using ht)) _

theorem State.thread?_updThread_other (s : State) (w v : Who) (f : Warp → Warp) (h : v ≠ w) (hf : ∀ t, t.who = w → (f t).who = w) :
    (s.updThread w f).thread? v = s.thread? v :=
  find?_updFirst_other _ _ _ (fun t ht => by
    have hw : t.who = w := by simpa using ht
    simp [hw, hf t hw, Ne.symm h]) _

theorem State.team?_updTeam_self (s : State) (h : Nat) (f : Team → Team) (hf : ∀ t, t.ctxh = h → (f t).ctxh = h) :
    (s.updTeam h f).team? h = (s.team? h).map f :=
  find?_updFirst_self _ _ (fun t ht => by simpa using hf t (by simpa using ht)) _

theorem State.team?_updTeam_other (s : State) (h g : Nat) (f : Team → Team) (hg : g ≠ h) (hf : ∀ t, t.ctxh = h → (f t).ctxh = h) :
    (s.updTeam h f).team? g = s.team? g :=
  find?_updFirst_other _ _ _ (fun t ht => by
    have hw : t.ctxh = h := by simpa using ht
    simp [hw, hf t hw, Ne.symm hg]) _

@[simp] theorem State.team?_updThread (s : State) (w : Who) (f : Warp → Warp) (h : Nat) : (s.updThread w f).team? h = s.team? h := rfl
@[simp] theorem State.thread?_updTeam (s : State) (h : Nat) (f : Team → Team) (w : Who) : (s.updTeam h f).thread? w = s.thread? w := rfl

theorem State.thread?_who {s : State} {w : Who} {t : Warp} (h : s.thread? w = some t) : t.who = w := by
  simpa using List.find?_some h

theorem State.team?_ctxh {s : State} {h : Nat} {t : Team} (e : s.team? h = some t) : t.ctxh = h := by
  simpa using List.find?_some e

/-! ## An instruction that is ready -/

/-- Parts of `issuing`. -/
theorem issuing_spec {s : State} {h : Hdr} {cx : Cx} (e : s.issuing h = some cx) :
    ∃ i, s.cur = some i ∧ cx.who = i.who ∧ cx.k = i.spl ∧ cx.pc = i.pc ∧ cx.word = i.word ∧ cx.h = h ∧ s.thread? i.who = some cx.t ∧
      s.team? (s.ctxhOf i.who) = some cx.tm ∧ cx.t.split? i.spl = some cx.sp ∧ cx.on = cx.sp.mask &&& cx.t.guardMask h.guard := by
  unfold State.issuing at e
  split at e
  · cases e
  · rename_i i hi
    split at e
    · rename_i t tm ht htm
      obtain ⟨sp, hsp, rfl⟩ := Option.map_eq_some_iff.1 e
      exact ⟨i, hi, rfl, rfl, rfl, rfl, rfl, ht, htm, hsp, rfl⟩
    · cases e

/-- What a ready instruction runs with. -/
theorem afterReads_spec {s : State} {cx : Cx} {l : List Nat} {cx1 : Cx} {s1 : State} (e : s.afterReads cx l = some (cx1, s1)) :
    State.eachEntry (fun s i => s.fillEntry cx.tm cx.who cx.sp.party i) s (belowWindow cx l) = (.ok (), s1) ∧
      ∃ t, s1.thread? cx.who = some t ∧ t.split? cx.k = some cx.sp ∧ cx1 = { cx with t := t } := by
  unfold State.afterReads at e
  split at e
  · cases e
  · rename_i s2 he
    split at e
    · rename_i t ht
      split at e
      · rename_i hk
        simp only [Option.some.injEq, Prod.mk.injEq] at e
        obtain ⟨rfl, rfl⟩ := e
        exact ⟨he, t, ht, hk, rfl⟩
      · cases e
    · cases e

/-- Where an instruction's reads of entries below the window pass, it goes on in the state that they leave (03 R59). -/
theorem slotReads_after {s : State} {cx : Cx} {l : List Nat} {cx1 : Cx} {s1 : State} (body : State → State)
    (e : s.afterReads cx l = some (cx1, s1)) : s.slotReads cx l body = body s1 := by
  have h := (afterReads_spec e).1
  unfold belowWindow at h
  simp only [State.slotReads, h]

theorem readyAcross_spec {s : State} {h : Hdr} {sh : Shape} {cross : Cx → Option (Mask × Nat)} {cx : Cx} {s1 : State}
    (e : s.readyAcross h sh cross = some (cx, s1)) :
    s1.thread? cx.who = some cx.t ∧ cx.t.split? cx.k = some cx.sp ∧ cx.h = h ∧ (∃ i, s.cur = some i ∧ cx.who = i.who ∧ cx.k = i.spl ∧
      cx.pc = i.pc ∧ cx.word = i.word ∧ s.team? (s.ctxhOf i.who) = some cx.tm) := by
  obtain ⟨cx0, h0, h1⟩ := Option.bind_eq_some_iff.1 e
  obtain ⟨i, a1, a2, a3, a4, a5, a6, a7, a8, a9, a10⟩ := issuing_spec h0
  split at h1
  · obtain ⟨-, t, ht, hk, rfl⟩ := afterReads_spec h1
    exact ⟨ht, hk, a6, i, a1, a2, a3, a4, a5, a8⟩
  · cases h1

/-- A ready instruction answers the next state that its effect gives. -/
theorem runAcross_ready {s : State} {h : Hdr} {sh : Shape} {cross : Cx → Option (Mask × Nat)} {cx : Cx} {s1 : State}
    (body : Cx → State → State) (e : s.readyAcross h sh cross = some (cx, s1)) : runAcross s h sh cross body = .next (body cx s1) := by
  obtain ⟨cx0, h0, h1⟩ := Option.bind_eq_some_iff.1 e
  obtain ⟨i, a1, a2, a3, a4, a5, a6, a7, a8, a9, a10⟩ := issuing_spec h0
  split at h1
  · rename_i hc
    obtain ⟨c1, c2, c3, c4⟩ := hc
    obtain ⟨he, t, ht, hk, rfl⟩ := afterReads_spec h1
    have hcx : cx0 = { who := i.who, k := i.spl, pc := i.pc, word := i.word, h := h, t := cx0.t, sp := cx0.sp, tm := cx0.tm,
                       on := cx0.sp.mask &&& cx0.t.guardMask h.guard } := by
      cases cx0; simp only at a2 a3 a4 a5 a6 a10; subst a2 a3 a4 a5 a6 a10; rfl
    have hw : (sh.waits && !(cx0.t.pendsOf i.spl).isEmpty) = false := by
      cases hs : sh.waits
      · rfl
      · have := c2 hs; rw [a3] at this; simp [this]
    unfold runAcross
    rw [a1]
    simp only
    rw [a7, a8]
    simp only
    rw [a9]
    simp only [← hcx]
    rw [a2, a5] at c1
    rw [a2] at c4
    rw [c1]
    simp only [hw, Bool.false_eq_true, if_false]
    rw [c3]
    simp only
    rw [c4]
    simp only
    unfold State.slotReads
    unfold belowWindow at he
    simp only
    rw [he]
    simp only
    rw [← a2, ht]
    simp only [Option.getD_some, a3, a4, a5, a6, a10]
  · cases h1

theorem run_ready {s : State} {h : Hdr} {sh : Shape} {cx : Cx} {s1 : State} (body : Cx → State → State) (e : s.ready h sh = some (cx, s1)) :
    run s h sh body = .next (body cx s1) := runAcross_ready body e

/-! ## Operands -/

/-- Reading operands takes free values and nothing else. -/
theorem readLanes_same (cx : Cx) (x : Src) (m : Mask) (ls : List Nat) (s : State) :
    (readLanes cx x m s ls).2 = { s with freeCtr := (readLanes cx x m s ls).2.freeCtr } := by
  induction ls generalizing s with
  | nil => rfl
  | cons l ls ih =>
    unfold readLanes
    split
    · have hl : (s.readLane cx x l).2 = { s with freeCtr := (s.readLane cx x l).2.freeCtr } := by
        unfold State.readLane
        split
        · simp only; split <;> rfl
        · simp only; split <;> rfl
        · rfl
        · rfl
      have := ih (s.readLane cx x l).2
      simp only
      rw [this, hl]
    · exact ih s

theorem operands_same (cx : Cx) (fs : List (Nat × Src)) (p : Bool) (s : State) :
    (s.operands cx fs p).2 = { s with freeCtr := (s.operands cx fs p).2.freeCtr } := by
  induction fs generalizing s with
  | nil => rfl
  | cons f fs ih =>
    have h1 := readLanes_same cx f.2 (readMask cx.mask cx.on p 0 f.1) (List.range 32) s
    have h2 := ih (readLanes cx f.2 (readMask cx.mask cx.on p 0 f.1) s (List.range 32)).2
    simp only [State.operands]
    rw [h2, h1]

@[simp] theorem operands_thread? (cx : Cx) (fs : List (Nat × Src)) (p : Bool) (s : State) (w : Who) :
    (s.operands cx fs p).2.thread? w = s.thread? w := by rw [operands_same]; rfl
@[simp] theorem operands_team? (cx : Cx) (fs : List (Nat × Src)) (p : Bool) (s : State) (h : Nat) :
    (s.operands cx fs p).2.team? h = s.team? h := by rw [operands_same]; rfl

/-! ## Completion -/

/-- A change of a thread that says nothing of its queues, splits, reservations, skid or name. -/
def Warp.Plain (f : Warp → Warp) : Prop :=
  ∀ (t : Warp) q sp pd sk, f { t with queue := q, splits := sp, pend := pd, skid := sk } =
    { f t with queue := q, splits := sp, pend := pd, skid := sk } ∧ (f t).who = t.who

theorem Warp.plain_id : Warp.Plain fun t => t := fun _ _ _ _ _ => ⟨rfl, rfl⟩

theorem Warp.Plain.keeps {f : Warp → Warp} (hf : Warp.Plain f) (t : Warp) :
    (f t).queue = t.queue ∧ (f t).splits = t.splits ∧ (f t).pend = t.pend ∧ (f t).skid = t.skid ∧ (f t).who = t.who := by
  have h := (hf t t.queue t.splits t.pend t.skid).1
  have e : ({ t with queue := t.queue, splits := t.splits, pend := t.pend, skid := t.skid } : Warp) = t := rfl
  rw [e] at h
  refine ⟨?_, ?_, ?_, ?_, (hf t [] [] [] 0).2⟩ <;> rw [h]

theorem Warp.split?_updSplit (t : Warp) (k : Nat) (f : Split → Split) (j : Nat) :
    (t.updSplit k f).split? j = if j = k then (t.split? k).map f else t.split? j := by
  unfold Warp.updSplit
  cases h : t.split? k with
  | none => by_cases hj : j = k <;> simp [hj, h]
  | some sp =>
    have hk : k < t.splits.length := by
      by_contra hk
      simp [Warp.split?, List.getElem?_eq_none (Nat.le_of_not_lt hk)] at h
    simp only [Warp.setSplit, Warp.split?, getElem?_setAt]
    by_cases hj : j = k
    · subst hj; simp [hk]
    · simp [hj]

@[simp] theorem Warp.updSplit_who (t : Warp) (k : Nat) (f : Split → Split) : (t.updSplit k f).who = t.who := by
  unfold Warp.updSplit; split <;> rfl
theorem Warp.updSplit_eq (t : Warp) (k : Nat) (f : Split → Split) : t.updSplit k f = { t with splits := (t.updSplit k f).splits } := by
  unfold Warp.updSplit; split <;> rfl
@[simp] theorem Warp.updSplit_queue (t : Warp) (k : Nat) (f : Split → Split) : (t.updSplit k f).queue = t.queue := by
  unfold Warp.updSplit; split <;> rfl
@[simp] theorem Warp.updSplit_pend (t : Warp) (k : Nat) (f : Split → Split) : (t.updSplit k f).pend = t.pend := by
  unfold Warp.updSplit; split <;> rfl

/-- The thread after `issued`, said by what has changed. -/
theorem Warp.issued_eq (t : Warp) (k now : Nat) : t.issued k now = { t with splits := (t.issued k now).splits, pend := (t.issued k now).pend } := by
  unfold Warp.issued
  simp only
  rw [Warp.updSplit_eq]

theorem Warp.issued_split? (t : Warp) (k now j : Nat) :
    (t.issued k now).split? j = if j = k then (t.split? k).map fun sp => { sp with
      windows := t.shrunk sp, wait := none, waited := 0, readyFrom := now, promoted := 0, acted := 0, up := false, skips := 0, issues := sp.issues + 1 }
      else t.split? j := by
  have : (t.issued k now).split? j = (t.updSplit k fun sp => { sp with
      windows := (sp.windows.filter fun w => t.pend.any fun p => p.id == w.1).map fun w => (w.1, w.2 - 1)
      wait := none, waited := 0, readyFrom := now, promoted := 0, acted := 0, up := false, skips := 0, issues := sp.issues + 1 }).split? j := rfl
  rw [this, Warp.split?_updSplit]
  rfl

theorem Warp.issued_pend (t : Warp) (k now : Nat) :
    (t.issued k now).pend = t.pend.map fun p => if p.spl == k then { p with later := p.later + 1 } else p := by
  simp [Warp.issued]

theorem Warp.pushEach_eq (t : Warp) (m : Mask) (f : Nat → List QEnt) : t.pushEach m f = { t with queue := (t.pushEach m f).queue } := rfl

theorem Warp.pushEach_queue (t : Warp) (m : Mask) (f : Nat → List QEnt) (l : Nat) :
    (t.pushEach m f).queue[l]? = (t.queue[l]?).map fun q => if m.getLsbD l then (f l).foldl pushLane q else q := by
  simp [Warp.pushEach, List.getElem?_map]
  cases t.queue[l]? <;> simp

/-! ### Everything an instruction does as it completes -/

/-- The thread that `advance` makes. -/
def State.nextThread (s : State) (w : Who) (k : Nat) (f : Warp → Warp) (pc : Pc) (n : Nat) (t : Warp) : Warp :=
  let t := (f (t.issued k (s.clkFor w))).updSplit k fun sp => { sp with pc := pc, p := addP sp.p n }
  { t with skid := if ((s.team? (s.ctxhOf w)).map fun t => t.status == .stopping).getD false && !w.isHandler then t.skid + 1 else t.skid }

theorem State.advance_eq (s : State) (w : Who) (k : Nat) (f : Warp → Warp) (pc : Pc) (n : Nat) :
    s.advance w k f pc n = s.updThread w (s.nextThread w k f pc n) := rfl

theorem State.nextThread_eq (s : State) (w : Who) (k : Nat) (f : Warp → Warp) (pc : Pc) (n : Nat) (t : Warp) :
    s.nextThread w k f pc n t = { f (t.issued k (s.clkFor w)) with
      splits := (s.nextThread w k f pc n t).splits, skid := (s.nextThread w k f pc n t).skid } := by
  simp only [State.nextThread]; rw [Warp.updSplit_eq]

theorem State.nextThread_split? (s : State) (w : Who) (k : Nat) (f : Warp → Warp) (pc : Pc) (n : Nat) (t : Warp) (j : Nat) :
    (s.nextThread w k f pc n t).split? j =
      if j = k then ((f (t.issued k (s.clkFor w))).split? k).map fun sp => { sp with pc := pc, p := addP sp.p n }
      else (f (t.issued k (s.clkFor w))).split? j :=
  Warp.split?_updSplit _ _ _ j

@[simp] theorem State.noteProgress_thread? (s : State) (cx : Cx) (w : Who) : (s.noteProgress cx).thread? w = s.thread? w := by
  unfold State.noteProgress; split <;> simp

theorem State.noteProgress_team? (s : State) (cx : Cx) (h : Nat) :
    (s.noteProgress cx).team? h = if h = cx.tm.ctxh ∧ cx.who.isHandler = false then (s.team? h).map (fun x => { x with progress := true })
      else s.team? h := by
  unfold State.noteProgress
  split
  · rename_i hw; simp [hw, Who.isHandler]
  · rename_i hw
    have hh : cx.who.isHandler = false := by
      cases hc : cx.who <;> simp_all [Who.isHandler]
    by_cases hg : h = cx.tm.ctxh
    · subst hg
      rw [if_pos ⟨rfl, hh⟩]
      exact State.team?_updTeam_self s _ _ fun _ ht => ht
    · rw [if_neg (fun hc => hg hc.1)]
      exact State.team?_updTeam_other s _ _ _ hg fun _ ht => ht

theorem State.noteProgress_rest (s : State) (cx : Cx) : s.noteProgress cx = { s with teams := (s.noteProgress cx).teams } := by
  unfold State.noteProgress; split <;> rfl

/-- What completion does, whatever the instruction pushes, reserves and changes: it is enough to look at what its change `F` makes of the
thread once that has issued. -/
theorem moves_of {s : State} {cx : Cx} {F : Warp → Warp} {pc : Pc} {n : Nat} {qs : Nat → List QEnt → List QEnt} {new : Option Pend} {f : Warp → Warp}
    {g : Split → Split} (ht : s.thread? cx.who = some cx.t) (hs : cx.t.split? cx.k = some cx.sp) (hw : ∀ t, (F t).who = t.who)
    (hq : ∀ l, (F (cx.t.issued cx.k (s.clkFor cx.who))).queue[l]? =
      (cx.t.queue[l]?).map fun q => if cx.mask.getLsbD l then qs l q else q)
    (hsp : ∀ j, (F (cx.t.issued cx.k (s.clkFor cx.who))).split? j =
      if j = cx.k then some (g (issuedSplit cx (s.clkFor cx.who) new)) else cx.t.split? j)
    (hp : (F (cx.t.issued cx.k (s.clkFor cx.who))).pend = new.toList ++ (cx.t.issued cx.k (s.clkFor cx.who)).pend)
    (hr : F (cx.t.issued cx.k (s.clkFor cx.who)) = { f cx.t with
      queue := (F (cx.t.issued cx.k (s.clkFor cx.who))).queue, splits := (F (cx.t.issued cx.k (s.clkFor cx.who))).splits
      pend := (F (cx.t.issued cx.k (s.clkFor cx.who))).pend, skid := (F (cx.t.issued cx.k (s.clkFor cx.who))).skid }) :
    Moves cx pc n qs new f g s (s.finishAt cx F pc n) := by
  have hkeep : ∀ t : Warp, t.who = cx.who → (s.nextThread cx.who cx.k F pc n t).who = cx.who := by
    intro t ht'
    rw [State.nextThread_eq]
    exact (hw _).trans (by rw [Warp.issued_eq]; exact ht')
  refine ⟨⟨s.nextThread cx.who cx.k F pc n cx.t, ?_, ?_, ?_, ?_, ?_⟩, ?_, ?_, ?_⟩
  · unfold State.finishAt
    rw [State.noteProgress_thread?, State.advance_eq, State.thread?_updThread_self _ _ _ hkeep, ht]
    rfl
  · intro l; rw [State.nextThread_eq]; exact hq l
  · intro j
    rw [State.nextThread_split?, hsp, hsp]
    by_cases hj : j = cx.k
    · simp [hj, addP]
    · simp [hj]
  · rw [State.nextThread_eq]; simpa only [Warp.issued_pend] using hp
  · conv_lhs => rw [State.nextThread_eq, hr]
    rw [State.nextThread_eq]
  · intro w hw
    unfold State.finishAt
    rw [State.noteProgress_thread?, State.advance_eq, State.thread?_updThread_other _ _ _ _ hw hkeep]
  · intro h
    unfold State.finishAt
    rw [State.noteProgress_team?, State.advance_eq]
    simp
  · unfold State.finishAt
    rw [State.noteProgress_rest, State.advance_eq]
    rfl

/-- The same for an instruction that pushes. -/
theorem steps_of {s : State} {cx : Cx} {F : Warp → Warp} {pc : Pc} {n : Nat} {res : Nat → List QEnt} {new : Option Pend} {f : Warp → Warp}
    {g : Split → Split} (ht : s.thread? cx.who = some cx.t) (hs : cx.t.split? cx.k = some cx.sp) (hw : ∀ t, (F t).who = t.who)
    (hq : ∀ l, (F (cx.t.issued cx.k (s.clkFor cx.who))).queue[l]? =
      (cx.t.queue[l]?).map fun q => if cx.mask.getLsbD l then (res l).foldl pushLane q else q)
    (hsp : ∀ j, (F (cx.t.issued cx.k (s.clkFor cx.who))).split? j =
      if j = cx.k then some (g (issuedSplit cx (s.clkFor cx.who) new)) else cx.t.split? j)
    (hp : (F (cx.t.issued cx.k (s.clkFor cx.who))).pend = new.toList ++ (cx.t.issued cx.k (s.clkFor cx.who)).pend)
    (hr : F (cx.t.issued cx.k (s.clkFor cx.who)) = { f cx.t with
      queue := (F (cx.t.issued cx.k (s.clkFor cx.who))).queue, splits := (F (cx.t.issued cx.k (s.clkFor cx.who))).splits
      pend := (F (cx.t.issued cx.k (s.clkFor cx.who))).pend, skid := (F (cx.t.issued cx.k (s.clkFor cx.who))).skid }) :
    Steps cx pc n res new f g s (s.finishAt cx F pc n) :=
  moves_of ht hs hw hq hsp hp hr

/-- The issuing split as `issued` leaves it. -/
theorem issued_self {cx : Cx} {now : Nat} (hs : cx.t.split? cx.k = some cx.sp) (j : Nat) :
    (cx.t.issued cx.k now).split? j = if j = cx.k then some (issuedSplit cx now none) else cx.t.split? j := by
  rw [Warp.issued_split?, hs]; rfl

theorem Warp.Plain.issued {f : Warp → Warp} (hf : Warp.Plain f) (t : Warp) (k now : Nat) :
    f (t.issued k now) = { f t with splits := (t.issued k now).splits, pend := (t.issued k now).pend } := by
  have e := (hf t t.queue (t.issued k now).splits (t.issued k now).pend t.skid).1
  have e' : ({ t with queue := t.queue, splits := (t.issued k now).splits, pend := (t.issued k now).pend, skid := t.skid } : Warp) =
      t.issued k now := (Warp.issued_eq t k now).symm
  rw [e'] at e
  obtain ⟨a, b, c, d, -⟩ := hf.keeps t
  rw [e, ← a, ← d]

/-- Pushes and a change that says nothing of queues, splits and reservations. -/
theorem steps_push {s : State} {cx : Cx} {f : Warp → Warp} (hf : Warp.Plain f) (pc : Pc) (n : Nat) (res : Nat → List QEnt)
    (ht : s.thread? cx.who = some cx.t) (hs : cx.t.split? cx.k = some cx.sp) :
    Steps cx pc n res none f (fun sp => sp) s (s.finishAt cx (fun t => (f t).pushEach cx.mask res) pc n) := by
  obtain ⟨kq, -, -, -, -⟩ := hf.keeps cx.t
  refine steps_of ht hs (fun t => (hf.keeps t).2.2.2.2) ?_ ?_ ?_ ?_
  · intro l; rw [Warp.pushEach_queue, hf.issued]; simp only [kq]
  · intro j
    rw [← issued_self hs]
    simp only [Warp.split?, Warp.pushEach, hf.issued]
  · rw [hf.issued]; rfl
  · rw [hf.issued]; rfl

/-- The same with a change of the issuing split. -/
theorem steps_split {s : State} {cx : Cx} {f : Warp → Warp} (hf : Warp.Plain f) (g : Split → Split) (pc : Pc) (n : Nat)
    (res : Nat → List QEnt) (ht : s.thread? cx.who = some cx.t) (hs : cx.t.split? cx.k = some cx.sp) :
    Steps cx pc n res none f g s (s.finishAt cx (fun t => ((f t).pushEach cx.mask res).updSplit cx.k g) pc n) := by
  obtain ⟨kq, -, -, -, -⟩ := hf.keeps cx.t
  refine steps_of ht hs (fun t => by rw [Warp.updSplit_who]; exact (hf.keeps t).2.2.2.2) ?_ ?_ ?_ ?_
  · intro l; rw [Warp.updSplit_queue, Warp.pushEach_queue, hf.issued]; simp only [kq]
  · intro j
    have e : ∀ j, ((f (cx.t.issued cx.k (s.clkFor cx.who))).pushEach cx.mask res).split? j = (cx.t.issued cx.k (s.clkFor cx.who)).split? j := by
      intro j; simp only [Warp.split?, Warp.pushEach, hf.issued]
    rw [Warp.split?_updSplit, e, e, issued_self hs, issued_self hs]
    by_cases hj : j = cx.k <;> simp [hj]
  · rw [Warp.updSplit_pend, hf.issued]; rfl
  · rw [Warp.updSplit_eq, hf.issued]; rfl

theorem Warp.pushEach_none (t : Warp) (m : Mask) : t.pushEach m (fun _ => []) = t := by
  have : (t.queue.zipIdx.map fun x => if m.getLsbD x.2 then x.1 else x.1) = t.queue := by
    simp only [ite_self]
    exact List.zipIdx_map_fst 0 t.queue
  unfold Warp.pushEach
  simp only [List.foldl_nil]
  rw [this]

theorem steps_pushes {s : State} {cx : Cx} (n : Nat) (res : Nat → List QEnt) (ht : s.thread? cx.who = some cx.t)
    (hs : cx.t.split? cx.k = some cx.sp) : Pushes cx n res s (s.finish cx n res) := steps_push Warp.plain_id cx.nextPc n res ht hs

/-- An instruction that changes its thread and goes on at an address. -/
theorem steps_plain {s : State} {cx : Cx} {f : Warp → Warp} (hf : Warp.Plain f) (pc : Pc) (ht : s.thread? cx.who = some cx.t)
    (hs : cx.t.split? cx.k = some cx.sp) : Goes cx pc f (fun sp => sp) s (s.finishAt cx f pc 0) := by
  have h := steps_push hf pc 0 (fun _ => []) ht hs
  simpa only [Warp.pushEach_none] using h

/-- An instruction that changes its thread and its split and goes on at an address. -/
theorem steps_goes {s : State} {cx : Cx} {f : Warp → Warp} (hf : Warp.Plain f) (g : Split → Split) (pc : Pc) (ht : s.thread? cx.who = some cx.t)
    (hs : cx.t.split? cx.k = some cx.sp) : Goes cx pc f g s (s.finishAt cx (fun t => (f t).updSplit cx.k g) pc 0) := by
  have h := steps_split hf g pc 0 (fun _ => []) ht hs
  simpa only [Warp.pushEach_none] using h

theorem steps_doneWith {s : State} {cx : Cx} {f : Warp → Warp} (hf : Warp.Plain f) (ht : s.thread? cx.who = some cx.t)
    (hs : cx.t.split? cx.k = some cx.sp) : Changes cx f s (s.doneWith cx f) := steps_plain hf cx.nextPc ht hs

theorem steps_done {s : State} {cx : Cx} (ht : s.thread? cx.who = some cx.t) (hs : cx.t.split? cx.k = some cx.sp) :
    Changes cx (fun t => t) s (s.done cx) := steps_doneWith Warp.plain_id ht hs

theorem State.clkFor_nextPend (s : State) (w : Who) (n : Nat) : State.clkFor { s with nextPend := n } w = s.clkFor w := by
  cases w <;> rfl

theorem reserves_reserve {s : State} {cx : Cx} (n : Nat) (wait : Mask) (off : Nat → QEnt) (kind : PendKind)
    (ht : s.thread? cx.who = some cx.t) (hs : cx.t.split? cx.k = some cx.sp) : Reserves cx n wait off kind s (s.reserve cx n wait off kind) := by
  unfold Reserves State.reserve
  by_cases hw : wait = 0
  · simp only [hw, if_true, beq_self_eq_true]
    exact steps_pushes (s := { s with nextPend := s.nextPend + 1 }) n _ ht hs
  · have hb : (wait == 0) = false := by simpa using hw
    simp only [hw, if_false, hb, Bool.false_eq_true]
    rw [State.clkFor_nextPend]
    refine steps_of (s := { s with nextPend := s.nextPend + 1 }) ht hs (fun t => by rw [Warp.updSplit_who]; rfl) ?_ ?_ ?_ ?_
    · intro l
      simp only [Warp.updSplit_queue, Warp.pushEach_queue]
      rw [Warp.issued_eq]
    · intro j
      have e : ∀ (t : Warp) (q : List Pend) (j : Nat), Warp.split? { t with pend := q } j = t.split? j := fun _ _ _ => rfl
      have e2 : ∀ (t : Warp) (m : Mask) (f : Nat → List QEnt) (j : Nat), (t.pushEach m f).split? j = t.split? j := fun _ _ _ _ => rfl
      simp only [e, Warp.split?_updSplit, e2, issued_self hs]
      by_cases hj : j = cx.k <;> simp [hj, issuedSplit]
    · rfl
    · simp only
      rw [Warp.updSplit_eq]
      conv_lhs => rw [Warp.issued_eq]
      rw [Warp.issued_eq]
      rfl

/-! ### The entries computed lane by lane -/

theorem alu_pushes {s : State} {h : Hdr} {guide : Bool} {srcs : List (Nat × Src)} {n : Nat} {f : Cx → Nat → List Word → List Word} {i : Instr}
    (hi : exec i s = alu s h guide srcs n f) : PushesLanes i h guide srcs n f s := by
  intro cx s1 e
  obtain ⟨ht, hs, -⟩ := readyAcross_spec e
  refine ⟨_, ?_, steps_pushes n _ ?_ hs⟩
  · rw [hi]; exact run_ready _ e
  · simpa using ht

theorem aluLong_reserves {s : State} {h : Hdr} {guide : Bool} {srcs : List (Nat × Src)} {n : Nat}
    {f : Cx → Nat → List Word → List Word × Flags} {i : Instr} (hi : exec i s = aluLong s h guide srcs n f) :
    ReservesLanes i h guide srcs n f s := by
  intro cx s1 e
  obtain ⟨ht, hs, -⟩ := readyAcross_spec e
  refine ⟨_, ?_, reserves_reserve n _ _ _ ?_ hs⟩
  · rw [hi]
    have := run_ready (fun cx s => (s.operands cx srcs true).2.reserveEntry cx (s.operands cx srcs true).1 n (f cx)) e
    refine this.trans ?_
    simp only [State.reserveEntry, List.map_map, Function.comp_def]
  · simpa using ht

theorem fpu_floats {s : State} {h : Hdr} {srcs : List (Nat × Src)} {f : Cx → List Word → Word × Flags} {i : Instr}
    (hi : exec i s = fpu s h srcs f) : FloatsLanes i h srcs f s := by
  intro cx s1 e
  obtain ⟨ht, hs, -⟩ := readyAcross_spec e
  have hout : ∀ l, l < 32 → ((List.range 32).map fun l => f cx (valsAt (s1.operands cx srcs true).1 l)).getD l (0, 0) =
      f cx (valsAt (s1.operands cx srcs true).1 l) := by
    intro l hl; simp [hl]
  have hlane : ∀ l, cx.on.getLsbD l = true → l < 32 := fun l hl => by
    by_contra hn; simp [BitVec.getLsbD_of_ge cx.on l (Nat.le_of_not_lt hn)] at hl
  have hmap : (cx.lanes.map fun l => (l, (((List.range 32).map fun l => f cx (valsAt (s1.operands cx srcs true).1 l)).getD l (0, 0)).2)) =
      cx.lanes.map fun l => (l, (f cx (valsAt (s1.operands cx srcs true).1 l)).2) := by
    refine List.map_congr_left fun l hl => ?_
    rw [hout l (List.mem_range.1 (List.mem_filter.1 hl).1)]
  refine ⟨_, ?_, steps_pushes 1 _ ?_ hs⟩
  · rw [hi]
    refine (run_ready _ e).trans ?_
    simp only
    rw [hmap]
    congr 4
    funext l
    by_cases hl : cx.on.getLsbD l = true
    · simp only [hl, if_true]; rw [hout l (hlane l hl)]
    · simp only [hl]; rfl
  · simpa using ht

theorem carryOp_steps {s : State} {h : Hdr} {pd : Option Pred} {f : Ty → List Word → Word × Bool} {cx : Cx} {s1 : State}
    (e : s.ready h (Shape.both (src3 h) true) = some (cx, s1)) :
    let os := (s1.operands cx (src3 h) true).1
    ∃ t, carryOp s h pd f = .next (t.consume cx os) ∧
      Steps cx cx.nextPc 1 (fun l => if cx.on.getLsbD l then [ent (f h.ty (valsAt os l)).1 (poisonAt os l)] else [offEnt os l]) none
        (fun th => th.writePred pd cx.on (maskOf (cx.lanes.filter fun l => (f h.ty (valsAt os l)).2 && !poisonAt os l))) (fun sp => sp)
        (s1.operands cx (src3 h) true).2 t := by
  obtain ⟨ht, hs, -⟩ := readyAcross_spec e
  have hp : ∀ m, Warp.Plain fun th => th.writePred pd cx.on m := by
    intro m t q sp pdn sk
    cases pd with
    | none => exact ⟨rfl, rfl⟩
    | some p => cases p <;> exact ⟨rfl, rfl⟩
  refine ⟨_, run_ready _ e, ?_⟩
  exact steps_push (hp _) cx.nextPc 1 _ (by simpa using ht) hs

/-- An instruction of the form `act` that is ready. -/
theorem act_ready {s : State} {h : Hdr} {sh : Shape} {cx : Cx} {s1 : State} (f : Cx → List Operand → State → State)
    (e : s.ready h sh = some (cx, s1)) :
    act s h sh f = .next (f cx (s1.operands cx sh.srcs sh.pushes).1 (s1.operands cx sh.srcs sh.pushes).2) := run_ready _ e

/-- Only what the change makes of the issuing thread matters. -/
theorem Steps.congr {cx : Cx} {pc : Pc} {n : Nat} {res : Nat → List QEnt} {new : Option Pend} {f f' : Warp → Warp} {g : Split → Split}
    {s t : State} (h : Steps cx pc n res new f g s t) (e : f cx.t = f' cx.t) : Steps cx pc n res new f' g s t := by
  obtain ⟨⟨th, h1, h2, h3, h4, h5⟩, h6, h7, h8⟩ := h
  exact ⟨⟨th, h1, h2, h3, h4, e ▸ h5⟩, h6, h7, h8⟩

/-- Only what is pushed in the lanes of the split matters. -/
theorem Steps.congr_res {cx : Cx} {pc : Pc} {n : Nat} {res res' : Nat → List QEnt} {new : Option Pend} {f : Warp → Warp} {g : Split → Split}
    {s t : State} (h : Steps cx pc n res new f g s t) (e : ∀ l, cx.mask.getLsbD l = true → res l = res' l) :
    Steps cx pc n res' new f g s t := by
  obtain ⟨⟨th, h1, h2, h3, h4, h5⟩, h6, h7, h8⟩ := h
  refine ⟨⟨th, h1, fun l => ?_, h3, h4, h5⟩, h6, h7, h8⟩
  rw [h2 l]
  by_cases hl : cx.mask.getLsbD l = true
  · simp only [hl, if_true, e l hl]
  · simp [hl]

/-- Only what the operation computes for this instruction's own header matters. -/
theorem FloatsLanes.congr {i : Instr} {h : Hdr} {srcs : List (Nat × Src)} {f g : Cx → List Word → Word × Flags} {s : State}
    (H : FloatsLanes i h srcs f s) (e : ∀ cx : Cx, cx.h = h → f cx = g cx) : FloatsLanes i h srcs g s := by
  intro cx s1 hr
  have hc := (readyAcross_spec hr).2.2.1
  have := H cx s1 hr
  rw [e cx hc] at this
  exact this

theorem ReservesLanes.congr {i : Instr} {h : Hdr} {guide : Bool} {srcs : List (Nat × Src)} {n : Nat}
    {f g : Cx → Nat → List Word → List Word × Flags} {s : State} (H : ReservesLanes i h guide srcs n f s)
    (e : ∀ cx : Cx, cx.h = h → f cx = g cx) : ReservesLanes i h guide srcs n g s := by
  intro cx s1 hr
  have hc := (readyAcross_spec hr).2.2.1
  have := H cx s1 hr
  rw [e cx hc] at this
  exact this

end Sys2Proof.Machine
end

