-- ==== Sys2Proof/Laws/Lists.lean ====
section
/-!
SUPPORT. Sorted lists: a list in order has the same elements, and any two of them stand in order.
-/
namespace Sys2Proof.Machine

theorem insertBy_perm {α : Type} (le : α → α → Bool) (a : α) (l : List α) : List.Perm (insertBy le a l) (a :: l) := by
  induction l with
  | nil => exact .refl _
  | cons b l ih =>
    unfold insertBy
    split
    · exact .refl _
    · exact (ih.cons b).trans (.swap a b l)

theorem sortBy_perm {α : Type} (le : α → α → Bool) (l : List α) : List.Perm (sortBy le l) l := by
  induction l with
  | nil => exact .refl _
  | cons a l ih => exact (insertBy_perm le a _).trans (ih.cons a)

@[simp] theorem mem_sortBy {α : Type} (le : α → α → Bool) (l : List α) (a : α) : a ∈ sortBy le l ↔ a ∈ l := (sortBy_perm le l).mem_iff

@[simp] theorem length_sortBy {α : Type} (le : α → α → Bool) (l : List α) : (sortBy le l).length = l.length := (sortBy_perm le l).length_eq

theorem insertBy_pairwise {α : Type} {le : α → α → Bool} (tr : ∀ a b c, le a b = true → le b c = true → le a c = true)
    (tot : ∀ a b, le a b = true ∨ le b a = true) (a : α) (l : List α) (h : l.Pairwise fun x y => le x y = true) :
    (insertBy le a l).Pairwise fun x y => le x y = true := by
  induction l with
  | nil => simp [insertBy]
  | cons b l ih =>
    obtain ⟨hb, hl⟩ := List.pairwise_cons.1 h
    unfold insertBy
    split
    · next e => exact List.pairwise_cons.2 ⟨fun x hx => (List.mem_cons.1 hx).elim (fun q => q ▸ e) fun q => tr _ _ _ e (hb x q), h⟩
    · next e =>
      refine List.pairwise_cons.2 ⟨fun x hx => ?_, ih hl⟩
      rcases List.mem_cons.1 ((insertBy_perm le a l).mem_iff.1 hx) with rfl | q
      · exact (tot _ _).resolve_left e
      · exact hb x q

/-- Any two elements of a sorted list stand in order. -/
theorem sortBy_pairwise {α : Type} {le : α → α → Bool} (tr : ∀ a b c, le a b = true → le b c = true → le a c = true)
    (tot : ∀ a b, le a b = true ∨ le b a = true) (l : List α) : (sortBy le l).Pairwise fun x y => le x y = true := by
  induction l with
  | nil => exact .nil
  | cons a l ih => exact insertBy_pairwise tr tot a _ ih

end Sys2Proof.Machine
end

