-- ==== Sys2Proof/Laws/Memory.lean ====
section
/-!
SUPPORT. Memory: a byte read after a write is the byte written, every other byte is as before, and each operation keeps the canonical
form.
-/
namespace Sys2Proof.Machine

/-! ## Cells -/

theorem cellsRising_iff (m : List Host.Cell) : cellsRising m = true ↔ m.Pairwise (fun a b => a.1 < b.1) := by
  induction m with
  | nil => simp [cellsRising]
  | cons a l ih =>
    cases l with
    | nil => simp [cellsRising]
    | cons b l =>
      simp only [cellsRising, Bool.and_eq_true, decide_eq_true_eq, ih]
      constructor
      · rintro ⟨h, hp⟩
        refine List.pairwise_cons.2 ⟨?_, hp⟩
        intro c hc
        rcases List.mem_cons.1 hc with rfl | hc
        · exact h
        · exact lt_trans h ((List.pairwise_cons.1 hp).1 c hc)
      · intro hp
        exact ⟨(List.pairwise_cons.1 hp).1 b (by simp), (List.pairwise_cons.1 hp).2⟩

/-- Memory in canonical form, as rising addresses and entries that say something. -/
theorem memory_wf_iff (z : List (Nat × Nat)) (m : List Host.Cell) :
    Memory.wf z m = true ↔ m.Pairwise (fun a b => a.1 < b.1) ∧ ∀ c ∈ m, unlisted z c.1 ≠ some c.2 := by
  simp [Memory.wf, cellsRising_iff]

theorem cellGet_of_gt {m : List Host.Cell} {k : Nat} (h : ∀ c ∈ m, c.1 < k) : cellGet m k = none := by
  induction m with
  | nil => rfl
  | cons c l ih =>
    have hc := h c (.head _)
    simp only [cellGet, if_neg (Nat.ne_of_lt hc), if_neg (Nat.not_lt.2 hc.le)]
    exact ih fun x hx => h x (.tail _ hx)

theorem cellGet_of_lt {m : List Host.Cell} {k : Nat} (h : ∀ c ∈ m, k < c.1) : cellGet m k = none := by
  induction m with
  | nil => rfl
  | cons a l ih =>
    have hk : k < a.1 := h a (by simp)
    obtain ⟨x, v⟩ := a
    have h1 : x ≠ k := by simp only at hk; omega
    simp only [cellGet, h1, if_false]
    rw [if_pos (by simpa using hk)]

theorem mem_cellInsert {m : List Host.Cell} {k : Nat} {b : Byte} {c : Host.Cell} (h : c ∈ cellInsert m k b) : c = (k, b) ∨ c ∈ m := by
  induction m with
  | nil => simpa [cellInsert] using h
  | cons a l ih =>
    obtain ⟨x, v⟩ := a
    simp only [cellInsert] at h
    split at h
    · rcases List.mem_cons.1 h with h | h <;> simp [h]
    · split at h
      · rcases List.mem_cons.1 h with h | h <;> simp [h]
      · rcases List.mem_cons.1 h with h | h
        · simp [h]
        · rcases ih h with h | h <;> simp [h]

theorem mem_cellErase {m : List Host.Cell} {k : Nat} {c : Host.Cell} (h : c ∈ cellErase m k) : c ∈ m := by
  induction m with
  | nil => simp [cellErase] at h
  | cons a l ih =>
    obtain ⟨x, v⟩ := a
    simp only [cellErase] at h
    split at h
    · simp [h]
    · split at h
      · exact h
      · rcases List.mem_cons.1 h with h | h
        · simp [h]
        · simp [ih h]

theorem rising_cellInsert {m : List Host.Cell} (k : Nat) (b : Byte) (h : m.Pairwise (fun a b => a.1 < b.1)) :
    (cellInsert m k b).Pairwise (fun a b => a.1 < b.1) := by
  induction m with
  | nil => simp [cellInsert]
  | cons a l ih =>
    obtain ⟨x, v⟩ := a
    obtain ⟨ha, hl⟩ := List.pairwise_cons.1 h
    simp only [cellInsert]
    split
    · subst_vars; exact List.pairwise_cons.2 ⟨ha, hl⟩
    · split
      · refine List.pairwise_cons.2 ⟨?_, h⟩
        intro c hc
        rcases List.mem_cons.1 hc with rfl | hc
        · assumption
        · exact lt_trans (by assumption) (ha c hc)
      · refine List.pairwise_cons.2 ⟨?_, ih hl⟩
        intro c hc
        rcases mem_cellInsert hc with rfl | hc
        · simp only; omega
        · exact ha c hc

theorem rising_cellErase {m : List Host.Cell} (k : Nat) (h : m.Pairwise (fun a b => a.1 < b.1)) :
    (cellErase m k).Pairwise (fun a b => a.1 < b.1) := by
  induction m with
  | nil => simp [cellErase]
  | cons a l ih =>
    obtain ⟨x, v⟩ := a
    obtain ⟨ha, hl⟩ := List.pairwise_cons.1 h
    simp only [cellErase]
    split
    · exact hl
    · split
      · exact h
      · exact List.pairwise_cons.2 ⟨fun c hc => ha c (mem_cellErase hc), ih hl⟩

theorem cellGet_insert (m : List Host.Cell) (k : Nat) (b : Byte) (j : Nat) (h : m.Pairwise (fun a b => a.1 < b.1)) :
    cellGet (cellInsert m k b) j = if j = k then some b else cellGet m j := by
  induction m with
  | nil =>
    simp only [cellInsert, cellGet]
    by_cases hj : j = k
    · simp [hj]
    · simp only [hj, if_false]; rw [if_neg (fun h => hj h.symm)]; split <;> rfl
  | cons a l ih =>
    obtain ⟨x, v⟩ := a
    obtain ⟨ha, hl⟩ := List.pairwise_cons.1 h
    simp only [cellInsert]
    split
    · rename_i hx
      subst hx
      by_cases hj : j = x
      · simp [cellGet, hj]
      · simp [cellGet, hj, Ne.symm hj]
    · split
      · rename_i hx hlt
        by_cases hj : j = k
        · simp [cellGet, hj]
        · rw [cellGet, if_neg (Ne.symm hj), if_neg hj]
          split
          · rename_i hjk
            have : j < x := lt_trans hjk hlt
            rw [cellGet, if_neg (by omega), if_pos this]
          · rfl
      · rename_i hx hlt
        simp only [cellGet, ih hl]
        by_cases hj : j = k
        · subst hj; rw [if_neg hx, if_neg hlt]; simp
        · simp [hj]

theorem cellGet_erase (m : List Host.Cell) (k j : Nat) (h : m.Pairwise (fun a b => a.1 < b.1)) :
    cellGet (cellErase m k) j = if j = k then none else cellGet m j := by
  induction m with
  | nil => simp [cellErase, cellGet]
  | cons a l ih =>
    obtain ⟨x, v⟩ := a
    obtain ⟨ha, hl⟩ := List.pairwise_cons.1 h
    simp only [cellErase]
    split
    · rename_i hx
      subst hx
      by_cases hj : j = x
      · subst hj; simp only [if_true]; exact cellGet_of_lt fun c hc => ha c hc
      · rw [if_neg hj, cellGet, if_neg (Ne.symm hj)]
        split
        · rename_i hjx; exact cellGet_of_lt fun c hc => lt_trans hjx (ha c hc)
        · rfl
    · split
      · rename_i hx hlt
        by_cases hj : j = k
        · subst hj; rw [if_pos rfl, cellGet, if_neg hx, if_pos hlt]
        · rw [if_neg hj]
      · rename_i hx hlt
        simp only [cellGet, ih hl]
        by_cases hj : j = k
        · subst hj; rw [if_neg hx, if_neg hlt]; simp
        · simp [hj]

/-- A byte written keeps the canonical form. -/
theorem wf_cellSet {z : List (Nat × Nat)} {m : List Host.Cell} (k : Nat) (b : Byte) (h : Memory.wf z m = true) :
    Memory.wf z (cellSet z m k b) = true := by
  obtain ⟨hr, hu⟩ := (memory_wf_iff z m).1 h
  unfold cellSet
  split
  · exact (memory_wf_iff _ _).2 ⟨rising_cellErase k hr, fun c hc => hu c (mem_cellErase hc)⟩
  · rename_i hn
    refine (memory_wf_iff _ _).2 ⟨rising_cellInsert k b hr, fun c hc => ?_⟩
    rcases mem_cellInsert hc with rfl | hc
    · exact hn
    · exact hu c hc

/-- What a location reads as, of a memory and the zeroed ranges. -/
def readCell (z : List (Nat × Nat)) (m : List Host.Cell) (k : Nat) : Option Byte :=
  match cellGet m k with
  | some b => some b
  | none => unlisted z k

theorem byteAt_eq (s : State) (k : Nat) : s.byteAt k = readCell s.zeroed s.mem k := rfl

/-- Read after write: the byte written at its key, every other byte as before. -/
theorem readCell_cellSet {z : List (Nat × Nat)} {m : List Host.Cell} (k : Nat) (b : Byte) (j : Nat) (h : Memory.wf z m = true) :
    readCell z (cellSet z m k b) j = if j = k then some b else readCell z m j := by
  obtain ⟨hr, -⟩ := (memory_wf_iff z m).1 h
  unfold readCell cellSet
  by_cases hb : unlisted z k = some b
  · rw [if_pos hb, cellGet_erase m k j hr]
    by_cases hj : j = k
    · simp [hj, hb]
    · simp [hj]
  · rw [if_neg hb, cellGet_insert m k b j hr]
    by_cases hj : j = k
    · simp [hj]
    · simp [hj]

/-- Entries taken away keep the canonical form. -/
theorem wf_filter {z : List (Nat × Nat)} {m : List Host.Cell} (p : Host.Cell → Bool) (h : Memory.wf z m = true) :
    Memory.wf z (m.filter p) = true := by
  obtain ⟨hr, hu⟩ := (memory_wf_iff z m).1 h
  exact (memory_wf_iff _ _).2 ⟨hr.filter p, fun c hc => hu c (List.mem_filter.1 hc).1⟩

/-- Ranges that read as zero from here on keep the canonical form once their entries are gone. -/
theorem wf_zeroed {z : List (Nat × Nat)} {m : List Host.Cell} (rs : List (Nat × Nat)) (h : Memory.wf z m = true) :
    Memory.wf (rs ++ z) (m.filter fun c => !rs.any fun r => inRange r c.1) = true := by
  obtain ⟨hr, hu⟩ := (memory_wf_iff z m).1 h
  refine (memory_wf_iff _ _).2 ⟨hr.filter _, fun c hc => ?_⟩
  obtain ⟨hc, hp⟩ := List.mem_filter.1 hc
  have hp' : (rs.any fun r => inRange r c.1) = false := by simpa using hp
  have := hu c hc
  unfold unlisted at this ⊢
  rw [List.any_append]
  unfold inRange at hp'
  rw [hp', Bool.false_or]
  exact this

/-! ## The operations of the memory model -/

/-- Whether a state's memory is canonical. -/
abbrev State.canon (s : State) : Prop := Memory.wf s.zeroed s.mem = true

theorem State.canon_of_eq {s t : State} (hm : t.mem = s.mem) (hz : t.zeroed = s.zeroed) (h : s.canon) : t.canon := by
  unfold State.canon; rw [hm, hz]; exact h

@[simp] theorem State.putByte_zeroed (s : State) (k : Nat) (b : Byte) (w : ByteW) (p : Option ByteW) : (s.putByte k b w p).zeroed = s.zeroed := rfl
@[simp] theorem State.putByte_mem (s : State) (k : Nat) (b : Byte) (w : ByteW) (p : Option ByteW) :
    (s.putByte k b w p).mem = cellSet s.zeroed s.mem k b := rfl
@[simp] theorem State.putByte_nextWrite (s : State) (k : Nat) (b : Byte) (w : ByteW) (p : Option ByteW) :
    (s.putByte k b w p).nextWrite = s.nextWrite := rfl

theorem State.canon_putByte {s : State} (k : Nat) (b : Byte) (w : ByteW) (p : Option ByteW) (h : s.canon) : (s.putByte k b w p).canon :=
  wf_cellSet k b h

theorem State.byteAt_putByte {s : State} (k : Nat) (b : Byte) (w : ByteW) (p : Option ByteW) (j : Nat) (h : s.canon) :
    (s.putByte k b w p).byteAt j = if j = k then some b else s.byteAt j := readCell_cellSet k b j h

@[simp] theorem State.markPoison_mem (s : State) (ks : List Nat) (p : Bool) : (s.markPoison ks p).mem = s.mem := rfl
@[simp] theorem State.markPoison_zeroed (s : State) (ks : List Nat) (p : Bool) : (s.markPoison ks p).zeroed = s.zeroed := rfl

/-- The memory after bytes are written in their order: `data` on top of `m`. -/
def putAll (z : List (Nat × Nat)) (m : List Host.Cell) (data : List (Nat × Byte)) : List Host.Cell :=
  data.foldl (fun m kb => cellSet z m kb.1 kb.2) m

theorem foldl_putByte (data : List (Nat × Byte)) (f : State → Nat × Byte → ByteW) (g : Nat × Byte → Option ByteW) (s : State) :
    (data.foldl (fun s kb => s.putByte kb.1 kb.2 (f s kb) (g kb)) s).mem = putAll s.zeroed s.mem data ∧
      (data.foldl (fun s kb => s.putByte kb.1 kb.2 (f s kb) (g kb)) s).zeroed = s.zeroed := by
  induction data generalizing s with
  | nil => exact ⟨rfl, rfl⟩
  | cons x l ih => simpa [putAll] using ih (s.putByte x.1 x.2 (f s x) (g x))

/-- A write puts its bytes into memory and changes nothing that says what an unlisted byte reads as. -/
theorem State.writeFrom_mem (s : State) (party own n : Nat) (clk : Clock) (data : List (Nat × Byte)) (rel : Option Scope) (pt : Option Nat)
    (prevs : List (Nat × ByteW)) (bad : Bool) :
    (s.writeFrom party own n clk data rel pt prevs bad).mem = putAll s.zeroed s.mem data ∧
      (s.writeFrom party own n clk data rel pt prevs bad).zeroed = s.zeroed := by
  exact foldl_putByte data _ _ s

theorem State.writeAs_mem (s : State) (party n : Nat) (clk : Clock) (data : List (Nat × Byte)) (rel : Option Scope) (pt : Option Nat)
    (prevs : List (Nat × ByteW)) (bad : Bool) : (s.writeAs party n clk data rel pt prevs bad).mem = putAll s.zeroed s.mem data :=
  (s.writeFrom_mem party party n clk data rel pt prevs bad).1

theorem State.writeAs_zeroed (s : State) (party n : Nat) (clk : Clock) (data : List (Nat × Byte)) (rel : Option Scope) (pt : Option Nat)
    (prevs : List (Nat × ByteW)) (bad : Bool) : (s.writeAs party n clk data rel pt prevs bad).zeroed = s.zeroed :=
  (s.writeFrom_mem party party n clk data rel pt prevs bad).2

theorem wf_putAll {z : List (Nat × Nat)} (data : List (Nat × Byte)) {m : List Host.Cell} (h : Memory.wf z m = true) :
    Memory.wf z (putAll z m data) = true := by
  induction data generalizing m with
  | nil => exact h
  | cons x l ih => exact ih (wf_cellSet x.1 x.2 h)

/-- Bytes outside the written keys read as before. -/
theorem readCell_putAll_other {z : List (Nat × Nat)} (data : List (Nat × Byte)) {m : List Host.Cell} (k : Nat) (h : Memory.wf z m = true)
    (hk : ∀ x ∈ data, x.1 ≠ k) : readCell z (putAll z m data) k = readCell z m k := by
  induction data generalizing m with
  | nil => rfl
  | cons x l ih =>
    have hx : x.1 ≠ k := hk x (by simp)
    have := ih (m := cellSet z m x.1 x.2) (wf_cellSet x.1 x.2 h) fun y hy => hk y (by simp [hy])
    rw [readCell_cellSet _ _ _ h, if_neg (Ne.symm hx)] at this
    exact this

/-- The last byte written at a key is what it reads as. -/
theorem readCell_putAll_last {z : List (Nat × Nat)} (pre post : List (Nat × Byte)) {m : List Host.Cell} (k : Nat) (b : Byte)
    (h : Memory.wf z m = true) (hk : ∀ x ∈ post, x.1 ≠ k) : readCell z (putAll z m (pre ++ (k, b) :: post)) k = some b := by
  have e : putAll z m (pre ++ (k, b) :: post) = putAll z (cellSet z (putAll z m pre) k b) post := by simp [putAll]
  rw [e, readCell_putAll_other post k (wf_cellSet k b (wf_putAll pre h)) hk, readCell_cellSet _ _ _ (wf_putAll pre h), if_pos rfl]

theorem State.canon_writeAs {s : State} (party n : Nat) (clk : Clock) (data : List (Nat × Byte)) (rel : Option Scope) (pt : Option Nat)
    (prevs : List (Nat × ByteW)) (bad : Bool) (h : s.canon) : (s.writeAs party n clk data rel pt prevs bad).canon := by
  unfold State.canon
  rw [State.writeAs_mem, State.writeAs_zeroed]
  exact wf_putAll data h

theorem State.byteAt_writeAs_other {s : State} (party n : Nat) (clk : Clock) (data : List (Nat × Byte)) (rel : Option Scope) (pt : Option Nat)
    (prevs : List (Nat × ByteW)) (bad : Bool) (k : Nat) (h : s.canon) (hk : ∀ x ∈ data, x.1 ≠ k) :
    (s.writeAs party n clk data rel pt prevs bad).byteAt k = s.byteAt k := by
  rw [byteAt_eq, State.writeAs_mem, State.writeAs_zeroed, readCell_putAll_other data k h hk]; rfl

@[simp] theorem State.tick_mem (s : State) (p : Nat) : (s.tick p).2.mem = s.mem := rfl
@[simp] theorem State.tick_zeroed (s : State) (p : Nat) : (s.tick p).2.zeroed = s.zeroed := rfl

theorem State.canon_write {s : State} (party : Nat) (data : List (Nat × Byte)) (rel : Option Scope) (pt : Option Nat)
    (prevs : List (Nat × ByteW)) (bad : Bool) (h : s.canon) : (s.write party data rel pt prevs bad).canon :=
  State.canon_writeAs _ _ _ _ _ _ _ _ (State.canon_of_eq (State.tick_mem s party) (State.tick_zeroed s party) h)

theorem State.byteAt_write_other {s : State} (party : Nat) (data : List (Nat × Byte)) (rel : Option Scope) (pt : Option Nat)
    (prevs : List (Nat × ByteW)) (bad : Bool) (k : Nat) (h : s.canon) (hk : ∀ x ∈ data, x.1 ≠ k) :
    (s.write party data rel pt prevs bad).byteAt k = s.byteAt k :=
  State.byteAt_writeAs_other _ _ _ _ _ _ _ _ k (State.canon_of_eq (State.tick_mem s party) (State.tick_zeroed s party) h) hk

theorem State.canon_zeroRange {s : State} (party : Nat) (clk : Clock) (base size : Nat) (h : s.canon) :
    (s.zeroRange party clk base size).canon :=
  wf_zeroed _ h

theorem reset_canon : State.reset.canon := by decide

/-! ## Reads leave memory alone -/

theorem pickEach_same (l : List (List Pick)) (s : State) : (pickEach s l).2.mem = s.mem ∧ (pickEach s l).2.zeroed = s.zeroed := by
  induction l generalizing s with
  | nil => exact ⟨rfl, rfl⟩
  | cons cs l ih =>
    have := ih (takeChoice s cs.length).2
    unfold pickEach
    simp only
    split <;> simpa using this

theorem fillBytes_same (l : List Pick) (s : State) : (fillBytes s l).2.mem = s.mem ∧ (fillBytes s l).2.zeroed = s.zeroed := by
  induction l generalizing s with
  | nil => exact ⟨rfl, rfl⟩
  | cons p l ih =>
    unfold fillBytes
    split
    · exact ih s
    · simpa using ih (takeFree s).2

theorem State.acquire_same (s : State) (p : Nat) (sc : Scope) (rs : List Rel) :
    (s.acquire p sc rs).mem = s.mem ∧ (s.acquire p sc rs).zeroed = s.zeroed := by
  unfold State.acquire
  induction rs generalizing s with
  | nil => exact ⟨rfl, rfl⟩
  | cons r rs ih =>
    simp only [List.foldl_cons]
    split
    · simpa [State.joinClk] using ih (s.joinClk p r.clk)
    · exact ih s

theorem State.readPicks_same (s : State) (p : Nat) (c : Clock) (st : Nat) (pt : Option Nat) (ks : List Nat) :
    (s.readPicks p c st pt ks).2.mem = s.mem ∧ (s.readPicks p c st pt ks).2.zeroed = s.zeroed := by
  have := pickEach_same (ks.map (s.candsOf p c st pt)) s
  unfold State.readPicks State.choosePicks
  simp only
  split <;> exact this

theorem State.read_same (s : State) (p : Nat) (c : Clock) (st : Nat) (acq : Option Scope) (ks : List Nat) :
    (s.read p c st acq ks).2.2.mem = s.mem ∧ (s.read p c st acq ks).2.2.zeroed = s.zeroed := by
  obtain ⟨h1, h2⟩ := s.readPicks_same p c st none ks
  obtain ⟨h3, h4⟩ := fillBytes_same (s.readPicks p c st none ks).1 (s.readPicks p c st none ks).2
  unfold State.read
  simp only
  split
  · obtain ⟨h5, h6⟩ := State.acquire_same
      ((fillBytes (s.readPicks p c st none ks).2 (s.readPicks p c st none ks).1).2.noteRead p st (s.readPicks p c st none ks).1) p ‹Scope›
      (relsRead (s.readPicks p c st none ks).1)
    exact ⟨h5.trans (h3.trans h1), h6.trans (h4.trans h2)⟩
  · exact ⟨h3.trans h1, h4.trans h2⟩

end Sys2Proof.Machine
end

