-- ==== Sys2Proof/Tests/Slice0.lean ====
section
/-!
SUPPORT. Tests: the decoding of words written from the tables of 05 to 08, undefined encodings, ill-formed terms, single steps whose results come from
the rules, and for every obligation with hypotheses a state and operands that meet them.
-/
namespace Sys2Proof.Tests
open Sys2Proof Machine

set_option maxRecDepth 20000
set_option Elab.async false

/-! ## States -/

/-- The header of an instruction that names nothing, with a type. -/
def hd (ty : Ty) : Hdr := { sa := .age 0, sb := .age 0, sc := .age 0, la := 0, guard := .always, ty := ty, ext := none }
def h0 : Hdr := hd .b32

/-- A header whose guard is p1: its lanes are those of p1. -/
def hp : Hdr := { h0 with guard := .pos .p1 }

/-- The warp of the loaded team, and the handler of its partition. -/
def w0 : Who := .warp loadCtxh 0
def hw : Who := .handler 0 0

/-- The loaded team with its page tables and a word of code. -/
def base (v : Nat) : State := { (State.reset.loadWord v) with agenda := [] }

/-- The part after reset with its platform changed. -/
def plat (f : Plat → Plat) : State := { State.reset with plat := f State.reset.plat }

/-- An instruction in issue for a thread. -/
def issue (who : Who) (s : State) : State := { s with cur := some { who := who, spl := 0, pc := BitVec.ofNat 48 loadVa, word := 0, ext := 0 } }

/-- An instruction in issue in the loaded warp, and in a handler that serves its team. -/
def st : State := issue w0 (base 0)
def sh : State := issue hw ((base 0).loadHandler)

/-- Parts of a state changed. -/
def thr (f : Warp → Warp) (s : State) : State := s.updThread w0 f
def spl (f : Split → Split) (s : State) : State := s.updSplit w0 0 f
def team (f : Team → Team) (s : State) : State := s.updTeam loadCtxh f

/-- The lanes of p1. -/
def p1 (m : Mask) (s : State) : State := thr (fun t => { t with p1 := m }) s

/-- Age 1 of every lane. -/
def age1 (f : Nat → Word) (s : State) : State :=
  thr (fun t => { t with queue := (List.range 32).map fun l => [Machine.ent (f l) false] }) s

/-- Ages 1, 2 and 3 of every lane. -/
def ages (a b c : Word) (s : State) : State :=
  thr (fun t => { t with queue := List.replicate 32 [Machine.ent a false, Machine.ent b false, Machine.ent c false] }) s

/-- Sources at ages 1, 2 and 3. -/
def h3 (ty : Ty) : Hdr := { hd ty with sb := .age 1, sc := .age 2 }

/-- An instruction is ready, and what it runs with and the state in which it takes effect have a property. -/
def wit (o : Option (Cx × State)) (p : Cx → State → Bool) : Bool :=
  match o with
  | some (cx, s) => p cx s
  | none => false

def yes (_ : Cx) (_ : State) : Bool := true

def ok? {α β : Type} (x : Except α β × State) : Bool := match x.1 with | .ok _ => true | .error _ => false

/-- A split, a waypoint and a reservation with nothing in them. -/
def sp0 : Split :=
  { pc := 0x10000, mask := 0, fb := 0, fs := 0, p := 0, party := 1, windows := [], wait := none, waitFrom := 0, waited := 0, readyFrom := 0,
    promoted := 0, soft := none, opf := [] }
def wp0 : Waypoint :=
  { target := 0x10000, parkedPc := 0, member := allLanes, arrived := 0, parked := 0, table := 0, k := 1, savedP := 0, parkedP := 0, fb := 0, fs := 0,
    implicit := false, arrivedBy := [], opf := [], parkedBy := 1, parkedOpf := [], parkedWin := [] }
def pend0 : Pend :=
  { id := 7, spl := 0, pc := 0x10000, word := 0, lanes := 1, kind := .counter .clk 0 none, later := 0, from_ := 0, ref := 0, raised := [] }

/-- Bytes at a virtual address of the loaded team, low byte first. -/
def put (va n v : Nat) (s : State) : State := { s.loadBytes (0x40000000 + va) n v with cur := s.cur }

/-- An object at 0x20000 with one permutation table, which takes age 1 for a push count of 1, and one shape record of a row of four b32. -/
def withObj (s : State) : State :=
  team (fun t => { t with obj := 0x20000 }) (put 0x20018 8 (64 + 1 * 2 ^ 32) (put 0x20020 8 (68 + 1 * 2 ^ 32) (put 0x20040 8 (72 + 96 * 2 ^ 32)
    (put 0x20048 16 (2 + 1 * 2 ^ 16 + 1 * 2 ^ 64) s))))

/-- The team has a property. -/
def tmIs (s : State) (p : Team → Bool) : Bool := (s.team? loadCtxh).any p

/-! ## Decoding: words written field by field from the tables of 05 to 08 -/

/-- A first word from its fields at their places of R107: OPC, FN, SA, SB, SC, LA, PG, X, TY and [24:0]. -/
def fields (opc fn sa sb sc la pg x ty low : Nat) : Word :=
  BitVec.ofNat 64 (opc * 2 ^ 56 + fn * 2 ^ 52 + sa * 2 ^ 47 + sb * 2 ^ 42 + sc * 2 ^ 37 + la * 2 ^ 33 + pg * 2 ^ 30 + x * 2 ^ 29 + ty * 2 ^ 25 + low)

/-- A first word that reads `n` sources: SA 3 (age 4), SB 17 (slot 1), SC 24 (zero). -/
def word (opc fn n la pg ty low : Nat) : Word := fields opc fn (if 1 ≤ n then 3 else 0) (if 2 ≤ n then 17 else 0) (if 3 ≤ n then 24 else 0) la pg 0 ty low

/-- Its header. -/
def hdrOf (n la : Nat) (g : Guard) (ty : Ty) : Hdr :=
  { hd ty with sa := if 1 ≤ n then .age 3 else .age 0, sb := if 2 ≤ n then .slot 1 else .age 0, sc := if 3 ≤ n then .zero else .age 0,
               la := BitVec.ofNat 4 la, guard := g }

/-- The header of a copy: SA 3, coordinates from an age, a counter address, a control word. -/
def copyHdr (b : BitVec 4) (sc : Src) (x : Option Word) : Hdr := { hd .b32 with sa := .age 3, sb := .age b, sc := sc, ext := x }

def mfs (sp : Space) (sc : Scope) (o : Order) (ch : Hint) (off : BitVec 12) : MemF := { sp := sp, scope := sc, ord := o, ch := ch, off := off }

/-- Every word of a table decodes to the instruction beside it; the extension word of each is 0x70, which only X = 1 reads. -/
def decodesTo (l : List (Word × Instr)) : Bool := l.all fun x => match decodeWords x.1 0x70 with
  | .ok i => i == x.2
  | .bad _ => false

/-- R134. -/
theorem test_decode_frame :
    decodesTo [
      (word 0x00 0 0 0 0 0 0, .nop (hdrOf 0 0 .always .b32)), (word 0x01 0 1 0 1 1 0, .dup (hdrOf 1 0 (.pos .p1) .b64)),
      (word 0x02 0 1 0 0 0 63, .save (hdrOf 1 0 .always .b32) 63), (word 0x03 0 0 0 0 0 62, .fget (hdrOf 0 0 .always .b32) 62),
      (word 0x04 0 0 0 0 0 64, .fenter (hdrOf 0 0 .always .b32) 64), (word 0x05 0 0 0 0 0 0, .fleave (hdrOf 0 0 .always .b32)),
      (word 0x06 0 0 0 0 0 1, .spill (hdrOf 0 0 .always .b32) 1), (word 0x07 0 0 0 0 0 64, .fill (hdrOf 0 0 .always .b32) 64),
      (word 0x08 0 0 0 6 0 0x0D, .sget (hdrOf 0 0 (.neg .p2) .b32) .prio), (word 0x08 0 1 0 0 0 0x28, .sget (hdrOf 1 0 .always .b32) .caps),
      (word 0x08 0 0 15 0 0 0x30, .sget (hdrOf 0 15 .always .b32) .clk), (word 0x08 0 0 1 0 0 0x32, .sget (hdrOf 0 1 .always .b32) .ref)] = true := by decide +kernel

/-- R139, R142 to R144. -/
theorem test_decode_integer :
    decodesTo [
      (word 0x10 0 2 0 0 9 (2 ^ 22), .add (hdrOf 2 0 .always .n64) true), (word 0x11 0 2 0 6 2 0, .sub (hdrOf 2 0 (.neg .p2) .s8) false),
      (word 0x12 0 3 0 0 4 (3 * 2 ^ 16), .addc (hdrOf 3 0 .always .s32) (some .p3)), (word 0x13 0 3 0 0 9 0, .subb (hdrOf 3 0 .always .n64) none),
      (word 0x14 0 2 0 0 6 0, .mul (hdrOf 2 0 .always .n8)), (word 0x15 0 2 0 0 5 0, .mulhi (hdrOf 2 0 .always .s64)),
      (word 0x16 0 2 0 0 8 0, .mulw (hdrOf 2 0 .always .n32)), (word 0x17 0 3 0 1 7 0, .mad (hdrOf 3 0 (.pos .p1) .n16)),
      (word 0x18 0 2 7 0 3 0, .div (hdrOf 2 7 .always .s16)), (word 0x19 0 2 15 0 9 0, .rem (hdrOf 2 15 .always .n64)),
      (word 0x1A 0 2 1 0 2 0, .divrem (hdrOf 2 1 .always .s8)), (word 0x1B 0 1 0 0 5 (2 ^ 22), .neg (hdrOf 1 0 .always .s64) true),
      (word 0x1C 0 1 0 0 2 0, .abs (hdrOf 1 0 .always .s8) false), (word 0x1D 0 2 0 0 8 0, .adiff (hdrOf 2 0 .always .n32)),
      (word 0x1E 0 2 0 0 2 0, .min (hdrOf 2 0 .always .s8)), (word 0x1F 0 2 0 0 9 0, .max (hdrOf 2 0 .always .n64)),
      (word 0x20 0 3 0 0 4 0, .clamp (hdrOf 3 0 .always .s32)), (word 0x21 0 2 0 0 0 0, .and (hdrOf 2 0 .always .b32)),
      (word 0x22 0 2 0 0 1 0, .or (hdrOf 2 0 .always .b64)), (word 0x23 0 2 0 0 0 0, .xor (hdrOf 2 0 .always .b32)),
      (word 0x24 0 1 0 0 1 0, .not (hdrOf 1 0 .always .b64)), (word 0x25 0 2 0 0 1 0, .andn (hdrOf 2 0 .always .b64))] = true := by decide +kernel

/-- R139, R142 to R144. -/
theorem test_decode_shifts :
    decodesTo [
      (word 0x26 0 2 0 0 0 0, .shl (hdrOf 2 0 .always .b32) none), (word 0x27 1 1 0 0 1 63, .shr (hdrOf 1 0 .always .b64) (some 63)),
      (word 0x28 1 1 0 6 4 31, .sra (hdrOf 1 0 (.neg .p2) .s32) (some 31)), (word 0x29 0 2 0 0 9 0, .rotl (hdrOf 2 0 .always .n64) none),
      (word 0x2A 1 1 0 0 8 5, .rotr (hdrOf 1 0 .always .n32) (some 5)), (word 0x2B 0 3 0 0 5 0, .bfx (hdrOf 3 0 .always .s64) none),
      (word 0x2B 1 1 0 0 4 (9 + 64 * 2 ^ 6), .bfx (hdrOf 1 0 .always .s32) (some (9, 64))),
      (word 0x2C 0 3 0 0 0 0, .bfi (hdrOf 3 0 .always .b32) none),
      (word 0x2C 1 2 0 0 1 (63 + 1 * 2 ^ 6), .bfi (hdrOf 2 0 .always .b64) (some (63, 1))), (word 0x2D 0 1 0 0 1 0, .popc (hdrOf 1 0 .always .b64)),
      (word 0x2E 0 1 0 0 0 0, .clz (hdrOf 1 0 .always .b32)), (word 0x2F 0 1 0 0 1 0, .ctz (hdrOf 1 0 .always .b64)),
      (word 0x30 0 1 0 0 0 0, .brev (hdrOf 1 0 .always .b32)), (word 0x31 0 2 0 0 1 2, .sel (hdrOf 2 0 .always .b64) (some .p2)),
      (word 0x31 0 2 0 0 0 0, .sel (hdrOf 2 0 .always .b32) none), (word 0x32 0 2 0 0 1 (4 * 2 ^ 18 + 7), .lea (hdrOf 2 0 .always .b64) .s32 7),
      (word 0x33 0 3 0 0 1 0, .ext (hdrOf 3 0 .always .b64) none), (word 0x33 1 2 0 0 0 127, .ext (hdrOf 2 0 .always .b32) (some 127))] = true := by decide +kernel

/-- R145, R148. -/
theorem test_decode_float :
    decodesTo [
      (word 0x40 0 2 0 1 12 (1 * 2 ^ 23), .fadd (hdrOf 2 0 (.pos .p1) .f32) .rz),
      (word 0x41 0 2 0 0 13 (2 * 2 ^ 23), .fsub (hdrOf 2 0 .always .f64) .ru),
      (word 0x42 0 2 0 0 10 (3 * 2 ^ 23), .fmul (hdrOf 2 0 .always .f16) .rd),
      (word 0x43 0 3 0 0 11 (0 * 2 ^ 23), .ffma (hdrOf 3 0 .always .bf16) .rn), (word 0x44 0 2 0 0 12 0, .fmin (hdrOf 2 0 .always .f32)),
      (word 0x45 0 2 0 0 13 0, .fmax (hdrOf 2 0 .always .f64)), (word 0x46 0 1 0 0 10 0, .fneg (hdrOf 1 0 .always .f16)),
      (word 0x47 0 1 0 0 11 0, .fabs (hdrOf 1 0 .always .bf16)), (word 0x48 0 2 9 0 13 (3 * 2 ^ 23), .fdiv (hdrOf 2 9 .always .f64) .rd),
      (word 0x49 0 1 2 0 12 (2 * 2 ^ 23), .fsqrt (hdrOf 1 2 .always .f32) .ru), (word 0x4A 0 1 1 0 12 0, .frcp (hdrOf 1 1 .always .f32)),
      (word 0x4B 0 1 1 0 11 0, .frsq (hdrOf 1 1 .always .bf16)), (word 0x4C 0 1 1 0 10 0, .fex2 (hdrOf 1 1 .always .f16)),
      (word 0x4D 0 1 1 0 12 0, .flg2 (hdrOf 1 1 .always .f32)), (word 0x4E 0 1 1 0 12 0, .fsin (hdrOf 1 1 .always .f32)),
      (word 0x4F 0 1 1 0 12 0, .fcos (hdrOf 1 1 .always .f32)), (word 0x50 0 1 1 0 12 0, .ftanh (hdrOf 1 1 .always .f32)),
      (word 0x51 0 1 0 0 12 (1 * 2 ^ 23), .frnd (hdrOf 1 0 .always .f32) .rz), (word 0x52 0 1 0 0 13 0, .fclass (hdrOf 1 0 .always .f64)),
      (word 0x53 0 2 0 0 12 (2 * 2 ^ 23), .fscale (hdrOf 2 0 .always .f32) .ru)] = true := by decide +kernel

/-- R149, R150, R152, R153. -/
theorem test_decode_conversion :
    decodesTo [
      (word 0x60 0 1 0 0 14 (1 * 2 ^ 23 + 2 ^ 22 + 12 * 2 ^ 18), .cvt (hdrOf 1 0 .always .e4m3) .rz true .f32),
      (word 0x61 0 2 0 0 1 (12 * 2 ^ 18 + 12), .qnt (hdrOf 2 0 .always .b64) .mxint8),
      (word 0x61 1 3 0 0 1 (12 * 2 ^ 18 + 4), .qntPerm (hdrOf 3 0 .always .b64) .se7),
      (word 0x62 0 1 0 0 12 (1 * 2 ^ 18 + 6), .dqnt (hdrOf 1 0 .always .f32) .se2),
      (word 0x62 1 2 0 0 12 (1 * 2 ^ 18 + 10), .dqntScaled (hdrOf 2 0 .always .f32) .mxe2m3),
      (word 0x63 0 2 0 0 2 (2 ^ 22 + 4 * 2 ^ 18 + 7), .pack (hdrOf 2 0 .always .s8) .rn true .s32 7),
      (word 0x64 0 1 0 0 12 (2 * 2 ^ 23 + 10 * 2 ^ 18 + 3), .unpack (hdrOf 1 0 .always .f32) .ru false .f16 3)] = true := by decide +kernel

/-- R155, R158, R159. -/
theorem test_decode_lane :
    decodesTo [
      (word 0x68 3 2 4 0 1 5, .shfl (hdrOf 2 4 .always .b64) .mirror 5),
      (word 0x69 0 0 0 0 0 (1 * 2 ^ 16 + 2), .voteAny (hdrOf 0 0 .always .b32) (some .p2) false .p1),
      (word 0x69 1 0 0 0 0 (2 * 2 ^ 16 + 4), .voteAll (hdrOf 0 0 .always .b32) none true .p2),
      (word 0x69 2 0 0 0 0 (3 * 2 ^ 16 + 1), .voteUni (hdrOf 0 0 .always .b32) (some .p1) false .p3),
      (word 0x69 3 0 0 6 0 7, .voteBallot (hdrOf 0 0 (.neg .p2) .b32) (some .p3) true),
      (word 0x6A 0 0 0 0 0 (2 * 2 ^ 16), .elect (hdrOf 0 0 .always .b32) .p2), (word 0x6B 5 1 3 0 1 0, .redux (hdrOf 1 3 .always .b64) .xor),
      (word 0x6C 2 1 3 0 12 8, .scan (hdrOf 1 3 .always .f32) .max true), (word 0x6D 0 1 0 0 0 31, .bcast (hdrOf 1 0 .always .b32) 31),
      (word 0x6D 1 1 0 0 1 0, .bcastFirst (hdrOf 1 0 .always .b64)), (word 0x6E 6 0 0 0 0 0, .lanemask (hdrOf 0 0 .always .b32) .from),
      (word 0x70 0 2 0 0 5 (3 * 2 ^ 16 + 2 * 16 + 5), .cmp (hdrOf 2 0 .always .s64) .ge .or .p3),
      (word 0x71 0 2 0 0 13 (1 * 2 ^ 16 + 3 * 16 + 7), .fcmp (hdrOf 2 0 .always .f64) .uno .xor .p1),
      (word 0x72 0 0 0 0 0 (2 * 2 ^ 16 + 3 * 16 + 2 * 4 + 1), .plog (hdrOf 0 0 .always .b32) .andn (some .p1) (some .p2) .p2),
      (word 0x72 0 0 0 0 0 (1 * 2 ^ 16 + 4 * 16 + 3), .plog (hdrOf 0 0 .always .b32) .not (some .p3) none .p1),
      (word 0x73 0 0 0 0 0 0, .pget (hdrOf 0 0 .always .b32)), (word 0x74 0 1 0 0 0 0, .pput (hdrOf 1 0 .always .b32))] = true := by decide +kernel

/-- 07 R161, 05 R114, R115. -/
theorem test_decode_control :
    decodesTo [
      (word 0x80 0 0 0 6 0 (2 ^ 25 - 3), .bra (hdrOf 0 0 (.neg .p2) .b32) 0x1FFFFFD), (word 0x81 0 1 0 0 1 0, .brx (hdrOf 1 0 .always .b64)),
      (fields 0x82 0 16 2 0 0 0 0 0 7, .call (hd .b32) 16 2 7), (fields 0x83 0 3 1 16 0 0 0 0 8, .calli (hdrOf 1 0 .always .b32) 1 16 8),
      (word 0x84 0 0 0 0 0 8, .ret (hdrOf 0 0 .always .b32) 8),
      (fields 0x85 0 8 (1023 / 32) (1023 % 32) 0 0 0 0 (2^25-1), .fork (hd .b32) 8 1023 0x1FFFFFF),
      (word 0x86 0 0 0 0 0 0, .rjn (hdrOf 0 0 .always .b32)), (word 0x87 0 0 0 1 0 0, .exit (hdrOf 0 0 (.pos .p1) .b32)),
      (word 0x88 0 0 0 6 0 255, .trap (hdrOf 0 0 (.neg .p2) .b32) 255), (word 0x89 0 0 0 0 0 1, .brk (hdrOf 0 0 .always .b32) 1),
      (word 0x8A 0 0 0 0 0 254, .yield (hdrOf 0 0 .always .b32) 254), (word 0x8B 0 1 0 0 9 (2 ^ 25 - 2), .loop (hdrOf 1 0 .always .n64) 0x1FFFFFE)] = true := by decide +kernel

/-- 07 R171, R172, R174, R178, R182 to R186. -/
theorem test_decode_memory :
    decodesTo [
      (word 0x90 0 1 4 0 12 (1 * 2 ^ 22 + 0 * 2 ^ 20 + 0 * 2 ^ 18 + 1 * 2 ^ 16 + 2048), .ld (hdrOf 1 4 .always .f32) (mfs .global .team .plain .nc 2048)),
      (word 0x90 1 1 15 0 1 (4 * 2 ^ 22 + 3 * 2 ^ 20 + 1 * 2 ^ 18 + 2 * 2 ^ 16 + 8), .ldPair (hdrOf 1 15 .always .b64) (mfs .priv .system .acq .lu 8)),
      (word 0x91 0 2 0 1 3 (3 * 2 ^ 22 + 2 * 2 ^ 20 + 2 * 2 ^ 18 + 0 * 2 ^ 16 + 2047), .st (hdrOf 2 0 (.pos .p1) .s16) (mfs .cluster .device .rel .none 2047)),
      (word 0x91 1 3 0 0 1 (0 * 2 ^ 22 + 0 * 2 ^ 20 + 0 * 2 ^ 18 + 0 * 2 ^ 16 + 4088), .stPair (hdrOf 3 0 .always .b64) (mfs .generic .team .plain .none 4088)),
      (word 0x92 0 1 0 0 0 (1 * 2 ^ 22 + 0 * 2 ^ 20 + 0 * 2 ^ 18 + 0 * 2 ^ 16 + 0), .prefL1 (hdrOf 1 0 .always .b32) (mfs .global .team .plain .none 0)),
      (word 0x92 1 1 0 0 0 (0 * 2 ^ 22 + 0 * 2 ^ 20 + 0 * 2 ^ 18 + 0 * 2 ^ 16 + 64), .prefL2 (hdrOf 1 0 .always .b32) (mfs .generic .team .plain .none 64)),
      (word 0x93 0 1 6 0 1 0, .sptag (hdrOf 1 6 .always .b64)), (word 0x94 0 2 0 0 0 0, .spsetTag (hdrOf 2 0 .always .b32)),
      (word 0x94 1 1 0 0 0 0, .spsetUntag (hdrOf 1 0 .always .b32)), (word 0x95 0 3 0 0 0 0, .spmove (hdrOf 3 0 .always .b32)),
      (word 0x96 0 3 0 1 0 0, .spshare (hdrOf 3 0 (.pos .p1) .b32)), (word 0x97 0 1 0 0 0 0, .spdrop (hdrOf 1 0 .always .b32)),
      (word 0x98 0 3 0 0 0 0, .seal (hdrOf 3 0 .always .b32)), (word 0x99 0 0 0 0 0 0, .ifence (hdrOf 0 0 .always .b32)),
      (word 0x9A 0 2 0 0 1 (2 * 2 ^ 22 + 4), .stblk (hdrOf 2 0 .always .b64) .own .se7),
      (word 0x9A 0 3 0 0 1 (1 * 2 ^ 22 + 11), .stblk (hdrOf 3 0 .always .b64) .global .mxfp4),
      (word 0x9B 0 1 2 0 1 6, .ldblk (hdrOf 1 2 .always .b64) .generic .se2),
      (word 0x9B 0 2 2 0 1 (4 * 2 ^ 22 + 8), .ldblk (hdrOf 2 2 .always .b64) .priv .mxe5m2)] = true := by decide +kernel

/-- 07 R187 to R189, R192. -/
theorem test_decode_sync :
    decodesTo [
      (word 0xA0 8 2 3 0 9 (0 * 2 ^ 22 + 2 * 2 ^ 20 + 3 * 2 ^ 18 + 0 * 2 ^ 16 + 16), .atom (hdrOf 2 3 .always .n64) .dec (mfs .generic .device .ar .none 16)),
      (word 0xA1 0 3 3 0 5 (1 * 2 ^ 22 + 3 * 2 ^ 20 + 0 * 2 ^ 18 + 0 * 2 ^ 16 + 4092), .cas (hdrOf 3 3 .always .s64) (mfs .global .system .plain .none 4092)),
      (word 0xA2 4 2 0 0 11 (1 * 2 ^ 22 + 1 * 2 ^ 20 + 2 * 2 ^ 18 + 0 * 2 ^ 16 + 0), .red (hdrOf 2 0 .always .bf16) .min (mfs .global .cluster .rel .none 0)),
      (word 0xA2 2 2 0 1 1 (2 * 2 ^ 22 + 0 * 2 ^ 20 + 0 * 2 ^ 18 + 0 * 2 ^ 16 + 0), .red (hdrOf 2 0 (.pos .p1) .b64) .or (mfs .own .team .plain .none 0)),
      (word 0xA3 2 2 1 0 13 (1 * 2 ^ 22 + 2 * 2 ^ 20 + 1 * 2 ^ 18 + 0 * 2 ^ 16 + 0), .fatom (hdrOf 2 1 .always .f64) .max (mfs .global .device .acq .none 0)),
      (word 0xA8 0 0 0 0 0 (3 * 2 ^ 20), .fence (hdrOf 0 0 .always .b32) .system),
      (word 0xA8 1 0 0 0 0 (1 * 2 ^ 20), .fenceAcq (hdrOf 0 0 .always .b32) .cluster),
      (word 0xA8 2 0 0 0 0 0, .fenceRel (hdrOf 0 0 .always .b32) .team),
      (word 0xA9 0 0 0 0 0 (128 * 16 + 15), .barMeet (hdrOf 0 0 .always .b32) 15 128),
      (word 0xA9 1 0 0 0 0 (1 * 16 + 2), .barPost (hdrOf 0 0 .always .b32) 2 1), (word 0xA9 2 0 0 0 0 7, .barAwait (hdrOf 0 0 .always .b32) 7),
      (word 0xAA 0 0 0 0 0 0, .cbarMeet (hdrOf 0 0 .always .b32)), (word 0xAA 1 0 0 0 0 0, .cbarPost (hdrOf 0 0 .always .b32)),
      (word 0xAA 2 0 0 0 0 0, .cbarAwait (hdrOf 0 0 .always .b32)),
      (word 0xAB 0 2 0 0 8 (2 * 2 ^ 22 + 1 * 2 ^ 20 + 4), .mwait (hdrOf 2 0 .always .n32) .own .cluster .gt),
      (word 0xAC 0 1 2 0 0 (1 * 2 ^ 22 + 3 * 2 ^ 20), .acq (hdrOf 1 2 .always .b32) .global .system),
      (word 0xAC 1 1 2 0 0 (1 * 2 ^ 20), .acqTry (hdrOf 1 2 .always .b32) .generic .cluster),
      (word 0xAD 0 1 0 0 0 (2 * 2 ^ 20), .rel (hdrOf 1 0 .always .b32) .generic .device),
      (word 0xAE 0 1 0 0 0 0, .wregHold (hdrOf 1 0 .always .b32) .generic),
      (word 0xAE 1 1 0 0 0 (1 * 2 ^ 22), .wregWait (hdrOf 1 0 .always .b32) .global),
      (word 0xAF 0 1 0 0 0 (1 * 2 ^ 22), .wdropHold (hdrOf 1 0 .always .b32) .global),
      (word 0xAF 1 1 0 6 0 0, .wdropWait (hdrOf 1 0 (.neg .p2) .b32) .generic)] = true := by decide +kernel

/-- 08 R211, 05 R116. -/
theorem test_decode_matrix :
    decodesTo [
      (word 0xC0 0 1 0 0 0 (127 * 2 ^ 18 + 1023 * 2 ^ 8 + 63 * 4), .mma (hdrOf 1 0 .always .b32) 127 1023 63),
      (word 0xC0 1 1 0 0 0 (1 * 2 ^ 18 + 2 * 2 ^ 8 + 3 * 4), .mmaFree (hdrOf 1 0 .always .b32) 1 2 3),
      (word 0xC1 0 2 0 1 0 (5 * 2 ^ 18 + 6 * 2 ^ 8 + 2), .mmas (hdrOf 2 0 (.pos .p1) .b32) 5 6 true false),
      (word 0xC2 0 1 0 0 12 (4 * 2 ^ 18 + 5 * 2 ^ 11 + 40 * 2 + 1), .mmsm (hdrOf 1 0 .always .f32) 4 5 40 true),
      (word 0xC3 0 0 0 0 0 0, .opfence (hdrOf 0 0 .always .b32)), (word 0xC4 0 0 0 0 0 15, .mmwait (hdrOf 0 0 .always .b32) 15),
      (word 0xC5 0 0 0 6 0 (127 * 2 ^ 18), .acczero (hdrOf 0 0 (.neg .p2) .b32) 127),
      (word 0xC6 0 1 3 0 12 (2 * 2 ^ 18), .accrd (hdrOf 1 3 .always .f32) 2),
      (word 0xC6 1 1 3 0 12 (3 * 2 ^ 18), .accrdMax (hdrOf 1 3 .always .f32) 3),
      (word 0xC6 2 1 3 0 12 (4 * 2 ^ 18), .accrdSum (hdrOf 1 3 .always .f32) 4),
      (word 0xC7 0 2 0 0 12 (2 * 2 ^ 18), .accwr (hdrOf 2 0 .always .f32) 2),
      (word 0xC7 1 2 0 0 12 (3 * 2 ^ 18), .accwrMax (hdrOf 2 0 .always .f32) 3),
      (word 0xC7 2 2 0 1 12 (4 * 2 ^ 18), .accwrSum (hdrOf 2 0 (.pos .p1) .f32) 4),
      (word 0xC8 0 1 0 0 0 (9 * 2 ^ 18 + 1 * 2 ^ 15), .accld (hdrOf 1 0 .always .b32) 9 .global),
      (word 0xC9 0 1 0 0 0 (10 * 2 ^ 18 + 2 * 2 ^ 15), .accst (hdrOf 1 0 .always .b32) 10 .own)] = true := by decide +kernel

/-- 08 R223. -/
theorem test_decode_engines :
    decodesTo [
      (fields 0xD0 0 3 9 24 0 0 0 0 (1023*2^13+7*8), .tcopyG2s (copyHdr 9 .zero none) 1023 7),
      (fields 0xD0 0 3 9 24 0 1 0 0 (1*2^23+2*2^13+1023*8+4), .tcopyS2g { copyHdr 9 .zero none with guard := .pos .p1 } 2 1023 true),
      (fields 0xD0 0 3 9 4 0 0 1 0 (2*2^23+2*2^13+3*8), .tcopyS2c (copyHdr 9 (.age 4) (some 0x70)) 2 3 false),
      (fields 0xD1 0 3 9 4 0 0 1 0 (2*2^13+3*8), .tgather (copyHdr 9 (.age 4) (some 0x70)) 2 3),
      (word 0xD2 0 0 0 0 0 63, .twaitC (hdrOf 0 0 .always .b32) 63), (word 0xD2 0 0 0 0 0 (2 ^ 8 + 1), .twaitM (hdrOf 0 0 .always .b32) 1),
      (word 0xD3 0 1 0 0 0 0, .tfree (hdrOf 1 0 .always .b32)), (word 0xD4 0 1 0 0 0 2, .tset (hdrOf 1 0 .always .b32) true false),
      (word 0xD5 0 0 0 0 0 0, .drainSp (hdrOf 0 0 .always .b32)), (word 0xD5 0 0 0 0 0 1, .drainAcc (hdrOf 0 0 .always .b32)),
      (word 0xD5 0 0 0 0 0 2, .drainG (hdrOf 0 0 .always .b32)), (word 0xD5 0 0 0 0 0 3, .drainRem (hdrOf 0 0 .always .b32)),
      (word 0xD6 0 1 0 0 0 15, .gset (hdrOf 1 0 .always .b32) 15), (word 0xD7 0 0 0 1 0 14, .gclr (hdrOf 0 0 (.pos .p1) .b32) 14),
      (word 0xD8 0 1 0 0 0 0, .glaunch (hdrOf 1 0 .always .b32))] = true := by decide +kernel

/-- 08 R234, R235. -/
theorem test_decode_system :
    decodesTo [
      (word 0xE0 0 0 0 0 1 0x13, .sysrd (hdrOf 0 0 .always .b64) .barto), (word 0xE0 0 0 0 0 1 0x023F, .sysrd (hdrOf 0 0 .always .b64) (.trec 63)),
      (word 0xE1 0 1 0 0 1 0x017F, .syswr (hdrOf 1 0 .always .b64) (.accown 127)),
      (word 0xE1 0 1 0 0 1 0x0020, .syswr (hdrOf 1 0 .always .b64) .wftctl), (word 0xE2 0 0 0 0 0 0, .tret (hdrOf 0 0 .always .b32)),
      (word 0xE2 1 0 0 0 0 0, .tretAck (hdrOf 0 0 .always .b32)), (word 0xE2 2 0 0 0 0 0, .tretKill (hdrOf 0 0 .always .b32)),
      (word 0xE3 0 2 0 0 0 0, .accspill (hdrOf 2 0 .always .b32)), (word 0xE4 0 3 0 0 0 0, .accfill (hdrOf 3 0 .always .b32)),
      (word 0xE4 1 1 0 0 0 0, .accfillZero (hdrOf 1 0 .always .b32)), (word 0xE5 0 1 0 0 0 0, .wftrdEdge (hdrOf 1 0 .always .b32)),
      (word 0xE5 1 1 0 0 0 0, .wftrdObj (hdrOf 1 0 .always .b32)), (word 0xE6 0 2 0 0 0 0, .tlbinvPage (hdrOf 2 0 .always .b32)),
      (fields 0xE6 1 0 17 0 0 0 0 0 0, .tlbinvAsid { hd .b32 with sb := .slot 1 }), (word 0xE6 2 0 0 0 0 0, .tlbinvAll (hdrOf 0 0 .always .b32)),
      (word 0xE7 0 1 0 0 0 0, .halt (hdrOf 1 0 .always .b32)), (word 0xE8 0 1 0 0 0 0, .resume (hdrOf 1 0 .always .b32))] = true := by decide +kernel

/-! ## Undefined encodings (05 R118) and ill-formed terms -/

/-- Words that R118 calls undefined: an unassigned OPC, an FN, a TY, PG 0b100, selector 26, selector 25 without X, X on `nop`, X 0 on `tgather`, LA on
`add`, a reserved bit, a source that is not read, SPs 5 and 3 of a lock, a format code 13, CRN 0x0003. -/
theorem test_undefined_encodings :
    ([fields 0x09 0 0 0 0 0 0 0 0 0, fields 0x10 1 0 0 0 0 0 0 0 0, fields 0x18 0 0 0 0 0 0 0 0 0, fields 0x10 0 0 0 0 0 4 0 0 0, fields 0x10 0 26 0 0 0 0 0 0 0,
      fields 0x10 0 25 0 0 0 0 0 0 0, fields 0x00 0 0 0 0 0 0 1 0 0, fields 0xD1 0 0 0 0 0 0 0 0 0, fields 0x10 0 0 0 0 1 0 0 0 0, fields 0x10 0 0 0 0 0 0 0 0 1,
      fields 0x10 0 0 0 1 0 0 0 0 0, fields 0x90 0 0 0 0 0 0 0 0 (5 * 2 ^ 22), fields 0xAC 0 0 0 0 0 0 0 0 (3 * 2 ^ 22 + 2 ^ 20), fields 0x61 0 0 0 0 0 0 0 1 (12 * 2 ^ 18 + 13),
      fields 0xE0 0 0 0 0 0 0 0 1 3].all fun x => match decodeWords x 0 with
        | .ok _ => false
        | .bad _ => true) = true := by decide +kernel

/-- An ill-formed term for each check of WellFormed: operands outside the limits of their entry. -/
theorem test_wf_headers :
    ([.nop { h0 with sa := .age 1 }, .nop (hd .b64), .nop { h0 with la := 1 }, .nop { h0 with ext := some 0 }, .dup { h0 with sb := .zero }, .dup { h0 with sa := .imm },
      .add { h0 with sc := .age 1 } false, .and (hd .s8), .div { (hd .b32) with la := 3 }, .rjn { h0 with guard := .pos .p1 }, .brx { hd .b64 with guard := .neg .p3 },
      .spmove { h0 with sa := .imm, ext := some 0 }, .spmove { h0 with ext := some 0x80 }, .spmove { h0 with ext := some 0x10000 }, .tgather h0 0 0,
      .tgather { h0 with ext := some 0x80 } 0 0, .mma { h0 with ext := some 0 } 0 0 0, .sget { h0 with sa := .age 1 } .lane] : List Instr).all
        (fun i => !i.wf) = true := by decide +kernel

theorem test_wf_limits :
    ([.fenter h0 65, .spill h0 0, .fill h0 65, .add (hd .b32) true, .neg (hd .n32) true, .abs (hd .n32) false, .bfx h0 (some (0, 65)), .bfi h0 (some (0, 65)),
      .lea (hd .b64) .s64 0, .cvt (hd .f32) .rn true .s32, .cvt (hd .s32) .rz false .s64, .pack (hd .s64) .rn false .s32 0, .unpack (hd .s32) .rn false .s16 4, .shfl h0 .pick 6,
      .redux (hd .f32) .and, .plog h0 .not none (some .p1) .p1, .call h0 17 0 0, .calli h0 0 0 9, .ret h0 9, .fork h0 9 0 0] : List Instr).all (fun i => !i.wf) = true := by
  decide +kernel

theorem test_wf_memory :
    let m : MemF := mfs .global .team .plain .none 0
    ([.ld h0 { m with ord := .rel }, .ld h0 { m with scope := .device }, .ld { h0 with ext := some 8 } { m with off := 1 }, .st h0 { m with ord := .acq }, .prefL1 h0 { m with ord := .acq },
      .stblk { hd .b64 with sc := .zero } .own .se4, .ldblk { hd .b64 with sb := .zero } .own .se2, .atom (hd .b32) .min m,
      .atom h0 .add { m with ch := .nc }, .red (hd .f32) .exch m, .fatom (hd .f16) .add m, .barMeet h0 0 129, .mwait h0 .priv .team .eq, .acq h0 .own .device, .acq h0 .global .team,
      .wregHold h0 .cluster, .accld h0 0 .generic, .tcopyG2s { h0 with sb := .zero } 0 0, .tlbinvAsid { h0 with sa := .age 1 }] : List Instr).all (fun i => !i.wf) = true := by decide +kernel

theorem test_wf_events :
    ([.clusterClaim 4 0, .relockEnd 4, .thermalTrip 13, .hostBar2Read 64 0 0, .flrVf 0, .flrVf 64, .phcsecRead 4, .ronouPortDown 16, .flitCrcError 17 0, .flitCrcError 0 2, .memoryScrub 8 0 true 0,
      .sriovVfEnable 64] : List Instr).all (fun i => !i.wf) = true ∧
    (Instr.wf (.ld { hd .f32 with la := 4 } (mfs .global .team .plain .none 16)) = true) := by decide +kernel

/-- The three words of R391's table, with their reasons. -/
theorem test_undefined_reasons :
    ([(0x1000040008000008, 9), (0x1000040208000000, 8), (0x0400000000000041, 10)].all fun x => match decodeWords x.1 0 with
      | .ok _ => false
      | .bad u => u.code == x.2) = true := by decide +kernel

/-! ## One step each from the loaded word -/

/-- A property of what the loaded warp and its team have become after one step. -/
def after (v : Nat) (p : Team → Warp → Bool) : Bool := match step (State.reset.withFetchWord 128 v) with
  | .next t => match t.team? loadCtxh, t.thread? w0 with
    | some tm, some th => p tm th
    | _, _ => false
  | _ => false

/-- PC of the warp's only split, and the value at an age of a lane. -/
def pcOf (t : Warp) : Nat := (t.live.head?.map fun x => x.2.pc.toNat).getD 0
def val (t : Warp) (l a : Nat) : Nat := (t.age l a).val.toNat

/-- 05 R106, R118: `add.s32 q1, #100` takes two words and pushes 100 in lane 31 over zeros. -/
theorem test_step_add : after (0x1000640028000000 + 100 * 2 ^ 64) (fun _ t => val t 31 1 == 100 && val t 31 2 == 0 && pcOf t == 0x10010) = true := by decide +kernel

/-- R140: `sub.n32 q1, #1` wraps, and the result is widened with zeros. -/
theorem test_step_sub : after ((fields 0x11 0 0 25 0 0 0 1 8 0).toNat + 2 ^ 64) (fun _ t => val t 0 1 == 0xFFFFFFFF) = true := by decide +kernel

/-- R142: `sra.s32 #0x80000000, 63` pushes −1, widened to 64 bits. -/
theorem test_step_sra : after ((fields 0x28 1 25 0 0 0 0 1 4 63).toNat + 0x80000000 * 2 ^ 64) (fun _ t => val t 0 1 == 0xFFFFFFFFFFFFFFFF) = true := by decide +kernel

/-- R145: `fadd.f32 #1.0, #1.0` is 2.0. -/
theorem test_step_fadd : after ((fields 0x40 0 25 25 0 0 0 1 12 0).toNat + 0x3F800000 * 2 ^ 64) (fun _ t => val t 5 1 == 0x40000000) = true := by decide +kernel

/-- R149: `cvt.f32.s32 #-2` is −2.0. -/
theorem test_step_cvt : after ((fields 0x60 0 25 0 0 0 0 1 12 (4 * 2 ^ 18)).toNat + 0xFFFFFFFE * 2 ^ 64) (fun _ t => val t 5 1 == 0xC0000000) = true := by decide +kernel

/-- R137: NWARP of the one warp, and LANE of lane 31. -/
theorem test_step_sget : (after (fields 0x08 0 0 0 0 0 0 0 0 0x0B).toNat (fun _ t => val t 7 1 == 1) && after 0x0800000000000000 (fun _ t => val t 31 1 == 31)) = true := by
  decide +kernel

/-- R159: `cmp.lt.s32 p1, q1, #1` over zeros sets p1 in every lane and pushes nothing. -/
theorem test_step_cmp : after ((fields 0x70 0 0 25 0 0 0 1 4 (2 ^ 16 + 2)).toNat + 2 ^ 64) (fun _ t => t.p1 == allLanes && val t 0 1 == 0 && pcOf t == 0x10010) = true := by
  decide +kernel

/-- 05 R114: `bra` with offset −3 goes to 24 bytes before itself. -/
theorem test_step_bra : after 0x8000000001FFFFFD (fun _ t => pcOf t == 0xFFE8) = true := by decide +kernel

/-- 06 R134, R135: `fenter 4` sets the split's FS to 4. -/
theorem test_step_fenter : after (fields 0x04 0 0 0 0 0 0 0 0 4).toNat (fun _ t => t.live.head?.any fun x => x.2.fs == 4) = true := by decide +kernel

/-- 16 R402: `trap 5` stops the team precisely with cause 0x14 in all lanes. -/
theorem test_step_trap : after (fields 0x88 0 0 0 0 0 0 0 0 5).toNat (fun m _ => m.stop.any fun r => r.cause == 0x14 && r.tpc == 0x10000 && r.tlanes == allLanes && r.prec) = true := by
  decide +kernel

/-- 16 R391: a word that is no instruction stops it with cause 0x10. -/
theorem test_step_undefined : after 0x0900000000000000 (fun m _ => m.stop.any fun r => r.cause == 0x10 && r.tpc == 0x10000) = true := by decide +kernel

/-- 07 R192: `bar.post 2` moves the PC and counts the warp. -/
theorem test_step_bar : after (fields 0xA9 1 0 0 0 0 0 0 0 (16 * 2 + 2)).toNat (fun m t => pcOf t == 0x10008 && (m.bars[2]?).any fun b => b.arrived.length == 1) = true := by decide +kernel

/-- 08 R230: `gclr 3` leaves guard slot 3 unresolved. -/
theorem test_step_gclr : after (fields 0xD7 0 0 0 0 0 0 0 0 3).toNat (fun m t => pcOf t == 0x10008 && m.guards[3]? == some .unresolved) = true := by decide +kernel

/-- 08 R235: `sysrd ASID` in the handler that serves the team pushes 1. -/
theorem test_step_sysrd : (match step (State.reset.withFetchWord 64 (fields 0xE0 0 0 0 0 0 0 0 1 0x16).toNat) with
    | .next t => (t.thread? hw).any fun th => val th 0 1 == 1
    | _ => false) = true := by decide +kernel

/-- 16 R389, R392: the same instruction in user mode raises 0x12. -/
theorem test_user_sysrd : (match exec (.sysrd (hd .b64) .asid) st with
    | .next t => tmIs t fun m => m.stop.any fun r => r.cause == 0x12
    | _ => false) = true := by decide +kernel

/-- 12 R320, R321: after reset DEVSTAT reads PHASE 1, and DEVCTL reads as zero. -/
theorem test_devstat : (match exec (.readClearCounter 0 8) State.reset, exec (.readClearCounter 0 0x10) State.reset with
    | .next t, .next u => t.plat.hostRd == [0x10, 0, 0, 0, 0, 0, 0, 0] && u.plat.hostRd == List.replicate 8 0
    | _, _ => false) = true := by decide +kernel

/-- 12 R483: memory lists nothing after reset. -/
theorem test_reset_mem : Memory.wf State.reset.zeroed State.reset.mem = true := by decide

/-! ## Witnesses: what the hypotheses of the obligations ask for -/

/-! ## Witnesses -/

theorem witness_IntegerResults :
    wit (st.ready h0 (Shape.compute true (src1 h0))) yes = true ∧ wit (st.ready h0 (Shape.compute true (src2 h0))) yes = true ∧
    wit (st.ready h0 (Shape.compute true (src3 h0))) yes = true ∧ wit (st.ready h0 (Shape.both (src3 h0) true)) yes = true := by decide +kernel

theorem witness_DivisionResults : wit (st.ready h0 (Shape.compute true (src2 h0))) yes = true := by decide +kernel

theorem witness_FloatResults :
    wit (st.ready h0 (Shape.user (src1 h0) true)) yes = true ∧ wit (st.ready h0 (Shape.user (src2 h0) true)) yes = true ∧
    wit (st.ready h0 (Shape.user (src3 h0) true)) yes = true ∧ wit (st.ready h0 (Shape.compute false (src1 h0))) yes = true ∧
    wit (st.ready h0 (Shape.compute false (src2 h0))) yes = true := by decide +kernel

/-- A control word that names segment 0 and the table at its first entry, whose bytes are zero. -/
theorem witness_ConversionResults :
    wit (st.ready h0 (Shape.user (src1 h0) true)) yes = true ∧ wit (st.ready h0 (Shape.user (src2 h0) true)) yes = true ∧
    wit (st.ready hp (Shape.user (src3 hp) true)) (fun cx _ => cx.lead == none) = true ∧
    wit ((age1 (fun _ => 0) st).ready h0 (Shape.user (src3 h0) true)) (fun cx s1 =>
      let os := (s1.operands cx (src3 h0) true).1
      let s2 := (s1.operands cx (src3 h0) true).2
      let ctl := (arg (valsAt os 0) 2).toNat
      let tab := s2.tableEntries cx.sp.party cx.tm.serial (4096 * (ctl % 2 ^ 10) + 2 * (ctl / 2 ^ 16 % 2 ^ 16)) 32
      !memWait cx false && cx.t.pend.isEmpty && cx.lead == some 0 && decide (ctl % 2 ^ 10 < cx.tm.segs) && ctl / 2 ^ 10 % 2 ^ 6 == 0 && decide (ctl < 2 ^ 32) &&
        ctl / 2 ^ 16 % 2 ^ 16 % 32 == 0 && decide (ctl / 2 ^ 16 % 2 ^ 16 + 31 < blockK .se4) &&
        tab.1.all fun p => decide (ctl / 2 ^ 16 % 2 ^ 16 ≤ p ∧ p ≤ ctl / 2 ^ 16 % 2 ^ 16 + 31)) = true := by decide +kernel

/-- Each border of R88: NaNs of either kind, infinities, numbers beyond a type, and integers beyond e4m3. -/
theorem witness_ConversionResults_borders :
    let e (n : Nat) : Nat := n / 2 ^ fracBits .f32 % 2 ^ expBits .f32
    let f (n : Nat) : Nat := n % 2 ^ fracBits .f32
    (∀ n ∈ [0x7FC00000, 0x7F800001], e n = 2 ^ expBits .f32 - 1 ∧ f n ≠ 0) ∧ f 0x7F800001 < 2 ^ (fracBits .f32 - 1) ∧ ¬ f 0x7FC00000 < 2 ^ (fracBits .f32 - 1) ∧
    (∀ n ∈ [0x7F800000, 0xFF800000], e n = 2 ^ expBits .f32 - 1 ∧ f n = 0) ∧ 0xFF800000 / 2 ^ (Ty.f32.width - 1) = 1 ∧ 0x7F800000 / 2 ^ (Ty.f32.width - 1) ≠ 1 ∧
    (480 : Rat) ≤ |floatValue .f32 0x43F00000| ∧ 0 < floatValue .f32 0x43F00000 ∧ floatValue .f32 0xC3F00000 < 0 ∧ (480 : Rat) ≤ |floatValue .f32 0xC3F00000| ∧
    (65536 : Rat) ≤ |floatValue .f32 0x47800000| ∧ (65536 : Rat) ≤ |floatValue .f32 0xC7800000| ∧
    floatValue .f32 0xC3010000 ≤ tyMin .s8 - 1 ∧ tyMax .s8 + 1 ≤ floatValue .f32 0x43000000 ∧
    480 ≤ |intOf .s32 480| ∧ 480 ≤ |intOf .s32 (BitVec.ofInt 64 (-480))| := by
  refine ⟨by decide, by decide, by decide, by decide, by decide, by decide, ?_, ?_, ?_, ?_, ?_, ?_, ?_, ?_, by decide, by decide⟩ <;>
    norm_num [floatValue, expBits, fracBits, tyMin, tyMax, Ty.signed, Ty.width, zpow_ofNat, zpow_neg, abs_of_pos, abs_of_neg, le_abs]

/-- Numbers as sources, FTZ off, a divisor that is not zero. -/
theorem witness_FloatRounding :
    wit (st.ready (hd .f32) (Shape.user (src3 (hd .f32)) true)) (fun cx _ => !cx.t.fpctl.getLsbD 8) = true ∧
    wit (st.ready (hd .f32) (Shape.compute false (src2 (hd .f32)))) (fun cx _ => !cx.t.fpctl.getLsbD 8) = true ∧
    (∀ n ∈ [0, 1, 0x3F800000, 0x7F7FFFFF, 0xFF7FFFFF], finiteBits .f32 n) ∧ finiteBits .e5m2 0x7B ∧ floatValue .f32 0x3F800000 ≠ 0 := by
  refine ⟨by decide +kernel, by decide +kernel, by unfold finiteBits; decide, by unfold finiteBits; decide, ?_⟩
  norm_num [floatValue, expBits, fracBits]

theorem witness_LaneAndPredicateResults :
    wit (st.readyAcross h0 (Shape.user [(4, h0.sa), (1, h0.sb)] true) (fun cx => crossPending cx fun l =>
      [sourceLane cx l (shflFrom .mirror (2 ^ BitVec.toNat (5 : BitVec 3)) l (peekLane cx h0.sb l % 32))])) yes = true ∧
    wit (st.readyAcross h0 (Shape.user [(4, h0.sa)] true) (fun cx => crossPending cx fun _ => cx.lanes)) yes = true ∧
    wit (st.readyAcross h0 (Shape.user [(4, h0.sa)] true) (fun cx => crossPending cx fun l =>
      cx.lanes.filter fun q => decide (q < l) || (q == l && !true))) yes = true ∧
    wit (st.readyAcross h0 (Shape.user [(4, h0.sa)] true) (fun cx => crossPending cx fun l => [sourceLane cx l 31])) yes = true ∧
    wit (st.readyAcross hp (Shape.user [(4, hp.sa)] true) (fun cx => crossPending cx fun l => [sourceLane cx l (cx.lead.getD 0)])) yes = true ∧
    wit (st.ready h0 (Shape.user (srcOff h0) true)) yes = true := by decide +kernel

theorem witness_LaneAndPredicateResults_predicates :
    wit (st.ready h0 (Shape.user (src2 h0) false)) yes = true ∧ wit (st.ready h0 (Shape.user [] false)) yes = true ∧
    wit (st.ready h0 (Shape.user (src1 h0) false)) yes = true := by decide +kernel

/-- Slot 7 of a frame of eight entries, and the highest frame tops. -/
theorem witness_FrameResults :
    wit (st.ready h0 (Shape.user [] false)) yes = true ∧ wit (st.ready h0 (Shape.both (src1 h0) true)) yes = true ∧
    wit ((spl (fun x => { x with fs := 8 }) st).ready h0 { Shape.both (src1 h0) false with waits := true }) (fun cx s1 =>
      slotFail cx.who cx.sp 7 == none && wit (s1.afterReads cx [cx.sp.fb + 7]) fun _ s2 =>
        ((s2.operands cx (src1 h0) false).2.writable cx [cx.sp.fb + 7]).isSome) = true ∧
    wit ((spl (fun x => { x with fs := 8 }) st).ready h0 (Shape.both (srcOff h0) true)) (fun cx s1 =>
      slotFail cx.who cx.sp 7 == none && wit (s1.afterReads cx [cx.sp.fb + 7]) yes) = true ∧
    wit ((spl (fun x => { x with fb := 16320 }) st).ready h0 (Shape.both [] false)) (fun cx _ =>
      decide (cx.sp.fb + 64 ≤ 16384) && cx.who.isUser) = true ∧
    wit (sh.ready h0 (Shape.both [] false)) (fun cx _ => !cx.who.isUser && decide (cx.sp.fb + 16 ≤ 16)) = true := by decide +kernel

theorem witness_FrameResults_window :
    (sh.thread? hw).isSome = true ∧
    (match st.thread? w0 with | some t => decide (t.top - t.cap = t.win) | none => false) = true ∧
    (let s := thr (fun t => { (List.range 32).foldl (fun t l => ((t.fwrite 0 l 5 false).fwrite 1 l 6 false).fwrite 2 l 7 false) t with cap := 2, clean := [1] })
       (spl (fun x => { x with fs := 5 }) st)
     match s.thread? w0, s.team? loadCtxh with
     | some t, some tm =>
       let party := ((t.split? 0).map Split.party).getD 0
       let one := s.spillEntry tm w0 party 0
       decide (t.win + 3 = t.top - t.cap) && ((List.range 3).filter fun i => !t.clean.contains i) == [0, 2] && ok? one && ok? (one.2.spillEntry tm w0 party 2)
     | _, _ => false) = true ∧
    (let s := thr (fun t => { t with win := 2 }) (spl (fun x => { x with fs := 2 }) st)
     match s.thread? w0, s.team? loadCtxh with
     | some t, some tm =>
       let party := ((t.split? 0).map Split.party).getD 0
       let one := s.fillEntry tm w0 party 0
       decide (t.top - t.cap = 0) && decide (t.top = 2) && ok? one && ok? (one.2.fillEntry tm w0 party 1)
     | _, _ => false) = true := by decide +kernel

theorem witness_SystemValues :
    wit (st.ready h0 { Shape.both (srcOff h0) true with waits := false }) (fun _ _ => SysVal.clks.counter && !SysVal.lane.counter) = true ∧
    wit (st.ready h0 { Shape.both (src1 h0) true with waits := false }) yes = true ∧
    wit (st.ready h0 { Shape.both (srcOff h0) true with waits := true }) yes = true ∧
    (let s : State := { st with grids := st.grids.map fun (g : Grid) => { g with launch := { g.launch with afn := 7 } }
                                clusters := st.clusters.map fun (c : Cluster) => { c with cx := 5 } }
     wit (s.ready h0 { Shape.both (srcOff h0) true with waits := false }) fun cx s1 => !cx.who.isHandler && cx.tm.die == 0 &&
       match s1.cluster? cx.tm.cluster, s1.grid? cx.tm.grid with
       | some c, some x => (affinity x.launch.afn.toNat c.cx c.cy c.cz).1 == some 5
       | _, _ => false) = true ∧
    wit (st.ready h0 { Shape.both (srcOff h0) true with waits := false }) (fun cx s1 => (s1.grid? cx.tm.grid).any fun x => x.launch.afn == 0) = true := by
  decide +kernel

/-- Lane 0 alone taken, with a waypoint open, with four splits and a parked group, and without a waypoint; no lane, and every lane. -/
theorem witness_BranchResults :
    let on (m : Mask) (s : State) := p1 m s
    let open_ (s : State) := thr (fun t => { t with wps := [wp0] }) s
    let full (s : State) := thr (fun t => { t with splits := [t.splits.getD 0 none, some sp0, some sp0, some sp0], wps := [{ wp0 with parked := 2 }] }) s
    let b (s : State) (p : Cx → Bool) := wit (s.ready hp (Shape.both [] false)) fun cx _ => p cx
    b st (fun cx => cx.on == 0) = true ∧
    b (on allLanes st) (fun cx => cx.on != 0 && cx.on == cx.mask) = true ∧
    b (on 1 (open_ st)) (fun cx => cx.on != 0 && cx.on != cx.mask && cx.t.wps != [] && !mustWait cx.t) = true ∧
    b (on 1 (full st)) (fun cx => cx.on != 0 && cx.on != cx.mask && cx.t.wps != [] && mustWait cx.t) = true ∧
    b (on 1 st) (fun cx => cx.on != 0 && cx.on != cx.mask && cx.t.wps == []) = true := by decide +kernel

/-- The same where lane 0 names one target and the others another, and where lane 0 alone counts on. -/
theorem witness_BranchResults_lanes :
    let open_ (s : State) := thr (fun t => { t with wps := [wp0] }) s
    let full (s : State) := thr (fun t => { t with splits := [t.splits.getD 0 none, some sp0, some sp0, some sp0], wps := [{ wp0 with parked := 2 }] }) s
    let apart (s : State) := age1 (fun l => if l = 0 then 0x8000 else 0x9000) s
    let group (cx : Cx) (s1 : State) : Mask := (leadTarget cx (s1.operands cx (src1 h0) false).1).2
    let x (s : State) (p : Cx → Mask → Bool) := wit (s.ready h0 (Shape.both (src1 h0) false)) fun cx s1 => p cx (group cx s1)
    let c (m : Nat → Word) (s : State) (p : Cx → Mask → Bool) := wit ((age1 m s).ready (hd .n32) (Shape.both (src1 (hd .n32)) true)) fun cx s1 =>
      p cx (maskOf (cx.lanes.filter fun l => widen .n32 ((unsOf .n32 (arg (valsAt (s1.operands cx (src1 (hd .n32)) true).1 l) 0) : Int) - 1) != 0))
    let one (l : Nat) : Word := if l = 0 then 2 else 1
    wit (st.ready hp (Shape.both (src1 hp) false)) (fun cx _ => cx.on == 0) = true ∧
    x (age1 (fun _ => 0x8000) st) (fun cx m => m != 0 && m == cx.mask) = true ∧
    x (apart (open_ st)) (fun cx m => m != 0 && m != cx.mask && cx.t.wps != [] && !mustWait cx.t) = true ∧
    x (apart (full st)) (fun cx m => m != 0 && m != cx.mask && cx.t.wps != [] && mustWait cx.t) = true ∧
    x (apart st) (fun cx m => m != 0 && m != cx.mask && cx.t.wps == []) = true ∧
    c (fun _ => 1) st (fun _ m => m == 0) = true ∧ c (fun _ => 0) st (fun cx m => m != 0 && m == cx.mask) = true ∧
    c one (open_ st) (fun cx m => m != 0 && m != cx.mask && cx.t.wps != [] && !mustWait cx.t) = true ∧
    c one (full st) (fun cx m => m != 0 && m != cx.mask && cx.t.wps != [] && mustWait cx.t) = true ∧
    c one st (fun cx m => m != 0 && m != cx.mask && cx.t.wps == []) = true := by decide +kernel

theorem witness_BranchResults_divert :
    let full := thr (fun t => { t with splits := [t.splits.getD 0 none, some sp0, some sp0, some sp0], wps := [wp0] }) st
    (st.thread? w0).any (fun t => (t.split? 0).isSome && t.freeSplit == some 1) = true ∧
    (full.thread? w0).any (fun t => (t.split? 0).isSome && t.freeSplit == none && t.wps == [wp0]) = true := by decide +kernel

/-- A call, a `calli` with one target, and with two: before its waypoint is open, after, with no room left there, and below another waypoint. -/
theorem witness_CallsAndReturns :
    let two (s : State) := age1 (fun l => if l = 0 then 0x8000 else 0x9000) s
    let entries (cx : Cx) : List Nat := (List.range 17).map (cx.sp.fb + cx.sp.fs + ·)
    let opens (cx : Cx) (s : State) : Bool := wit (s.afterReads cx (entries cx)) fun _ u => (u.writable cx (entries cx)).isSome
    let ci (s : State) (p : Cx → List (Pc × Mask) → Bool) := wit (s.ready h0 { Shape.user (src1 h0) false with waits := true }) fun cx s1 =>
      let r := s1.operands cx (src1 h0) false
      callFail cx 16 == none && opens cx r.2 && p cx (targetGroups r.1 (lanesOf cx.mask))
    let wp : Waypoint := { wp0 with implicit := true, target := BitVec.ofNat 48 (loadVa + 8) }
    let below (l : List Waypoint) (s : State) : State := thr (fun t => { t with wps := l }) s
    let full (s : State) : State := thr (fun t => { t with splits := [t.splits.getD 0 none, some sp0, some sp0, some sp0] }) s
    wit (st.ready h0 { Shape.both [] false with waits := true }) (fun cx s1 => callFail cx 16 == none && opens cx s1) = true ∧
    ci st (fun cx g => g.length == 1 && calliWp cx == none) = true ∧
    ci (two st) (fun cx g => decide (g.length > 1) && calliWp cx == none && decide (cx.t.wps.length < 16)) = true ∧
    ci (two (below [wp] st)) (fun cx g => decide (g.length > 1) && calliWp cx == some 0 && cx.t.roomFor != 0) = true ∧
    ci (two (full (below [{ wp with parked := 2 }] st))) (fun cx g => decide (g.length > 1) && calliWp cx == some 0 && cx.t.roomFor == 0) = true ∧
    ci (two (below [wp0, wp] st)) (fun cx _ => calliWp cx == some 1) = true := by decide +kernel

/-- A return to the word at 0x10100 from a frame above a record with two saved entries. -/
theorem witness_CallsAndReturns_ret :
    let link : Word := 0x10100 / 8 * 2 ^ 19 + 4 * 2 ^ 10 + 2 * 2 ^ 5
    let s := thr (fun t => { (List.range 32).foldl (fun t l => (List.range 4).foldl (fun t i => t.fwrite i l (if i = 3 then link else 5) false) t) t
      with cap := 16 }) (spl (fun x => { x with fb := 4, fs := 1 }) st)
    wit (s.ready h0 { Shape.both [] false with waits := true }) (fun cx s1 => decide (cx.sp.fb ≠ 0) && wit (s1.afterReads cx [cx.sp.fb - 1]) fun cx2 s2 =>
      let links := s2.frameWords cx cx2.t ((lanesOf cx.mask).map fun l => (cx.sp.fb - 1, l))
      let l := linkOf link cx.sp.fb
      lanesOf cx.mask != [] && links.1.all (fun x => x.2.2.val == link) && !l.bad && l.wpd == cx.t.wps.length && implicitRet cx l == none &&
        wit (links.2.afterReads cx ((List.range l.k).map (cx.sp.fb - 1 - l.k + ·))) yes) = true := by decide +kernel

theorem witness_ForkRejoin :
    let rows (s1 : State) (cx : Cx) (p : Nat) (f : PermRow → Bool) : Bool := match (s1.permTable cx 0 p).1 with
      | .ok (some r) => f r
      | _ => false
    wit ((withObj st).ready h0 { Shape.user [] false with waits := true }) (fun cx s1 =>
      rows s1 cx 16 fun r => !r.reserved && r.kt == 1 && decide (cx.t.wps.length < 16)) = true ∧
    wit ((withObj (thr (fun t => { t with wps := [wp0] }) (spl (fun x => { x with p := 1 }) st))).ready h0 { Shape.user [] false with waits := true })
      (fun cx s1 => cx.t.wps == [{ wp0 with target := cx.pc }] && decide (cx.sp.p ≤ 15) && rows s1 cx cx.sp.p fun r =>
        r.rows / 2 ^ cx.sp.p % 2 == 1 && (List.range 9).all fun j => decide (r.row.getD j 0 ≤ 16) && (decide (j < r.kt) || r.row.getD j 0 == 0)) = true := by
  decide +kernel

theorem witness_ForkRejoin_arrive :
    let s (w : Waypoint) := thr (fun t => { t with wps := [w] }) st
    ((s wp0).thread? w0).any (fun t => (t.split? 0).any fun sp => sp.mask != 0 && wp0.member == wp0.arrived ||| sp.mask) = true ∧
    ((spl (fun x => { x with mask := 1 }) (s wp0)).thread? w0).any (fun t => (t.split? 0).any fun sp =>
      sp.mask != 0 && wp0.member != wp0.arrived ||| sp.mask && wp0.parked == 0) = true ∧ wp0.parked = 0 ∧
    ((s { wp0 with parked := 1 }).thread? w0).any (fun t => (t.split? 0).any fun sp => sp.mask != 0) = true := by decide +kernel

theorem witness_EndResults :
    let x (s : State) (p : Cx → Bool) := wit (s.ready hp { Shape.both [] false with waits := true }) fun cx _ => p cx
    x st (fun cx => cx.on == 0) = true ∧ x (p1 1 st) (fun cx => cx.on != 0 && cx.mask &&& ~~~cx.on != 0) = true ∧
    x (p1 allLanes st) (fun cx => cx.on != 0 && cx.mask &&& ~~~cx.on == 0) = true ∧
    wit (st.ready h0 (Shape.both [] false)) (fun cx _ => !cx.tm.brken.getLsbD 0) = true ∧
    wit ((team (fun t => { t with brken := 1 }) st).ready h0 (Shape.both [] false)) (fun cx _ => cx.tm.brken.getLsbD 0) = true := by decide +kernel

/-- A plain and a release access at team scope through global addresses. -/
def mf (o : Order) : MemF := { sp := .global, scope := .team, ord := o, ch := .none, off := 0 }

/-- Lane l reads or writes the eight bytes at 0x8000 + 8 l. -/
def each (l : Nat) : Word := BitVec.ofNat 64 (0x8000 + 8 * l)

theorem witness_LoadResults :
    let x (ty : Ty) (srcs : Hdr → List (Nat × Src)) (op : MemOp) (fields : List Nat) (n : Nat) (form : Bool) : Bool :=
      let h := { hd ty with guard := .pos .p1 }
      let f := if n = 2 then fun l => BitVec.ofNat 64 (0x8000 + 16 * l) else each
      wit ((p1 3 (age1 f st)).ready h { Shape.user (srcs h) true with guide := false, form := form }) fun cx s1 =>
        let os := (s1.operands cx (srcs h) true).1
        !memWait cx (isRel .plain) && ((s1.operands cx (srcs h) true).2.granted cx
          { op := op, sp := .global, scope := .team, ord := .plain, acc := accOf cx os (memOff h (srcs h) 0) fields, badAddr := badLanes cx os, n := n }).isSome
    x .b64 src1 (.load .b64) [] 1 (guideSp .global) = true ∧ x .b64 src1 .loadPair [] 2 true = true ∧
    x .n64 src2 (.atom .add .n64) [1] 1 true = true ∧ x .b64 src3 (.cas .b64) [1, 2] 1 true = true ∧
    x .f64 src2 (.fatom .add .f64) [1] 1 true = true := by decide +kernel

/-- A lane that loads the word of code. -/
def codeAcc : LaneAcc := { lane := 0, ea := loadVa, ops := [], keys := keysFrom loadPa 4, pt := 3, poisoned := false }

theorem no_seals (s : State) (h : s.seals = []) (k : Nat) : s.sealed k = false := by simp [State.sealed, State.sealedRanges, h]

theorem witness_LoadResults_seals : (∀ k, (base 0x87654321).sealed k = false) ∧ ∀ k, st.sealed k = false :=
  ⟨no_seals _ (by decide +kernel), no_seals _ (by decide +kernel)⟩

theorem witness_LoadResults_bytes :
    let s := base 0x87654321
    s.unreachableAny codeAcc.keys = none ∧ (∀ k ∈ codeAcc.keys, s.histOf k = none ∧ isHostKey k = false ∧ isPeerKey k = false) ∧
    codeAcc.keys.map s.byteAt = [0x21, 0x43, 0x65, 0x87].map some := by decide +kernel

theorem witness_StoreResults :
    let x (ty : Ty) (srcs : Hdr → List (Nat × Src)) (op : MemOp) (fields : List Nat) (n : Nat) (o : Order) : Bool :=
      let h := { hd ty with guard := .pos .p1 }
      let f := if n = 2 then fun l => BitVec.ofNat 64 (0x8000 + 16 * l) else each
      wit ((p1 3 (age1 f st)).ready h { Shape.user (srcs h) false with guide := true, form := true }) fun cx s1 =>
        let os := (s1.operands cx (srcs h) false).1
        !memWait cx (isRel o) && ((s1.operands cx (srcs h) false).2.granted cx
          { op := op, sp := .global, scope := .team, ord := o, acc := accOf cx os (memOff h (srcs h) 0) fields, badAddr := badLanes cx os, n := 0 }).isSome
    x .b64 src2 (.store .b64) [1] 1 .plain = true ∧ x .b64 src2 (.store .b64) [1] 1 .rel = true ∧ x .b64 src3 .storePair [1, 2] 2 .plain = true ∧
    x .n64 src2 (.red .add .n64) [1] 1 .plain = true := by decide +kernel

/-- Two lanes that store a byte each, at the last byte of one place and at the first of the next. -/
def storeAcc (l k : Nat) : LaneAcc := { lane := l, ea := k, ops := [5], keys := [k], pt := 3, poisoned := false }

theorem witness_StoreResults_bytes :
    let acc := [storeAcc 0 0x40008000, storeAcc 1 0x40008001]
    (MemOp.store .n8).isStore = true ∧ (∀ a ∈ acc, st.unreachableAny a.keys = none) ∧ (∀ a ∈ acc, 0x40008002 ∉ (storeData a).map Prod.fst) ∧
    (storeData (storeAcc 0 0x40008000)).Pairwise (fun x y => x.1 ≠ y.1) ∧ ((0x40008000 : Nat), (5 : Byte)) ∈ storeData (storeAcc 0 0x40008000) ∧
    (∀ c ∈ [storeAcc 1 0x40008001], 0x40008000 ∉ (storeData c).map Prod.fst) ∧ Memory.wf st.zeroed st.mem = true := by decide +kernel

theorem witness_BlockResults :
    let x (srcs : List (Nat × Src)) (p : Bool) (f : Cx → State → Bool) := wit ((p1 3 (age1 (fun _ => 0x8000) st)).ready hp (Shape.user srcs p)) fun cx s1 =>
      !memWait cx false && f cx s1
    let acc (os : List Operand) (l : Nat) : LaneAcc := { lane := l, ea := ((fieldOp os 0).at l).v.toNat, ops := [0], keys := [], pt := 0, poisoned := false }
    x (src1 hp) true (fun cx s1 =>
      let os := (s1.operands { cx with on := cx.mask } (src1 hp) true).1
      ((s1.operands { cx with on := cx.mask } (src1 hp) true).2.granted cx
        { op := .ldblk .se4, sp := .global, scope := .team, ord := .plain, acc := cx.lanes.map (acc os), badAddr := [], n := 1 }).isSome) = true ∧
    x (src2 hp) false (fun cx s1 =>
      ((List.range 1).map (32 * ·)).all (fun b => !(groupLanes .se4 b).all fun l => cx.on.getLsbD l) &&
      ((s1.operands cx (src2 hp) false).2.granted cx
        { op := .stblk .se4, sp := .global, scope := .team, ord := .plain, n := 0, badAddr := [], acc := [] }).isSome) = true ∧
    wit ((p1 1 (age1 (fun _ => 0) st)).ready hp (Shape.user (src3 hp) false)) (fun cx s1 =>
      let os := (s1.operands cx (src3 hp) false).1
      !memWait cx true && (accOf cx os 0 [1, 2]).all (fun a => decide (a.ea + (a.ops.headD 0).toNat ≤ globalTop ∧ a.ea % 4096 = 0 ∧
        (a.ops.headD 0).toNat % 4096 = 0 ∧ (a.ops.headD 0).toNat ≤ 2 ^ 40)) &&
      ((s1.operands cx (src3 hp) false).2.granted cx
        { op := MemOp.seal, sp := .global, scope := .system, ord := .rel, acc := accOf cx os 0 [1, 2], badAddr := [], n := 0 }).isSome) = true := by
  decide +kernel

/-- An address between two elements of eight bytes, in the global window. -/
theorem witness_AccessAndModeTraps :
    wit (st.ready h0 (Shape.user [] false)) (fun cx s1 =>
      s1.stage5 cx.tm cx.who .global (.load .b64) [{ lane := 0, ea := 0x8004, ops := [], keys := [], pt := 0, poisoned := false }] != [] &&
      (match placeOf s1 cx.tm cx.who .global 0x8004 8 with | .ok _ => true | .error _ => false)) = true := by decide +kernel

/-- What a prefetch in the lanes of p1 names. -/
def prefs (f : Nat → Word) (m : Mask) (p : Cx → List LaneAcc → State → Bool) : Bool :=
  wit ((p1 m (age1 f st)).ready hp (Shape.user (src1 hp) false)) fun cx s1 =>
    p cx (accOf cx (s1.operands cx (src1 hp) false).1 (memOff hp (src1 hp) 0) []) (s1.operands cx (src1 hp) false).2

/-- One lane that prefetches a mapped line, one that prefetches no global address, and none; a fence without a request. -/
theorem witness_OrderResults :
    prefs each 0 (fun _ l _ => l.isEmpty) = true ∧
    prefs each 1 (fun cx l s2 => (l.map fun a => (s2.prefKey cx .global a.ea).1.map isSpKey) == [some false]) = true ∧
    prefs (fun _ => 0x7FFF80000000) 1 (fun cx l s2 => (l.map fun a => (s2.prefKey cx .global a.ea).1) == [none]) = true ∧
    wit (st.ready h0 (Shape.user [] false)) (fun cx _ => !memWait cx true) = true := by decide +kernel

/-- Instructions that read no slot below the window, no poisoned word, and whose flags do not trap answer a next state; a poisoned source. -/
theorem witness_QuietFrame :
    let x (s : State) (i : Instr) (p : List Operand → Bool) : Bool := match i.quiet with
      | some q => wit (s.readyAcross q.h q.shape q.cross) fun cx s1 =>
          belowWindow cx (slotEntries cx.sp q.shape) == [] && !cx.who.isHandler && cx.t.fpctl.toNat % 32 == 0 &&
            p (s1.operands cx q.srcs q.shape.pushes).1 && match exec i s with | .next _ => true | _ => false
      | none => false
    let sound (os : List Operand) : Bool := os.all fun o => (List.range 32).all fun l => !(o.at l).poison
    (∀ i ∈ [Instr.nop h0, .add h0 false, .div h0, .fadd (hd .f32) .rn, .shfl h0 .mirror 5, .bcast h0 31, .redux h0 .add, .cmp h0 .eq .set .p1,
      .lanemask h0 .split, .sget h0 .warp], x st i sound = true) ∧
    x (thr (fun t => { t with queue := List.replicate 32 [Machine.ent 0 true] }) st) (.add h0 false) (fun os => (List.range 32).all (poisonAt os)) = true := by
  decide +kernel

/-- Arrivals: a barrier that nothing blocks, one whose first arrival has been made by some lanes, and waits that stand. -/
theorem witness_BarrierResults :
    let on (f : State → State) (p : Cx → State → Bool) := wit ((f st).ready h0 (Shape.user [] false)) p
    let blk (s : State) (cx : Cx) : Bool := barBlocked (cx.now s).t (cx.now s).tm.bars cx.mask 3
    let arr (s : State) : State := thr (fun t => { t with barArr := [(0, 3, 0)] }) s
    let waits (w : Wait) (s : State) : State := spl (fun x => { x with wait := some w }) s
    on id (fun cx s1 => !memWait cx true && !barBlocked cx.t cx.tm.bars cx.mask 3 && cx.sp.wait != some (.bar 3 true) &&
      !blk (s1.arriveBar cx 3 1) cx) = true ∧
    on id (fun cx s1 => !memWait cx true && !barBlocked cx.t cx.tm.bars cx.mask 3 && cx.sp.wait != some (.bar 3 true) && cx.sp.wait != some (.bar 3 false) &&
      blk (s1.arriveBar cx 3 2) cx) = true ∧
    on (waits (.bar 3 true)) (fun cx _ => cx.sp.wait == some (.bar 3 true) && !barBlocked cx.t cx.tm.bars cx.mask 3) = true ∧
    on arr (fun cx _ => barBlocked cx.t cx.tm.bars cx.mask 3 && cx.sp.wait != some (.bar 3 false)) = true := by decide +kernel

theorem witness_BarrierResults_cluster :
    let on (f : State → State) (p : Cx → State → Bool) := wit ((f st).ready h0 (Shape.user [] false)) p
    let free (cx : Cx) (s1 : State) : Bool := !cbarBlocked cx.t (s1.cbarOf cx) cx.mask
    let blk (cx : Cx) (s : State) : Bool := cbarBlocked (cx.now s).t (s.cbarOf cx) cx.mask
    let two (s : State) : State := { s with threads := s.threads ++ (s.threads.map fun t => { t with who := Who.warp loadCtxh 1 }) }
    let arr (s : State) : State := thr (fun t => { t with cbarArr := [(0, 0)] }) s
    on id (fun cx s1 => !memWait cx true && free cx s1 && cx.sp.wait != some (.cbar true) && !blk cx (s1.arriveCbar cx)) = true ∧
    on two (fun cx s1 => !memWait cx true && free cx s1 && cx.sp.wait != some (.cbar true) && cx.sp.wait != some (.cbar false) &&
      blk cx (s1.arriveCbar cx)) = true ∧
    on (spl fun x => { x with wait := some (.cbar true) }) (fun cx s1 => cx.sp.wait == some (.cbar true) && free cx s1) = true ∧
    on arr (fun cx s1 => !free cx s1 && cx.sp.wait != some (.cbar false)) = true := by decide +kernel

theorem witness_BarrierResults_arrive :
    wit (st.ready h0 (Shape.user [] false)) (fun cx s1 => s1.team? cx.tm.ctxh == some cx.tm && (s1.thread? cx.who).isSome &&
      decide (15 < cx.tm.bars.length) && cx.mask.getLsbD 31) = true := by decide +kernel

/-- A user warp with a free edge and with none; its own edge closes a cycle where another warp of the team waits for it. -/
theorem witness_WaitBegins :
    let x (f : State → State) (p : Cx → State → Bool) := wit ((f st).ready h0 (Shape.user [] false)) fun cx s1 =>
      p cx ((s1.dropEdges cx.who cx.k true).updSplit cx.who cx.k fun sp => { sp with soft := none })
    x id (fun cx u => cx.who.isUser && u.freeEdge cx.tm.die == some 0) = true ∧
    wit (sh.ready h0 (Shape.sys [] false)) (fun cx _ => !cx.who.isUser) = true := by decide +kernel

/-- Two warps of the team, the second waiting for a lock that the first holds, and holding another. -/
def duo : State :=
  let o (k w : Nat) : Obj := { idx := w, mdie := 0, addr := k, key := k, lock := true, ctxh := loadCtxh, warp := w }
  { st with
    threads := st.threads ++ st.threads.map fun t => { t with who := Who.warp loadCtxh 1 }
    objs := [o 0x8000 0, o 0x9000 1]
    edges := [{ idx := 0, die := 0, kind := 0, obj := 0x8000, key := 0x8000, ctxh := loadCtxh, warp := 1, spl := 0 }] }

/-- Whether a wait of the first warp for an object closes a cycle. -/
def closes (s : State) (key : Nat) : Option Bool :=
  match s.ready h0 (Shape.user [] false) with
  | none => none
  | some (cx, s1) =>
    let u := (s1.dropEdges cx.who cx.k true).updSplit cx.who cx.k fun sp => { sp with soft := none }
    (u.freeEdge cx.tm.die).map fun i =>
      let e : Edge := { idx := i, die := cx.tm.die, kind := 0, obj := key, key := key, ctxh := cx.tm.ctxh, warp := cx.who.warpNo, spl := cx.k }
      ({ u with edges := e :: u.edges }.walkFromEdge e).isSome

theorem witness_WaitBegins_walks : closes duo 0x9000 = some true ∧ closes duo 0xA000 = some false := by decide +kernel

/-- Every edge of die 0 in use. -/
def allEdges : List Edge :=
  (List.range 8192).map fun i => { idx := i, die := 0, kind := 1, obj := 0, key := 0, ctxh := 0, warp := 0, spl := 0 }

theorem witness_WaitBegins_full (s : State) (cx : Cx) (hw : cx.who = w0) (hd : cx.tm.die = 0) (he : s.edges = allEdges) :
    ((s.dropEdges cx.who cx.k true).updSplit cx.who cx.k fun sp => { sp with soft := none }).freeEdge cx.tm.die = none := by
  have h : ((s.dropEdges cx.who cx.k true).updSplit cx.who cx.k fun sp => { sp with soft := none }).edges = allEdges := by
    show s.edges.filter _ = _
    rw [he, hw]
    refine List.filter_eq_self.2 fun e h => ?_
    obtain ⟨i, -, rfl⟩ := List.mem_map.1 h
    rfl
  unfold State.freeEdge
  rw [h, hd]
  refine List.find?_eq_none.2 fun i hi => ?_
  have h8 : i < 8192 := lt_of_lt_of_le (List.mem_range.1 hi) (Nat.min_le_left _ _)
  simp only [Bool.not_eq_true', Bool.not_eq_false, List.contains_iff_mem, List.mem_map, List.mem_filter]
  exact ⟨_, ⟨List.mem_map.2 ⟨i, List.mem_range.2 h8, rfl⟩, rfl⟩, rfl⟩

theorem witness_WaitBegins_strict :
    wit (st.ready h0 (Shape.user [] false)) (fun cx u => cx.who == w0 && cx.tm.die == 0 && !u.strict 0) = true ∧
    wit ((st.updDie 0 fun d => { d with strict := true }).ready h0 (Shape.user [] false)) (fun _ u => u.strict 0) = true := by decide +kernel

/-- The warp holds an object at the word of code; another warp holds it. -/
def holds (lock : Bool) (w : Nat) (s : State) : State :=
  { s with objs := [{ idx := 0, mdie := mdieOf loadPa, addr := loadVa, key := loadPa, lock := lock, ctxh := loadCtxh, warp := w }] }

/-- A lock word of a value at the word of code, named by every lane. -/
def lockSt (v : Nat) : State := age1 (fun _ => 0x10000) (issue w0 (base v))

/-- The state in which a message of the thread's die has come to some locations that refuse nothing. -/
def arrived (cx : Cx) (ks : List Nat) (s : State) : Option State :=
  match (s.cross cx.tm.die true ks).remoteFail ks with
  | (none, u) => some u
  | _ => none

/-- What an `acq` finds at its home: the location, whether its warp is its holder, the value, a free entry. -/
def lockAt (f : State → State) (v : Nat) (p : Bool → Nat → Option Nat → Bool) (shut : Bool := false) : Bool :=
  wit ((f (lockSt v)).ready h0 (Shape.user (src1 h0) true)) fun cx s1 =>
    let os := (s1.operands cx (src1 h0) true).1
    (match cx.sp.wait with | none => true | some _ => false) && !memWait cx false && cx.lead == some 0 && !((fieldOp os 0).at 0).poison &&
      !(s1.operands cx (src1 h0) true).2.replayFull cx &&
      match (s1.operands cx (src1 h0) true).2.oneLoc cx .global true 0 ((fieldOp os 0).at 0).v.toNat 8 with
      | (.ok ks, s0) => (arrived cx ks s0).any fun s3 => decide (s3.heldCount cx < 16) && s3.sealed (ks.headD 0) == shut &&
          (s3.lockQ.all fun w => w.key != ks.headD 0) &&
          p (s3.objs.any fun o => o.lock && o.key == ks.headD 0 && names cx.who o.ctxh o.warp) (s3.homeRead ks).1 (s3.freeObj (mdieOf (ks.headD 0)))
      | _ => false

theorem witness_LockResults :
    lockAt (holds true 0) 1 (fun own _ _ => own) = true ∧ lockAt (holds true 1) 1 (fun own v _ => !own && v != 0) = true ∧
    lockAt id 0 (fun own v i => !own && v == 0 && i == some 0) = true ∧
    lockAt (fun s => { s with seals := [{ peer := none, mdie := 0, base := loadPa, len := 8, ver := 1 }] }) 0 (fun own v _ => !own && v == 0) true = true ∧
    wit ((spl (fun x => { x with wait := some .granted }) (lockSt 1)).ready h0 (Shape.user (src1 h0) true)) (fun cx _ => cx.sp.wait == some .granted) = true ∧
    wit ((spl (fun x => { x with wait := some .aborted }) (lockSt 1)).ready h0 (Shape.user (src1 h0) true)) (fun cx _ => cx.sp.wait == some .aborted) = true := by
  decide +kernel

/-- Sixteen locks of the loaded warp. -/
def sixteen (s : State) : State := thr (fun t => { t with locks := 16 }) s

/-- No lane that acts, and a warp that holds 16 objects, none of them the one it asks for. -/
theorem witness_LockResults_misuse :
    wit ((p1 0 (lockSt 0)).ready hp (Shape.user (src1 hp) true)) (fun cx _ => cx.lead == none && (match cx.sp.wait with | none => true | some _ => false) &&
      !memWait cx false) = true ∧
    wit ((sixteen (lockSt 0)).ready h0 (Shape.user (src1 h0) true)) (fun cx s1 => s1.heldCount cx == 16 && s1.objs.all fun o => o.key != loadPa) = true := by
  decide +kernel

theorem witness_LockResults_release :
    wit ((thr (fun t => { t with locks := 1 }) (holds true 0 (lockSt 1))).ready h0 (Shape.user (src1 h0) false)) (fun cx s1 =>
      let os := (s1.operands cx (src1 h0) false).1
      !memWait cx true && cx.lead == some 0 && !((fieldOp os 0).at 0).poison && cx.t.locks != 0 && !(s1.operands cx (src1 h0) false).2.replayFull cx &&
        match (s1.operands cx (src1 h0) false).2.oneLoc cx .global true 0 ((fieldOp os 0).at 0).v.toNat 8 with
        | (.ok ks, s0) => (arrived cx ks s0).any fun s3 => (s3.homeRead ks).1 != 0 &&
            ((s3.objs.find? fun o => o.lock && o.key == ks.headD 0).map fun o => names cx.who o.ctxh o.warp) == some true
        | _ => false) = true := by decide +kernel

/-- What a `rel` finds: the locks of its warp, whether the entry's holder is its warp, and the value. -/
def relAt (locks : Nat) (f : State → State) (v : Nat) : Option (Nat × Option Bool × Nat) :=
  match (thr (fun t => { t with locks := locks }) (f (lockSt v))).ready h0 (Shape.user (src1 h0) false) with
  | none => none
  | some (cx, s1) =>
    let os := (s1.operands cx (src1 h0) false).1
    match (s1.operands cx (src1 h0) false).2.oneLoc cx .global true 0 ((fieldOp os 0).at 0).v.toNat 8 with
    | (.ok ks, s0) => (arrived cx ks s0).map fun s3 =>
        (cx.t.locks, (s0.objs.find? fun o => o.lock && o.key == ks.headD 0).map fun o => names cx.who o.ctxh o.warp, (s3.homeRead ks).1)
    | _ => none

/-- No lock counted, another's lock, one of its own whose word is zero, and a word that no entry names. -/
theorem witness_LockResults_rel :
    relAt 0 (holds true 0) 1 = some (0, some true, 1) ∧ relAt 1 (holds true 1) 1 = some (1, some false, 1) ∧ relAt 1 (holds true 0) 0 = some (1, some true, 0) ∧
    relAt 1 id 0 = some (1, none, 0) := by decide +kernel

/-- What `wreg` and `wdrop` find: whether the object is held by their warp, and whether the split has an edge at it. -/
def softAt (f : State → State) (p : Cx → Bool → Bool → State → Nat → Bool) : Bool :=
  wit ((f (lockSt 0)).ready h0 (Shape.user (src1 h0) false)) fun cx s1 =>
    let os := (s1.operands cx (src1 h0) false).1
    cx.lead == some 0 && !((fieldOp os 0).at 0).poison && !(s1.operands cx (src1 h0) false).2.replayFull cx &&
      match (s1.operands cx (src1 h0) false).2.oneLoc cx .global false 0 ((fieldOp os 0).at 0).v.toNat 8 with
      | (.ok ks, s3) => p cx (s3.objs.any fun o => !o.lock && o.key == ks.headD 0 && names cx.who o.ctxh o.warp)
          (s3.edges.any fun e => e.kind == 1 && e.key == ks.headD 0 && names cx.who e.ctxh e.warp && e.spl == cx.k) s3 (ks.headD 0)
      | _ => false

theorem witness_SoftwareEdges :
    wit ((p1 0 (lockSt 0)).ready hp (Shape.user (src1 hp) false)) (fun cx _ => cx.lead == none) = true ∧
    softAt (holds false 0) (fun _ mine _ _ _ => mine) = true ∧
    softAt (thr fun t => { t with softHolds := [loadPa] }) (fun cx _ _ _ k => cx.t.softHolds.contains k) = true ∧
    softAt id (fun cx mine edge s3 k => !mine && !cx.t.softHolds.contains k && !edge && decide (s3.heldCount cx < 16) && cx.who.isUser && s3.freeObj (mdieOf k) == some 0 &&
      (s3.dropEdges cx.who cx.k true).freeEdge cx.tm.die != none) = true ∧
    softAt (fun s => { s with edges := [{ idx := 0, die := 0, kind := 1, obj := loadVa, key := loadPa, ctxh := loadCtxh, warp := 0, spl := 0 }] })
      (fun _ _ edge _ _ => edge) = true := by decide +kernel

/-- A handler that names the word of code holds nothing there. -/
theorem witness_SoftwareEdges_handler :
    let s := (issue hw ((base 0).loadHandler)).updThread hw fun t => { t with queue := List.replicate 32 [Machine.ent 0x10000 false] }
    wit (s.ready h0 (Shape.user (src1 h0) false)) (fun cx s1 =>
      let os := (s1.operands cx (src1 h0) false).1
      cx.lead == some 0 && !((fieldOp os 0).at 0).poison && !cx.who.isUser && !(s1.operands cx (src1 h0) false).2.replayFull cx &&
        match (s1.operands cx (src1 h0) false).2.oneLoc cx .global false 0 ((fieldOp os 0).at 0).v.toNat 8 with
        | (.ok ks, s3) => !cx.t.softHolds.contains (ks.headD 0) && s3.objs.isEmpty && decide (s3.heldCount cx < 16)
        | _ => false) = true := by decide +kernel

/-- Every entry of memory die 0's object table in use, by another team. -/
def allObjs : List Obj := (List.range 4096).map fun i => { idx := i, mdie := 0, addr := 8 * i, key := 8 * i, lock := false, ctxh := loadCtxh + 1, warp := 0 }

theorem witness_SoftwareEdges_full (s : State) (he : s.objs = allObjs) : s.freeObj 0 = none := by
  unfold State.freeObj
  rw [he]
  refine List.find?_eq_none.2 fun i hi => ?_
  have h : i < 4096 := lt_of_lt_of_le (List.mem_range.1 hi) (Nat.min_le_left _ _)
  simp only [Bool.not_eq_true', Bool.not_eq_false, List.contains_iff_mem, List.mem_map, List.mem_filter]
  exact ⟨_, ⟨List.mem_map.2 ⟨i, List.mem_range.2 h, rfl⟩, rfl⟩, rfl⟩

/-- The same table for a lock and a hold at the word of code, on a die that stops a waiter and on one that does not; and 16 objects held. -/
theorem witness_SoftwareEdges_strict :
    mdieOf loadPa = 0 ∧ (∀ s ∈ [true, false], (st.updDie 0 fun d => { d with strict := s }).strict 0 = s) ∧
    softAt sixteen (fun cx mine _ s3 k => !mine && !cx.t.softHolds.contains k && decide (16 ≤ s3.heldCount cx)) = true := by decide +kernel

/-- Two lanes read the word of code, as b64, and their condition is equality with age 2, which is 0: it holds for a word of 0. -/
def monAt (v : Nat) : Option (Bool × Bool) :=
  let h := { hd .b64 with sb := .age 1, guard := .pos .p1 }
  match (p1 3 (ages 0x10000 0 0 (issue w0 (base v)))).ready h { Shape.user (src2 h) true with guide := true, form := true } with
  | none => none
  | some (cx, s1) =>
    let os := (s1.operands cx (src2 h) true).1
    let s2 := (s1.operands cx (src2 h) true).2
    let s0 := { s2 with monitors := s2.monitors.filter fun m => !(m.who == cx.who && m.spl == cx.k) }.dropEdges cx.who cx.k false
    if s2.replayFull cx || memWait cx false || cx.lanes.any fun l => ((fieldOp os 0).at l).poison then none
    else match s0.monLanes cx .global 8 (cx.lanes.map fun l => (l, ((fieldOp os 0).at l).v.toNat)) with
      | (ok, [], [], false, s3) =>
        let locs := ((ok.map fun x => x.2.1).eraseDups).map fun ea =>
          s3.monPoint 0 .device (((ok.find? fun x => x.2.1 == ea).map fun x => x.2.2).getD [])
        let rd := (((takeFrees s3 32).2.cross 0 false (s3.monFar locs)).armLines locs).monReads cx.sp.party locs
        some (ok.all fun x => Cond.holds .eq (intOf .b64 (widenBits .b64 (rd.1.vals.getD 0 (0, false)).1)) (intOf .b64 ((fieldOp os 1).at x.1).v),
          (rd.2.monFull [] locs).isNone)
      | _ => none

theorem witness_MonitorResults : monAt 0 = some (true, true) ∧ monAt 1 = some (false, true) := by decide +kernel

/-- The first `n` tiles of core 0 owned by the team. -/
def owned (s : State) : State :=
  { s with accown := (List.range 4).map fun i => { core := 0, slot := i, sdv := false, val := true, ctxh := loadCtxh } }

/-- What a queue command finds: its lane, the tiles' owner, room in its chain and queue. -/
def room (cx : Cx) (s : State) (matrix : Bool) (tiles : List Nat) : Bool :=
  cx.lead == some 0 && (s.ownFail cx tiles).isNone && !s.chainFull cx matrix (ctlOf cx.h) && !s.queueFull cx matrix 1

theorem witness_QueueCommands :
    wit ((owned st).ready h0 (Shape.both (src2 h0) false)) (fun cx s1 =>
      let os := (s1.operands cx (src2 h0) false).1
      let fw := (arg (valsAt os 0) 0).toNat % 2 ^ 32
      room cx (s1.operands cx (src2 h0) false).2 true [3] && decide ((3 : BitVec 10).toNat < cx.tm.segs) && decide ((3 : BitVec 7).toNat < cx.tm.tiles) &&
        (segFail cx.tm (fmtRuns fw 3 (some ((arg (valsAt os 0) 1).toNat % 2 ^ 10)))).isNone && (fmtBad fw).isNone) = true ∧
    wit ((owned st).ready h0 (Shape.user (src1 h0) false)) (fun cx s1 =>
      let os := (s1.operands cx (src1 h0) false).1
      let s2 := (s1.operands cx (src1 h0) false).2
      room cx s2 true [0, 3] && room cx s2 false [3] && !poisonAt os 0 && (arg (valsAt os 0) 0).toNat % 64 == 0 &&
        match placeOf s2 cx.tm cx.who .own (arg (valsAt os 0) 0).toNat 4096 with | .ok _ => true | .error _ => false) = true ∧
    wit ((owned st).ready h0 (Shape.user [] false)) (fun cx s1 => room cx s1 true [3]) = true ∧
    wit (st.ready hp (Shape.both (src2 hp) false)) (fun cx _ => cx.lead == none && decide ((3 : BitVec 10).toNat < cx.tm.segs)) = true ∧
    wit (st.ready hp (Shape.user (src1 hp) false)) (fun cx _ => cx.lead == none) = true ∧
    wit (st.ready hp (Shape.user [] false)) (fun cx _ => cx.lead == none) = true := by decide +kernel

/-- The object with its shape record: two dimensions of a box of four by one b32. -/
def shaped : State := put 0x20060 88 (2 + 4 * 2 ^ 64 + (8 + 4 * 2 ^ 32) * 2 ^ 128 + 32 * 2 ^ 192 + (8 + 2 ^ 32) * 2 ^ 256) (withObj st)

/-- Whether a copy command with the record at index 0 passes its checks. -/
def copyOk (h : Hdr) (gather : Bool) : Bool :=
  wit (shaped.ready h (Shape.both (src3 h) false)) fun cx s1 =>
    let os := (s1.operands cx (src3 h) false).1
    let s2 := (s1.operands cx (src3 h) false).2
    let a := (arg (valsAt os 0) 0).toNat
    cx.lead == some 0 && !poisonAt os 0 && (h.sc == .zero || (arg (valsAt os 0) 2).toNat % 8 == 0) && decide ((3 : BitVec 10).toNat < cx.tm.segs) &&
      decide (a / 2 ^ 10 % 2 ^ 3 < s2.nteam cx.tm) && decide (a % 2 ^ 10 < ((s2.teamOfRank cx.tm.cluster (a / 2 ^ 10 % 2 ^ 3)).map Team.segs).getD 0) &&
      decide ((ctlOf h).seg2 < cx.tm.segs) && (s2.coordHazard cx 0 0 gather).isNone &&
      match s2.objEntry cx.who cx.tm cx.sp.party 32 0 with
      | (.ok (some r), s3) => (match s3.objWords cx.who cx.tm cx.sp.party r 11 with
        | (.ok ws, s4) =>
          (shapeFail ws (ageOf h.sb) gather).isNone && !s4.chainFull cx false (ctlOf h) && !s4.queueFull cx false 1 &&
            (s4.coordsOf cx 0 (ageOf h.sb) (if gather then 1 else shapeRank ws)).1.all fun c => !c.1.poison
        | _ => false)
      | _ => false

theorem witness_CopyCommands :
    copyOk h0 false = true ∧ copyOk { h0 with sc := .zero } true = true ∧
    wit (st.ready hp (Shape.both (src3 hp) false)) (fun cx _ => cx.lead == none) = true := by decide +kernel

/-- Four warps of a quartet role, each with a frame of eight entries. -/
def quartet (issued : Nat) : State :=
  let s := owned (team (fun t => { t with roles := [{ entry := 0x10000, warps := 4, frame := 2, tiles := 4, qtet := true }] }) (spl (fun x => { x with fs := 8 }) st))
  { s with
    threads := s.threads ++ [1, 2, 3].flatMap fun n => s.threads.map fun t => { t with who := Who.warp loadCtxh n }
    mmaWait := ((List.range 3).map fun n => { ctxh := loadCtxh, warp := n + 1, seq := 0, order := n, pc := 0x10000, word := 0, tile := 3, fws := List.replicate 32 0,
                                              poison := false, clk := [] }).take issued }

/-- How many partners of a member's issue have issued, where its checks pass and the words agree. -/
def partners (n : Nat) : Option Nat :=
  match (quartet n).ready h0 (Shape.user (src1 h0) false) with
  | none => none
  | some (cx, s1) =>
    let s2 := (s1.operands cx (src1 h0) false).2
    let fws := (List.range 32).map fun l => (arg (valsAt (s1.operands cx (src1 h0) false).1 l) 0).toNat % 2 ^ 32
    let fw := fws.getD ((lanesOf cx.mask).headD 0) 0
    match s2.afterReads cx ((List.range (bSpan fw)).map (cx.sp.fb + 4 + ·)) with
    | none => none
    | some (_, s3) =>
    let others := s3.mmaSet cx cx.t.mmaSeq
    if (s2.mmaFail cx fw 3 3 4).isNone && !s2.queueFull cx true 1 && (others.all fun m => m.word == cx.word && m.fws.all (· == fw)) && fws.all (· == fw) &&
      (fmtBad fw).isNone then some others.length else none

theorem witness_QuartetMma : partners 2 = some 2 ∧ partners 3 = some 3 := by decide +kernel

/-- A format word of ones, which no `mma` can take. -/
theorem witness_QuartetMma_fails :
    wit ((age1 (fun _ => 0xFFFFFFFF) (quartet 3)).ready h0 (Shape.user (src1 h0) false)) (fun cx s1 =>
      ((s1.operands cx (src1 h0) false).2.mmaFail cx 0xFFFFFFFF 3 3 4).isSome) = true := by decide +kernel

/-- One command of each queue outstanding, and a wait for none. -/
theorem witness_EngineWaits :
    let one (s : State) : State := thr (fun t => { t with coc := 1, moc := 1 }) s
    let waits (q n : Nat) (s : State) : State := spl (fun x => { x with wait := some (.engine q n) }) s
    let c (f : State → State) (sh : Shape) (p : Cx → State → Bool) := wit ((f st).ready h0 sh) p
    c id (Shape.user [] false) (fun cx _ => cx.t.moc == 0 && !memWait cx true && cx.on != 0) = true ∧
    c one (Shape.user [] false) (fun cx _ => decide (0 < cx.t.moc) && cx.sp.wait != some (.engine 1 0)) = true ∧
    c (fun s => waits 1 0 (one s)) (Shape.user [] false) (fun cx _ => decide (0 < cx.t.moc) && cx.sp.wait == some (.engine 1 0)) = true ∧
    wit (st.ready hp (Shape.user [] false)) (fun cx _ => cx.on == 0) = true ∧
    c id (Shape.both [] false) (fun cx _ => cx.t.coc == 0 && cx.t.moc == 0) = true ∧
    c one (Shape.both [] false) (fun cx _ => decide (0 < cx.t.coc) && decide (0 < cx.t.moc) && cx.sp.wait != some (.engine 0 0) && cx.sp.wait != some (.engine 1 0)) = true ∧
    c (fun s => waits 0 0 (one s)) (Shape.both [] false) (fun cx _ => decide (0 < cx.t.coc) && cx.sp.wait == some (.engine 0 0)) = true ∧
    c (fun s => waits 1 0 (one s)) (Shape.both [] false) (fun cx _ => decide (0 < cx.t.moc) && cx.sp.wait == some (.engine 1 0)) = true := by decide +kernel

/-- The loaded team. -/
def loadTeam0 : Team := newTeam (loadCluster 0 0) loadLaunch 0 0 0 0 0 { core := 0, parts := [0], base := 0 }

/-- A command of core 0 that loads tile 0. -/
def cmd0 : Cmd :=
  { id := 0, core := 0, matrix := false, issuer := w0, ctxh := loadCtxh, spl := 0, pc := 0x10000, word := 0, op := .accld 0 true 0, ctl := 0, ops := [],
    guard := none, held := false, chn := false, aft := false, started := false, clk := [], idx := [], poison := false }

theorem witness_EngineWaits_drain :
    wit (st.ready h0 (Shape.both [] false)) (fun cx s1 => (match cx.sp.wait with | none => true | some _ => false) &&
      [0, 1, 2, 3].all fun x => !s1.drains (s1.coreOf cx.who) x s1.nextId) = true ∧
    wit ({ st with cmds := [cmd0, { cmd0 with op := .accst 0 true 0 }, { cmd0 with op := .accst 0 false 0x8000 }] }.ready h0 (Shape.both [] false)) (fun cx s1 =>
      (match cx.sp.wait with | none => true | some _ => false) && [0, 1, 2].all fun x => s1.drains (s1.coreOf cx.who) x s1.nextId) = true := by decide +kernel

theorem witness_EngineWaits_tags :
    wit (st.ready hp (Shape.user (src1 hp) false)) (fun cx _ => cx.lead == none) = true ∧
    wit (st.ready h0 (Shape.user (src1 h0) false)) (fun cx _ => cx.lead == some 0) = true ∧
    wit (st.ready hp (Shape.both (src1 hp) false)) (fun cx _ => cx.lead == none) = true ∧
    wit ((age1 (fun _ => 3) st).ready h0 (Shape.both (src1 h0) false)) (fun cx s1 =>
      cx.lead == some 0 && decide ((arg (valsAt (s1.operands cx (src1 h0) false).1 0) 0).toNat % 2 ^ 10 < cx.tm.segs)) = true ∧
    wit ((age1 (fun _ => 4) st).ready h0 (Shape.both (src1 h0) false)) (fun cx s1 =>
      cx.lead == some 0 && decide (cx.tm.segs ≤ (arg (valsAt (s1.operands cx (src1 h0) false).1 0) 0).toNat % 2 ^ 10)) = true := by decide +kernel

/-- Every lane names segment 3, which is free; lane 0 alone hands segment 0, which the team owns, on as segment 1 of the same team. -/
theorem witness_SegmentResults :
    let free (srcs : List (Nat × Src)) := wit ((age1 (fun _ => 3) st).ready h0 (Shape.user srcs false)) fun cx s1 =>
      let os := (s1.operands cx srcs false).1
      let s2 := (s1.operands cx srcs false).2
      (cx.lanes.all fun l => let seg := (arg (valsAt os l) 0).toNat % 2 ^ 10
        !poisonAt os l && (cx.tm.seg seg).st != 3 && decide (seg < cx.tm.segs) && !s2.segBusy cx.tm seg) && s2.teams.all fun t => t.tags.all fun e => e.st != 3
    let h := { h3 .b32 with guard := .pos .p1 }
    let hands (move : Bool) := wit ((p1 1 (ages 0 0 1 (team (fun t => { t with tags := setAt t.tags 0 { emptySeg with st := 2 } }) st))).ready h
      (Shape.user (src3 h) false)) fun cx s1 =>
        let os := (s1.operands cx (src3 h) false).1
        let s2 := (s1.operands cx (src3 h) false).2
        cx.lanes == [0] && cx.sp.acted == 0 && !(ctlOf h).chn && !poisonAt os 0 && (cx.tm.seg ((arg (valsAt os 0) 0).toNat % 2 ^ 10)).st != 3 && !s2.queueFull cx false (lanesOf cx.on).length &&
          (handOver move s2 cx [] 0 (valsAt os 0)).isNone
    free (src2 h0) = true ∧ free (src1 h0) = true ∧ hands true = true ∧ hands false = true ∧
    wit (st.ready h0 (Shape.user (src1 h0) true)) (fun cx _ => cx.tm.tags.all fun e => e.st != 3) = true := by decide +kernel

theorem witness_AccumulatorResults :
    let note : Unseen := { tile := 3, base := 0, span := 0, seq := 0, quartet := false, done := false, spoiled := false }
    let clear (cx : Cx) := cx.t.unseen.all fun u => u.tile != 3
    let has (cx : Cx) := decide ((3 : BitVec 7).toNat < cx.tm.tiles)
    wit ((owned st).ready h0 (Shape.user (src1 h0) true)) (fun cx s1 => has cx && clear cx && cx.on != 0 &&
      ((s1.operands cx (src1 h0) true).2.ownFail cx [3]).isNone) = true ∧
    wit ((owned st).ready h0 (Shape.user (src2 h0) false)) (fun cx s1 => has cx && clear cx && cx.on != 0 &&
      ((s1.operands cx (src2 h0) false).2.ownFail cx [3]).isNone) = true ∧
    wit (((owned st) |> thr fun t => { t with unseen := [note] }).ready h0 (Shape.user (src2 h0) false)) (fun cx s1 => has cx && !clear cx && cx.on != 0 &&
      ((s1.operands cx (src2 h0) false).2.ownFail cx [3]).isNone) = true ∧
    wit (st.ready hp (Shape.user (src2 hp) false)) (fun cx _ => cx.on == 0) = true ∧
    (st.seals = [] ∧ loadPa ∉ pKeys loadTeam0 0 0) := by decide +kernel

/-- A guide of the team, its instruction in issue. -/
def sg : State :=
  issue (.guide loadCtxh) { st with threads := st.threads ++ st.threads.map fun t => { t with who := Who.guide loadCtxh } }

theorem witness_AccessAndModeTraps_modes :
    (∀ s ∈ [st, sg], ∃ x t sp tm, s.cur = some x ∧ s.thread? x.who = some t ∧ t.split? x.spl = some sp ∧ s.team? (s.ctxhOf x.who) = some tm) ∧
    (st.cur.any fun x => x.who.isUser) = true ∧ (sg.cur.any fun x => x.who.isGuide) = true := by
  refine ⟨fun s hs => ?_, by decide +kernel, by decide +kernel⟩
  have h : (s.cur.bind fun x => (s.thread? x.who).bind fun t => (t.split? x.spl).bind fun sp => (s.team? (s.ctxhOf x.who)).map fun tm => (x, t, sp, tm)).isSome = true := by
    rcases List.mem_cons.1 hs with rfl | hs
    · decide +kernel
    · rw [List.mem_singleton.1 hs]; decide +kernel
  obtain ⟨⟨x, t, sp, tm⟩, e⟩ := Option.isSome_iff_exists.1 h
  simp only [Option.bind_eq_some_iff, Option.map_eq_some_iff, Prod.mk.injEq] at e
  obtain ⟨x', h1, t', h2, sp', h3, tm', h4, rfl, rfl, rfl, rfl⟩ := e
  exact ⟨_, _, _, _, h1, h2, h3, h4⟩


/-- The handler's ages 1, 2 and 3. -/
def hages (a b c : Word) (s : State) : State :=
  s.updThread hw fun t => { t with queue := List.replicate 32 [Machine.ent a false, Machine.ent b false, Machine.ent c false] }

/-- The handler's service with a warp selected, and the served team's record with its guide and its warp described. -/
def selects (n : BitVec 7) (snap : List (Nat × List Word)) : State :=
  { team (fun t => { t with stop := some { loadStop with snap := snap } }) sh with services := sh.services.map fun (v : Service) => { v with hwsel := n } }

theorem witness_SystemRegisters_record :
    let x (s : State) (p : Nat → Cx → State → StopRec → Bool) : Bool := wit (s.ready h0 (Shape.sys [] true)) fun cx s1 =>
      cx.tm.stop.any (p (((s1.serviceOf cx.who).map fun x => x.hwsel.toNat).getD 0) cx s1)
    (x (selects 0 []) fun n cx s1 r => n == 0 && (s1.thread? (.warp cx.tm.ctxh n)).isSome && (assoc? r.snap 128).isNone && decide (n < cx.tm.nwarp) &&
      decide (r.cause < 256 ∧ r.level < 8 ∧ r.res < 8 ∧ r.rep < 256 ∧ r.spl < 4 ∧ r.warp < 128)) = true ∧
    (x (selects 127 []) fun n cx s1 _ => n == 127 && (s1.thread? (.warp cx.tm.ctxh n)).isNone && decide (cx.tm.nwarp ≤ n)) = true ∧
    (x (selects 0 [(128, [1, 2]), (0, List.replicate 16 3)]) fun n _ _ r => assoc? r.snap 128 == some [1, 2] && (assoc? r.snap n).isSome) = true ∧
    (((sg.threadsOf loadCtxh).map fun t => (t.who, t.splits.length)) == [(.guide loadCtxh, 4), (w0, 4)] ||
      ((sg.threadsOf loadCtxh).map fun t => (t.who, t.splits.length)) == [(w0, 4), (.guide loadCtxh, 4)]) = true ∧
    (∀ f ∈ loadStop.faults, f.cause < 256) := by decide +kernel

theorem witness_SystemRegisters :
    wit (sh.ready h0 (Shape.sys [] true)) (fun cx s1 => cx.tm.stop.isSome && (s1.die? (s1.dieOf cx.who)).isSome) = true ∧
    wit ((hages 0x3FF 0 0 sh).ready h0 (Shape.sys (src1 h0) false)) (fun cx s1 => cx.lead == some 0 &&
      decide ((arg (valsAt (s1.operands cx (src1 h0) false).1 0) 0).toNat < 2 ^ 10)) = true ∧
    wit ((hages 0x400 0 0 sh).ready h0 (Shape.sys (src1 h0) false)) (fun cx s1 => cx.lead == some 0 &&
      decide (2 ^ 10 ≤ (arg (valsAt (s1.operands cx (src1 h0) false).1 0) 0).toNat)) = true ∧
    wit (sh.ready hp (Shape.sys (src1 hp) false)) (fun cx _ => cx.lead == none) = true := by decide +kernel

/-- A `halt` that has not acted, and one that waits for its stop. -/
theorem witness_SystemResults_halt :
    ([0, allLanes].all fun m => wit ((sh.updSplit hw 0 fun x => { x with acted := m }).ready h0 (Shape.sys (src1 h0) false)) fun cx _ => cx.sp.acted == m) = true := by
  decide +kernel

/-- An area at 0x8000 that the handler can reach, for slot 0. -/
theorem witness_SystemResults :
    let area (cx : Cx) (s2 : State) (a n : Nat) (w : Bool) := match (s2.areaKeys cx a n w).1 with | .ok _ => true | .error _ => false
    wit (sh.ready h0 (Shape.sys (src1 h0) true)) yes = true ∧
    wit ((hages 0 0x8000 0 sh).ready (h3 .b32) (Shape.sys (src2 (h3 .b32)) true)) (fun cx s1 =>
      let s2 := (s1.operands cx (src2 (h3 .b32)) true).2
      let v := arg (valsAt (s1.operands cx (src2 (h3 .b32)) true).1 0)
      cx.lead == some 0 && !s2.slotBusy (s2.coreOf cx.who) ((v 0).toNat % 2 ^ 7) && area cx s2 (v 1).toNat 4096 true) = true ∧
    wit ((hages 0 0x8000 0 sh).ready (h3 .b32) (Shape.sys (src3 (h3 .b32)) false)) (fun cx s1 =>
      let s2 := (s1.operands cx (src3 (h3 .b32)) false).2
      let v := arg (valsAt (s1.operands cx (src3 (h3 .b32)) false).1 0)
      cx.lead == some 0 && !s2.slotBusy (s2.coreOf cx.who) ((v 0).toNat % 2 ^ 7) && v 2 == 0 && area cx s2 (v 1).toNat 4096 false) = true ∧
    wit (sh.ready h0 (Shape.sys (src1 h0) false)) (fun cx s1 =>
      let s2 := (s1.operands cx (src1 h0) false).2
      !s2.slotBusy (s2.coreOf cx.who) 0 && (s2.resumeTeam 0 (s2.released cx.sp.party)).thread? cx.who == some cx.t && !(s2.haltTeam 0).halting 0) = true ∧
    (let s := { sh with
        teams := sh.teams ++ sh.teams.map fun (t : Team) => { t with ctxh := loadCtxh + 1, status := .running, stop := none }
        threads := sh.threads ++ [{ newThread (.warp (loadCtxh + 1) 0) 0 0 0 allLanes 16 0 1 0 [] with pend := [pend0] }] }
     wit ((hages (BitVec.ofNat 64 (loadCtxh + 1)) 0 0 s).ready h0 (Shape.sys (src1 h0) false)) (fun cx s1 =>
       let s2 := (s1.operands cx (src1 h0) false).2
       cx.lead == some 0 && (s2.haltTeam (loadCtxh + 1)).halting (loadCtxh + 1)) = true) ∧
    wit (sh.ready h0 (Shape.sys (src2 h0) false)) yes = true ∧ wit (sh.ready h0 (Shape.sys [(1, h0.sb)] false)) yes = true ∧
    wit (sh.ready h0 (Shape.sys [] false)) yes = true := by decide +kernel

/-- A stop with a resume kind, and late items, in a team whose record asks for no abort. -/
def served (res : Nat) (late : List (Option Item × StopRec)) : State :=
  team (fun t => { t with stop := some { loadStop with res := res }, late := late }) (put 0x100100B0 8 0 sh)

def item0 : Item := { kind := 1, cause := 0x28, addr := 0, lanes := 1, warp := 0, guide := false, spl := 0 }

theorem witness_TrapReturns :
    let x (res : Nat) (late : List (Option Item × StopRec)) (p : Nat → Team → Bool) : Bool := wit ((served res late).ready h0 (Shape.sys [] false)) fun cx s1 =>
      cx.who == .handler 0 0 && match cx.tm.stop with
        | none => false
        | some r =>
          let at_ := s1.placeOfWho cx.who
          let u := (s1.pushLines at_.1 at_.2 .device).relFence cx.sp.party .device
          ((({ u with svcClk := clkJoin u.svcClk (u.clkOf cx.sp.party) }.endService 0 0).applyAbreq cx.tm.ctxh (u.clkOf cx.sp.party)).team? cx.tm.ctxh).any (p r.res)
    x 3 [] (fun r _ => r == 3) = true ∧ x 2 [] (fun r tm => r == 2 && tm.late.isEmpty) = true ∧ x 2 [(some item0, loadStop)] (fun r tm => r == 2 && !tm.late.isEmpty) = true ∧
    x 0 [] (fun r _ => r == 0) = true := by decide +kernel

theorem witness_TrapReturns_teams :
    tmIs (served 2 []) (fun t => t.held.isEmpty && t.late.isEmpty && t.stop.isSome) = true ∧
    tmIs (served 2 [(some item0, loadStop)]) (fun t => t.held.isEmpty && !t.late.isEmpty) = true ∧
    tmIs (served 2 [(none, loadStop)]) (fun t => t.held.isEmpty && !t.late.isEmpty) = true := by decide +kernel

/-- A trap of the loaded warp in a team of each status. -/
theorem witness_TakesTrap :
    let x (st' : TStatus) (stop : Option StopRec) := team (fun t => { t with status := st', stop := stop }) st
    w0.isHandler = false ∧ st.ctxhOf w0 = loadCtxh ∧ tmIs st (fun t => t.status == .running && t.lastStop == none) = true ∧
    tmIs (team (fun t => { t with lastStop := some (0x20, 0x10000, 255), progress := false }) st) (fun t =>
      t.status == .running && t.lastStop == some (0x20, 0x10000, 255) && !t.progress) = true ∧
    tmIs (team (fun t => { t with progress := true }) st) (fun t => t.status == .running && t.progress) = true ∧
    tmIs (x .stopping (some loadStop)) (fun t => t.status == .stopping && t.stop.any fun r => r.faults.isEmpty && r.warp == 0 && r.spl == 0) = true ∧
    tmIs (x .stopping (some { loadStop with warp := 1 })) (fun t => t.status == .stopping && t.stop.any fun r =>
      r.cycle == st.cycles t.die && r.cause != 0x61 && decide (0 < r.warp) && !r.guide) = true ∧
    ([.stopped, .served, .halted].all fun y => tmIs (x y (some loadStop)) fun t => t.status == y) = true := by decide +kernel

/-- Offset and value of the bytes, other than zero, that describe a launch of one cluster of one team with one warp. -/
def desc : List (Nat × Nat) := [(48, 1), (52, 1), (56, 1), (60, 1), (62, 4), (98, 0x41), (112, 1), (130, 1), (136, 1), (137, 2)]

/-- The descriptor at 0x30000, and one of zeros. -/
def described (good : Bool) : State :=
  { st with
    mem := st.mem ++ (if good then desc else []).map fun x => (0x40030000 + x.1, BitVec.ofNat 8 x.2)
    zeroed := [(0x40030000, 256)] }

/-- What a `glaunch` of lane 0 with the descriptor finds. -/
def launches (good : Bool) : Option (Option Nat) :=
  match (p1 1 (age1 (fun _ => 0x30000) (described good))).ready hp (Shape.user (src1 hp) false) with
  | none => none
  | some (cx, s1) =>
    let os := (s1.operands cx (src1 hp) false).1
    let s2 := (s1.operands cx (src1 hp) false).2
    if memWait cx true || s2.replayFull cx || cx.lead != some 0 || ((fieldOp os 0).at 0).poison || (s2.glaunchFail cx 0 ((fieldOp os 0).at 0).v.toNat).isSome then none
    else match s2.readDesc cx 0 ((fieldOp os 0).at 0).v.toNat 32 with
      | (.ok bs, s3) => if (s3.team? cx.tm.ctxh).isSome then some (launchFail bs (((s3.grid? cx.tm.grid).map fun g => g.launch.rev).getD 4)) else none
      | _ => none

theorem witness_ChildrenAndEnds :
    launches true = some none ∧ launches false = some (some 5) ∧ wit (st.ready hp (Shape.user (src1 hp) false)) (fun cx _ => cx.lead == none) = true := by
  decide +kernel

/-- A team whose command has started, one whose warp runs on, and ended ones with and without children. -/
theorem witness_ChildrenAndEnds_exit :
    let quiet (s : State) : Bool := tmIs s (fun t => !s.stalled t.die) && (s.threadsOf loadCtxh).all (fun w => w.pend.isEmpty) && !s.hasStarted loadCtxh && !(s.unstarted loadCtxh).any s.canMove
    let ended (child : Nat) := team (fun t => { t with child := child }) (thr (fun t => { t with splits := [none, none, none, none], exited := allLanes }) st)
    quiet { st with cmds := [{ cmd0 with started := true }] } = false ∧ tmIs st (fun t => t.status == .running) = true ∧ st.allExited loadCtxh = false ∧
    (∀ n ∈ [0, 1], quiet (ended n) = true ∧ (ended n).allExited loadCtxh = true ∧ tmIs (ended n) (fun t => t.status == .running && t.child == n) = true) := by
  decide +kernel

/-- A child grid of the loaded team that is complete. -/
theorem witness_ChildrenAndEnds_child :
    let s := (team (fun t => { t with child := 1 }) { st with grids := st.grids ++ st.grids.map fun g => { g with id := 100, owner := .child loadCtxh, done := true } })
    ((s.grid? 100).any fun g => g.owner == .child loadCtxh && g.done &&
      tmIs ((s.completeGrid g 0 0).dropGrid 100) fun t => t.status != .retiring) = true ∧
    (let s := team (fun t => { t with status := .retiring }) s
     ((s.grid? 100).any fun g => g.owner == .child loadCtxh && g.done &&
       tmIs ((s.completeGrid g 0 0).dropGrid 100) fun t => t.status == .retiring && t.child == 1) = true) := by decide +kernel

/-- A request of lane 0 for the bytes of the code. -/
def req0 (ty : Ty) : MemReq :=
  { op := .load ty, sp := .global, scope := .team, ord := .plain, acc := [codeAcc], party := 1, clk := [], stamp := 1 }

/-- The loaded warp with one reservation. -/
def pending (k : PendKind) : State := thr (fun t => { t with pend := [{ pend0 with kind := k }] }) st

theorem witness_ValuesArrive :
    let has (s : State) (p : Pend → Bool) : Bool := (s.thread? w0).any fun t => (t.pend.find? fun p => p.id == 7).any p
    has (pending (.counter .clk 0 none)) (fun p => p.kind == .counter .clk 0 none) = true ∧
    has (pending (.value [(0, [5])] [(0, 1)] [])) (fun p => (List.range 32).all fun l => !p.lanes.getLsbD l || (assoc? [(0, [(5 : Word)])] l).isSome) = true ∧
    has (pending (.mem (req0 .b32))) (fun p => (1 : Mask) &&& p.lanes != 0 && (List.range 32).all fun l => !((1 : Mask) &&& p.lanes).getLsbD l || l == 0) = true ∧
    (req0 .b32).op.isAtomic = false ∧ ((req0 .b32).acc.all fun a => a.lane < 32) = true ∧
    (let s := pending (.mem (req0 .b32))
     s.stalled (s.dieOf w0) = false ∧ (∀ k ∈ codeAcc.keys, s.reaches (s.dieOf w0) false k = true) ∧
       has s (fun p => (s.thread? w0).any fun t => !t.atomicBefore p (req0 .b32) codeAcc.keys) = true) := by decide +kernel

/-- A stopped team that waits for its handler alone. -/
def stopped : State := { (team (fun t => { t with status := .stopped, stop := some loadStop }) st) with handlerQ := [loadCtxh] }

theorem witness_HandlerServices :
    let stopping (p : List Pend) (cause : Nat) := team (fun t => { t with status := .stopping, stop := some { loadStop with cause := cause } }) (thr (fun t => { t with pend := p }) st)
    (tmIs stopped (fun t => t.status == .stopped && t.stop.isSome) && stopped.slotFor loadCtxh == some (0, 0) && stopped.services.isEmpty &&
      stopped.handlerQ.find? (fun y => stopped.slotFor y == some (0, 0)) == some loadCtxh) = true ∧
    (stopping [pend0] 0x14).stopDone loadCtxh = false ∧
    (∀ c ∈ [0x14, 0x61], (stopping [] c).stopDone loadCtxh = true ∧
      let pp := (stopping [] c).partParty loadCtxh []
      tmIs (stopping [] c) (fun t => (pp.2.recWrites pp.1 loadCtxh (t.items.zipIdx.map fun (i, n) => (0x7B0000 + 16 * n, itemBytes i))).1 &&
        t.stop.any fun r => r.cause == c) = true) ∧
    (sh.services.any fun v => v.core == 0 && v.part == 0 && decide (sh.cycles 0 < v.start + 2 ^ 26)) = true ∧
    ((sh.updDie 0 fun d => { d with clk := 2 ^ 26 }).services.any fun v => decide (v.start + 2 ^ 26 ≤ (sh.updDie 0 fun d => { d with clk := 2 ^ 26 }).cycles 0)) = true := by
  decide +kernel

/-- The loaded team's die runs, and does not where it relocks. -/
theorem witness_HandlerServices_stalls :
    ([stopped, sh].all fun s => !s.stalled 0 && (s.updDie 0 fun d => { d with relock := some 800 }).stalled 0 && tmIs s fun t => t.die == 0) = true := by
  decide +kernel

theorem witness_CycleLimits :
    let on (s : State) (p : Team → Warp → Split → Bool) : Bool := match s.team? loadCtxh, s.thread? w0 with
      | some tm, some t => (t.split? 0).any (p tm t)
      | _, _ => false
    let at_ (n : Nat) (s : State) : State := s.updDie 0 fun d => { d with clk := n }
    let y (s : State) := spl (fun x => { x with wait := some (.yield 1 100) }) s
    (let s := at_ 1984 (spl (fun x => { x with up := true }) st)
     on s (fun tm _ sp => !s.stalled tm.die && tm.status == .running && sp.up && decide (sp.readyFrom + sp.skips + 1984 ≤ s.clkFor w0)) = true) ∧
    on (at_ 100 (y st)) (fun tm _ sp => !(at_ 100 (y st)).stalled tm.die && sp.wait == some (.yield 1 100) && decide (100 ≤ (at_ 100 (y st)).clkFor w0)) = true ∧
    on (at_ 99 (y st)) (fun tm _ sp => !(at_ 99 (y st)).stalled tm.die && sp.wait == some (.yield 1 100) && decide ((at_ 99 (y st)).clkFor w0 < 100)) = true ∧
    (let s := at_ 1024 (spl (fun x => { x with windows := [(7, 0)] }) (pending (.mem { req0 .b32 with acc := [{ codeAcc with keys := [2 ^ 42] }] })))
     on s (fun tm t sp => !s.stalled tm.die && tm.status == .running && sp.wait.isNone && (s.remoteLoad tm t sp).isSome)) = true ∧
    (let s := at_ (2 ^ 41) (thr (fun t => { t with barArr := [(0, 3, 0)] }) (spl (fun x => { x with wait := some (.bar 3 false) }) st))
     on s (fun tm _ sp => !s.stalled tm.die && barOfWait sp.wait == some (some 3) && (s.barsDue tm).head? == some (0, 0))) = true ∧
    (let s := st.updDie 0 fun d => { d with relock := some 800 }
     on s (fun tm _ _ => s.stalled tm.die)) = true := by decide +kernel

/-- A split that waits at a monitor of the word of code, for a value. -/
def monitored (v : Word) : State :=
  { spl (fun x => { x with wait := some .monitor }) st with
    monitors := [{ who := w0, spl := 0, cc := .eq, ty := .b64, scope := .device, addr := loadVa, locs := [{ point := 2, place := 0, keys := keysFrom loadPa 8 }],
                   operands := [(0, 0, v)], word := 0, len := 8, off := [], bad := 0 }] }

theorem witness_CacheEvents :
    let on (s : State) (p : Bool → Bool) : Bool := match s.monitors.find? (fun m => m.who == w0 && m.spl == 0), (s.thread? w0).bind fun t => t.split? 0 with
      | some m, some sp => sp.wait == some .monitor && tmIs s (fun t => t.status == .running) && p (m.holds (s.monReads sp.party m.locs).1)
      | _, _ => false
    let l (lvl : CacheLevel) (owner : Nat) : Line := { lvl := lvl, owner := owner, line := 5, dirty := 1, stale := false, ctxh := loadCtxh, writes := [1] }
    on (monitored 0) (fun b => b) = true ∧ on (monitored 1) (fun b => !b) = true ∧
    (({ st with lines := [l .l1 0] }.line? .l1 0 5).any fun (x : Line) => x.dirty != 0) = true ∧
    (({ st with lines := [l .l2 0] }.line? .l2 0 5).isSome && (st.die? 0).isSome && st.delivers 0 5 && !st.monitored 0 5) = true ∧
    (let m : Monitor := { who := w0, spl := 0, cc := .eq, ty := .b64, scope := .team, addr := loadVa, locs := [{ point := 1, place := 0, keys := keysFrom 320 8 }],
                          operands := [], word := 0, len := 8, off := [], bad := 0 }
     { st with monitors := [m] }.monitored 0 5 = true) ∧
    (st.updDie 0 fun d => { d with relock := some 800 }).delivers 0 5 = false ∧ (st.updDie 0 fun d => { d with relock := some 800 }).stalled (st.dieOf w0) = true ∧
    (match (st.walk 0 [] 1 loadVa).1 with | .ok _ => true | .error _ => false) = true ∧
    (match ({ st with poison := keysFrom 0x101000 8 }.walk 0 [] 1 loadVa).1 with | .error .poisoned => true | _ => false) = true ∧
    (match (st.walk 0 [] 2 loadVa).1 with | .error f => f != .poisoned | .ok _ => false) = true ∧
    ([CacheLevel.l1, .l2, .home].all fun x => st.cacheRuns x 0 && !{ st with plat := { st.plat with clockStop := true } }.cacheRuns x 0) = true ∧
    (let s : State := { st with seals := [{ peer := none, mdie := 0, base := loadPa, len := 4096, ver := 1 }] }
     isDeviceKey loadPa = true ∧ Memory.wf st.zeroed st.mem = true ∧ st.sealed loadPa = false ∧ s.sealed loadPa = true) := by decide +kernel

/-- A queue of the loaded process with five units written. -/
def q0 : Queue :=
  { asid := 1, qid := 0, base := 0x20000, size := 64, rev := 4, widx := 0x21000, ridx := 0x21008, rpos := 0, wseen := 5, runs := [], halted := false,
    stopping := false, owner := 0, clk := [], pollAt := 0 }

/-- The part in READY. -/
def up (s : State) : State := { s with plat := { s.plat with phase := .ready } }

/-- The queue over pages that are zero but for some bytes, pairs of offset and value. -/
def front (q : Queue) (l : List (Nat × Nat)) : State :=
  let s := up (base 0)
  { s with queues := [q], mem := s.mem ++ l.map fun x => (0x40020000 + x.1, BitVec.ofNat 8 x.2), zeroed := [(0x101008, 8), (0x40020000, 0x2000)] }

/-- The header of a packet of revision 4. -/
def head (t u : Nat) : List (Nat × Nat) := (if t = 0 then [] else [(0, t)]) ++ [(1, 4), (2, u)]

/-- The queue's head is a packet of a type, and the state in which it has been started has a property. -/
def starts (t : Nat) (s : State) (p : State → List Byte → State → Bool) : Bool :=
  match s.headOf q0 with
  | (.packet t' bs, s') => t == t' && p s' bs (s'.startRun q0 t bs [])
  | _ => false

theorem witness_Packets_head :
    starts 0 (front q0 (head 0 1)) (fun _ _ _ => true) = true ∧ starts 7 (front q0 (head 7 1)) (fun _ _ _ => true) = true ∧
    starts 1 (front q0 (head 1 4 ++ desc)) (fun _ _ _ => true) = true ∧
    starts 3 (front q0 (head 3 1 ++ [(25, 1), (26, 2), (41, 1)])) (fun _ _ _ => true) = true ∧
    starts 4 (front q0 (head 4 1 ++ [(25, 1), (26, 2), (40, 1)])) (fun _ bs r =>
      ok? (r.fe.2.feKeys r.fe.1 1 (bytesAt bs 24 8) (if bytesAt bs 40 1 = 1 then 8 else 4) true)) = true := by decide +kernel

theorem witness_Packets_ranges :
    starts 5 (front q0 (head 5 1 ++ [(25, 1), (26, 2), (33, 2), (34, 2), (40, 8)])) (fun _ bs r =>
      ok? (r.fe.2.copyBytes r.fe.1 1 (bytesAt bs 24 8) (bytesAt bs 32 8) (bytesAt bs 40 8) false (bytesAt bs 40 8 + 1))) = true ∧
    starts 6 (front q0 (head 6 1 ++ [(26, 2), (33, 16)])) (fun _ bs r =>
      ok? ((r.fe.2.relFence r.fe.1 .system).fePages r.fe.1 1 (bytesAt bs 24 8) (bytesAt bs 32 8) (bytesAt bs 32 8 / 4096 + 1))) = true ∧
    starts 2 (front q0 (head 2 1 ++ [(25, 4), (26, 2), (0x400, 1), (0x404, 1)])) (fun s' bs _ => match s'.fe.2.feRead s'.fe.1 1 (bytesAt bs 24 8) 64 with
      | (.ok hb, u) => decide ((listHdr hb).count = 1 ∧ (listHdr hb).pbsize % 64 = 0 ∧ (listHdr hb).pbsize ≤ 2 ^ 20) && (listHdr hb).excl && u.replays.isEmpty
      | _ => false) = true := by decide +kernel

/-- A replay of a list without EXCL, whose one block of 64 bytes is copied; and of a list with EXCL that is being replayed. -/
theorem witness_Packets_lists :
    starts 2 (front q0 (head 2 1 ++ [(25, 4), (26, 2), (33, 8), (34, 2), (0x400, 1), (0x409, 6), (0x40A, 2), (0x410, 64)])) (fun s' bs r =>
      match s'.fe.2.feRead s'.fe.1 1 (bytesAt bs 24 8) 64 with
      | (.ok hb, u) => !(listHdr hb).excl && (listHdr hb).pbsize == 64 &&
          ok? ((u.startRun q0 2 bs []).copyBytes s'.fe.1 1 (listHdr hb).pblock (bytesAt bs 32 8) (listHdr hb).pbsize true ((listHdr hb).pbsize + 1)) &&
            r.replays.isEmpty
      | _ => false) = true ∧
    starts 2 { front q0 (head 2 1 ++ [(25, 4), (26, 2), (0x400, 1), (0x404, 1)]) with
        replays := [{ asid := 1, qid := 1, unit := 0, list := 0x20400, excl := true, count := 1, next := 0, param := 0, cur := none, running := true }] }
      (fun s' bs _ => match s'.fe.2.feRead s'.fe.1 1 (bytesAt bs 24 8) 64 with
      | (.ok hb, u) => (listHdr hb).excl && u.replays.any fun r => r.asid == 1 && r.list == bytesAt bs 24 8 && r.running
      | _ => false) = true := by decide +kernel

/-- The head fails the checks of its type. -/
def failsAs (t : Nat) (s : State) : Bool := match (s.headOf q0).1 with | .fails _ _ _ t' => t == t' | _ => false

theorem witness_Packets_fails :
    (∀ t ∈ [0, 1, 2, 3, 4, 5, 6, 7], failsAs t (front q0 (head t (packetUnits t + 1))) = true) := by decide +kernel

/-- A started packet, and the queue with it alone. -/
def run0 (t : Nat) (c : Bool) : PktRun :=
  { unit := 0, units := packetUnits t, type := t, cmp := true, caddr := 0x20100, cval := 5, complete := c, fail := none, args := [0, 0, 0, 0, 0, 0, 0, 0] }

def ran (t : Nat) (c : Bool) : State := front { q0 with rpos := 4, runs := [run0 t c] } []

def replay0 (n : Nat) : Replay :=
  { asid := 1, qid := 0, unit := 0, list := 0x20400, excl := true, count := 1, next := n, param := 0, cur := none, running := true }

theorem witness_Packets_ends :
    let s := front q0 []
    let off := front { q0 with widx := 2 ^ 30 } []
    (s.turnAsid == some 1 && s.widxMoved q0) = true ∧ (off.turnAsid == some 1 && !off.widxHome { q0 with widx := 2 ^ 30 } && decide (q0.pollAt ≤ off.ref)) = true ∧
    (s.turnAsid ≠ some 2) ∧ (ran 1 false).runDone 1 0 (run0 1 false) = false ∧
    ((ran 4 true).queue? 1 0).bind (fun q => q.runs.find? fun r => r.unit == 0) = some (run0 4 true) ∧
    (let u := { ran 1 false with grids := (ran 1 false).grids.map fun (g : Grid) => { g with owner := .packet 1 0 0, done := true } }
     u.runDone 1 0 (run0 1 false) = true ∧ ((u.fe.2.dropRun 1 0 0).grids.find? fun g => g.owner == .packet 1 0 0).isSome = true) ∧
    ((ran 3 false).queue? 1 0).bind (fun q => q.runs.find? fun r =>
      r.type == 3 && !r.complete && (r.args.getD 0 0 == 1 || decide ((r.args.getD 7 0).toNat ≤ (ran 3 false).ref))) = some (run0 3 false) := by decide +kernel

theorem witness_Packets_replay :
    (replay0 0).cur = none ∧ (replay0 0).next < (replay0 0).count ∧ (base 0).mayStart 1 = false ∧ (replay0 1).count ≤ (replay0 1).next ∧
    ({ base 0 with replays := [replay0 1] }.replays.find? fun r => r.asid == 1 && r.qid == 0 && r.running) = some (replay0 1) ∧
    (∀ d ∈ [true, false], let s : State := { base 0 with replays := [{ replay0 0 with cur := some 100 }]
                                                         grids := (base 0).grids.map fun (g : Grid) => { g with id := 100, done := d } }
      (s.grid? 100).any (fun x => x.done == d && !(((s.completeGrid x 0 0).dropGrid x.id).updReplay 1 0 0 fun y => { y with cur := none }).mayStart 1) =
        true) := by decide +kernel

/-- A WAIT_VALUE whose location is zero and waits for 5, through its monitor entry or without one; and one that waits for 0. -/
theorem witness_Packets_poll :
    let run (armed v : Nat) : PktRun := { run0 3 false with args := ([armed, 0, 0x20200, v, 0, 1, 0, 0] : List Nat).map wordOf }
    let waits (r : PktRun) : Bool := let s := front { q0 with rpos := 4, runs := [r] } []
      ((s.waitValue 1 0 0 0x20200 (r.args.getD 3 0).toNat 0 1 0 true).queue? 1 0).any fun x => x.runs.any fun y => y.unit == 0 && !y.complete
    waits (run 1 5) = true ∧ (run 0 5).args.getD 0 0 ≠ 1 ∧ waits (run 1 0) = false := by decide +kernel

/-- The loaded team with one command. -/
def eng (c : Cmd) (s : State) : State := { s with cmds := [c] }

/-- What holds of a command that may start: it is the only one, of a team that runs, at its queue's head on a die that takes messages. -/
def engOk (c : Cmd) (s : State) (p : Team → State → Bool) : Bool :=
  let s := eng c s
  s.cmds == [c] && !s.stalled (c.core / 16) && (s.team? c.ctxh).any fun tm => tm.status == .running && s.atHead c && p tm s

def fills : Cmd := { cmd0 with op := .tcopy 0 0 0 3 [] [] none false }
def drains1 : Cmd := { cmd0 with op := .tcopy 1 0 0 3 [] [] none false }

/-- Guards in each state, a peer that is gone, a successor with and without a release, and tags that are ready and that are not. -/
theorem witness_EngineEvents_start :
    let guards (g : GuardSlot) (s : State) : State := team (fun t => { t with guards := setAt t.guards 15 g }) s
    let guarded : Cmd := { fills with guard := some 15 }
    let chained (l : List Clock) (s : State) : State := thr (fun t => { t with chC := l }) s
    (cmd0.guard = none ∧ cmd0.aft = false ∧ cmd0.started = false ∧ fills.quartet = false) ∧
    (∀ g ∈ [GuardSlot.unresolved, .no, .yes], engOk guarded (guards g st) (fun tm _ => tm.guards.getD 15 .unresolved == g) = true) ∧
    engOk { cmd0 with op := .spmove 0 7 1 } st (fun tm s => (s.tagWaits tm (.spmove 0 7 1)).isNone) = true ∧
    (∀ l ∈ [[], [[]]], engOk { fills with aft := true } (chained l st) (fun tm s =>
      ((s.thread? w0).map fun t => t.chains false) == some l && (s.tagWaits tm fills.op).isSome) = true) ∧
    engOk fills st (fun tm s => (s.tagWaits tm fills.op).any fun ws => !ws.isEmpty && ws.all s.tagReady) = true ∧
    engOk drains1 st (fun tm s => (s.tagWaits tm drains1.op).any fun ws => ws.any fun w => !s.tagReady w) = true ∧
    (let g : Cmd := { cmd0 with op := .tgather 0 0 3 2 0 [] none }
     engOk g (team (fun t => { t with tags := setAt t.tags 2 { emptySeg with v := true } }) st) (fun tm s =>
       (s.tagWaits tm g.op).any fun ws => ws.all s.tagReady) = true) := by decide +kernel

/-- A completed command of the matrix queue, of four tiles the last, and an earlier one of its issuer on the same tile. -/
def zeroes : Cmd := { cmd0 with id := 1, op := .acczero 3, matrix := true, started := true }

theorem witness_EngineEvents_matrix :
    (eng zeroes st).tileWaits zeroes = false ∧ (eng zeroes st).spoiled zeroes = false ∧ zeroes.owners = [w0] ∧ (st.thread? w0).isSome = true ∧
    { st with cmds := [{ zeroes with id := 0, started := false }, zeroes] }.tileWaits zeroes = true ∧
    (∀ fw ∈ [0], (fmtWord fw).pen = false ∧ fmtBytes (fmtWord fw).a ≤ 4096 ∧ fmtBytes (fmtWord fw).b ≤ 4096) ∧
    (1023 < 2 ^ 10 ∧ st.memOk) := by
  unfold State.memOk
  decide +kernel

/-- A segment of the loaded team, which nothing has written, reads as zero. -/
theorem witness_EngineEvents_finds (clk : Clock) : st.finds clk (spKey 0 0) 4096 fun _ => 0 := by
  have hm : ∀ c ∈ st.mem, c.1 < 2 ^ 62 := by decide +kernel
  have hh : st.hist = [] := by decide +kernel
  have hk : spKey 0 0 = 2 ^ 62 := by decide
  intro i hi
  rw [hk]
  refine ⟨?_, ?_, ?_, fun h hw => by rw [State.histOf, hh] at hw; cases hw⟩
  · rw [State.byteAt, cellGet_of_gt fun c hc => Nat.lt_of_lt_of_le (hm c hc) (Nat.le_add_right _ _)]
    simp [unlisted, isSpKey]
  · simp only [isHostKey, decide_eq_false_iff_not]; omega
  · simp only [isPeerKey, decide_eq_false_iff_not]; omega

/-- Four members whose `mma` has been issued, each with its B words in the window. -/
theorem witness_EngineEvents_quartet :
    let s : State := { quartet 0 with threads := (quartet 0).threads.map fun (t : Warp) =>
      { (List.range 8).foldl (fun t i => (List.range 32).foldl (fun t l => t.fwrite i l 0 false) t) t with
        unseen := [{ tile := 3, base := 0, span := fmtSpan (fmtWord 0).b, seq := 0, quartet := true, done := false, spoiled := false }] } }
    ([(0, 0), (1, 0), (2, 0), (3, 0)].all fun (m : Nat × Nat) => (s.thread? (.warp loadCtxh m.1)).any fun th =>
      (th.unseen.find? fun y => y.quartet && y.seq == m.2).any fun x => x.old.isEmpty && decide (th.win ≤ x.base) &&
        (List.range (fmtSpan (fmtWord 0).b)).all fun i => (List.range 32).all fun l => th.fword (x.base + i) l == some 0) = true ∧
    (let c : Cmd := { cmd0 with op := .mma 0 3 0 4 false [(0, 0), (1, 0), (2, 0), (3, 0)], matrix := true }
     c.quartet && engOk c (team (fun t => { t with tags := t.tags.map fun e => { e with v := true } }) s) (fun tm s =>
       (s.tagWaits tm c.op).any fun ws => ws.all s.tagReady)) = true ∧
    (let c : Cmd := { cmd0 with op := .mma 0 3 0 4 false [(0, 0)], bImage := List.replicate (fmtBytes (fmtWord 0).b) 7 }
     c.bImage = (List.range (fmtBytes (fmtWord 0).b)).map fun n => ((fun _ => 7 : Nat → Byte) n).toNat) := by decide +kernel

/-- A command whose destination is in transit, and one whose destination is not; a saved team whose record can be reached. -/
theorem witness_EngineEvents_waits :
    (let s := team (fun t => { t with tags := setAt t.tags 3 { emptySeg with st := 3 } }) st
     tmIs s fun t => s.writeWaits t fills.op) = true ∧ (tmIs st fun t => !st.writeWaits t fills.op) = true ∧
    (let s := team (fun t => { t with status := .saved 1 }) st
     let c := { fills with started := true }
     tmIs s fun t =>
       let pp := s.partParty t.ctxh (clkJoin t.exitClk s.svcClk)
       t.status == .saved 1 && (pp.2.recWrites pp.1 t.ctxh ((s.threadsOf t.ctxh).flatMap fun w => if c.owners.contains w.who then countRanges w t else [])).1) = true := by
  decide +kernel

/-- The record of the test object, as words. -/
def boxWords : List Word :=
  (List.range 11).map fun i => BitVec.ofNat 64 ((2 + 4 * 2 ^ 64 + (8 + 4 * 2 ^ 32) * 2 ^ 128 + 32 * 2 ^ 192 + (8 + 2 ^ 32) * 2 ^ 256) / 2 ^ (64 * i))

/-- Copies that no element fails, with the record, from and to the bytes at 0x8000. -/
theorem witness_EngineEvents_copies :
    let goes (op : EngOp) : Bool :=
      let c : Cmd := { cmd0 with op := op, started := true, idx := [0] }
      let s := eng c (put 0x8000 16 (2 ^ 127 + 5) st)
      (s.team? c.ctxh).any fun tm =>
        let b := s.newParty (s.cmdKind c) c.clk []
        let w := b.2.copyWork tm b.1 c
        w.1.fail.isNone && w.1.refused.isNone && (match c.op.counter with
          | none => true
          | some a => (w.2.countUp tm b.1 false a).1.isNone)
    (∀ d ∈ [0, 1, 2], goes (.tcopy d (if d = 2 then 1 else 0x8000) 0 3 [0, 0] boxWords none false) = true) ∧
    goes (.tcopy 0 0x8000 0 3 [0, 0] boxWords (some 0x9000) false) = true ∧ goes (.tgather 0x8000 0 3 2 0 boxWords none) = true := by decide +kernel

/-- A team of the cluster that takes a segment, and accumulators and segments at the bounds of their ranges. -/
theorem witness_EngineEvents_hands :
    tmIs st (fun tm => (st.teamOfRank tm.cluster 0).any fun t => t == tm && decide (1 < t.tags.length)) = true ∧ (1023 : Nat) < 2 ^ 10 ∧
    (2 ^ 22 - 4096) + 4096 ≤ 2 ^ 22 ∧ ((owned st).tile 0 0).elems.length = 1024 := by decide +kernel

/-- One element: at a mapped and an unmapped address, and where a sealed range takes its bytes. -/
theorem witness_EngineEvents_elements :
    let keys (s : State) (w : Bool) (a : Nat) : Option (List Nat) := (s.team? loadCtxh).bind fun tm => match s.engKeys tm 1 false w a 8 with
      | (.ok ks, _) => some ks
      | (.error _, _) => none
    let sealing : State := { st with seals := [{ peer := none, mdie := 0, base := 0x40000000, len := 0x100000, ver := 1 }] }
    (∀ w ∈ [false, true], keys st w (2 ^ 47) = none ∧ (keys st w 0x8000).any (fun ks => ks.length == 8 && decide ks.Nodup && !ks.any st.sealed) = true) ∧
    (keys sealing true 0x8000).any (fun ks => ks.any sealing.sealed) = true ∧ (segKeys loadTeam0 3 0 8).Nodup ∧ ((segKeys loadTeam0 3 0 8).all fun k => !st.sealed k) = true ∧
    st.memOk := by
  unfold State.memOk
  decide +kernel

/-- A cluster of the loaded team's grid in the ready queues, of a launch, beside the loaded one. -/
def ready1 (c : Cluster) (l : Launch) : State :=
  let s := up (base 0)
  { s with clusters := s.clusters ++ [c], grids := s.grids ++ [{ id := 201, launch := l, depth := 0, owner := .packet 1 0 8, left := 1, fail := none, clk := [],
                                                                 relClk := [], done := false }] }

def c200 : Cluster := { loadCluster 200 201 with status := .ready }

/-- A saved team of that cluster. -/
def saved1 (s : State) : State :=
  { s with teams := s.teams ++ s.teams.map fun (t : Team) => { t with ctxh := loadCtxh + 1, cluster := 200, grid := 201, status := .saved 1 } }

theorem witness_ClusterPlacement :
    ((ready1 c200 loadLaunch).claimNext 0).map Prod.fst = some c200 ∧ (ready1 c200 loadLaunch).claimNext 1 = none ∧
    ((saved1 (ready1 { c200 with resumed := true } loadLaunch)).claimNext 0).map Prod.fst = some { c200 with resumed := true } ∧
    ((ready1 c200 loadLaunch).cluster? 200 = some c200) ∧
    (let s := ready1 c200 loadLaunch
     s.launchOfCluster c200 = some loadLaunch ∧ c200.resumed = false ∧ s.turnAsid = some loadLaunch.asid ∧ s.refused loadLaunch.asid = false) := by decide +kernel

/-- Of two clusters of one priority that the die may claim the saved one is claimed, and of two that have never started the older. -/
theorem witness_ClusterPlacement_order :
    let two (c : Cluster) : State := let s := ready1 { c200 with order := 1 } { loadLaunch with pslabs := 4 }; { s with clusters := s.clusters ++ [c] }
    let l : Launch := { loadLaunch with pslabs := 4 }
    (∀ c ∈ [{ c200 with id := 202, order := 0 }, { c200 with id := 202, order := 2, resumed := true }],
      let s := two c
      (s.launchOfCluster c = some l ∧ s.mayClaim c l 0 = true ∧ s.clusterPrio c = s.clusterPrio c200) ∧ (c.order = 0 ∨ c.resumed = true)) ∧
    ((two { c200 with id := 202 }).claimNext 0).map (fun x => x.1.id) = some 202 := by decide +kernel

/-- What a cluster takes when it is placed: the lowest slot and slab that are free, in a part where the process may run on. -/
theorem witness_ClusterPlacement_place :
    let s := ready1 c200 loadLaunch
    (s.grid? c200.grid).any (fun g => g.launch == loadLaunch) = true ∧ s.freeSlots 1 1 = some [1] ∧ s.freeSlabs c200 loadLaunch = some [0] ∧
    s.plat.phase ≠ .failed ∧ (∀ t ∈ s.teams, t.kept = false) ∧ s.refused 1 = false ∧
    ((s.claimNext 0).any fun x => x.2.length == 1) = true := by decide +kernel

/-- The first record of a team whose save slot the part can reach. -/
theorem witness_ClusterPlacement_record :
    let t := { loadTeam0 with bars := [] }
    ((base 0).recTargets 1 loadCtxh (firstRecord t)).1.any (fun kss => decide kss.flatten.Nodup) = true ∧ t.tiles ≠ 0 ∧
    ((base 0).recTargets 1 loadCtxh (firstRecord t)).2.memOk := by
  unfold State.memOk
  decide +kernel

/-- A launch that no core can hold: 129 tiles. -/
def wide : Launch := { loadLaunch with roles := [{ entry := 0x10000, warps := 1, frame := 2, tiles := 129, qtet := false }] }

theorem witness_ClusterPlacement_nocore :
    let x (s : State) (p : Cluster → Bool) : Bool := (s.waiting.find? fun c => c.id == 200).any fun c => (s.launchOfCluster c).isSome && p c
    (x (ready1 c200 loadLaunch) fun c => !(ready1 c200 loadLaunch).noCore c) = true ∧
    (x (ready1 c200 wide) fun c => (ready1 c200 wide).noCore c && !c.logged && c.noTurns == 0 && ((ready1 c200 wide).teamsOf 200).isEmpty) = true ∧
    (∀ n ∈ [15, 16],
      let s := saved1 (ready1 { c200 with logged := true, noTurns := n } wide)
      (x s fun c => s.noCore c && c.logged && c.noTurns == n && !(s.teamsOf 200).isEmpty) = true) := by decide +kernel

/-- The loaded team asked to leave at cycle 0, at a later cycle, with a number of locks. -/
def leaving (at_ locks : Nat) : State :=
  (thr (fun t => { t with locks := locks }) (team (fun t => { t with evict := some 0, tiles := 0 }) (up (base 0)))).updDie 0 fun d => { d with clk := at_ }

/-- Its split waits for a command of its own. -/
def blocked (s : State) : State := thr (fun t => { t with coc := 1 }) (spl (fun x => { x with wait := some (.engine 0 0) }) s)

theorem witness_EvictionAndTurns_grace :
    let x (s : State) (p : Team → Nat → Bool) : Bool := (s.team? loadCtxh).any fun t => t.cmdHold == 0 && (s.evictAge t).any (p t)
    (x (leaving 65536 0) fun t a => a == t.grace.toNat && !(leaving 65536 0).holdsLock loadCtxh) = true ∧
    (x (leaving 65535 0) fun t a => decide (a < t.grace.toNat)) = true ∧
    (x (leaving 65536 1) fun _ _ => (leaving 65536 1).holdsLock loadCtxh) = true ∧
    (x (leaving 327680 1) fun t a => a == t.grace.toNat + t.lockcap.toNat) = true ∧
    (x (leaving 327679 1) fun t a => decide (a < t.grace.toNat + t.lockcap.toNat)) = true ∧
    (let s := team (fun t => { t with cmdHold := 2 }) (leaving 327680 1)
     tmIs s fun t => t.cmdHold == 2 && !s.stalled t.die && s.holdsLock loadCtxh && (s.evictAge t).any fun a => decide (t.grace.toNat + t.lockcap.toNat ≤ a)) = true ∧
    (leaving 0 0).plat.phase ≠ .failed ∧ (leaving 0 0).plat.clockStop = false ∧ (plat fun p => { p with phase := .failed }).plat.phase = .failed ∧
    (plat fun p => { p with clockStop := true }).plat.clockStop = true := by decide +kernel

theorem witness_EvictionAndTurns_save :
    tmIs (up (base 0)) (fun t => t.evict.isNone && t.ctxh == loadCtxh) = true ∧
    (let s := thr (fun t => { t with pend := [pend0] }) (blocked (leaving 0 0))
     tmIs s (fun t => t.evict.isSome && !s.allExited loadCtxh && t.saving.isNone && t.status == .running && !s.holdsLock loadCtxh && s.atBlockingPoint loadCtxh) &&
       (s.threadsOf loadCtxh).any fun w => !w.pend.isEmpty) = true ∧
    (let s := team (fun t => { t with cmdHold := 2 }) (leaving 0 0)
     tmIs s (fun t => t.evict.isSome && !s.allExited loadCtxh && t.saving.isNone && t.status == .running && !s.atBlockingPoint loadCtxh && t.cmdHold == 2 &&
       !s.hasStarted loadCtxh) && (s.threadsOf loadCtxh).all fun w => w.pend.isEmpty) = true ∧
    (let s := team (fun t => { t with status := .saved 1 }) (base 0)
     tmIs s (fun t => t.status == .saved 1 && !t.wake) && s.wakes loadCtxh && !(blocked s).wakes loadCtxh) = true := by decide +kernel

/-- The state in which a save writes a team's record, the party that writes it, and the team. -/
def saves (s : State) (t : Team) : State × Nat × Team :=
  let a := (s.releaseAll t).pauseWaits loadCtxh
  let pp := a.partParty loadCtxh (clkJoin (a.teamClk loadCtxh) a.svcClk)
  let b := ((pp.2.unstarted loadCtxh).filter fun c => c.op.hands.isSome).foldl State.restoreSource pp.2
  (b, pp.1, (b.team? loadCtxh).getD t)

/-- Every range of the record can be reached, and the team is there. -/
def wrote (s : State) (p : Nat) (t : Team) : Bool :=
  let r := s.recordRanges t 1
  let w := r.2.recTargets p t.ctxh r.1
  w.1.isSome && (w.2.team? loadCtxh).isSome

theorem witness_EvictionAndTurns_record :
    let s := team (fun t => { t with bars := [], segs := 0, tags := [] }) (thr (fun t => { t with cap := 0 }) (blocked (leaving 0 0)))
    tmIs s (fun t => let x := saves s t; x.2.2.tiles == 0 && wrote x.1 x.2.1 x.2.2 &&
      (s.threadsOf loadCtxh).all (fun w => w.pend.isEmpty) && s.cmds.isEmpty && t.saving.isNone && t.status == .running && s.atBlockingPoint loadCtxh &&
        !s.holdsLock loadCtxh) = true ∧ (∀ y ∈ [TStatus.stopping, .stopped, .served, .killed], y ≠ .running ∧ y ≠ .halted) := by
  decide +kernel

/-- A record whose ranges can be reached is written, and the team still stands. -/
theorem witness_EvictionAndTurns_writes (s : State) (p : Nat) (t : Team) (h : t.tiles = 0) (w : wrote s p t = true) :
    ∃ u v, s.writeRecord p t 1 = (true, u) ∧ u.team? loadCtxh = some v := by
  have e : s.writeRecord p t 1 = (s.recordRanges t 1).2.recWrites p t.ctxh (s.recordRanges t 1).1 := by
    simp [State.writeRecord, State.writeTdir, h]
  obtain ⟨h1, h2⟩ := State.recWrites_spec (s.recordRanges t 1).2 p t.ctxh (s.recordRanges t 1).1
  simp only [wrote, Bool.and_eq_true] at w
  rw [← e] at h1 h2
  obtain ⟨v, hv⟩ := Option.isSome_iff_exists.1 w.2
  refine ⟨_, v, Prod.ext (h1.trans w.1) rfl, ?_⟩
  unfold State.team? at hv ⊢
  rw [h2]
  exact hv

/-- The commands that a save finds: one whose hand-over is in flight is none. -/
theorem witness_EvictionAndTurns_hands :
    let s : State := { blocked (leaving 0 0) with cmds := [{ cmd0 with op := .acczero 0, matrix := true, started := true }] }
    (∀ c ∈ s.cmds, c.ctxh = loadCtxh → c.started = true → c.op.hands = none) ∧ s.plat.phase ≠ .failed ∧ s.plat.clockStop = false := by decide +kernel

/-- A second cluster of the loaded grid, after 4,096 cycles of every die, where core 0 of die 0 alone is in service and the loaded team fills its tiles. -/
def crowded (s : State) : State :=
  let s := up s
  let t := { s with clusters := s.clusters ++ s.clusters.map fun (c : Cluster) => { c with id := 200, status := .ready } }
  { t with
    dies := t.dies.map fun (d : Die) => { d with clk := 4096, coreDown := if d.num = 0 then (List.range 15).map (· + 1) else List.range 16 }
    teams := t.teams.map fun (x : Team) => { x with tiles := 128 }
    grids := t.grids.map fun (g : Grid) => { g with launch := { g.launch with pslabs := 2 } }
    plat := { t.plat with runList := t.plat.runList.map fun (e : RunEnt) => { e with saveslots := 2 } } }

theorem witness_EvictionAndTurns_priority :
    let x (s : State) (p : Cluster → Bool) : Bool := (s.waiting.find? fun c => c.id == 200).any fun c => s.plat.phase == .ready && !s.plat.fwsw && p c &&
      (List.range 4).all fun d => decide (c.since.getD d 0 + 4096 ≤ s.cycles d) && (s.fitCluster c d).isNone
    (x (crowded (base 0)) fun c => ((crowded (base 0)).victims c).isEmpty) = true ∧
    (x (crowded (blocked (base 0))) fun c => !((crowded (blocked (base 0))).victims c).isEmpty) = true := by decide +kernel

/-- Two processes on the run list, the first in its turn. -/
def turns (other : Bool) (sw : Bool) (q : Nat) (s : State) : State :=
  let s := up s
  { s with plat := { s.plat with runList := s.plat.runList ++ (if other then s.plat.runList.map fun (e : RunEnt) => { e with asid := 2 } else []), switching := sw, quantEnd := q } }

theorem witness_EvictionAndTurns_turns :
    let x (s : State) (p : RunEnt → RunEnt → Bool) : Bool := s.plat.phase == .ready && !s.plat.fwsw &&
      (s.nextTurn).any fun y => (s.plat.runList[s.plat.turn]?).any fun cur => p y.2.2 cur
    (x (turns true false 1 (base 0)) fun _ _ => true) = true ∧ (x (turns false false 0 (base 0)) fun e c => e.asid == c.asid) = true ∧
    (x (turns true false 0 (base 0)) fun e c => e.asid != c.asid) = true ∧
    (x (turns true true 0 (base 0)) fun e c => e.asid != c.asid && (turns true true 0 (base 0)).active c.asid) = true ∧
    (let s := turns true true 0 (team (fun t => { t with status := .saved 1 }) (base 0))
     (x s fun e c => e.asid != c.asid && !s.active c.asid) = true) ∧
    (∀ y ∈ [(false, 1, 0), (false, 0, 0), (true, 0, 0), (true, 0, 1)],
      let s := turns false y.1 y.2.1 (if y.2.2 = 0 then base 0 else team (fun t => { t with status := .saved 1 }) (base 0))
      let u := { s with plat := { s.plat with nextList := some [] } }
      (u.plat.phase == .ready && !u.plat.fwsw && u.nextTurn.isNone && (u.plat.runList[u.plat.turn]?).any fun c =>
        u.plat.switching == y.1 && decide (u.ref < u.plat.quantEnd) == (y.2.1 == 1) && u.active c.asid == (y.2.2 == 0)) = true) := by decide +kernel

/-- Its mailbox of the PF with a body, pairs of offset and value, for a command. -/
def asked (req : List (Nat × Nat)) : State := (plat fun p => { p with phase := .ready }).putMbox
  { Mailbox.empty 0 with req := req.map fun x => (x.1, BitVec.ofNat 8 x.2) }

theorem witness_HostAccess :
    State.reset.fnExists 1 = false ∧ (plat fun p => { p with hostUp := false }).plat.hostUp = false ∧ State.reset.fnExists 0 = true ∧
    State.reset.plat.hostUp = true ∧ (plat fun p => { p with numVfs := 63 }).fnExists 63 = true ∧
    (let l (w : Nat) := (plat fun p => { p with logs := [{ fn := 0, wr := w, rd := 0, lost := 0, ring := [], msix := 0 }] }).evLog 0
     (l 512).wr ≤ (0 : Word).toNat + 512 ∧ (0 : Word).toNat + 512 < (l 513).wr ∧ (l 0).wr < (1 : Word).toNat) ∧
    (800 ≤ fieldOf (800 : Word).toNat 0 16 ∧ fieldOf (2400 : Word).toNat 0 16 ≤ 2400 ∧ fieldOf (799 : Word).toNat 0 16 < 800 ∧
      2400 < fieldOf (2401 : Word).toNat 0 16) ∧
    (let s := plat fun p => { p with phase := .ready }
     let pp := s.partyFor (.host 0)
     (pp.2.bar2Keys pp.1 0 (2 ^ 43) 1 false).1 = none ∧ (pp.2.bar2Keys pp.1 0 (2 ^ 43) 1 true).1 = none ∧
     (pp.2.bar2Keys pp.1 0 0x1000 8 false).1 = some (keysFrom 0x1000 8) ∧ (pp.2.bar2Keys pp.1 0 0x1000 8 true).1.isSome = true ∧
     ∀ k ∈ keysFrom 0x1000 8, backed k = true) := by decide +kernel

theorem witness_MailboxCommands :
    State.reset.fnExists 0 = true ∧ (plat fun p => { p with numVfs := 1, phase := .ready }).fnExists 1 = true ∧ (State.reset.mbox 0).busy = false ∧
    (∀ ph ∈ [Phase.ready, .failed], (plat fun p => { p with phase := ph }).plat.phase = ph) ∧ (plat fun p => { p with phase := .ready, fwsw := true }).plat.fwsw = true ∧
    ((State.reset.putMbox { Mailbox.empty 0 with busy := true, opc := 1 }).mbox 0).busy = true := by decide +kernel

theorem witness_MailboxCommands_queues :
    let m (l : List (Nat × Nat)) : Mailbox := { Mailbox.empty 0 with req := l.map fun x => (x.1, BitVec.ofNat 8 x.2) }
    (m []).queueOk = false ∧ ((m [(16, 64), (20, 4)]).queueOk = true ∧ State.reset.mayName 1 ((m [(16, 64), (20, 4)]).num 0 2) = false) ∧
    (let s (r : List PktRun) := front { q0 with runs := r } []
     let x := m [(0, 1)]
     x.only [(0, 4)] = true ∧ x.num 0 2 < 1024 ∧ x.num 2 2 ≤ 127 ∧ (∀ r ∈ [[], [run0 4 false]],
       (s r).mayName 0 (x.num 0 2) = true ∧ (s r).queue? (x.num 0 2) (x.num 2 2) = some { q0 with runs := r })) ∧
    ((m [(0, 1), (2, 1), (26, 0x80), (24, 1)]).runEnts.2 = false ∧ (m [(0, 1), (2, 1), (18, 0x80), (24, 1)]).runEnts.2 = true ∧ (base 0).plat.runList ≠ []) := by
  decide +kernel

theorem witness_MailboxCommands_bodies :
    let m (l : List (Nat × Nat)) : Mailbox := { Mailbox.empty 0 with req := l.map fun x => (x.1, BitVec.ofNat 8 x.2) }
    (∀ vf ∈ [1, 63], let x := m [(0, 255), (1, 3), (3, vf)]; x.only [(0, 4)] = true ∧ x.num 0 2 = 1023 ∧ x.num 2 1 = 0 ∧ x.num 3 1 = vf) ∧
    ((m [(2, 1)]).only [(0, 4)] = true ∧ (m [(2, 1)]).num 2 1 = 1 ∧ State.reset.plat.encAvail = false) ∧
    (let x := m [(0, 1)]
     x.only [(0, 2)] = true ∧ x.num 0 2 < 1024 ∧ (∃ t ∈ (base 0).teams, t.asid = x.num 0 2 ∧ t.status ≠ .retiring) ∧ State.reset.teams = [] ∧
       State.reset.clusters = []) ∧
    (let x := m [(2, 0x20), (10, 0x20), (16, 1)]
     x.only [(0, 18)] = true ∧ x.num 0 8 % 2 ^ 21 = 0 ∧ x.num 8 8 % 2 ^ 21 = 0 ∧ x.num 0 8 + x.num 8 8 ≤ 2 ^ 43 ∧ x.num 16 2 = 1) ∧
    ((m [(0, 255), (1, 3), (8, 7)]).only [(0, 2), (8, 2048)] = true ∧ (m [(0, 255), (1, 3)]).num 0 2 ≤ 1023) := by decide +kernel

/-- An update of firmware at a stage. -/
def upd0 (stage : Nat) : FwUpd :=
  { fn := 0, seq := 0, image := 0x1000, len := 0, hand := 0x4000, hover := 0, stage := stage, started := 0, meas2 := [], meas3 := [] }

/-- Bodies that make a queue, in device memory and not, and that name one already there; and that set a stream, a rule and a ring. -/
theorem witness_MailboxCommands_sets :
    let m (l : List (Nat × Nat)) : Mailbox := { Mailbox.empty 0 with req := l.map fun x => (x.1, BitVec.ofNat 8 x.2) }
    (let x := m [(0, 1), (9, 0x80), (16, 64), (20, 4), (22, 1), (26, 1), (32, 8), (34, 1)]
     let s := up (base 0)
     x.queueOk = true ∧ s.mayName 0 (x.num 0 2) = true ∧ s.queue? (x.num 0 2) (x.num 22 2) = none ∧
       { s with queues := [{ q0 with qid := 1 }] }.queue? (x.num 0 2) (x.num 22 2) ≠ none ∧
       (match s.fe.2.feKeys s.fe.1 1 (x.num 24 8) 8 true with
       | (.ok k1, u) => (match u.feKeys s.fe.1 1 (x.num 32 8) 8 true with
         | (.ok k2, _) => (k1 ++ k2).all isDeviceKey
         | _ => false)
       | _ => false) = true) ∧
    (let x := m [(0, 3), (2, 255), (4, 16), (24, 1), (28, 3)]
     x.only [(0, 1), (2, 27)] = true ∧ x.num 0 1 ≤ 3 ∧ x.num 2 2 ≤ 255 ∧ x.num 4 4 = 2 ^ 4 ∧ x.num 8 8 % 4096 = 0 ∧ x.num 8 8 < 2 ^ 43 ∧ x.num 16 8 % 16384 = 0 ∧
       x.num 24 4 = 2 ^ 0 ∧ x.num 28 1 ≤ 3 ∧ 2 ≤ x.num 28 1 ∧ (State.reset.port? (x.num 0 1)).isSome = true) ∧
    (let x := m [(0, 3), (2, 255), (136, 9), (137, 1)]
     x.only [(0, 1), (2, 2), (8, 130)] = true ∧ x.num 0 1 ≤ 3 ∧ x.num 2 2 ≤ 255 ∧ x.num 137 1 ≤ 1) ∧
    (let x := m [(0, 3), (1, 15), (5, 16), (16, 8), (24, 16)]
     x.only [(0, 2), (4, 28)] = true ∧ x.num 0 1 ≤ 3 ∧ x.num 1 1 ≤ 15 ∧ x.num 4 4 = 2 ^ 12 ∧ x.num 8 8 % 16384 = 0 ∧ x.num 16 8 % 8 = 0 ∧ x.num 24 8 % 8 = 0) := by
  decide +kernel

/-- An update that is asked for with its image and hand-over in memory, or not; of another function; and whose image is no image. -/
theorem witness_MailboxCommands_update :
    let m (l : List (Nat × Nat)) : Mailbox := { Mailbox.empty 0 with req := l.map fun x => (x.1, BitVec.ofNat 8 x.2) }
    (let x := m [(1, 0x10), (17, 0x40)]
     x.only [(0, 12), (16, 8)] = true ∧ x.num 0 8 % 4096 = 0 ∧ x.num 16 8 % 4096 = 0 ∧ x.num 0 8 < 2 ^ 43 ∧ x.num 16 8 < 2 ^ 43 ∧ backed (x.num 0 8) = true ∧
       backed (x.num 16 8) = true) ∧ (m [(0, 1)]).num 0 8 % 4096 ≠ 0 ∧
    (let s : State := { plat (fun p => { p with phase := .ready, upd := some (upd0 1) }) with zeroed := [(0x1000, 64)] }
     s.plat.upd = some (upd0 1) ∧ (upd0 1).fn ≠ 1 ∧ (upd0 1).fn = 0 ∧ (upd0 1).stage = 1 ∧ (s.imageRead.verify (s.imageBytes 0x1000) true).1 = some 1) := by
  decide +kernel

theorem witness_DeviceRegisters :
    State.reset.plat.powered = true ∧ State.reset.plat.hostUp = true ∧ (2 : Word).getLsbD 1 = true ∧ (2 : Word).getLsbD 0 = false ∧ (1 : Word).getLsbD 1 = false ∧ (1 : Word).getLsbD 0 = true ∧
    State.reset.plat.phase = .await ∧ (plat fun p => { p with phase := .ready }).plat.phase ≠ .await ∧ (0 : Word).getLsbD 0 = false := by decide +kernel

/-- An image whose first bytes are no header is refused: reason 1. -/
theorem witness_ResetAndBoot :
    State.reset.plat.powered = true ∧ (3 : Word).getLsbD 0 = true ∧ (3 : Word).getLsbD 1 = true ∧
    (plat fun p => { p with powered := false }).plat.powered = false ∧ State.reset.plat.phase = .await ∧
    State.reset.plat.hostUp = true ∧ 0xFFFF0 + (List.replicate 16 (0 : Byte)).length ≤ 0x100000 ∧ (plat fun p => { p with phase := .failed }).plat.phase ≠ .await ∧
    verifyImage (plat fun p => { p with bankA := [(0, 0), (1, 0), (2, 0), (3, 0)] }).plat.staged false = some 1 ∧
    (∀ y ∈ [Phase.verify, .release, .fwStart], let s := plat fun p => { p with phase := y }
      s.plat.powered = true ∧ s.plat.phase = y) ∧
    (List.range 12).find? (fun k => ((State.reset.die? k).map fun d => !d.released).getD false) = some 0 ∧
    (let s : State := { State.reset with dies := State.reset.dies.map fun (d : Die) => { d with released := true } }
     (List.range 12).find? (fun k => ((s.die? k).map fun d => !d.released).getD false) = none) ∧
    (plat fun p => { p with numVfs := 63 }).fnExists 63 = true ∧
    (let s : State := { base 0 with
        plat := { (base 0).plat with numVfs := 1, asids := (base 0).plat.asids.map fun (a : Asid) => { a with vf := some 1 } }
        queues := [q0, { q0 with asid := 2 }] }
     (∃ q ∈ s.queues, (s.asid? q.asid).bind Asid.vf = some 1) ∧ ∃ q ∈ s.queues, (s.asid? q.asid).bind Asid.vf ≠ some 1) := by decide +kernel

theorem witness_FirmwareAndAttestation :
    State.reset.plat.upd = none ∧ (∀ n ∈ [2, 3], let s := plat fun p => { p with phase := .ready, upd := some (upd0 n) }
      s.plat.upd = some (upd0 n) ∧ s.plat.phase = .ready ∧ (upd0 n).stage = n ∧ (upd0 n).hand % 4096 = 0 ∧ s.ref < (upd0 n).started + 1000000 ∧
      s.plat.meas[2]?.isSome = true ∧ s.plat.meas[3]?.isSome = true) ∧
    (let s := { State.reset with dies := State.reset.dies.map fun (d : Die) => { d with ref := 1000000 } }
     (upd0 3).started + 1000000 ≤ s.ref) ∧
    State.reset.plat.powered = true ∧ State.reset.plat.hostUp = true ∧ State.reset.plat.meas[15]?.isSome = true ∧ State.reset.plat.phase ≠ .ready ∧ State.reset.plat.phase ≠ .fwStart ∧
    (plat fun p => { p with phase := .fwStart }).plat.phase = .fwStart ∧ State.reset.vfOf 0 ≠ some 0 := by
  decide +kernel

/-- Compute die 0 released, in READY. -/
def running (f : Die → Die) (s : State) : State := (up s).updDie 0 fun d => f { d with released := true }

theorem witness_PowerAndTime :
    let on (s : State) (p : Die → Bool) : Bool := (s.die? 0).any p
    (on (running id State.reset) fun d => d.released && d.relock.isNone && d.mhz != 800 && d.mhz != 1800 && d.mhz != 700) = true ∧
    (∀ t ∈ [2000, 1999], (on (running (fun d => { d with relock := some 800, relockAt := 2000, ref := t }) State.reset) fun d =>
      d.relock == some 800 && d.released && decide (d.relockAt ≤ d.ref) == (t == 2000)) = true) ∧
    (∀ m ∈ [800, 1800], (on (running (fun d => { d with mhz := m, inc := incOf m }) State.reset) fun d =>
      d.released && d.relock.isNone && d.frac == 0 && d.clks % 65536 == 0 && d.mhz == m && d.inc == incOf m) = true) ∧
    (on (running (fun d => { d with hot := true }) State.reset) Die.hot) = true ∧ (running id State.reset).plat.supplyHeld = false ∧
    (plat fun p => { p with fwsw := true }).plat.fwsw = true ∧
    (on (running (fun d => { d with mhz := 800 }) State.reset) fun d => d.released && d.mhz == 800 && d.relock.isNone) = true ∧
    (running id State.reset).plat.phase = .ready ∧ (running id State.reset).plat.fwsw = false ∧
    (plat fun p => { p with supplyHeld := true }).plat.supplyHeld = true ∧ State.reset.plat.powered = true ∧ (State.reset.die? 12).isSome = true ∧
    (24000 ≤ State.reset.plat.pwrcap * 10 ∧ (running id State.reset).allSlow = false) := by decide +kernel

theorem witness_LinksAndReplies :
    let pl (f : Plane → Plane) : State := State.reset.putPlane (f (State.reset.planeOf 16 1))
    ((State.reset.planeOf 16 1).training = false ∧ (State.reset.planeOf 16 1).lost = false ∧ (State.reset.planeOf 16 1).tries = 0) ∧
    ((pl fun x => { x with tries := 6 }).planeOf 16 1).tries = 6 ∧ ((pl fun x => { x with training := true }).planeOf 16 1).training = true ∧
    (State.reset.ronou? 15).any (fun p => !p.down && p.enable && !p.up) = true ∧
    (let s := State.reset.updRonou 15 fun p => { p with up := true }
     (s.ronou? 15).any (fun p => p.up && p.enable && !p.down) = true ∧
     (∃ k ∈ (peerSpan (.read 0x300000000000 8)).1, isDeviceKey k = false ∨ backed k = false) ∧
     peerLegal (.read 0x1000 8) = true ∧ peerLegal (.atomic (.int .add) .n64 0x1004 0 0 .plain) = false ∧
     (let seals : State := { s with seals := [{ peer := none, mdie := 0, base := 0, len := 0x100000, ver := 1 }] }
      ∃ k ∈ (peerSpan (.write 0x1000 (List.replicate 8 0) false)).1, seals.sealed k = true) ∧
     ∀ k ∈ (peerSpan (.read 0x1000 8)).1, isDeviceKey k = true ∧ backed k = true ∧ (up s).homeWorks k = true ∧ (up s).sealed k = false) := by decide +kernel

theorem witness_LinksAndReplies_replies :
    let s (r : MemReq) (ref : Nat) : State := { pending (.mem r) with dies := (pending (.mem r)).dies.map fun (d : Die) => { d with ref := ref } }
    let r (k : Nat) (op : MemOp) (pt : Nat) : MemReq := { req0 .b32 with op := op, acc := [{ codeAcc with keys := [k], pt := pt }] }
    let on (u : State) (p : Pend → MemReq → Bool) : Bool := (u.thread? w0).any fun t => (t.pend.find? fun p => p.id == 7).any fun q => match q.kind with
      | .mem m => p q m
      | _ => false
    let remote (p : Pend) (m : MemReq) : Mask := lanesWith p m 1 fun a => a.keys.any fun k => isHostKey k || isPeerKey k
    let here (p : Pend) (m : MemReq) : Mask := lanesWith p m 1 fun a => !a.keys.any isSpKey
    (on (s (r (2 ^ 60) (.load .b32) pointHome) 10000000) fun p m => remote p m != 0 && decide (p.ref + 10000000 ≤ 10000000) && !m.op.isAtomic && here p m != 0) = true ∧
    (on (s (r (2 ^ 60) (.load .b32) pointHome) 9999999) fun p _ => decide ((s (r (2 ^ 60) (.load .b32) pointHome) 9999999).ref < p.ref + 10000000)) = true ∧
    (on (s (r 0x1000 (.load .b32) pointHome) 0) fun p m => remote p m == 0) = true ∧
    (on (s (r (2 ^ 60) (.atom .add .b32) pointHome) 10000000) fun p m => remote p m != 0 && m.op.isAtomic) = true ∧
    (on (s (r (spKey 0 0) (.load .b32) pointHome) 0) fun p m => here p m == 0) = true ∧
    (let u := (s (r 0x1000 (.load .b32) pointHome) 0).updDie 0 fun d => { d with relock := some 800 }
     u.stalled (u.dieOf w0) = true ∧ (s (r 0x1000 (.load .b32) pointHome) 0).stalled 0 = false) ∧
    ((st.thread? w0).any fun t => (t.pend.find? fun p => p.id == 8).isNone) = true ∧
    (let l : Line := { lvl := .l1, owner := 0, line := 5, dirty := 0xFF, stale := false, ctxh := loadCtxh, writes := [1] }
     { st with lines := [l] }.line? .l1 0 5 = some l ∧ st.line? .l1 0 5 = none ∧ st.stalled (0 / 16) = false) ∧
    (on (s (r 0x1000 (.atom .add .b32) pointHome) 0) fun p m => m.op.isAtomic && performedWith m (lanesWith p m 1 fun a => a.pt == pointHome) != 0) = true := by decide +kernel

/-- A port with its link up, a rule for stream 0 in force by default, and the stream. -/
def eth (f : Stream → Stream) (g : EthPort → EthPort) : State :=
  State.reset.updPort 0 fun p => g ({ p with link := true, dflt := true }.putStream (f { p.stream 0 with enable := true, ring := 0x100000 }))

def frame (n : Nat) : List Byte := List.replicate n 0

theorem witness_FrameFates :
    let on (s : State) (p : EthPort → Bool) : Bool := s.plat.powered && (s.port? 0).any fun x => x.link && p x
    (frame 63).length < 64 ∧ 16384 < (frame 16385).length ∧ (64 ≤ (frame 64).length ∧ (frame 16384).length ≤ 16384) ∧
    (on (eth id fun p => { p with dflt := false }) fun p => (p.classify (frame 64)).isNone) = true ∧
    (on (eth (fun x => { x with enable := false }) id) fun p => p.classify (frame 64) == some 0 && !(p.stream 0).enable) = true ∧
    (on (eth id id) fun p => p.classify (frame 1985) == some 0 && (p.stream 0).enable && (p.stream 0).jslots == 0 && decide (1984 < (frame 1985).length)) = true ∧
    (on (eth (fun x => { x with jslots := 1 }) id) fun p => p.classify (frame 1985) == some 0 && (p.stream 0).jslots != 0) = true ∧
    (on (eth id id) fun p => p.classify (frame 1984) == some 0 && (p.stream 0).enable && decide ((frame 1984).length ≤ 1984)) = true := by decide +kernel

theorem witness_FrameFates_sealed :
    (let s : State := { eth id id with seals := [{ mdie := 0, peer := none, base := 0x100000, len := 0x100000, ver := 1 }] }
     (s.port? 0).any fun p => s.frameSealed (p.stream 0) 64) = true := by decide +kernel

/-- A transmit ring with its indices in device memory. -/
def sender (txp : Nat) : State :=
  { eth id fun p => { p with rings := [{ num := 0, slots := 16, base := 0x200000, txp := 0x300000, txc := 0x300008, sent := 0 }] } with
    zeroed := [(0x200000, 0x100010)], mem := if txp = 0 then [] else [(0x300000, BitVec.ofNat 8 txp)] }

/-- Frames whose slots lie apart, in memory without seals; slots with a bad header, with the link down, and with a frame to send, stamped. -/
theorem witness_EthernetFrames_slots :
    (eth id id).seals = [] ∧ (stampBytes 0).length = 12 ∧ ((eth id id).port? 0).any (fun p =>
      let x := { p.stream 0 with jring := 0x200000, jslots := 1 }
      decide (x.next < 2 ^ 64 ∧ x.ring + 2048 * ((x.next - 1) % x.slots) + 64 ≤ x.jring + 16384 * x.jnext)) = true ∧
    Memory.wf (eth id id).zeroed (eth id id).mem = true ∧
    (let on (len : Nat) (flags : Nat) (g : EthPort → EthPort) (p : EthPort → List Byte → Bool) : Bool :=
       let s : State := { (eth id fun q => g { q with rings := [{ num := 0, slots := 16, base := 0x200000, txp := 0x300000, txc := 0x300008, sent := 0 }] }) with
         zeroed := [(0x200000, 0x100010)]
         mem := (if len = 0 then [] else [(0x200014, BitVec.ofNat 8 len)]) ++ if flags = 0 then [] else [(0x200016, BitVec.ofNat 8 flags)] }
       Memory.wf s.zeroed s.mem && s.seals.isEmpty && (s.port? 0).any fun q => q.rings.any fun r =>
         decide (r.sent + 1 < 2 ^ 63 ∧ r.base + 16384 * (r.sent % r.slots) + 20 ≤ r.txc) && p q (s.portRead 1 64 (r.base + 16384 * (r.sent % r.slots))).1
     let get (h : List Byte) (o n : Nat) : Nat := leNum ((h.drop o).take n)
     let fine (h : List Byte) : Bool := decide (64 ≤ get h 20 2 ∧ get h 20 2 ≤ 16320 ∧ get h 22 1 ≤ 1) && (h.drop 23).all (· == 0)
     on 63 0 id (fun _ h => decide (get h 20 2 < 64)) = true ∧ on 64 2 id (fun _ h => decide (1 < get h 22 1)) = true ∧
     on 64 0 (fun q => { q with link := false }) (fun q h => !q.link && fine h) = true ∧ on 64 1 id (fun q h => q.link && fine h && get h 22 1 == 1) = true) ∧
    (eth id id).vfOf 0 ≠ some 0 := by decide +kernel

theorem witness_EthernetFrames :
    (eth id id).plat.powered = true ∧ (eth id id).plat.hostUp = true ∧
    ((eth id id).port? 0).any (fun p => p.link && p.classify (frame 64) == some 0 && (p.stream 0).enable && !(eth id id).frameSealed (p.stream 0) 64) = true ∧
    ((eth id fun p => { p with rules := [{ idx := 0, val := [], mask := [], stream := 3, valid := true }] }).port? 0).any (fun p => p.classify (frame 64) == some 3) = true ∧
    (∀ n ∈ [0, 1], ((sender n).port? 0).any (fun p => (p.rings.find? fun r => r.num == 0).isSome && (sender n).ringTurn p 0 &&
      let pp := (sender n).partyFor (.port 0 256)
      leNum (pp.2.readNow pp.1 (some .device) (keysFrom 0x300000 8)).1 == n) = true) ∧
    ((BitVec.ofInt 64 (-(2 ^ 47)) : Word).toInt = -(2 ^ 47) ∧ (2 ^ 47 : Word).toInt = 2 ^ 47 ∧ (2 : Int) ^ 47 < (2 ^ 47 + 1 : Word).toInt ∧
      (BitVec.ofInt 64 (-(2 ^ 47) - 1) : Word).toInt < -(2 ^ 47)) := by decide +kernel

theorem witness_SoftErrors :
    State.reset.plat.powered = true ∧
    ((ages 5 6 7 st).thread? w0).any (fun t => ((t.queue[31]?).bind fun q => q[2]?).any fun e => e.pend.isNone) = true ∧
    (let l (d : BitVec 64) : Line := { lvl := .l1, owner := 0, line := 5, dirty := d, stale := false, ctxh := loadCtxh, writes := [1] }
     st.line? .l1 0 5 = none ∧ { st with lines := [l 0] }.line? .l1 0 5 = some (l 0) ∧ (l 0).dirty = 0 ∧ (l 1).dirty ≠ 0 ∧
     { st with lines := [l 1] }.line? .l1 0 (lineOf 320) = some (l 1) ∧ 320 / 8 ∉ (l 1).cleanGranules ∧ 328 / 8 ∈ (l 1).cleanGranules) ∧
    (plat fun p => { p with clockStop := true }).plat.clockStop = true ∧ State.reset.plat.clockStop = false ∧
    (let s := plat fun p => { p with phase := .ready, upd := some (upd0 1) }
     s.plat.phase = .ready ∧ s.plat.upd = some (upd0 1) ∧ (upd0 1).stage = 1) ∧
    (plat fun p => { p with phase := .fwStart }).plat.phase = .fwStart ∧ State.reset.vfOf 0 ≠ some 0 ∧ (1 : BitVec 8) ≠ 0 ∧ (128 : BitVec 8).getLsbD 7 = true := by decide +kernel

/-- The loaded warp with nothing to spill or fill; with an entry of eight that may be spilled; a frame of eight. -/
theorem witness_FormsComplete :
    let eight (s : State) : State := spl (fun x => { x with fs := 8 }) s
    let both (s : State) (p : Cx → State → Bool) := wit (s.ready h0 (Shape.both [] false)) p
    let stays (cx : Cx) (n : Nat) : Bool :=
      let t := cx.t.updSplit cx.k fun x => { x with fs := n }
      t.top - t.cap == cx.t.win
    wit (st.ready h0 (Shape.user [] false)) (fun cx s1 => cx.who.isUser && (match (s1.done cx).spills cx [] with | some _ => true | none => false)) = true ∧
    wit ((eight (thr (fun t => (List.range 32).foldl (fun t l => t.fwrite 0 l 5 false) t) st)).ready h0 (Shape.user [] false)) (fun cx s1 =>
      cx.who.isUser && min (cx.t.win + (1 : BitVec 7).toNat) cx.t.top == 1 && cx.t.win == 0 &&
        (match (s1.done cx).spills cx ((List.range 1).map (cx.t.win + ·)) with | some _ => true | none => false)) = true ∧
    wit (sh.ready h0 (Shape.user [] false)) (fun cx _ => !cx.who.isUser) = true ∧
    wit (st.ready h0 (Shape.user (src1 h0) true)) yes = true ∧
    lockAt id 0 (fun own v i => !own && v == 0 && i == some 0) = true ∧
    wit ((eight st).ready h0 { Shape.both (src1 h0) false with waits := true }) (fun cx s1 =>
      slotFail cx.who cx.sp 7 == none && wit (s1.afterReads cx [cx.sp.fb + 7]) fun _ s2 =>
        ((s2.operands cx (src1 h0) false).2.writable cx [cx.sp.fb + 7]).isSome) = true ∧
    wit ((eight st).ready h0 (Shape.both (srcOff h0) true)) (fun cx s1 =>
      slotFail cx.who cx.sp 7 == none && wit (s1.afterReads cx [cx.sp.fb + 7]) yes) = true ∧
    both st (fun cx _ => cx.who.isUser && decide (cx.sp.fb + 8 ≤ 16384) && stays cx 8 && stays cx 0) = true ∧
    both st (fun cx s1 => cx.on != 0 && !cx.who.isHandler && (s1.team? cx.tm.ctxh).any (fun tm => tm.status == .running) && !cx.tm.brken.getLsbD 0) = true ∧
    both (team (fun t => { t with brken := 1 }) st) (fun cx s1 =>
      cx.on != 0 && (s1.team? cx.tm.ctxh).any (fun tm => tm.status == .running) && cx.tm.brken.getLsbD 0) = true ∧
    wit (st.ready hp (Shape.both [] false)) (fun cx _ => cx.on == 0) = true := by decide +kernel

theorem witness_FormsComplete_ends :
    wit (st.ready hp { Shape.both [] false with waits := true }) (fun cx _ => cx.on == 0) = true ∧
    wit (st.ready h0 { Shape.both [] false with waits := true }) (fun cx _ => cx.on != 0 && cx.who.isUser && !cx.who.isHandler && cx.t.wps == [] &&
      cx.t.win == 0 && decide (cx.t.top ≤ cx.t.cap)) = true ∧
    wit ((thr (fun t => { t with locks := 1 }) (holds true 0 (lockSt 1))).ready h0 (Shape.user (src1 h0) false)) (fun cx s1 =>
      let os := (s1.operands cx (src1 h0) false).1
      let s2 := (s1.operands cx (src1 h0) false).2
      !s2.replayFull cx && cx.lead == some 0 && !((fieldOp os 0).at 0).poison && !memWait cx true && cx.t.locks != 0 &&
        match s2.oneLoc cx .global true 0 ((fieldOp os 0).at 0).v.toNat 8 with
        | (.ok ks, s0) => (arrived cx ks s0).any fun s3 => (s3.homeRead ks).1 != 0 &&
            ((s3.objs.find? fun o => o.lock && o.key == ks.headD 0).map fun o => names cx.who o.ctxh o.warp) == some true
        | _ => false) = true ∧
    softAt id (fun cx mine _ s3 k => cx.who.isUser && !cx.t.softHolds.contains k && !mine && decide (s3.heldCount cx < 16) && s3.freeObj (mdieOf k) == some 0 &&
      (s3.dropEdges cx.who cx.k true).freeEdge cx.tm.die == some 0) = true := by decide +kernel

theorem witness_DecodeEncode :
    let i : Instr := .st { h0 with sb := .imm, guard := .pos .p2, ext := some 100, ty := .f32 } { sp := .cluster, scope := .team, ord := .plain, ch := .none, off := 3 }
    isCode i = true ∧ i.wf = true := by decide +kernel

/-- The next step of the loaded machine issues the word: `nop`, and TY 1 in a `nop`, which is no instruction. -/
theorem witness_StepRunsDecoded :
    let x (w : Word) : Option (Word × Word) :=
      let s := State.reset.withFetchWord 64 w.toNat
      let u := { s with agenda := [] }.settle
      if s.agenda = [.issue 0 0] ∧ u.dieRuns 0 = true then
        match u.pickSplit 0 0 with
        | (some (who, k, _), s1) => ((s1.thread? who).bind fun t => t.split? k).bind fun sp => (s1.team? (s1.ctxhOf who)).bind fun tm =>
          match (s1.fetchWords who tm sp.party sp.pc.toNat).1 with
          | .ok y => some y
          | .error _ => none
        | _ => none
      else none
    x 0 = some (0, 0) ∧ x 0x8000000 = some (0x8000000, 0) ∧ decodeWords 0 0 = .ok (.nop h0) ∧ State.reset.closed = false ∧
    { State.reset with closed := true }.closed = true ∧ st.didIssue w0 0 = true ∧
    (spl (fun x => { x with wait := some .held }) st).didIssue w0 0 = false := by decide +kernel

/-- The word of code stands in locations that nothing has written, and its X is 0. -/
theorem witness_StepRunsDecoded_bytes :
    let s := base 0x1000
    (s.team? loadCtxh).any (fun tm => match s.codeKeys w0 tm 1 loadVa 8 with
      | (.ok ks, s1) => (s1.thread? w0).isSome && (ks.all fun k => (s1.histOf k).isNone && !isHostKey k && !isPeerKey k && (s1.byteAt k).isSome) &&
          !xBit (wordOf (leNum (ks.map fun k => (s1.byteAt k).getD 0)))
      | _ => false) = true := by decide +kernel

theorem witness_StepRunsDecoded_guide :
    let g : State := { base 0 with
      teams := (base 0).teams.map fun (t : Team) => { t with hasGuide := true }
      threads := (base 0).threads.map fun (t : Warp) => { t with who := .guide loadCtxh } }
    g.guideRuns loadCtxh = true ∧ ((g.thread? (.guide loadCtxh)).bind fun t => t.split? 0).isSome = true ∧ isCode .watchdog = false ∧
    (g.team? loadCtxh).any (fun tm => match (g.fetchWords (.guide loadCtxh) tm 1 loadVa).1 with | .ok y => y == (0, 0) | .error _ => false) = true := by decide +kernel

/-- The loaded machine, with its one warp, takes a step. -/
theorem witness_StepKeepsThreads :
    (base 0).cur = none ∧ ((base 0).threads.all fun t => t.queue.length == 32 && t.queue.all (fun q => decide (q.length ≤ 16)) && t.splits.length == 4) = true ∧
    (base 0).threads ≠ [] ∧ (match step { base 0 with agenda := [.event .watchdog] } with | .next _ => true | _ => false) = true := by decide +kernel

theorem witness_StepKeepsMemory : State.reset.memOk ∧ (base 0).memOk := by
  unfold State.memOk
  decide +kernel

end Sys2Proof.Tests
end

section
/-!
PROOFS. Integer division (06 R141): the model divides the exact values and reduces the result to the type; that agrees with the rule's table, its two
borderline results included.
-/
namespace Sys2Proof.Machine

/-- The quotient that the rules give for two exact values of a type (06 R141). -/
def exactQuotient (t : Ty) (a b : Int) : Int :=
  if b = 0 then (if t.signed then -1 else ((2 ^ t.width : Nat) : Int) - 1)
  else if t.signed = true ∧ a = -(2 ^ (t.width - 1) : Nat) ∧ b = -1 then -(2 ^ (t.width - 1) : Nat) else a.tdiv b

/-- The remainder that the rules give for two exact values of a type (06 R141). -/
def exactRemainder (t : Ty) (a b : Int) : Int :=
  if b = 0 then a else if t.signed = true ∧ a = -(2 ^ (t.width - 1) : Nat) ∧ b = -1 then 0 else a.tmod b

/-- A result depends on its exact value modulo 2^w only (03 R54). -/
theorem widen_eq_of_modEq {t : Ty} {i j : Int} (h : i ≡ j [ZMOD (2 ^ t.width : Nat)]) : widen t i = widen t j := by
  unfold widen
  rw [h.eq]

theorem width_pos (t : Ty) : 0 < t.width := by cases t <;> decide

/-- The one quotient that no signed type holds, 2^(w-1), is reduced to the smallest value of the type. -/
theorem widen_half (t : Ty) : widen t (2 ^ (t.width - 1) : Nat) = widen t (-(2 ^ (t.width - 1) : Nat)) := by
  refine widen_eq_of_modEq (Int.modEq_iff_dvd.2 ⟨-1, ?_⟩)
  rw [← Nat.two_pow_pred_add_two_pow_pred (width_pos t)]
  push_cast
  ring

theorem widen_exactQuotient (t : Ty) (a : Int) {b : Int} (hb : b ≠ 0) : widen t (exactQuotient t a b) = widen t (a.tdiv b) := by
  by_cases hm : t.signed = true ∧ a = -(2 ^ (t.width - 1) : Nat) ∧ b = -1
  · have hq : exactQuotient t a b = -(2 ^ (t.width - 1) : Nat) := by rw [exactQuotient, if_neg hb, if_pos hm]
    obtain ⟨-, ha, hb1⟩ := hm
    have hd : a.tdiv b = (2 ^ (t.width - 1) : Nat) := by rw [ha, hb1, Int.tdiv_neg, Int.tdiv_one, neg_neg]
    rw [hq, hd, widen_half]
  · rw [exactQuotient, if_neg hb, if_neg hm]

theorem exactRemainder_eq_tmod (t : Ty) (a : Int) {b : Int} (hb : b ≠ 0) : exactRemainder t a b = a.tmod b := by
  by_cases hm : t.signed = true ∧ a = -(2 ^ (t.width - 1) : Nat) ∧ b = -1
  · rw [exactRemainder, if_neg hb, if_pos hm]
    obtain ⟨-, -, hb1⟩ := hm
    rw [hb1, Int.tmod_neg, Int.tmod_one]
  · rw [exactRemainder, if_neg hb, if_neg hm]

theorem divRes_eq (t : Ty) (v : List Word) :
    divRes t v = (widen t (exactQuotient t (intOf t (arg v 0)) (intOf t (arg v 1))),
      widen t (exactRemainder t (intOf t (arg v 0)) (intOf t (arg v 1)))) := by
  by_cases hb : intOf t (arg v 1) = 0
  · simp only [divRes, exactQuotient, exactRemainder, hb, if_true]
  · rw [widen_exactQuotient t _ hb, exactRemainder_eq_tmod t _ hb]
    simp only [divRes, hb, if_false]

/-- What each of the three instructions reserves, by the model's own quotient and remainder. -/
theorem divisions_reserve (h : Hdr) (s : State) :
    ReservesLanes (.div h) h true (src2 h) 1 (fun _ _ v => ([(divRes h.ty v).1], 0)) s ∧
    ReservesLanes (.rem h) h true (src2 h) 1 (fun _ _ v => ([(divRes h.ty v).2], 0)) s ∧
    ReservesLanes (.divrem h) h true (src2 h) 2 (fun _ _ v => ([(divRes h.ty v).1, (divRes h.ty v).2], 0)) s :=
  ⟨aluLong_reserves rfl, aluLong_reserves rfl, aluLong_reserves rfl⟩

/-- Settles O2: the two borderline results are what `divRes_eq` says of the model's quotient and remainder. -/
theorem divisionResults : Obligations.DivisionResults := by
  intro h s
  have hr := divisions_reserve h s
  simp only [divRes_eq] at hr
  exact hr

end Sys2Proof.Machine
end

section
/-!
PROOFS. DEVSTAT and DEVCTL (12 R320, R321): DEVSTAT is a nibble of four flags below the code of the phase, and a register of the PF is reached through
BAR0 while the module is powered and the host link is up.
-/
namespace Sys2Proof.Machine

/-! ## The layout of DEVSTAT (12 R320) -/

/-- Bits 3 to 0 of DEVSTAT: READY, ENC, BANK and FWSW. -/
def devstatFlags (p : Plat) : Nat := bitIf (p.phase == .ready) 0 + bitIf p.encAvail 1 + bitIf p.bank 2 + bitIf p.fwsw 3

theorem devstat_eq (p : Plat) : devstat p = 2 ^ 4 * phaseCode p.phase + devstatFlags p := by
  rw [devstat, devstatFlags, Nat.add_comm, Nat.mul_comm]

theorem fourBits_lt (a b c d : Bool) : bitIf a 0 + bitIf b 1 + bitIf c 2 + bitIf d 3 < 2 ^ 4 := by
  revert a b c d; decide

/-- Each of four bits put side by side stands at its own place. -/
theorem fourBits_testBit (a b c d : Bool) :
    (bitIf a 0 + bitIf b 1 + bitIf c 2 + bitIf d 3).testBit 0 = a ∧ (bitIf a 0 + bitIf b 1 + bitIf c 2 + bitIf d 3).testBit 1 = b ∧
    (bitIf a 0 + bitIf b 1 + bitIf c 2 + bitIf d 3).testBit 2 = c ∧ (bitIf a 0 + bitIf b 1 + bitIf c 2 + bitIf d 3).testBit 3 = d := by
  revert a b c d; decide

theorem devstatFlags_lt (p : Plat) : devstatFlags p < 2 ^ 4 := fourBits_lt ..

theorem phaseCode_lt (x : Phase) : phaseCode x < 2 ^ 4 := by cases x <;> decide

theorem devstat_lt (p : Plat) : devstat p < 2 ^ 8 := by
  have hc := phaseCode_lt p.phase
  have hf := devstatFlags_lt p
  rw [devstat_eq]
  omega

theorem devstat_div (p : Plat) : devstat p / 2 ^ 4 = phaseCode p.phase := by
  rw [devstat_eq, Nat.mul_add_div (by decide), Nat.div_eq_of_lt (devstatFlags_lt p), Nat.add_zero]

theorem devstat_testBit (p : Plat) {j : Nat} (hj : j < 4) : (devstat p).testBit j = (devstatFlags p).testBit j := by
  rw [devstat_eq, Nat.testBit_two_pow_mul_add _ (devstatFlags_lt p), if_pos hj]

/-- READY, ENC, BANK and FWSW at bits 0 to 3. -/
theorem devstat_flags (p : Plat) :
    (devstat p).testBit 0 = (p.phase == .ready) ∧ (devstat p).testBit 1 = p.encAvail ∧ (devstat p).testBit 2 = p.bank ∧ (devstat p).testBit 3 = p.fwsw := by
  simp only [devstat_testBit p (show 0 < 4 by decide), devstat_testBit p (show 1 < 4 by decide), devstat_testBit p (show 2 < 4 by decide),
    devstat_testBit p (show 3 < 4 by decide)]
  exact fourBits_testBit ..

/-! ## Reads and writes of the PF's control registers -/

theorem fnExists_pf {s : State} (hp : s.plat.powered = true) : s.fnExists 0 = true := by simp [State.fnExists, hp]

/-- The two spellings of the bytes of a number, by position and by successive division, agree. -/
theorem bytesOf_eq_leBytes (n v : Nat) : bytesOf n v = leBytes n v := by
  induction n generalizing v with
  | zero => rfl
  | succ n ih =>
    rw [leBytes, ← ih, bytesOf, List.range_succ_eq_map, List.map_cons, List.map_map, bytesOf]
    simp [Function.comp_def, Nat.pow_succ', Nat.div_div_eq_div_mul]

/-- The host reads DEVSTAT (offset 8) or DEVCTL (offset 0x10) as what `State.ctrlWord` gives, and the read changes nothing else. -/
theorem exec_read_pf {s : State} (hp : s.plat.powered = true) (hh : s.plat.hostUp = true) {off : Nat} (ho : off = 8 ∨ off = 0x10) :
    exec (.readClearCounter 0 off) s = .next (s.hostGets (leBytes 8 (s.ctrlWord 0 off).toNat) true false) := by
  have hr : exec (.readClearCounter 0 off) s = .next (s.bar0Read 0 off) := rfl
  rw [hr, ← bytesOf_eq_leBytes]
  obtain rfl | rfl := ho <;> simp [State.bar0Read, State.bar0Word, State.bar0Clear, fnExists_pf hp, hh]

theorem exec_write_pf {s : State} (hp : s.plat.powered = true) (hh : s.plat.hostUp = true) {off : Nat} (ho : off = 8 ∨ off = 0x10) (v : Word) :
    exec (.registerWrite 0 off v) s = .next (s.writePf off v) := by
  have hw : exec (.registerWrite 0 off v) s = execRegisterWrite 0 off v s := rfl
  rw [hw]
  obtain rfl | rfl := ho <;> simp [execRegisterWrite, fnExists_pf hp, hh]

theorem ctrlWord_devstat (s : State) (fn : Nat) : (s.ctrlWord fn 8).toNat = devstat s.plat := by
  have h8 := devstat_lt s.plat
  have hw : s.ctrlWord fn 8 = wordOf (devstat s.plat) := by simp [State.ctrlWord]
  rw [hw, wordOf, BitVec.toNat_ofNat, Nat.mod_eq_of_lt (h8.trans (by decide))]

@[simp] theorem ctrlWord_devctl (s : State) (fn : Nat) : s.ctrlWord fn 0x10 = 0 := by simp [State.ctrlWord]

/-- DEVSTAT is read-only. -/
@[simp] theorem writePf_devstat (s : State) (v : Word) : s.writePf 8 v = s := by simp [State.writePf]

theorem writePf_reset {s : State} {v : Word} (h1 : v.getLsbD 1 = true) : s.writePf 0x10 v = s.deviceReset := by
  rw [State.writePf, if_pos rfl, if_pos h1]

theorem writePf_go {s : State} {v : Word} (h1 : v.getLsbD 1 = false) (h0 : v.getLsbD 0 = true) : s.writePf 0x10 v = s.bootGo := by
  rw [State.writePf, if_pos rfl, if_neg (ne_true_of_eq_false h1), if_pos h0]

theorem writePf_neither {s : State} {v : Word} (h1 : v.getLsbD 1 = false) (h0 : v.getLsbD 0 = false) : s.writePf 0x10 v = s := by
  rw [State.writePf, if_pos rfl, if_neg (ne_true_of_eq_false h1), if_neg (ne_true_of_eq_false h0)]

/-! ## What GO and RESET do (12 R321) -/

theorem exec_devctlGo {s : State} (hp : s.plat.powered = true) : exec .devctlGo s = .next s.bootGo := by
  have hg : exec .devctlGo s = execDevctlGo s := rfl
  rw [hg, execDevctlGo, if_pos hp]

theorem bootGo_of_await {s : State} (h : s.plat.phase = .await) : s.bootGo = { s with plat := { s.plat with phase := .verify } } := by
  simp [State.bootGo, h]

theorem bootGo_of_ne_await {s : State} (h : s.plat.phase ≠ .await) : s.bootGo = s := by simp [State.bootGo, h]

@[simp] theorem deviceReset_phase (s : State) : s.deviceReset.plat.phase = .await := rfl

/-- After a device reset die 12, the I/O die, alone is released: Texis has done so before boot waits for an image. -/
theorem deviceReset_dies (s : State) : s.deviceReset.dies = (List.range 13).map fun n => { Die.reset n with released := n == 12 } := by
  have hd : s.deviceReset.dies = (List.range 12).map Die.reset ++ [{ Die.reset 12 with released := true }] := rfl
  rw [hd]
  decide

/-- Settles O45: DEVSTAT by its layout, and DEVCTL by the one register write that reaches it. -/
theorem deviceRegisters : Obligations.DeviceRegisters := by
  intro s hp hh
  obtain ⟨hready, henc, hbank, hfwsw⟩ := devstat_flags s.plat
  refine ⟨⟨_, exec_read_pf hp hh (.inl rfl), ?_, devstat_lt _, ?_, henc, hbank, hfwsw, ?_⟩, by decide, fun v => ?_,
    ⟨_, exec_read_pf hp hh (.inr rfl), ?_⟩, fun v => ?_⟩
  · exact congrArg (leBytes 8) (ctrlWord_devstat s 0)
  · rw [hready, beq_iff_eq]
  · rw [devstat_div]
    cases s.plat.phase <;> rfl
  · rw [exec_write_pf hp hh (.inl rfl), writePf_devstat]
  · rw [ctrlWord_devctl]
    rfl
  · rw [exec_write_pf hp hh (.inr rfl)]
    refine ⟨fun h1 _ => ?_, fun h1 h0 ha => ?_, fun h1 h0 ha => ?_, fun h1 h0 => ?_⟩
    · exact ⟨_, congrArg _ (writePf_reset h1), deviceReset_phase s, deviceReset_dies s⟩
    · exact ⟨_, congrArg _ (writePf_go h1 h0), exec_devctlGo hp, bootGo_of_await ha⟩
    · rw [writePf_go h1 h0, bootGo_of_ne_await ha]
    · rw [writePf_neither h1 h0]

end Sys2Proof.Machine
end
